-- ==== Sys2Proof/Word.lean ====
section
/-! DEFINITION. The plain words of the model: a byte of a frame, a text of the displays, and a sparse table addressed by index. -/

namespace Sys2Proof

/-- One byte of a frame, a record or a seat message (R4, R22). -/
abbrev Byte := BitVec 8

/-- A text of the displays: single-byte characters, carried unchanged (chapter 1, Layouts; R79). -/
abbrev Text := List Byte

/-- A table addressed by index: the pairs of an index and what stands there, the indexes strictly rising. An index that
is not listed holds nothing (R45). The operations and the canonical form are in Machine/Ops.lean. -/
abbrev Table (α : Type) := List (Nat × α)

/-- A colour index of a panel pixel, 0..15 (chapter 9). -/
abbrev Colour := BitVec 4

end Sys2Proof
end

