-- ==== Sys2Proof/Syntax.lean ====
section
/-! DEFINITION. The commands of the part: one constructor of `Instr` for each row of spec/opcode_table.json, with the
operands the row's rule gives it, and the types of those operands. -/

namespace Sys2Proof

/-- The two line ports, by the physical ends of the coach (R1). -/
inductive Port where
  | end1
  | end2
  deriving DecidableEq, Repr

/-- The link state of a port (R1). -/
inductive LinkState where
  | down
  | training
  | up
  deriving DecidableEq, Repr

/-- The mode held by the Management Unit (R44). -/
inductive Mode where
  | normal
  | quiet
  | service
  | restartPending
  deriving DecidableEq, Repr

/-- The two wall panels (chapter 9). -/
inductive Panel where
  | panel1
  | panel2
  deriving DecidableEq, Repr

/-- The five table families (R45). -/
inductive Family where
  | seat
  | resv
  | route
  | text
  | page
  deriving DecidableEq, Repr

/-- A family set (R45): the families a commit, a DISCARD or an activation announcement names. -/
structure FamilySet where
  seat  : Bool
  resv  : Bool
  route : Bool
  text  : Bool
  page  : Bool
  deriving DecidableEq, Repr

/-- The door release of a POSITION frame (R20). -/
inductive DoorRelease where
  | closed
  | left
  | right
  | both
  deriving DecidableEq, Repr

/-- The fields of a POSITION payload as carried (R20); clamping is R85's. -/
structure PositionFields where
  mask       : BitVec 3
  atPlatform : Bool
  door       : DoorRelease
  d          : Byte
  a          : Byte
  sRun       : BitVec 24
  v          : BitVec 16
  delay      : BitVec 16
  deriving DecidableEq, Repr

/-- The text of a notice: a pool text named by its id, or inline characters (R146). -/
inductive NoticeText where
  | pool (id : Byte)
  | inlined (chars : Text)
  deriving DecidableEq, Repr

/-- The fields of a NOTICE payload as carried (R21). -/
structure NoticeFields where
  id       : BitVec 16
  category : Byte
  language : Byte
  priority : BitVec 2
  mask     : BitVec 3
  overlay  : Bool
  interval : BitVec 16
  count    : Byte
  lifetime : BitVec 16
  text     : NoticeText
  deriving DecidableEq, Repr

/-- A fault with its detail, as its owner reports it (R188). -/
inductive FaultReport where
  | linkLost (p : Port)
  | seatModule (slot : Nat)
  | seatLamp (slot : Nat)
  | positionStale
  | formationTooLong
  | retainedInvalid
  | retainedWriteFailed
  deriving DecidableEq, Repr

/-- A management command as the Management Unit takes it: arrival port, sequence and argument bytes (R41). -/
structure MgmtFrame where
  port : Port
  seq  : Byte
  args : List Byte
  deriving DecidableEq, Repr

/-- The items an announcement of a changed progress record names (R95). -/
structure Changed where
  state      : Bool
  remembered : Bool
  p          : Bool
  n          : Bool
  a          : Bool
  approach   : Bool
  permille   : Bool
  arrival    : Bool
  delay      : Bool
  deriving DecidableEq, Repr

/-- What an announcement of the Reckoning Unit is about: a changed progress record (R95), or a STOP_CANCEL that
changed C or the halting set (R77). -/
inductive ReckoningNews where
  | progress (c : Changed)
  | sets
  deriving DecidableEq, Repr

/-- The item of the formation whose change is announced to the Panel Composer (R38, R39). -/
inductive FormationItem where
  | portion
  | coachNumber
  | coachClass
  deriving DecidableEq, Repr

/-- Which text a notice text announcement names (R166): the current notice text, or an overlay-wanted entry's text. -/
inductive NoticeTextItem where
  | current
  | entry (id : Nat)
  deriving DecidableEq, Repr

/-- The commands: one constructor for each row of spec/opcode_table.json. -/
inductive Instr where
  | powerOn
  | powerLoss
  | startUpComplete
  | neighbourSignalAppears (p : Port)
  | trainingCompletes (p : Port)
  | lossOfSignal (p : Port)
  | linkChangeReport (p : Port) (link : LinkState)
  | frameArrival (p : Port) (bytes : List Byte)
  | transmissionEnd (p : Port)
  | enumerate (p : Port) (seq : Byte) (payload : List Byte)
  | newInauguration
  | orientationChange
  | position (f : PositionFields)
  | departureReport (d : Nat)
  | time (payload : List Byte)
  | secondsTick
  | clockSecond
  | freshnessExpiry
  | mgmtUnknownCommand (p : Port) (seq : Byte) (payload : List Byte)
  | load (f : MgmtFrame)
  | loadNext (f : MgmtFrame)
  | commit (f : MgmtFrame)
  | discard (f : MgmtFrame)
  | mode (f : MgmtFrame)
  | param (f : MgmtFrame)
  | status (f : MgmtFrame)
  | startAck (f : MgmtFrame)
  | assign (f : MgmtFrame)
  | stopCancel (f : MgmtFrame)
  | resvAdd (f : MgmtFrame)
  | resvDrop (f : MgmtFrame)
  | acceptInsert (f : MgmtFrame)
  | acceptRemove (f : MgmtFrame)
  | restart (f : MgmtFrame)
  | faultRead (f : MgmtFrame)
  | faultClear (f : MgmtFrame)
  | ident (f : MgmtFrame)
  | store (f : MgmtFrame)
  | storeWriteEnd (agrees : Bool)
  | restartHoldEnd
  | faultReport (r : FaultReport)
  | portionChangeReckoning (portion : Nat)
  | routeActivationReckoning (families : FamilySet)
  | reckoningAnnouncementResv (news : ReckoningNews)
  | activationAnnouncementResv (families : FamilySet)
  | portionChangeResv
  | modeChangeResv
  | horizonChange
  | queueRequest (slot : Nat)
  | seatActivationEngine
  | modeChangeEngine
  | faultClearEngine
  | seatSettleEnd
  | seatAnswer (address status check : Byte)
  | seatAnswerTimeout
  | repollDue (slot : Nat)
  | refreshRoundBegin
  | notice (f : NoticeFields)
  | noticeCancel (payload : List Byte)
  | lifetimeExpiry (id : Nat)
  | repeatTimerExpiry (id : Nat)
  | dwellEnd
  | modeChangeNotice (before after : Mode)
  | reckoningAnnouncementNotice (news : ReckoningNews)
  | portionChangeNotice (portion : Nat)
  | activationAnnouncementNotice (families : FamilySet)
  | coachNumberChange
  | reckoningAnnouncementPanel (news : ReckoningNews)
  | overlayRequest (id : Nat)
  | overlayEnd (id : Nat)
  | noticeTextChange (item : NoticeTextItem)
  | activity
  | modeChangePanel (before after : Mode)
  | formationChangePanel (item : FormationItem)
  | activationAnnouncementPanel (families : FamilySet)
  | travelRightChange (panel : Panel)
  | clockMinuteChange
  | composeSwap (panel : Panel)
  | idleTimerExpiry
  deriving DecidableEq, Repr

end Sys2Proof
end

