-- ==== Sys2Proof/WellFormed.lean ====
section
/-! DEFINITION. Which operands a command can carry, by the widths and ranges of the spec. -/

namespace Sys2Proof

/-- A payload of a frame: at most 240 bytes (R4). -/
def payloadFits (payload : List Byte) : Bool := decide (payload.length ≤ 240)

/-- The argument bytes of a management command: its payload is the command code and these (R4, R41). -/
def MgmtFrame.fits (f : MgmtFrame) : Bool := decide (f.args.length + 1 ≤ 240)

/-- A seat slot: 0..127 (R105). -/
def slotInRange (slot : Nat) : Bool := decide (slot < 128)

/-- The id of a queue entry: 1..65535 (R150). -/
def noticeIdInRange (id : Nat) : Bool := decide (1 ≤ id ∧ id ≤ 65535)

/-- A portion: 0..3 (R23). -/
def portionInRange (portion : Nat) : Bool := decide (portion ≤ 3)

/-- A payload that the row MGMT_UNKNOWN_COMMAND answers: empty, or of a code that names no command (R41, R42). -/
def namesNoCommand (payload : List Byte) : Bool :=
  match payload with
  | [] => true
  | code :: _ => decide (code.toNat = 0 ∨ 20 ≤ code.toNat)

/-- The inline characters of a notice as taken: at most 96 (R21). -/
def NoticeText.fits : NoticeText → Bool
  | .pool _ => true
  | .inlined chars => decide (chars.length ≤ 96)

/-- A fault whose detail is a slot names one of 0..127 (R188). -/
def FaultReport.inRange : FaultReport → Bool
  | .seatModule slot => slotInRange slot
  | .seatLamp slot => slotInRange slot
  | .linkLost _ => true
  | .positionStale => true
  | .formationTooLong => true
  | .retainedInvalid => true
  | .retainedWriteFailed => true

/-- Whether an announcement names an item at all (R95). -/
def Changed.some (c : Changed) : Bool :=
  c.state || c.remembered || c.p || c.n || c.a || c.approach || c.permille || c.arrival || c.delay

/-- A Reckoning Unit announcement names a changed item, or the sets (R77, R95). -/
def ReckoningNews.some : ReckoningNews → Bool
  | .progress c => c.some
  | .sets => true

/-- A change of the mode: the mode after it is another one (R59). -/
def modeChanges (before after : Mode) : Bool := before != after

/-- The id an announced notice text names is one of a queue entry (R166). -/
def NoticeTextItem.inRange : NoticeTextItem → Bool
  | .current => true
  | .entry id => noticeIdInRange id

/-- The families an activation announcement to the Reservation Unit names (R57). -/
def FamilySet.forResv (fs : FamilySet) : Bool := (fs.seat || fs.resv || fs.route || fs.text) && !fs.page

/-- The families an activation announcement to the Notice Unit names (R57). -/
def FamilySet.forNotice (fs : FamilySet) : Bool := (fs.route || fs.text) && !fs.seat && !fs.resv && !fs.page

/-- The families an activation announcement to the Panel Composer names (R57). -/
def FamilySet.forPanel (fs : FamilySet) : Bool := (fs.route || fs.text || fs.page) && !fs.seat && !fs.resv

/-- Whether a command's operands lie in the ranges of the spec. -/
def Instr.wellFormed : Instr → Bool
  | .powerOn => true
  | .powerLoss => true
  | .startUpComplete => true
  | .neighbourSignalAppears _ => true
  | .trainingCompletes _ => true
  | .lossOfSignal _ => true
  | .linkChangeReport _ _ => true
  | .frameArrival _ _ => true
  | .transmissionEnd _ => true
  | .enumerate _ _ payload => payloadFits payload
  | .newInauguration => true
  | .orientationChange => true
  | .position _ => true
  | .departureReport d => decide (d ≤ 255)
  | .time payload => payloadFits payload
  | .secondsTick => true
  | .clockSecond => true
  | .freshnessExpiry => true
  | .mgmtUnknownCommand _ _ payload => payloadFits payload && namesNoCommand payload
  | .load f => f.fits
  | .loadNext f => f.fits
  | .commit f => f.fits
  | .discard f => f.fits
  | .mode f => f.fits
  | .param f => f.fits
  | .status f => f.fits
  | .startAck f => f.fits
  | .assign f => f.fits
  | .stopCancel f => f.fits
  | .resvAdd f => f.fits
  | .resvDrop f => f.fits
  | .acceptInsert f => f.fits
  | .acceptRemove f => f.fits
  | .restart f => f.fits
  | .faultRead f => f.fits
  | .faultClear f => f.fits
  | .ident f => f.fits
  | .store f => f.fits
  | .storeWriteEnd _ => true
  | .restartHoldEnd => true
  | .faultReport r => r.inRange
  | .portionChangeReckoning portion => portionInRange portion
  | .routeActivationReckoning families => families.route
  | .reckoningAnnouncementResv news => news.some
  | .activationAnnouncementResv families => families.forResv
  | .portionChangeResv => true
  | .modeChangeResv => true
  | .horizonChange => true
  | .queueRequest slot => slotInRange slot
  | .seatActivationEngine => true
  | .modeChangeEngine => true
  | .faultClearEngine => true
  | .seatSettleEnd => true
  | .seatAnswer _ _ _ => true
  | .seatAnswerTimeout => true
  | .repollDue slot => slotInRange slot
  | .refreshRoundBegin => true
  | .notice f => f.text.fits
  | .noticeCancel payload => payloadFits payload
  | .lifetimeExpiry id => noticeIdInRange id
  | .repeatTimerExpiry id => noticeIdInRange id
  | .dwellEnd => true
  | .modeChangeNotice before after => modeChanges before after
  | .reckoningAnnouncementNotice news => news.some
  | .portionChangeNotice portion => portionInRange portion
  | .activationAnnouncementNotice families => families.forNotice
  | .coachNumberChange => true
  | .reckoningAnnouncementPanel news => news.some
  | .overlayRequest id => noticeIdInRange id
  | .overlayEnd id => noticeIdInRange id
  | .noticeTextChange item => item.inRange
  | .activity => true
  | .modeChangePanel before after => modeChanges before after
  | .formationChangePanel _ => true
  | .activationAnnouncementPanel families => families.forPanel
  | .travelRightChange _ => true
  | .clockMinuteChange => true
  | .composeSwap _ => true
  | .idleTimerExpiry => true

end Sys2Proof
end

