-- ==== Sys2Proof/Decode.lean ====
section
/-! DEFINITION. The commands that a word of the table's bits spells. -/

namespace Sys2Proof

/-- The command a word of the table's bits spells: none, because opcode_table.json gives no row any bits (the part has
no register window; "All management, all tables and all events reach it as frames on the line", 00_scope.md). The bytes
of frames are read by `Machine.parseFrame` and the readers beside it. -/
def decodeTableWord (_nbits _w : Nat) : Option Instr := none

end Sys2Proof
end

