-- ==== Sys2Proof/Machine/Types.lean ====
section
/-! DEFINITION. The data of the part's blocks, as the spec lists them: frames and their payloads, the status record, faults,
the settings, and the records the units hold. The registers' places and reset values are in Machine/State.lean. -/

namespace Sys2Proof.Machine

/-- Orientation (R23). -/
inductive Orientation where
  | normal
  | reversed
  | unknown
  deriving DecidableEq, Repr

/-- Coach class (R23). -/
inductive CoachClass where
  | first
  | second
  | mixed
  deriving DecidableEq, Repr

/-- The drive of the bypass relay (R16). -/
inductive Relay where
  | closed
  | opened
  deriving DecidableEq, Repr

/-- The state of a family's staged bank (R46). -/
inductive BankState where
  | empty
  | filling
  | committed
  deriving DecidableEq, Repr

/-- When a pending commit activates (R52, R55). -/
inductive Activation where
  | now
  | atDeparture (k : Nat)
  | atInauguration
  deriving DecidableEq, Repr

/-- The pending commit: family set, activation and tag (R44, R54). -/
structure PendingCommit where
  families   : FamilySet
  activation : Activation
  tag        : Nat
  deriving DecidableEq, Repr

/-- The seven parameters (R60). -/
structure Params where
  horizon          : Nat
  approachDistance : Nat
  approachLead     : Nat
  freshness        : Nat
  quietIdle        : Nat
  travelRight1     : Bool
  travelRight2     : Bool
  deriving DecidableEq, Repr

/-- The progress states (R82, R83). -/
inductive ProgressState where
  | noRoute
  | awaitingPosition
  | atStop
  | running
  | approaching
  | finished
  | hold
  deriving DecidableEq, Repr

/-- The kind of an approach target (R82). -/
inductive ApproachKind where
  | calling
  | closedDoor
  deriving DecidableEq, Repr

/-- An approach: target ordinal and kind (R82). -/
structure Approach where
  target : Nat
  kind   : ApproachKind
  deriving DecidableEq, Repr

/-- The progress record (R82). -/
structure Progress where
  state      : ProgressState
  remembered : Option ProgressState
  d          : Option Nat
  a          : Option Nat
  p          : Option Nat
  n          : Option Nat
  h          : Option Nat
  sRun       : Nat
  vs         : Option Nat
  remaining  : Nat
  eta        : Option Nat
  permille   : Nat
  arrival    : Option Nat
  delay      : Int
  door       : DoorRelease
  approach   : Option Approach
  deriving DecidableEq, Repr

/-- The clamped fields of the last accepted POSITION frame (R85). -/
structure LastFrame where
  atPlatform : Bool
  door       : DoorRelease
  d          : Nat
  a          : Nat
  sRun       : Nat
  v          : Nat
  delay      : Int
  deriving DecidableEq, Repr

/-- The train clock: seconds of the day, sub-second phase in milliseconds, validity (R82, R102). -/
structure Clock where
  seconds : Nat
  phase   : Nat
  valid   : Bool
  deriving DecidableEq, Repr

/-- The fault record: the fault with its clock stamp (none: clock invalid) and uptime stamp (R188). -/
structure FaultRecord where
  fault  : FaultReport
  clock  : Option Nat
  uptime : Nat
  deriving DecidableEq, Repr

/-- Why a reservation record is unplaced (R110). -/
inductive UnplacedReason where
  | seatDisabled
  | notOnRoute
  | order
  | overlap
  deriving DecidableEq, Repr

/-- The outcome of placement for one record (R109): placed with b and a, or unplaced with a reason. -/
inductive PlacementOutcome where
  | placed (b a : Nat)
  | unplaced (reason : UnplacedReason)
  deriving DecidableEq, Repr

/-- The placement held for one present active RESV record, with the fields of the record that the chains need. -/
structure Placement where
  id      : Nat
  slot    : Nat
  note    : Nat
  outcome : PlacementOutcome
  deriving DecidableEq, Repr

/-- A placed record as it stands in its slot's chain (R111). -/
structure ChainEntry where
  b    : Nat
  a    : Nat
  note : Nat
  deriving DecidableEq, Repr

/-- The lamp of a seat content (R121). -/
inductive Lamp where
  | green
  | amber
  | red
  deriving DecidableEq, Repr

/-- A seat content that is not BLANK (R121). -/
structure SeatContent where
  lamp  : Lamp
  dim   : Bool
  label : Text
  lineA : Text
  lineB : Text
  icon  : Nat
  deriving DecidableEq, Repr

/-- The kinds of seat transaction (7.4, 7.5, 7.6, 7.7). -/
inductive TransactionKind where
  | dirty
  | refresh
  | blanking
  | repoll
  deriving DecidableEq, Repr

/-- A seat transaction (R128, R134): its slot, address, kind, the message built at its start, its attempt number,
whether the engine awaits the answer (otherwise the settle time runs), and whether its outcome is to be discarded (R141). -/
structure Transaction where
  slot     : Nat
  address  : Byte
  kind     : TransactionKind
  message  : List Byte
  attempt  : Nat
  awaiting : Bool
  discard  : Bool
  deriving DecidableEq, Repr

/-- The blanking pass: none, running with a pointer, or done (R128). -/
inductive BlankingPass where
  | none
  | running (pointer : Nat)
  | done
  deriving DecidableEq, Repr

/-- A filter entry of the acceptance list (R148). The override is `some` for an override. -/
structure FilterEntry where
  id            : Nat
  categoryValue : Byte
  categoryMask  : Byte
  languageValue : Byte
  languageMask  : Byte
  portions      : BitVec 3
  accept        : Bool
  override      : Option Nat
  deriving DecidableEq, Repr

/-- An entry of the notice queue (R150). -/
structure NoticeEntry where
  id             : Nat
  category       : Byte
  language       : Byte
  priority       : Nat
  mask           : BitVec 3
  overlay        : Bool
  interval       : Nat
  count          : Nat
  lifetime       : Nat
  text           : NoticeText
  effective      : Nat
  due            : Bool
  repeatTimer    : Nat
  showsRemaining : Nat
  remaining      : Option Nat
  overlayWanted  : Bool
  deriving DecidableEq, Repr

/-- The state of the two text lines (R145). -/
inductive Lines where
  | blank
  | default
  | showing (id : Nat) (shown : Text) (dwell : Nat)
  deriving DecidableEq, Repr

/-- The kind of a level of a page stack, with the notice id of an URGENT level (R167). -/
inductive LevelKind where
  | map
  | approach
  | urgent (id : Nat)
  deriving DecidableEq, Repr

/-- A level of a page stack (R167). `scrolled` records whether the page held a scrolling element at its last compose
(R182). -/
structure Level where
  kind     : LevelKind
  offset   : Nat
  dead     : Bool
  scrolled : Bool
  deriving DecidableEq, Repr

/-- The page a panel renders (R169). -/
inductive Page where
  | map
  | approach
  | urgent (id : Nat)
  | service
  deriving DecidableEq, Repr

/-- The brightness level (R167). -/
inductive Brightness where
  | full
  | low
  deriving DecidableEq, Repr

/-- The element kinds of a template (R168). -/
inductive ElementKind where
  | fill
  | text
  | strip
  | clock
  deriving DecidableEq, Repr

/-- The clip modes of an element (R168). -/
inductive ClipMode where
  | none
  | inside
  | outside
  deriving DecidableEq, Repr

/-- The alignments of a text (R168). -/
inductive Alignment where
  | left
  | centre
  | right
  deriving DecidableEq, Repr

/-- A rectangle: left column, top row, width, height (R168). -/
structure Rect where
  x0 : Nat
  y0 : Nat
  w  : Nat
  h  : Nat
  deriving DecidableEq, Repr

/-- An element of a template, as read from its PAGE record (R168). -/
structure Element where
  kind    : ElementKind
  rect    : Rect
  clip    : Rect
  mode    : ClipMode
  colour  : Colour
  marker  : Colour
  protect : Option Colour
  bigFont : Bool
  align   : Alignment
  scroll  : Bool
  source  : Nat
  textId  : Byte
  pitch   : Nat
  deriving DecidableEq, Repr

/-- What a compose has read for one element at its beginning (R176): nothing for FILL, the text (and the scroll offset
where it scrolls) for TEXT and CLOCK, and the short names of the window, the marker's permille and the drawing
direction for STRIP. -/
inductive Reading where
  | fill
  | text (shown : Text) (offset : Option Nat)
  | strip (names : List Text) (permille : Nat) (mirrored : Bool)
  deriving DecidableEq, Repr

/-- An element with what the compose read for it. -/
structure DrawItem where
  element : Element
  reading : Reading
  deriving DecidableEq, Repr

/-- A compose in progress: the inputs it read at its beginning (R176). -/
structure ComposeJob where
  background : Colour
  items      : List DrawItem
  deriving DecidableEq, Repr

/-- A panel buffer: 48 rows of 192 colour indexes (R167). -/
abbrev Buffer := Vector (Vector Colour 192) 48

/-- The result codes of a reply (R43). -/
inductive Result where
  | ok
  | busy
  | locked
  | pending
  | passed
  | range
  | noContext
  | full
  | duplicate
  | overlap
  | notOnRoute
  | notFound
  | invalid
  | unknownCommand
  | badLength
  deriving DecidableEq, Repr

/-- The detail of an INVALID from COMMIT (R52): no family, or a family with or without an index. -/
inductive CommitDetail where
  | noFamily
  | family (f : Family) (index : Option Nat)
  deriving DecidableEq, Repr

/-- The port group of the status record (R63). -/
structure PortStatus where
  link        : LinkState
  badCheck    : Nat
  throughDrop : Nat
  localDrop   : Nat
  linkLoss    : Nat
  deriving DecidableEq, Repr

/-- The family group of the status record (R63). -/
structure FamilyStatus where
  tag    : Nat
  count  : Nat
  staged : BankState
  deriving DecidableEq, Repr

/-- The status record (R63). -/
structure StatusRecord where
  identity         : BitVec 32
  position         : Nat
  headPort         : Option Port
  numbered         : Bool
  orientation      : Orientation
  portion          : Nat
  coachNumber      : Nat
  coachClass       : CoachClass
  lastInauguration : Option Nat
  cold             : Bool
  mode             : Mode
  end1             : PortStatus
  end2             : PortStatus
  seat             : FamilyStatus
  resv             : FamilyStatus
  route            : FamilyStatus
  text             : FamilyStatus
  page             : FamilyStatus
  commit           : Option PendingCommit
  progress         : ProgressState
  d                : Option Nat
  n                : Option Nat
  eta              : Option Nat
  clockValid       : Bool
  unplaced         : Nat
  faulted          : Nat
  rejected         : Nat
  dropped          : Nat
  depth1           : Nat
  depth2           : Nat
  faultPresent     : Bool
  faultCount       : Nat
  deriving DecidableEq, Repr

/-- The result data of a reply, by its named fields (R43 and the rule of each command). -/
inductive ReplyData where
  | none
  | context (family : Family) (next : Nat)
  | tag (tag : Nat)
  | detail (d : CommitDetail)
  | cancelled (yes : Bool)
  | param (number value : Nat)
  | status (r : StatusRecord)
  | assigned (portion number : Nat) (coachClass : CoachClass)
  | stopCancelled (ordinal : Nat) (flag : Bool) (members : Nat)
  | resvAdded (index b a : Nat) (staged : Bool)
  | resvDropped (reason : Option UnplacedReason) (staged : Bool)
  | listCount (n : Nat)
  | hold (seconds : Nat)
  | faults (record : Option FaultRecord) (count : Nat)
  | faultCount (n : Nat)
  | identity (i : BitVec 32)
  deriving DecidableEq, Repr

/-- The fields of a LINK_EVENT (R35). -/
structure LinkEvent where
  port             : Port
  link             : LinkState
  identity         : BitVec 32
  numbered         : Bool
  position         : Nat
  orientation      : Orientation
  lastInauguration : Option Nat
  deriving DecidableEq, Repr

/-- The payload of a frame: bytes as carried, or the named fields of a payload the part builds (scope: "The payloads
that the part builds ... are given by their named fields"). A reply holds the result code as its number (R43). -/
inductive Payload where
  | bytes (bs : List Byte)
  | reply (code : Byte) (result : Byte) (data : ReplyData)
  | linkEvent (e : LinkEvent)
  | enumerateEnd (count : Nat) (identity : BitVec 32) (overlong : Bool)
  deriving DecidableEq, Repr

/-- The target of a frame (R4, R19). -/
inductive Target where
  | coach (p : Byte)
  | lead
  | all
  | portion (m : BitVec 3)
  | ident (i : BitVec 32)
  deriving DecidableEq, Repr

/-- A frame on the line by its fields (R4); its length and check follow from them (Machine/Operands.lean). -/
structure Frame where
  kind    : BitVec 4
  target  : Target
  hops    : BitVec 6
  origin  : Byte
  seq     : Byte
  payload : Payload
  deriving DecidableEq, Repr

end Sys2Proof.Machine
end

