-- ==== Sys2Proof/Config.lean ====
section
/-! DEFINITION. What the spec leaves open: constants without a body, so that no proof can see what they are. -/

namespace Sys2Proof

/-- FREE VALUE (log 2). The set pixels of the character generator: `true` where the glyph of character `ch` in the
8-pixel font (`bigFont`) or the 6-pixel font sets the pixel at column `x`, row `y` of its cell. R181: the patterns "are
not listed in this manual". The two properties R181 states are applied in Machine/Draw.lean. -/
opaque Config.glyph (bigFont : Bool) (ch : Byte) (x y : Nat) : Bool

/-- FREE VALUE (log 3). The bytes of a payload that the part builds, which the spec gives "by their named fields" only
(00_scope.md, What the manual covers). Machine/Operands.lean cuts them to the 240 bytes of R4. -/
opaque Config.builtPayload (p : Machine.Payload) : List Byte

end Sys2Proof
end

