-- ==== Sys2Proof/Machine/State.lean ====
section
/-! DEFINITION. The state of the part, one structure for each block that owns state (Block overview), and its value after
power-on. Plain data throughout. -/

namespace Sys2Proof.Machine

/-- What stops the part with a fault: nothing. No event of the spec stops it; its own faults (R188) are entries of the
fault record, after which it goes on. Closed and empty: no meaning can raise one, which is safe. -/
inductive Fault where
  deriving DecidableEq, Repr

/-- What the model gives no meaning. -/
inductive Refusal where
  /-- A command without a meaning yet: raised by an arm of `exec` alone (no arm does in this model); safe. -/
  | notModelled (mnemonic : String)
  deriving DecidableEq, Repr

/-- One port of the Line Interface (R1). The heads of the lists are the heads of the queues. -/
structure PortState where
  link        : LinkState
  through     : List Frame
  own         : List Frame
  sending     : Option Frame
  run         : Nat
  badCheck    : Nat
  throughDrop : Nat
  localDrop   : Nat
  linkLoss    : Nat
  deriving DecidableEq, Repr

/-- The Line Interface: relay drive and ports (R1, R16). -/
structure LineInterface where
  relay : Relay
  end1  : PortState
  end2  : PortState
  deriving DecidableEq, Repr

/-- The numbered state with the position and head port it carries (R23). -/
inductive Numbering where
  | unnumbered
  | numbered (position : Nat) (head : Port)
  deriving DecidableEq, Repr

/-- The Formation Unit (R23). -/
structure FormationUnit where
  numbering        : Numbering
  orientation      : Orientation
  lastInauguration : Option Nat
  portion          : Nat
  coachNumber      : Nat
  coachClass       : CoachClass
  identity         : BitVec 32
  announcements    : Nat
  deriving DecidableEq, Repr

/-- The two banks of one family with the staged bank's state, the active tag and the activation count (R44, R45, R46).
Records are held as carried (R66, R106), a TEXT record by its characters. -/
structure FamilyBanks where
  active : Table (List Byte)
  staged : Table (List Byte)
  state  : BankState
  tag    : Nat
  count  : Nat
  deriving DecidableEq, Repr

/-- A ROUTE table with the ordinals of its entries whose cancelled flag is set (R65). -/
structure RouteTable where
  entries   : Table (List Byte)
  cancelled : List Nat
  deriving DecidableEq, Repr

/-- The Table Store: the banks of the five families and the ordinals of the active ROUTE entries whose cancelled flag is
set (R65, R76). `replacedRoute` and `replacedText` are the model's own (log 7): the ROUTE table the Reckoning Unit still
works on, and the TEXT bank the Notice Unit last knew, while an activation is not yet taken by them. -/
structure TableStore where
  seat          : FamilyBanks
  resv          : FamilyBanks
  route         : FamilyBanks
  text          : FamilyBanks
  page          : FamilyBanks
  cancelled     : List Nat
  replacedRoute : Option RouteTable
  replacedText  : Option (Table (List Byte))
  deriving DecidableEq, Repr

/-- A retained set, or the copy that STORE takes of one (R194, R196). -/
structure RetainedSet where
  identity : BitVec 32
  seats    : Table (List Byte)
  params   : Params
  deriving DecidableEq, Repr

/-- A STORE write in progress: the copy, and the port and sequence its one reply needs (R196). -/
structure StoreWrite where
  copy : RetainedSet
  port : Port
  seq  : Byte
  deriving DecidableEq, Repr

/-- The Management Unit (R44). The store state is WRITING while `store` holds a write. -/
structure ManagementUnit where
  context : Option (Family × Nat)
  commit  : Option PendingCommit
  mode    : Mode
  hold    : Option Nat
  store   : Option StoreWrite
  params  : Params
  cold    : Bool
  deriving DecidableEq, Repr

/-- The fault record and its companions (R188). -/
structure FaultStore where
  record : Option FaultRecord
  count  : Nat
  uptime : Nat
  deriving DecidableEq, Repr

/-- The Reckoning Unit (R82). `portion` is the portion it took at the last portion announcement (R84). -/
structure ReckoningUnit where
  progress      : Progress
  lastFrame     : Option LastFrame
  distanceInUse : Nat
  leadInUse     : Nat
  freshness     : Nat
  portion       : Nat
  calling       : List Nat
  halting       : List Nat
  clock         : Clock
  deriving DecidableEq, Repr

/-- The Reservation Unit (R109). A slot without an entry in `contents` holds BLANK. `basisSeat` and `basisResv` are the
model's own (log 13): the activation counts of SEAT and RESV at the last placement run. -/
structure ReservationUnit where
  placements   : Table Placement
  basisCount   : Nat
  basisCalling : List Nat
  basisSeat    : Nat
  basisResv    : Nat
  contents     : Table SeatContent
  deriving DecidableEq, Repr

/-- The Seat Bus Engine (R128). A slot without an entry in `faulted` is OK; an entry holds the re-poll timer. -/
structure SeatBusEngine where
  dirty          : List Nat
  faulted        : Table Nat
  lampReported   : List Nat
  selected       : Option Nat
  transaction    : Option Transaction
  refreshPointer : Nat
  refreshTimer   : Nat
  refreshActive  : Bool
  blanking       : BlankingPass
  deriving DecidableEq, Repr

/-- The Notice Unit (R145). `portion` is the portion it took at the last portion announcement (R165, log 30). -/
structure NoticeUnit where
  portion     : Nat
  acceptance  : List FilterEntry
  queue       : List NoticeEntry
  lines       : Lines
  defaultText : Text
  basis       : Option Approach
  rejected    : Nat
  dropped     : Nat
  deriving DecidableEq, Repr

/-- One panel of the Panel Composer (R167). The head of `stack` is the top level. The panel is COMPOSING while `compose`
holds a job. `serviceScrolled` is to the service offset what `Level.scrolled` is to a level's (R182). -/
structure PanelState where
  stack           : List Level
  approachWant    : Bool
  serviceOffset   : Nat
  serviceScrolled : Bool
  front           : Buffer
  back            : Buffer
  compose         : Option ComposeJob
  again           : Bool
  deriving DecidableEq, Repr

/-- The Panel Composer (R167). -/
structure PanelComposer where
  panel1     : PanelState
  panel2     : PanelState
  basis      : Option Approach
  brightness : Brightness
  idle       : Option Nat
  deriving DecidableEq, Repr

/-- The state of the part. `powered`, `retainedRead`, `announced` and `pending` are the model's own (logs 1, 4, 5):
whether power is applied, whether this start has read the retained settings, the announcements and deliveries one block
has made to another that are not yet taken, and the commands that wait. `retained` is none while the retained memory
fails its check (R194). -/
structure State where
  powered      : Bool
  retainedRead : Bool
  retained     : Option RetainedSet
  line         : LineInterface
  form         : FormationUnit
  tables       : TableStore
  mgmt         : ManagementUnit
  faults       : FaultStore
  reck         : ReckoningUnit
  resv         : ReservationUnit
  bus          : SeatBusEngine
  notice       : NoticeUnit
  panels       : PanelComposer
  announced    : List Instr
  pending      : List Instr
  deriving DecidableEq, Repr

/-- A port after a start (R1). -/
def PortState.start : PortState :=
  { link := .down, through := [], own := [], sending := none, run := 0, badCheck := 0, throughDrop := 0, localDrop := 0,
    linkLoss := 0 }

/-- The formation state after a start (R23), the identity as when the retained check fails. -/
def FormationUnit.start : FormationUnit :=
  { numbering := .unnumbered, orientation := .unknown, lastInauguration := none, portion := 0, coachNumber := 0,
    coachClass := .mixed, identity := 0, announcements := 0 }

/-- A family's banks after a start (R44). -/
def FamilyBanks.start : FamilyBanks := { active := [], staged := [], state := .empty, tag := 0, count := 0 }

/-- The Table Store after a start (R44). -/
def TableStore.start : TableStore :=
  { seat := .start, resv := .start, route := .start, text := .start, page := .start, cancelled := [], replacedRoute := none,
    replacedText := none }

/-- The defaults of the seven parameters (R60). -/
def Params.default : Params :=
  { horizon := 3, approachDistance := 1500, approachLead := 90, freshness := 8, quietIdle := 60, travelRight1 := true,
    travelRight2 := false }

/-- The Management Unit after power-on (R44). -/
def ManagementUnit.start : ManagementUnit :=
  { context := none, commit := none, mode := .normal, hold := none, store := none, params := .default, cold := true }

/-- The fault record and its companions after power-on (R188). -/
def FaultStore.start : FaultStore := { record := none, count := 0, uptime := 0 }

/-- The progress record after a start (R82). -/
def Progress.start : Progress :=
  { state := .noRoute, remembered := none, d := none, a := none, p := none, n := none, h := none, sRun := 0, vs := none,
    remaining := 0, eta := none, permille := 0, arrival := none, delay := 0, door := .closed, approach := none }

/-- The Reckoning Unit after a start, with the default parameters (R82). -/
def ReckoningUnit.start : ReckoningUnit :=
  { progress := .start, lastFrame := none, distanceInUse := 1500, leadInUse := 90, freshness := 8, portion := 0,
    calling := [], halting := [], clock := { seconds := 0, phase := 0, valid := false } }

/-- The Reservation Unit after a start (R109). -/
def ReservationUnit.start : ReservationUnit :=
  { placements := [], basisCount := 0, basisCalling := [], basisSeat := 0, basisResv := 0, contents := [] }

/-- The Seat Bus Engine after a start with no enabled slot (R128). -/
def SeatBusEngine.start : SeatBusEngine :=
  { dirty := [], faulted := [], lampReported := [], selected := none, transaction := none, refreshPointer := 0,
    refreshTimer := 20, refreshActive := false, blanking := .none }

/-- The Notice Unit after a start (R145). -/
def NoticeUnit.start : NoticeUnit :=
  { portion := 0, acceptance := [], queue := [], lines := .blank, defaultText := [], basis := none, rejected := 0, dropped := 0 }

/-- A live level at scroll offset 0 (R170). -/
def Level.fresh (k : LevelKind) : Level := { kind := k, offset := 0, dead := false, scrolled := false }

/-- A buffer of colour 0 (R167). -/
def Buffer.zero : Buffer := Vector.replicate 48 (Vector.replicate 192 0)

/-- A panel after a start (R167). -/
def PanelState.start : PanelState :=
  { stack := [Level.fresh .map], approachWant := false, serviceOffset := 0, serviceScrolled := false, front := Buffer.zero,
    back := Buffer.zero, compose := none, again := false }

/-- The Panel Composer after a start (R167). -/
def PanelComposer.start : PanelComposer :=
  { panel1 := .start, panel2 := .start, basis := none, brightness := .full, idle := none }

/-- The part right after power-on (R193), its retained memory never written (log 6): the relay CLOSED, the read of the
retained settings not yet made, no command waiting. -/
def State.reset : State :=
  { powered := true, retainedRead := false, retained := none,
    line := { relay := .closed, end1 := .start, end2 := .start }, form := .start, tables := .start, mgmt := .start,
    faults := .start, reck := .start, resv := .start, bus := .start, notice := .start, panels := .start,
    announced := [], pending := [] }

end Sys2Proof.Machine
end

