-- ==== Sys2Proof/Machine/Ops.lean ====
section
/-! DEFINITION. The named operations every block uses: tables by index, saturating counters, the joining of texts, the
table families, announcements, and the two ports. -/

namespace Sys2Proof

/-! ### Families and family sets (R45) -/

/-- The families in code order. -/
def Family.all : List Family := [.seat, .resv, .route, .text, .page]

/-- The family of a code (R45). -/
def Family.ofCode (c : Nat) : Option Family := Family.all[c]?

/-- The number of indexes of a family (R45, R48). -/
def Family.capacity : Family → Nat
  | .seat => 128
  | .resv => 512
  | .route => 48
  | .text => 256
  | .page => 300

/-- The record size of a family whose records have one size; TEXT has none (R45). -/
def Family.recordSize : Family → Option Nat
  | .seat => some 7
  | .resv => some 10
  | .route => some 58
  | .text => none
  | .page => some 18

/-- Whether a family set names a family. -/
def FamilySet.names (fs : FamilySet) : Family → Bool
  | .seat => fs.seat
  | .resv => fs.resv
  | .route => fs.route
  | .text => fs.text
  | .page => fs.page

/-- The families of a set in code order. -/
def FamilySet.list (fs : FamilySet) : List Family := Family.all.filter fs.names

/-- The family set carried by a byte: bit 0 SEAT up to bit 4 PAGE (R45). -/
def FamilySet.ofByte (b : Byte) : FamilySet :=
  { seat := b.getLsbD 0, resv := b.getLsbD 1, route := b.getLsbD 2, text := b.getLsbD 3, page := b.getLsbD 4 }

/-- Whether a set names no family. -/
def FamilySet.isNone (fs : FamilySet) : Bool := !(fs.seat || fs.resv || fs.route || fs.text || fs.page)

/-- Whether two sets name a family in common. -/
def FamilySet.meets (x y : FamilySet) : Bool :=
  (x.seat && y.seat) || (x.resv && y.resv) || (x.route && y.route) || (x.text && y.text) || (x.page && y.page)

/-- The port at the other end (R7). -/
def Port.other : Port → Port
  | .end1 => .end2
  | .end2 => .end1

end Sys2Proof

namespace Sys2Proof.Machine

/-- The outcome of one command. -/
abbrev StepOutcome := Host.Outcome State Fault Refusal

/-! ### Tables by index (R45) -/

/-- What stands at index `i`, if anything. -/
def Table.find {α : Type} : Table α → Nat → Option α
  | [], _ => none
  | (k, v) :: t, i => if k = i then some v else Table.find t i

/-- Writing `v` at index `i`; a record already there is replaced (R47). -/
def Table.set {α : Type} : Table α → Nat → α → Table α
  | [], i, v => [(i, v)]
  | (k, w) :: t, i, v =>
    if i < k then (i, v) :: (k, w) :: t else if i = k then (i, v) :: t else (k, w) :: Table.set t i v

/-- Making index `i` absent. -/
def Table.erase {α : Type} (t : Table α) (i : Nat) : Table α := t.filter (fun e => e.1 != i)

/-- Writing a list of records at `i`, `i + 1`, and so on (R47). -/
def Table.setAll {α : Type} : Table α → Nat → List α → Table α
  | t, _, [] => t
  | t, i, v :: vs => Table.setAll (Table.set t i v) (i + 1) vs

/-- The canonical form of a table: the indexes strictly rising. Equal tables are then equal data. -/
abbrev Table.wf {α : Type} (t : Table α) : Prop := t.Pairwise (fun x y => x.1 < y.1)

/-- The lowest index that holds nothing, from `i` upward (R115). -/
def Table.lowestFree {α : Type} : Table α → Nat → Nat
  | [], i => i
  | (k, _) :: t, i => if k = i then Table.lowestFree t (i + 1) else Table.lowestFree t i

/-! ### Counters (Conventions, Counters) -/

/-- `n` increased by `k`, staying at `limit`. -/
def saturate (limit n k : Nat) : Nat := min limit (n + k)

/-- A 16-bit counter increased by `k` (R15). -/
def count16 (n k : Nat) : Nat := saturate 65535 n k

/-- A value clamped into `lo..hi` (Conventions, Clamping). -/
def clamp (lo hi n : Nat) : Nat := max lo (min hi n)

/-! ### Texts (R81) -/

/-- The space character. -/
def space : Byte := 0x20#8

/-- Parts joined in order, one space between each non-empty part and the non-empty part before it (R81). -/
def joinParts (parts : List Text) : Text :=
  (parts.filter (fun p => !p.isEmpty)).intersperse [space] |>.flatten

/-- Parts joined and cut to a limit (R81). -/
def joinCut (limit : Nat) (parts : List Text) : Text := (joinParts parts).take limit

/-- One decimal digit as a character. -/
def digitChar (n : Nat) : Byte := BitVec.ofNat 8 (48 + n % 10)

/-- The decimal characters of a number below 1000, without leading zeros (R81). -/
def decimal (n : Nat) : Text :=
  if n < 10 then [digitChar n]
  else if n < 100 then [digitChar (n / 10), digitChar n]
  else [digitChar (n / 100), digitChar (n / 10), digitChar n]

/-- A minute of the day as hh:mm (R81). -/
def hhmm (m : Nat) : Text :=
  [digitChar (m / 60 / 10), digitChar (m / 60), 0x3A#8, digitChar (m % 60 / 10), digitChar (m % 60)]

/-- The text "--:--" of an absent minute (R81). -/
def dashes : Text := [0x2D#8, 0x2D#8, 0x3A#8, 0x2D#8, 0x2D#8]

/-- A text padded with `pad` to `n` characters, cut to `n` (R22). -/
def padTo (n : Nat) (pad : Byte) (t : Text) : Text := t.take n ++ List.replicate (n - t.length) pad

/-! ### The banks (R45) -/

/-- The banks of a family. -/
def TableStore.family (t : TableStore) : Family → FamilyBanks
  | .seat => t.seat
  | .resv => t.resv
  | .route => t.route
  | .text => t.text
  | .page => t.page

/-- The Table Store with one family's banks replaced. -/
def TableStore.setFamily (t : TableStore) (f : Family) (b : FamilyBanks) : TableStore :=
  match f with
  | .seat => { t with seat := b }
  | .resv => { t with resv := b }
  | .route => { t with route := b }
  | .text => { t with text := b }
  | .page => { t with page := b }

/-- The Table Store with `g` applied to the banks of every family of a set. -/
def TableStore.mapFamilies (t : TableStore) (fs : FamilySet) (g : FamilyBanks → FamilyBanks) : TableStore :=
  { t with
    seat := if fs.seat then g t.seat else t.seat
    resv := if fs.resv then g t.resv else t.resv
    route := if fs.route then g t.route else t.route
    text := if fs.text then g t.text else t.text
    page := if fs.page then g t.page else t.page }

/-! ### Replies (R43) -/

/-- The number of a result code (R43). -/
def Result.code : Result → Byte
  | .ok => 0
  | .busy => 1
  | .locked => 2
  | .pending => 3
  | .passed => 4
  | .range => 5
  | .noContext => 6
  | .full => 7
  | .duplicate => 8
  | .overlap => 9
  | .notOnRoute => 10
  | .notFound => 11
  | .invalid => 12
  | .unknownCommand => 13
  | .badLength => 14

/-! ### Ports -/

/-- The state of a port. -/
def LineInterface.port (l : LineInterface) : Port → PortState
  | .end1 => l.end1
  | .end2 => l.end2

/-- The Line Interface with `g` applied to one port. -/
def LineInterface.mapPort (l : LineInterface) (p : Port) (g : PortState → PortState) : LineInterface :=
  match p with
  | .end1 => { l with end1 := g l.end1 }
  | .end2 => { l with end2 := g l.end2 }

/-! ### Announcements between blocks

An announcement or a delivery is a command of the table that one block makes to another. It stands in `announced` until
the receiving block takes it: either the sender of commands gives it its turn, or `step` takes the first one when no
command waits (logs 4, 5). -/

/-- Announcements made, in order. -/
def State.announce (s : State) (cs : List Instr) : State := { s with announced := s.announced ++ cs }

/-- The receiving block takes `c`: it is outstanding no more. -/
def State.taken (s : State) (c : Instr) : State := { s with announced := s.announced.erase c }

/-- What a unit has become, with the announcements it makes, in order. -/
structure Did (σ : Type) where
  unit : σ
  said : List Instr

/-- A unit that did nothing. -/
def Did.nothing {σ : Type} (u : σ) : Did σ := ⟨u, []⟩

/-- Doing `f` after `x`. -/
def Did.andThen {σ : Type} (x : Did σ) (f : σ → Did σ) : Did σ :=
  ⟨(f x.unit).unit, x.said ++ (f x.unit).said⟩

/-- Doing `f` for each element of a list in order. -/
def Did.each {σ α : Type} (f : σ → α → Did σ) : σ → List α → Did σ
  | u, [] => Did.nothing u
  | u, x :: xs => (f u x).andThen (fun v => Did.each f v xs)

/-- The smallest member of a list, if any. -/
def least (l : List Nat) : Option Nat := l.foldl (fun m x => some (match m with | none => x | some y => min x y)) none

/-- The largest member of a list, if any. -/
def greatest (l : List Nat) : Option Nat := l.foldl (fun m x => some (match m with | none => x | some y => max x y)) none

/-- The bit of a portion in a portion mask (R69): bit 0 is portion 1; portion 0 has none. -/
def holdsPortion (mask : BitVec 3) (portion : Nat) : Bool := portion != 0 && mask.getLsbD (portion - 1)

end Sys2Proof.Machine
end

