-- ==== Sys2Proof/Machine/Operands.lean ====
section
/-! DEFINITION. The byte formats of the spec: the frame header and check (R19), the POSITION and NOTICE payloads (R20, R21),
the seat messages (R22), and the records of the five families (R66, R106, R108, R168, TEXT by R45). -/

namespace Sys2Proof.Machine

/-- Byte `i` of a list, 0 beyond its end. -/
def byteAt (bs : List Byte) (i : Nat) : Byte := bs.getD i 0

/-- The number in byte `i`. -/
def natAt (bs : List Byte) (i : Nat) : Nat := (byteAt bs i).toNat

/-- A big-endian number of a list of bytes (chapter 1, Layouts: most significant byte first). -/
def bigEndian (bs : List Byte) : Nat := bs.foldl (fun n b => n * 256 + b.toNat) 0

/-- The big-endian number in bytes `i` to `i + n - 1`. -/
def wordAt (bs : List Byte) (i n : Nat) : Nat := bigEndian ((List.range n).map (fun k => byteAt bs (i + k)))

/-- The characters before the first byte of value 0 in bytes `i` to `i + n - 1`, or all of them (R66, R106). -/
def nameAt (bs : List Byte) (i n : Nat) : Text := ((bs.drop i).take n).takeWhile (fun b => b != 0)

/-! ### The cyclic check (R19) -/

/-- One bit through the check register, generator x^16 + x^12 + x^5 + 1. -/
def crcBit (c : BitVec 16) (b : Bool) : BitVec 16 :=
  if c.msb != b then (c <<< 1) ^^^ 0x1021#16 else c <<< 1

/-- One byte, most significant bit first. -/
def crcByte (c : BitVec 16) (b : Byte) : BitVec 16 :=
  [7, 6, 5, 4, 3, 2, 1, 0].foldl (fun c i => crcBit c (b.getLsbD i)) c

/-- The check of a sequence of bytes, from FFFFh, not inverted. -/
def crc16 (bs : List Byte) : BitVec 16 := bs.foldl crcByte 0xFFFF#16

/-- The check as its two bytes, high byte first. -/
def crcBytes (bs : List Byte) : List Byte := [(crc16 bs).extractLsb' 8 8, (crc16 bs).extractLsb' 0 8]

/-! ### The frame (R4, R5, R19) -/

/-- The target kind code of a target (R19). -/
def Target.code : Target → BitVec 4
  | .coach _ => 0
  | .lead => 1
  | .all => 2
  | .portion _ => 3
  | .ident _ => 4

/-- The four target value bytes, unused bits 0 (R19). -/
def Target.valueBytes : Target → List Byte
  | .coach p => [0, 0, 0, p]
  | .lead => [0, 0, 0, 0]
  | .all => [0, 0, 0, 0]
  | .portion m => [0, 0, 0, m.setWidth 8]
  | .ident i => [i.extractLsb' 24 8, i.extractLsb' 16 8, i.extractLsb' 8 8, i.extractLsb' 0 8]

/-- The target of a header (R19); none for a target kind code above 4. -/
def Target.ofHeader (bs : List Byte) : Option Target :=
  match ((byteAt bs 0).extractLsb' 0 4).toNat with
  | 0 => some (.coach (byteAt bs 4))
  | 1 => some .lead
  | 2 => some .all
  | 3 => some (.portion ((byteAt bs 4).extractLsb' 0 3))
  | 4 => some (.ident (byteAt bs 1 ++ byteAt bs 2 ++ byteAt bs 3 ++ byteAt bs 4))
  | _ => none

/-- The bytes of a payload, at most 240 (R4). A payload the part builds has the free bytes of Config (log 3). -/
def Payload.toBytes : Payload → List Byte
  | .bytes bs => bs.take 240
  | p => (Config.builtPayload p).take 240

/-- The header and payload of a frame (R19). -/
def Frame.body (f : Frame) : List Byte :=
  (f.kind ++ f.target.code : BitVec 8) :: f.target.valueBytes ++
    [f.hops.setWidth 8, f.origin, f.seq, BitVec.ofNat 8 f.payload.toBytes.length] ++ f.payload.toBytes

/-- The frame as it is sent: header, payload and check (R4, R11). -/
def Frame.toBytes (f : Frame) : List Byte := f.body ++ crcBytes f.body

/-- The fields of a received sequence of bytes; none when it is malformed by one of the tests of R5. -/
def parseFrame (bs : List Byte) : Option Frame :=
  let n := natAt bs 8
  if bs.length < 11 ∨ 251 < bs.length ∨ 240 < n ∨ n + 11 ≠ bs.length then none
  else if (bs.drop (9 + n)) ≠ crcBytes (bs.take (9 + n)) then none
  else
    match Target.ofHeader bs with
    | none => none
    | some t =>
      some { kind := (byteAt bs 0).extractLsb' 4 4, target := t, hops := (byteAt bs 5).extractLsb' 0 6,
             origin := byteAt bs 6, seq := byteAt bs 7, payload := .bytes ((bs.drop 9).take n) }

/-! ### The POSITION and NOTICE payloads (R20, R21) -/

/-- A door release by its code (R20). -/
def DoorRelease.ofCode (c : BitVec 2) : DoorRelease :=
  match c.toNat with
  | 0 => .closed
  | 1 => .left
  | 2 => .right
  | _ => .both

/-- The fields of a POSITION payload (R20). -/
def PositionFields.ofBytes (bs : List Byte) : PositionFields :=
  let b0 := byteAt bs 0
  { mask := b0.extractLsb' 0 3, atPlatform := b0.getLsbD 3, door := DoorRelease.ofCode (b0.extractLsb' 4 2),
    d := byteAt bs 1, a := byteAt bs 2, sRun := byteAt bs 3 ++ byteAt bs 4 ++ byteAt bs 5,
    v := byteAt bs 6 ++ byteAt bs 7, delay := byteAt bs 8 ++ byteAt bs 9 }

/-- The inline character count as taken: above 96 is 96 (R21). -/
def inlineCount (bs : List Byte) : Nat := min 96 (natAt bs 10)

/-- Whether a NOTICE payload is long enough to read (R9). -/
def noticeReadable (bs : List Byte) : Bool :=
  decide (11 ≤ bs.length) && (!(byteAt bs 4).getLsbD 6 || decide (11 + inlineCount bs ≤ bs.length))

/-- The fields of a NOTICE payload (R21). -/
def NoticeFields.ofBytes (bs : List Byte) : NoticeFields :=
  let b4 := byteAt bs 4
  { id := byteAt bs 0 ++ byteAt bs 1, category := byteAt bs 2, language := byteAt bs 3, priority := b4.extractLsb' 0 2,
    mask := b4.extractLsb' 2 3, overlay := b4.getLsbD 5, interval := byteAt bs 5 ++ byteAt bs 6, count := byteAt bs 7,
    lifetime := byteAt bs 8 ++ byteAt bs 9,
    text := if b4.getLsbD 6 then .inlined ((bs.drop 11).take (inlineCount bs)) else .pool (byteAt bs 10) }

/-! ### Seat messages (R22) -/

/-- The sum of bytes modulo 256. -/
def byteSum (bs : List Byte) : Byte := bs.foldl (· + ·) 0

/-- A message with its check byte: all bytes sum to 0 modulo 256 (R22). -/
def checked (bs : List Byte) : List Byte := bs ++ [0 - byteSum bs]

/-- The lamp code (R22). -/
def Lamp.code : Lamp → BitVec 2
  | .green => 1
  | .amber => 2
  | .red => 3

/-- A SHOW message (R22). -/
def showMessage (address : Byte) (c : SeatContent) : List Byte :=
  checked ([address, 1, ((BitVec.ofNat 4 c.icon ++ 0#1 ++ BitVec.ofBool c.dim ++ c.lamp.code : BitVec 8))] ++
    padTo 4 space c.label ++ padTo 12 space c.lineA ++ padTo 12 space c.lineB)

/-- A BLANK message (R22). -/
def blankMessage (address : Byte) : List Byte := checked [address, 2]

/-- A PING message (R22). -/
def pingMessage (address : Byte) : List Byte := checked [address, 3]

/-- Whether an answer of three bytes is good for a message to `sentTo` (R130). -/
def goodAnswer (sentTo address status check : Byte) : Bool :=
  byteSum [address, status, check] == 0 && address == sentTo && (status == 0 || status == 1)

/-! ### SEAT records (R105, R106) -/

/-- A seat slot as read from its record. -/
structure SeatSlot where
  enabled : Bool
  icon    : Bool
  string  : Nat
  address : Byte
  label   : Text
  deriving DecidableEq, Repr

/-- The fields of a SEAT record (R106). -/
def seatSlot (r : List Byte) : SeatSlot :=
  { enabled := (byteAt r 0).getLsbD 0, icon := (byteAt r 0).getLsbD 1, string := natAt r 1, address := byteAt r 2,
    label := nameAt r 3 4 }

/-- The slot of a SEAT bank, when it is present and enabled (R45, R105). -/
def enabledSlot (bank : Table (List Byte)) (slot : Nat) : Option SeatSlot :=
  (Table.find bank slot).bind (fun r => if (seatSlot r).enabled then some (seatSlot r) else none)

/-- The enabled slots of a SEAT bank, ascending. -/
def enabledSlots (bank : Table (List Byte)) : List Nat :=
  (bank.filter (fun e => (seatSlot e.2).enabled)).map (·.1)

/-! ### RESV records (R107, R108) -/

/-- A reservation record. -/
structure ResvRecord where
  id     : Nat
  slot   : Nat
  board  : Nat
  alight : Nat
  note   : Nat
  deriving DecidableEq, Repr

/-- The fields of a RESV record (R108). -/
def resvRecord (r : List Byte) : ResvRecord :=
  { id := wordAt r 0 4, slot := natAt r 4, board := wordAt r 5 2, alight := wordAt r 7 2,
    note := ((byteAt r 9).extractLsb' 0 4).toNat }

/-! ### ROUTE records (R65, R66) -/

/-- The door side of an entry (R65). -/
inductive DoorSide where
  | left
  | right
  | both
  | unknown
  deriving DecidableEq, Repr

/-- An entry of the master stop list (R65), less its cancelled flag, which the active table alone carries. -/
structure RouteEntry where
  code      : Nat
  shortName : Text
  longName  : Text
  segment   : Nat
  arrival   : Option Nat
  departure : Option Nat
  side      : DoorSide
  mask      : BitVec 3
  notes     : List Byte
  deriving DecidableEq, Repr

/-- A scheduled time: 1440 or more reads as absent (R66). -/
def scheduled (m : Nat) : Option Nat := if m < 1440 then some m else none

/-- A door side by its code (R66). -/
def DoorSide.ofCode (c : BitVec 2) : DoorSide :=
  match c.toNat with
  | 0 => .left
  | 1 => .right
  | 2 => .both
  | _ => .unknown

/-- The fields of the ROUTE record at an ordinal; the segment length of ordinal 0 reads as 0 (R66). -/
def routeEntry (ordinal : Nat) (r : List Byte) : RouteEntry :=
  let b53 := byteAt r 53
  { code := wordAt r 0 2, shortName := nameAt r 2 12, longName := nameAt r 14 32,
    segment := if ordinal = 0 then 0 else wordAt r 46 3, arrival := scheduled (wordAt r 49 2),
    departure := scheduled (wordAt r 51 2), side := DoorSide.ofCode (b53.extractLsb' 0 2), mask := b53.extractLsb' 2 3,
    notes := ((r.drop 54).take 4).take (min 4 (b53.extractLsb' 5 3).toNat) }

/-! ### PAGE records (R168) -/

/-- A rectangle from four bytes. -/
def rectAt (r : List Byte) (i : Nat) : Rect :=
  { x0 := natAt r i, y0 := natAt r (i + 1), w := natAt r (i + 2), h := natAt r (i + 3) }

/-- Whether a rectangle lies within 192 by 48 (R168). -/
def Rect.onPanel (q : Rect) : Bool :=
  decide (1 ≤ q.w ∧ 1 ≤ q.h ∧ q.x0 + q.w ≤ 192 ∧ q.y0 + q.h ≤ 48)

/-- An element kind by its code; a code above 3 passes no validation (R53) and is read as FILL. -/
def ElementKind.ofCode (c : Nat) : ElementKind :=
  match c with
  | 1 => .text
  | 2 => .strip
  | 3 => .clock
  | _ => .fill

/-- A clip mode by its code: 3 is read as NONE (R168). -/
def ClipMode.ofCode (c : BitVec 2) : ClipMode :=
  match c.toNat with
  | 1 => .inside
  | 2 => .outside
  | _ => .none

/-- An alignment by its code: 3 is read as LEFT (R168). -/
def Alignment.ofCode (c : BitVec 2) : Alignment :=
  match c.toNat with
  | 1 => .centre
  | 2 => .right
  | _ => .left

/-- The fields of an element record (R168). -/
def element (r : List Byte) : Element :=
  let b11 := byteAt r 11
  let b12 := byteAt r 12
  { kind := ElementKind.ofCode (natAt r 0), rect := rectAt r 1, clip := rectAt r 5,
    mode := ClipMode.ofCode ((byteAt r 9).extractLsb' 0 2), colour := (byteAt r 10).extractLsb' 0 4,
    marker := (byteAt r 10).extractLsb' 4 4,
    protect := if b11.getLsbD 4 then some (b11.extractLsb' 0 4) else none,
    bigFont := b12.getLsbD 0, align := Alignment.ofCode (b12.extractLsb' 1 2), scroll := b12.getLsbD 3,
    source := natAt r 13, textId := byteAt r 14, pitch := clamp 16 96 (natAt r 15) }

/-! ### The records of a LOAD (R45, R48) -/

/-- `m` records of `size` bytes that fill the bytes exactly (R48 test 4). -/
def splitFixed (size : Nat) : Nat → List Byte → Option (List (List Byte))
  | 0, bs => if bs = [] then some [] else none
  | m + 1, bs =>
    if bs.length < size then none else (splitFixed size m (bs.drop size)).map (fun rs => bs.take size :: rs)

/-- `m` TEXT records, each a length byte and that many characters, that end exactly at the end (R48). -/
def splitText : Nat → List Byte → Option (List (List Byte))
  | 0, bs => if bs = [] then some [] else none
  | _ + 1, [] => none
  | m + 1, n :: bs =>
    if bs.length < n.toNat then none else (splitText m (bs.drop n.toNat)).map (fun rs => bs.take n.toNat :: rs)

/-- The records of a family in the argument bytes of a LOAD (R48 test 4). -/
def splitRecords (f : Family) (m : Nat) (bs : List Byte) : Option (List (List Byte)) :=
  match f.recordSize with
  | some size => splitFixed size m bs
  | none => splitText m bs

end Sys2Proof.Machine
end

