-- ==== Sys2Proof/Machine/Flags.lean ====
section
/-! DEFINITION. The flags one block computes for another: which items of the progress record changed (R95), what counts as
activity (R95), the clock minute (R102), and the modes in which the displays show nothing (R122, R160, R169). -/

namespace Sys2Proof

/-- SERVICE or RESTART_PENDING: seats and lines are BLANK, panels render SERVICE (R122, R160, R169). -/
def Mode.dark : Mode → Bool
  | .service => true
  | .restartPending => true
  | .normal => false
  | .quiet => false

end Sys2Proof

namespace Sys2Proof.Machine

/-- The approach in force (R83): while APPROACHING, or in HOLD with remembered state APPROACHING. -/
def Progress.inForce (r : Progress) : Option Approach :=
  if r.state = .approaching ∨ (r.state = .hold ∧ r.remembered = some .approaching) then r.approach else none

/-- The items of the record that an event changed (R95). -/
def Progress.changed (old new : Progress) : Changed :=
  { state := old.state != new.state, remembered := old.remembered != new.remembered, p := old.p != new.p,
    n := old.n != new.n, a := old.a != new.a,
    approach := old.approach != new.approach || old.inForce != new.inForce,
    permille := old.permille != new.permille, arrival := old.arrival != new.arrival, delay := old.delay != new.delay }

/-- Whether the Reservation Unit is announced (R95, R123). -/
def Changed.forResv (c : Changed) : Bool := c.state || c.remembered || c.p || c.n || c.a || c.approach

/-- Whether the Notice Unit is announced (R95). -/
def Changed.forNotice (c : Changed) : Bool := Changed.forResv c || c.arrival

/-- Whether the Panel Composer is announced (R95). -/
def Changed.forPanel (c : Changed) : Bool := Changed.forNotice c || c.permille || c.delay

/-- The announcements of a changed record, one to each unit that reads a changed item (R95). -/
def Progress.newsOf (old new : Progress) : List Instr :=
  let c := Progress.changed old new
  (if Changed.forResv c then [Instr.reckoningAnnouncementResv (.progress c)] else []) ++
  (if Changed.forNotice c then [Instr.reckoningAnnouncementNotice (.progress c)] else []) ++
  (if Changed.forPanel c then [Instr.reckoningAnnouncementPanel (.progress c)] else [])

/-- The activities of an event (R95): the entry of an approach, the change of the state to AT_STOP, and, for an accepted
frame (`framed`), a door release that was NONE before and is not NONE in the frame. -/
def Progress.activities (old new : Progress) (framed : Bool) : List Instr :=
  (if new.inForce.isSome && new.inForce != old.inForce then [Instr.activity] else []) ++
  (if new.state == .atStop && old.state != .atStop then [Instr.activity] else []) ++
  (if framed && new.door != .closed && old.door == .closed then [Instr.activity] else [])

/-- The minute of the day of the clock (R102). -/
def Clock.minute (c : Clock) : Nat := c.seconds / 60

/-- The announcement of a changed clock minute, or of a clock that becomes valid (R102). -/
def Clock.news (old new : Clock) : List Instr :=
  if old.minute ≠ new.minute ∨ (new.valid ∧ ¬ old.valid) then [Instr.clockMinuteChange] else []

/-- The clock stamp of a fault: the seconds, or none for "clock invalid" (R188). -/
def Clock.stamp (c : Clock) : Option Nat := if c.valid then some c.seconds else none

end Sys2Proof.Machine
end

