-- ==== Sys2Proof/Machine/Line.lean ====
section
/-! DEFINITION. The Line Interface and the Frame Dispatcher (chapter 1): links, the arrival of frames, the transmit queues,
the arbiter and the counters. -/

namespace Sys2Proof.Machine

/-! ### Queues and arbiter (R12, R13, R14) -/

/-- The arbiter of a port (R13): an idle transmitter begins one frame when a queue holds one. -/
def PortState.arbitrate (q : PortState) : PortState :=
  match q.sending with
  | some _ => q
  | none =>
    match q.own, q.through with
    | f :: own, [] => { q with own := own, sending := some f, run := 0 }
    | f :: own, g :: through =>
      if q.run = 4 then { q with own := own, sending := some f, run := 0 }
      else { q with through := through, sending := some g, run := q.run + 1 }
    | [], g :: through => { q with through := through, sending := some g }
    | [], [] => q

/-- A forward copy offered to the through queue of a port (R12). -/
def PortState.offerThrough (f : Frame) (q : PortState) : PortState :=
  if q.through.length < 8 then PortState.arbitrate { q with through := q.through ++ [f] }
  else { q with throughDrop := count16 q.throughDrop 1 }

/-- An originated frame offered to a port: not queued when its link is not UP (R11), dropped and counted when its local
queue is full (R12). -/
def PortState.offerLocal (f : Frame) (q : PortState) : PortState :=
  if q.link ≠ .up then q
  else if q.own.length < 4 then PortState.arbitrate { q with own := q.own ++ [f] }
  else { q with localDrop := count16 q.localDrop 1 }

/-- The frames a port holds: in transmission and in its queues (R3). -/
def PortState.held (q : PortState) : Nat := q.through.length + q.own.length + (if q.sending.isSome then 1 else 0)

/-- A port with no frame in transmission, empty queues, run count 0 and its link DOWN, its counters kept. -/
def PortState.emptied (q : PortState) : PortState :=
  { q with link := .down, through := [], own := [], sending := none, run := 0 }

/-- Loss of signal from UP: the frames held are lost and counted (R3). -/
def PortState.lose (q : PortState) : PortState :=
  { PortState.emptied q with linkLoss := count16 q.linkLoss (PortState.held q) }

/-- A frame the part originates, offered to a port's local queue (R11, R12). -/
def LineInterface.offer (l : LineInterface) (p : Port) (f : Frame) : LineInterface :=
  l.mapPort p (PortState.offerLocal f)

/-- The frame whose transmission ends leaves the transmitter, and the arbiter chooses again (R14). -/
def execTransmissionEnd (p : Port) (s : State) : StepOutcome :=
  if (s.line.port p).sending.isSome then
    .next { s with line := s.line.mapPort p (fun q => PortState.arbitrate { q with sending := none }) }
  else .next s

/-! ### Links (R2, R3) -/

/-- A link set to a state, the change reported to the Formation Unit (R3). -/
def State.changeLink (s : State) (p : Port) (link : LinkState) : State :=
  { s with line := s.line.mapPort p (fun q => { q with link := link }),
           announced := s.announced ++ [.linkChangeReport p link] }

/-- The neighbour's signal appears on a DOWN port while the relay is open (R2). -/
def execNeighbourSignalAppears (p : Port) (s : State) : StepOutcome :=
  if s.line.relay = .opened ∧ (s.line.port p).link = .down then .next (s.changeLink p .training) else .next s

/-- Training of a port completes (R2). -/
def execTrainingCompletes (p : Port) (s : State) : StepOutcome :=
  if (s.line.port p).link = .training then .next (s.changeLink p .up) else .next s

/-- Loss of signal on a TRAINING or UP port (R2, R3): from UP, the frames held are counted and LINK_LOST is reported. -/
def execLossOfSignal (p : Port) (s : State) : StepOutcome :=
  match (s.line.port p).link with
  | .down => .next s
  | .training => .next (s.changeLink p .down)
  | .up =>
    .next { s with line := s.line.mapPort p PortState.lose,
                   announced := s.announced ++ [.faultReport (.linkLost p), .linkChangeReport p .down] }

/-! ### Arrival (R5 to R10) -/

/-- Whether a target concerns this coach (R6, R24). -/
def FormationUnit.concerns (u : FormationUnit) : Target → Bool
  | .coach p =>
    match u.numbering with
    | .unnumbered => false
    | .numbered position _ => p.toNat == position
  | .ident i => i == u.identity && u.identity != 0
  | .lead => false
  | .all => true
  | .portion m => holdsPortion m u.portion

/-- Whether a target is consumed here (R6). -/
def FormationUnit.consumes (u : FormationUnit) : Target → Bool
  | .coach p => u.concerns (.coach p)
  | .ident i => u.concerns (.ident i)
  | .lead => false
  | .all => false
  | .portion _ => false

/-- The conditions of R7 for a forward copy of a good frame that arrived on port `p`. -/
def State.forwards (s : State) (p : Port) (f : Frame) : Bool :=
  decide (0 < f.hops.toNat) && !s.form.consumes f.target && f.kind != 1 && decide ((s.line.port p.other).link = .up)

/-- The forward copy: hops reduced by one (R4); its check follows from its fields. -/
def Frame.forwardCopy (f : Frame) : Frame := { f with hops := f.hops - 1 }

/-- The management command of a MGMT payload (R41, R42): its code selects the row, its arguments are the bytes after. -/
def mgmtCommand (p : Port) (seq : Byte) (payload : List Byte) : Instr :=
  let f : MgmtFrame := { port := p, seq := seq, args := payload.drop 1 }
  match payload.head? with
  | none => .mgmtUnknownCommand p seq payload
  | some code =>
    match code.toNat with
    | 1 => .load f
    | 2 => .loadNext f
    | 3 => .commit f
    | 4 => .discard f
    | 5 => .mode f
    | 6 => .param f
    | 7 => .status f
    | 8 => .startAck f
    | 9 => .assign f
    | 10 => .stopCancel f
    | 11 => .resvAdd f
    | 12 => .resvDrop f
    | 13 => .acceptInsert f
    | 14 => .acceptRemove f
    | 15 => .restart f
    | 16 => .faultRead f
    | 17 => .faultClear f
    | 18 => .ident f
    | 19 => .store f
    | _ => .mgmtUnknownCommand p seq payload

/-- The Frame Dispatcher (R9): the delivery that a local copy makes, if any. -/
def dispatchFrame (p : Port) (seq : Byte) (kind : BitVec 4) (payload : List Byte) : List Instr :=
  match kind.toNat with
  | 1 => [.enumerate p seq payload]
  | 3 => if 10 ≤ payload.length then [.position (PositionFields.ofBytes payload)] else []
  | 4 => [.time payload]
  | 5 => if noticeReadable payload then [.notice (NoticeFields.ofBytes payload)] else []
  | 6 => [.noticeCancel payload]
  | 7 => [mgmtCommand p seq payload]
  | _ => []

/-- The local copy of a good frame (R8, R9). -/
def State.localCopy (s : State) (p : Port) (f : Frame) : List Instr :=
  if s.form.concerns f.target then dispatchFrame p f.seq f.kind f.payload.toBytes else []

/-- A frame arrives on a port (R5 to R10). A port whose link is not UP receives none (R1). -/
def execFrameArrival (p : Port) (bytes : List Byte) (s : State) : StepOutcome :=
  if (s.line.port p).link ≠ .up then .next s
  else
    match parseFrame bytes with
    | none => .next { s with line := s.line.mapPort p (fun q => { q with badCheck := count16 q.badCheck 1 }) }
    | some f =>
      .next { s with
        line := if s.forwards p f then s.line.mapPort p.other (PortState.offerThrough f.forwardCopy) else s.line
        announced := s.announced ++ s.localCopy p f }

end Sys2Proof.Machine
end

