-- ==== Sys2Proof/Machine/Formation.lean ====
section
/-! DEFINITION. The Formation Unit (chapter 2): link reports, inauguration, the frames the part originates and the port they
leave by. ASSIGN and IDENT, which it executes for the Management Unit, are in Machine/Management.lean. -/

namespace Sys2Proof.Machine

/-- The position: 0 while unnumbered (R23). -/
def FormationUnit.position (u : FormationUnit) : Nat :=
  match u.numbering with
  | .unnumbered => 0
  | .numbered position _ => position

/-- The head port: none while unnumbered (R23). -/
def FormationUnit.headPort (u : FormationUnit) : Option Port :=
  match u.numbering with
  | .unnumbered => none
  | .numbered _ head => some head

/-- Whether the coach is NUMBERED (R23). -/
def FormationUnit.isNumbered (u : FormationUnit) : Bool := u.headPort.isSome

/-- The hops remaining of a frame to the lead controller: the position, or 63 from an unnumbered coach (R11). -/
def FormationUnit.hops (u : FormationUnit) : BitVec 6 :=
  match u.numbering with
  | .unnumbered => 63
  | .numbered position _ => BitVec.ofNat 6 position

/-- A frame with target LEAD, its header completed (R11). -/
def FormationUnit.toLead (u : FormationUnit) (kind : BitVec 4) (seq : Byte) (payload : Payload) : Frame :=
  { kind := kind, target := .lead, hops := u.hops, origin := BitVec.ofNat 8 u.position, seq := seq, payload := payload }

/-- The port a reply leaves by (R25): the head port, or the port the command arrived on while unnumbered. -/
def FormationUnit.replyPort (u : FormationUnit) (arrival : Port) : Port := u.headPort.getD arrival

/-- The formation state after a report of a link change (R33, R34): a head port gone DOWN loses the numbering. -/
def FormationUnit.afterReport (u : FormationUnit) (p : Port) (link : LinkState) : FormationUnit :=
  if link = .down ∧ u.headPort = some p then { u with numbering := .unnumbered } else u

/-- The LINK_EVENT of a report, built under the formation state after it (R35). -/
def FormationUnit.linkEvent (u : FormationUnit) (p : Port) (link : LinkState) : Frame :=
  u.toLead 9 (BitVec.ofNat 8 u.announcements)
    (.linkEvent { port := p, link := link, identity := u.identity, numbered := u.isNumbered, position := u.position,
                  orientation := u.orientation, lastInauguration := u.lastInauguration })

/-- The line with a LINK_EVENT offered: to the head port, or to both ports while unnumbered (R25). -/
def LineInterface.offerEvent (l : LineInterface) (u : FormationUnit) (f : Frame) : LineInterface :=
  match u.headPort with
  | some h => l.offer h f
  | none => (l.offer .end1 f).offer .end2 f

/-- The Formation Unit takes a report of a link change (R33, R34, R35). -/
def execLinkChangeReport (p : Port) (link : LinkState) (s : State) : StepOutcome :=
  let u := s.form.afterReport p link
  .next { s.taken (.linkChangeReport p link) with
    form := { u with announcements := (u.announcements + 1) % 256 }
    line := s.line.offerEvent u (u.linkEvent p link) }

/-- The orientation of a coach numbered through a port (R27). -/
def orientationOf : Port → Orientation
  | .end1 => .normal
  | .end2 => .reversed

/-- The formation state numbered through `p` with position `position` (R27 step 1). -/
def FormationUnit.numbered (u : FormationUnit) (p : Port) (position : Nat) : FormationUnit :=
  { u with numbering := .numbered position p, orientation := orientationOf p }

/-- The onward ENUMERATE with count `position` (R28). -/
def onwardEnumerate (position : Nat) (seq inauguration : Byte) : Frame :=
  { kind := 1, target := .all, hops := 63, origin := BitVec.ofNat 8 position, seq := seq,
    payload := .bytes [inauguration, BitVec.ofNat 8 position] }

/-- A numbering by R27, with the announcements of R30 and R32. -/
def State.numberCoach (s : State) (p : Port) (seq inauguration : Byte) (position : Nat) : State :=
  let u := s.form.numbered p position
  { s with
    form := { u with lastInauguration := some inauguration.toNat }
    line := if (s.line.port p.other).link = .up then s.line.offer p.other (onwardEnumerate position seq inauguration)
            else s.line.offer p (u.toLead 2 seq (.enumerateEnd position u.identity false))
    announced := s.announced ++
      (if s.form.lastInauguration = some inauguration.toNat then [] else [.newInauguration]) ++
      (if s.form.orientation = u.orientation then [] else [.orientationChange]) }

/-- An overlong formation at this coach (R31). -/
def State.overlong (s : State) (p : Port) (seq : Byte) : State :=
  let u : FormationUnit := { s.form with numbering := .unnumbered }
  { s with
    form := u
    line := s.line.offer p (u.toLead 2 seq (.enumerateEnd 32 u.identity true))
    announced := s.announced ++ [.faultReport .formationTooLong] }

/-- The Formation Unit takes an ENUMERATE (R26, R27, R31). -/
def execEnumerate (p : Port) (seq : Byte) (payload : List Byte) (s : State) : StepOutcome :=
  let t := s.taken (.enumerate p seq payload)
  match payload with
  | inauguration :: count :: _ =>
    if count.toNat + 1 ≤ 32 then .next (t.numberCoach p seq inauguration (count.toNat + 1))
    else .next (t.overlong p seq)
  | _ => .next t

end Sys2Proof.Machine
end

