-- ==== Sys2Proof/Machine/Route.lean ====
section
/-! DEFINITION. The readings of the active ROUTE and TEXT tables that several units share (chapter 4): entries, lookup,
distance, the calling and halting sets, the text pool, connections, and the text of a local notice (R163). -/

namespace Sys2Proof.Machine

/-- The tables as the Reckoning Unit reads them: while it has not taken a ROUTE activation, the ROUTE table it replaced
(R78, R99, log 7). -/
def TableStore.asReckoned (t : TableStore) : TableStore :=
  match t.replacedRoute with
  | none => t
  | some r => { t with route := { t.route with active := r.entries }, cancelled := r.cancelled }

/-- The tables with the cancelled flags of the ROUTE table that the Reckoning Unit reads replaced (R76, R78). -/
def TableStore.setCancelled (t : TableStore) (flags : List Nat) : TableStore :=
  match t.replacedRoute with
  | none => { t with cancelled := flags }
  | some r => { t with replacedRoute := some { r with cancelled := flags } }

/-- The entry count of the active ROUTE table (R45). -/
def TableStore.entryCount (t : TableStore) : Nat := t.route.active.length

/-- The entry of the active ROUTE table at an ordinal (R65). -/
def TableStore.entry (t : TableStore) (ordinal : Nat) : Option RouteEntry :=
  (Table.find t.route.active ordinal).map (routeEntry ordinal)

/-- The ordinal of a stop code on the active ROUTE table; none when it is not on the route (R68). -/
def TableStore.lookup (t : TableStore) (code : Nat) : Option Nat :=
  (t.route.active.find? (fun e => (routeEntry e.1 e.2).code == code)).map (·.1)

/-- The segment length of an ordinal, 0 where there is no entry. -/
def TableStore.segment (t : TableStore) (ordinal : Nat) : Nat := ((t.entry ordinal).map (·.segment)).getD 0

/-- The distance from ordinal `x` to ordinal `y`: the segment lengths of `x + 1` through `y` (R68). -/
def TableStore.distance (t : TableStore) (x y : Nat) : Nat :=
  ((List.range (y - x)).map (fun k => t.segment (x + 1 + k))).sum

/-- Whether a portion calls at an entry (R69). -/
def TableStore.callsAt (t : TableStore) (portion ordinal : Nat) (e : RouteEntry) : Bool :=
  holdsPortion e.mask portion && !t.cancelled.contains ordinal

/-- Whether an entry is halting (R69). -/
def TableStore.haltsAt (t : TableStore) (ordinal : Nat) (e : RouteEntry) : Bool :=
  e.mask != 0 && !t.cancelled.contains ordinal

/-- The ordinals of the active ROUTE table whose entries pass a test, ascending. -/
def TableStore.ordinalsWhere (t : TableStore) (test : Nat → RouteEntry → Bool) : List Nat :=
  (t.route.active.filter (fun e => test e.1 (routeEntry e.1 e.2))).map (·.1)

/-- The calling set of a portion (R70). -/
def TableStore.callingSet (t : TableStore) (portion : Nat) : List Nat := t.ordinalsWhere (t.callsAt portion)

/-- The halting set (R71). -/
def TableStore.haltingSet (t : TableStore) : List Nat := t.ordinalsWhere t.haltsAt

/-- The member of a set above an ordinal (R70). -/
def memberAbove (c : List Nat) (x : Nat) : Option Nat := least (c.filter (fun m => x < m))

/-- The member of a set at or below an ordinal (R70). -/
def memberAtOrBelow (c : List Nat) (x : Nat) : Option Nat := greatest (c.filter (fun m => m ≤ x))

/-- The final calling stop (R70). -/
def finalStop (c : List Nat) : Option Nat := greatest c

/-- The scheduled arrival as read (R74). -/
def RouteEntry.arrivalAsRead (e : RouteEntry) : Option Nat := e.arrival <|> e.departure

/-- The string of a text id in the active TEXT table; an absent id reads as the empty string (R79). -/
def TableStore.string (t : TableStore) (id : Nat) : Text :=
  if id = 0 then [] else (Table.find t.text.active id).getD []

/-- The long name of an optional ordinal, empty where there is none. -/
def TableStore.longName (t : TableStore) (o : Option Nat) : Text := ((o.bind t.entry).map (·.longName)).getD []

/-- The short name of an ordinal. -/
def TableStore.shortName (t : TableStore) (o : Nat) : Text := ((t.entry o).map (·.shortName)).getD []

/-- The connections of an optional ordinal: its notes' strings in order, the empty ones left out (R75). -/
def TableStore.connections (t : TableStore) (o : Option Nat) : List Text :=
  match o.bind t.entry with
  | none => []
  | some e => (e.notes.map (fun id => t.string id.toNat)).filter (fun s => !s.isEmpty)

/-- The door words of the next calling stop (R73). -/
def TableStore.doorWords (t : TableStore) (o : Option Nat) : Text :=
  match (o.bind t.entry).map RouteEntry.side with
  | some .left => t.string 5
  | some .right => t.string 6
  | some .both => t.string 7
  | some .unknown => []
  | none => []

/-- The text of the local notice of a kind, from the record and the tables as they stand (R163). Where the record holds no n,
or no approach target, the name of the stop is empty (log 52, the model's choice). -/
def localText (t : TableStore) (r : Progress) : ApproachKind → Text
  | .calling =>
    joinCut 96 ([t.string 4, t.longName r.n, (r.arrival.map hhmm).getD [], t.doorWords r.n] ++ t.connections r.n)
  | .closedDoor => joinCut 96 [t.string 8, t.longName (r.inForce.map (·.target))]

/-- The default text (R161): text 9, the coach number, the long name of the final calling stop; empty when the coach
number is 0 or C is empty. -/
def defaultLine (t : TableStore) (coachNumber : Nat) (calling : List Nat) : Text :=
  if coachNumber = 0 ∨ calling = [] then []
  else joinCut 96 [t.string 9, decimal coachNumber, t.longName (finalStop calling)]

end Sys2Proof.Machine
end

