-- ==== Sys2Proof/Machine/Reckoning.lean ====
section
/-! DEFINITION. The Reckoning Unit (chapter 5): POSITION and TIME frames, the progress computation, freshness and HOLD,
recomputation, and the clock. The seconds tick is in Machine/Tick.lean, STOP_CANCEL in Machine/Management.lean. -/

namespace Sys2Proof.Machine

/-! ### The fields of a frame (R84, R85) -/

/-- The clamped fields of an accepted frame (R85). -/
def clampedFrame (f : PositionFields) : LastFrame :=
  { atPlatform := f.atPlatform, door := f.door, d := f.d.toNat, a := f.a.toNat, sRun := min f.sRun.toNat 1048575,
    v := min f.v.toNat 1000, delay := max (-60) (min f.delay.toInt 999) }

/-- Whether a POSITION frame is accepted (R84). The portion is the one the unit took. Without an active ROUTE table the
entry count is 0, and no `d` is below it. -/
def accepts (t : TableStore) (r : ReckoningUnit) (f : PositionFields) : Bool :=
  holdsPortion f.mask r.portion && decide (f.d.toNat < t.entryCount) &&
    (!f.atPlatform || decide (f.a.toNat < t.entryCount))

/-- The smoothed speed (R87). -/
def smoothed (r : Progress) (v : Nat) : Nat :=
  match r.state, r.vs with
  | .hold, _ => v
  | .awaitingPosition, _ => v
  | .noRoute, _ => v
  | _, none => v
  | _, some vs => (3 * vs + v + 2) / 4

/-! ### The progress computation (R88 to R93) -/

/-- The ordinals of the record found by R88. -/
structure Ordinals where
  a : Option Nat
  p : Option Nat
  n : Option Nat
  h : Option Nat
  deriving DecidableEq, Repr

/-- The ordinals by R88: at a calling stop, or otherwise. -/
def findOrdinals (calling halting : List Nat) (f : LastFrame) : Ordinals :=
  if f.atPlatform ∧ f.a ∈ calling then
    { a := some f.a, p := some f.a, n := memberAbove calling f.a, h := none }
  else
    let n := memberAbove calling f.d
    { a := none, p := memberAtOrBelow calling f.d, n := n, h := if n.isSome then memberAbove halting f.d else none }

/-- A distance less `s_run`, 0 when negative (R89, R91). -/
def lessRun (distance sRun : Nat) : Nat := distance - sRun

/-- The ETA of a running train over a remaining distance (R90). -/
def etaOf (remaining vs : Nat) : Option Nat :=
  if vs < 20 then (if remaining = 0 then some 0 else none) else some (min 5999 ((remaining * 10 + vs - 1) / vs))

/-- The approach target of a running train (R91): the closed-door stop before `n`, or `n`. -/
def approachTarget (o : Ordinals) : Option Approach :=
  match o.n with
  | none => none
  | some n =>
    match o.h with
    | some h => if h < n then some ⟨h, .closedDoor⟩ else some ⟨n, .calling⟩
    | none => some ⟨n, .calling⟩

/-- The decision of R91 for a target at a remaining distance: within the approach distance or the approach lead. -/
def within (r : ReckoningUnit) (remaining vs : Nat) : Bool :=
  decide (remaining ≤ r.distanceInUse) ||
    (match etaOf remaining vs with
     | some e => decide (e ≤ r.leadInUse)
     | none => false)

/-- The permille of a running train (R92). -/
def permilleOf (t : TableStore) (o : Ordinals) (d sRun : Nat) : Nat :=
  match o.p, o.n with
  | some p, some n => min 999 ((t.distance p d + sRun) * 1000 / t.distance p n)
  | _, _ => 0

/-- The arrival minute (R93) for a next stop, an ETA and the delay of the last frame. -/
def arrivalOf (t : TableStore) (c : Clock) (n eta : Option Nat) (delay : Int) : Option Nat :=
  match c.valid, eta with
  | true, some e => some ((c.seconds + e + 30) / 60 % 1440)
  | _, _ => ((n.bind t.entry).bind (·.arrivalAsRead)).map (fun m => (((m : Int) + delay) % 1440).toNat)

/-- The state R88 finds before the approach test: AT_STOP, FINISHED, or running. -/
def stateOf (o : Ordinals) : ProgressState :=
  match o.n, o.a with
  | none, _ => .finished
  | some _, some _ => .atStop
  | some _, none => .running

/-- Whether an approach toward a running train's target is in force (R91): it was in force with that target before, or the
decision for the target holds. At an accepted frame an approach kept through HOLD counts as in force before. -/
def ReckoningUnit.approaches (t : TableStore) (r : ReckoningUnit) (f : LastFrame) (framed : Bool) (vs : Nat)
    (target : Option Approach) : Bool :=
  ((r.progress.state == .approaching ||
      (framed && r.progress.state == .hold && r.progress.remembered == some .approaching)) &&
    r.progress.approach == target) ||
  (match target with
   | some g => within r (lessRun (t.distance f.d g.target) f.sRun) vs
   | none => false)

/-- The progress computation on the last frame (R88 to R93) outside HOLD; `framed` says that it is that of an accepted
frame (R91). -/
def ReckoningUnit.compute (t : TableStore) (r : ReckoningUnit) (f : LastFrame) (framed : Bool) : Progress :=
  let old := r.progress
  let vs := old.vs.getD 0
  let o := findOrdinals r.calling r.halting f
  match stateOf o with
  | .finished =>
    { old with state := .finished, remembered := none, d := some f.d, a := o.a, p := o.p, n := none, h := none,
               sRun := f.sRun, remaining := 0, eta := none, permille := 0, arrival := none, approach := none }
  | .atStop =>
    { old with state := .atStop, remembered := none, d := some f.d, a := o.a, p := o.p, n := o.n, h := none,
               sRun := f.sRun, remaining := t.distance f.a (o.n.getD 0), eta := none, permille := 0,
               arrival := arrivalOf t r.clock o.n none f.delay, approach := none }
  | _ =>
    let remaining := lessRun (t.distance f.d (o.n.getD 0)) f.sRun
    let eta := etaOf remaining vs
    let target := approachTarget o
    let near := r.approaches t f framed vs target
    { old with state := if near then .approaching else .running, remembered := none, d := some f.d, a := none,
               p := o.p, n := o.n, h := o.h, sRun := f.sRun, remaining := remaining, eta := eta,
               permille := permilleOf t o f.d f.sRun, arrival := arrivalOf t r.clock o.n eta f.delay,
               approach := if near then target else none }

/-- A recomputation taken in HOLD (R101): the state stays HOLD and no approach is entered. -/
def ReckoningUnit.recomputeHeld (t : TableStore) (r : ReckoningUnit) (f : LastFrame) : Progress :=
  let old := r.progress
  let o := findOrdinals r.calling r.halting f
  match stateOf o with
  | .finished =>
    { old with remembered := some .finished, d := some f.d, a := o.a, p := o.p, n := none, h := none, remaining := 0,
               eta := none, permille := 0, arrival := none, approach := none }
  | .atStop =>
    { old with remembered := some .atStop, d := some f.d, a := o.a, p := o.p, n := o.n, h := none,
               remaining := t.distance f.a (o.n.getD 0), eta := none, permille := 0,
               arrival := arrivalOf t r.clock o.n none f.delay, approach := none }
  | _ =>
    let keeps : Bool := old.remembered == some .approaching && old.approach == approachTarget o
    { old with remembered := some (if keeps then .approaching else .running), d := some f.d, a := none, p := o.p,
               n := o.n, h := o.h, remaining := lessRun (t.distance f.d (o.n.getD 0)) f.sRun, eta := none,
               permille := permilleOf t o f.d f.sRun, arrival := arrivalOf t r.clock o.n none f.delay,
               approach := if keeps then old.approach else none }

/-- The record with the values R83 gives for NO_ROUTE and AWAITING_POSITION. -/
def Progress.cleared (r : Progress) (state : ProgressState) : Progress :=
  { r with state := state, remembered := none, d := none, a := none, p := none, n := none, h := none, remaining := 0,
           eta := none, permille := 0, arrival := none, approach := none }

/-- A recomputation of the record (R100, R101). -/
def ReckoningUnit.recompute (t : TableStore) (r : ReckoningUnit) : Progress :=
  match r.lastFrame with
  | none => r.progress.cleared (if t.entryCount = 0 then .noRoute else .awaitingPosition)
  | some f => if r.progress.state = .hold then r.recomputeHeld t f else r.compute t f false

/-- The unit with C and the halting set recomputed for its portion, and then the record (R72). -/
def ReckoningUnit.recomputeAll (t : TableStore) (r : ReckoningUnit) : ReckoningUnit :=
  let sets := { r with calling := t.callingSet r.portion, halting := t.haltingSet }
  { sets with progress := sets.recompute t }

/-! ### Taking a POSITION frame (R86) -/

/-- The unit after an accepted frame (R86 steps 1 to 5). -/
def ReckoningUnit.afterFrame (t : TableStore) (params : Params) (r : ReckoningUnit) (f : LastFrame) : ReckoningUnit :=
  let vs := smoothed r.progress f.v
  let r1 := { r with lastFrame := some f, distanceInUse := params.approachDistance, leadInUse := params.approachLead,
                     progress := { r.progress with vs := some vs } }
  { r1 with progress := { r1.compute t f true with delay := f.delay, door := f.door }, freshness := params.freshness }

/-- The announcements of an event that changed the record (R95). -/
def reckoningSays (old new : Progress) (framed : Bool) : List Instr :=
  Progress.newsOf old new ++ Progress.activities old new framed

/-- The Reckoning Unit takes a POSITION frame (R84, R86, R95, R96). -/
def execPosition (f : PositionFields) (s : State) : StepOutcome :=
  let t := s.taken (.position f)
  if accepts s.tables.asReckoned s.reck f then
    let r := s.reck.afterFrame s.tables.asReckoned s.mgmt.params (clampedFrame f)
    .next { t with reck := r, announced := t.announced ++ reckoningSays s.reck.progress r.progress true ++
                                            [.departureReport f.d.toNat] }
  else .next t

/-! ### Recomputation (R99, R100) -/

/-- The Reckoning Unit takes a new portion (R38 step 1, R72, R100); step 2 of R38 follows. -/
def execPortionChangeReckoning (portion : Nat) (s : State) : StepOutcome :=
  let t := s.taken (.portionChangeReckoning portion)
  let r := ReckoningUnit.recomputeAll s.tables.asReckoned { s.reck with portion := portion }
  .next { t with reck := r, announced := t.announced ++ reckoningSays s.reck.progress r.progress false ++
                                          [.portionChangeResv, .portionChangeNotice portion, .formationChangePanel .portion] }

/-- The announcements of step 2 of R57: one to each unit that reads an activated family, naming those it reads. -/
def stepTwo (fs : FamilySet) : List Instr :=
  (if fs.seat || fs.resv || fs.route || fs.text then [Instr.activationAnnouncementResv { fs with page := false }] else []) ++
  (if fs.seat then [Instr.seatActivationEngine] else []) ++
  (if fs.route || fs.text then
    [Instr.activationAnnouncementNotice { seat := false, resv := false, route := fs.route, text := fs.text, page := false }]
   else []) ++
  (if fs.route || fs.text || fs.page then
    [Instr.activationAnnouncementPanel { fs with seat := false, resv := false }]
   else [])

/-- The Reckoning Unit takes a ROUTE activation (R99) and works on the new table from here on; step 2 of R57 follows for the
activated families. -/
def execRouteActivationReckoning (families : FamilySet) (s : State) : StepOutcome :=
  let t := s.taken (.routeActivationReckoning families)
  let r : ReckoningUnit :=
    { s.reck with calling := s.tables.callingSet s.reck.portion, halting := s.tables.haltingSet, lastFrame := none,
                  progress := s.reck.progress.cleared .awaitingPosition }
  .next { t with reck := r, tables := { s.tables with replacedRoute := none },
                 announced := t.announced ++ reckoningSays s.reck.progress r.progress false ++ stepTwo families }

/-! ### HOLD (R97) -/

/-- Whether the freshness counter counts in a state (R97). -/
def ProgressState.counts : ProgressState → Bool
  | .atStop => true
  | .running => true
  | .approaching => true
  | .noRoute => false
  | .awaitingPosition => false
  | .finished => false
  | .hold => false

/-- The record at entry into HOLD (R97). -/
def ReckoningUnit.held (t : TableStore) (r : ReckoningUnit) : Progress :=
  { r.progress with state := .hold, remembered := some r.progress.state, eta := none,
                    arrival := arrivalOf t r.clock r.progress.n none ((r.lastFrame.map (·.delay)).getD r.progress.delay) }

/-- The freshness counter reaches 0: the unit enters HOLD, with its announcements and POSITION_STALE (R97). -/
def ReckoningUnit.expire (t : TableStore) (r : ReckoningUnit) : Did ReckoningUnit :=
  let p := r.held t
  ⟨{ r with freshness := 0, progress := p }, reckoningSays r.progress p false ++ [.faultReport .positionStale]⟩

/-- The freshness counter reaches 0 in a state in which it counts (R97). -/
def execFreshnessExpiry (s : State) : StepOutcome :=
  if s.reck.progress.state.counts then
    .next { s with reck := (s.reck.expire s.tables.asReckoned).unit
                   announced := s.announced ++ (s.reck.expire s.tables.asReckoned).said }
  else .next s

/-! ### The clock (R102, R104) -/

/-- The unit with its clock replaced, and the minute announcement where it applies (R102). -/
def State.setClock (s : State) (c : Clock) : State :=
  { s with reck := { s.reck with clock := c }, announced := s.announced ++ Clock.news s.reck.clock c }

/-- The Reckoning Unit takes a TIME frame (R104). -/
def execTime (payload : List Byte) (s : State) : StepOutcome :=
  let t := s.taken (.time payload)
  let seconds := wordAt payload 0 3
  let ms := wordAt payload 3 2
  if payload.length < 5 ∨ 86399 < seconds ∨ 999 < ms then .next t
  else .next (t.setClock { seconds := seconds, phase := ms, valid := true })

/-- The clock's phase completes a second (R102). The part's time base runs while it has power. -/
def execClockSecond (s : State) : StepOutcome :=
  if s.powered then .next (s.setClock { s.reck.clock with seconds := (s.reck.clock.seconds + 1) % 86400, phase := 0 })
  else .next s

end Sys2Proof.Machine
end

