-- ==== Sys2Proof/Machine/Reservation.lean ====
section
/-! DEFINITION. The Reservation Unit (chapter 6): placement, resolution and the queue requests. RESV_ADD and RESV_DROP, which
it executes for the Management Unit, are in Machine/Management.lean. -/

namespace Sys2Proof.Machine

/-! ### Placement (R109, R110, R111) -/

/-- Whether two spans overlap (R107): each begins before the other ends. -/
def spansOverlap (b a b' a' : Nat) : Bool := decide (b < a' ∧ b' < a)

/-- A chain entry entered at the place its b gives (R111, R115). -/
def chainInsert : List ChainEntry → ChainEntry → List ChainEntry
  | [], e => [e]
  | x :: xs, e => if e.b < x.b then e :: x :: xs else x :: chainInsert xs e

/-- The chain of a slot (R111): its placed records in ascending order of b. -/
def chainOf (ps : Table Placement) (slot : Nat) : List ChainEntry :=
  ps.foldl (fun c e =>
    match e.2.outcome with
    | .placed b a => if e.2.slot = slot then chainInsert c { b := b, a := a, note := e.2.note } else c
    | .unplaced _ => c) []

/-- The unplaced count (R109). -/
def unplacedCount (ps : Table Placement) : Nat :=
  (ps.filter (fun e => match e.2.outcome with
    | .unplaced _ => true
    | .placed _ _ => false)).length

/-- The ordinals of a record when both its codes are on the route and both are members of C (R110 test 2). -/
def onRoute (t : TableStore) (calling : List Nat) (r : ResvRecord) : Option (Nat × Nat) :=
  match t.lookup r.board, t.lookup r.alight with
  | some b, some a => if b ∈ calling ∧ a ∈ calling then some (b, a) else none
  | _, _ => none

/-- The decision of R110 for one record, against the records placed before it in the run. -/
def place (t : TableStore) (calling : List Nat) (before : Table Placement) (r : ResvRecord) : PlacementOutcome :=
  if (enabledSlot t.seat.active r.slot).isNone ∨ 127 < r.slot then .unplaced .seatDisabled
  else
    match onRoute t calling r with
    | none => .unplaced .notOnRoute
    | some (b, a) =>
      if a ≤ b then .unplaced .order
      else if (chainOf before r.slot).any (fun e => spansOverlap b a e.b e.a) then .unplaced .overlap
      else .placed b a

/-- The placement of a record with its outcome. -/
def ResvRecord.placement (r : ResvRecord) (o : PlacementOutcome) : Placement :=
  { id := r.id, slot := r.slot, note := r.note, outcome := o }

/-- A placement run over the present records in index order (R110), after those in `before`. -/
def placeAll (t : TableStore) (calling : List Nat) : Table Placement → Table (List Byte) → Table Placement
  | before, [] => before
  | before, (i, bytes) :: rest =>
    placeAll t calling (before ++ [(i, (resvRecord bytes).placement (place t calling before (resvRecord bytes)))]) rest

/-- The unit after a placement run (R110), the basis renewed, with the activation counts of the banks it read (log 13). -/
def ReservationUnit.run (t : TableStore) (calling : List Nat) (u : ReservationUnit) : ReservationUnit :=
  { u with placements := placeAll t calling [] t.resv.active, basisCount := t.route.count, basisCalling := calling,
           basisSeat := t.seat.count, basisResv := t.resv.count }

/-- Whether the placement basis is out of date (R109). -/
def ReservationUnit.stale (t : TableStore) (calling : List Nat) (u : ReservationUnit) : Bool :=
  u.basisCount != t.route.count || u.basisCalling != calling

/-- The basis renewed where R109 requires it. -/
def ReservationUnit.renew (t : TableStore) (calling : List Nat) (u : ReservationUnit) : ReservationUnit :=
  if u.stale t calling then u.run t calling else u

/-! ### Resolution (R118 to R122) -/

/-- The state resolution and the strip read: the remembered state in HOLD (R118, R183). -/
def Progress.effective (r : Progress) : ProgressState :=
  match r.state with
  | .hold => r.remembered.getD .hold
  | .noRoute => .noRoute
  | .awaitingPosition => .awaitingPosition
  | .atStop => .atStop
  | .running => .running
  | .approaching => .approaching
  | .finished => .finished

/-- The current segment start (R118): none where there is no resolution; otherwise cur, itself possibly none. -/
def currentStart (r : Progress) (calling : List Nat) : Option (Option Nat) :=
  match r.effective with
  | .atStop => some r.a
  | .running => some r.p
  | .approaching => some r.p
  | .finished => some (finalStop calling)
  | .noRoute => none
  | .awaitingPosition => none
  | .hold => none

/-- The horizon stops (R120). -/
def horizonStops (calling : List Nat) (cur n : Option Nat) (horizon : Nat) : List Nat :=
  match cur, n with
  | some c, _ => (calling.filter (fun m => c < m)).take horizon
  | none, some n => (calling.filter (fun m => n ≤ m)).take horizon
  | none, none => []

/-- What the seat of a slot shows (R119): lamp, the text id of line A, the stop of line B, and the note of the record shown. -/
structure SeatVerdict where
  lamp   : Lamp
  textId : Nat
  stop   : Option Nat
  note   : Nat
  deriving DecidableEq, Repr

/-- The cases of R119 for a chain. -/
def seatVerdict (r : Progress) (calling : List Nat) (horizon : Nat) (cur : Option Nat) (chain : List ChainEntry) :
    SeatVerdict :=
  match cur.bind (fun c => chain.find? (fun x => decide (x.b ≤ c ∧ c < x.a))) with
  | some x =>
    if (r.inForce.map (·.kind)) = some .calling ∧ r.n = some x.a then
      match chain.find? (fun y => y.b == x.a) with
      | some y => ⟨.red, 1, some y.a, y.note⟩
      | none => ⟨.amber, 3, some x.a, x.note⟩
    else ⟨.red, 1, some x.a, x.note⟩
  | none =>
    match chain.find? (fun y => match cur with
      | some c => decide (c < y.b)
      | none => true) with
    | some y => if y.b ∈ horizonStops calling cur r.n horizon then ⟨.amber, 2, some y.b, y.note⟩ else ⟨.green, 0, none, 0⟩
    | none => ⟨.green, 0, none, 0⟩

/-- The content of an enabled slot (R118 to R122); none is BLANK. -/
def resolveSlot (s : State) (ps : Table Placement) (slot : Nat) (seat : SeatSlot) : Option SeatContent :=
  if s.mgmt.mode.dark then none
  else
    match currentStart s.reck.progress s.reck.calling with
    | none => none
    | some cur =>
      let v := seatVerdict s.reck.progress s.reck.calling s.mgmt.params.horizon cur (chainOf ps slot)
      some { lamp := v.lamp, dim := s.mgmt.mode == .quiet, label := seat.label,
             lineA := (s.tables.string v.textId).take 12,
             lineB := ((v.stop.map s.tables.shortName).getD []).take 12,
             icon := if seat.icon && v.lamp != .green then v.note else 0 }

/-- The table of contents with one slot's content: a BLANK slot is not listed. -/
def setContent (contents : Table SeatContent) (slot : Nat) (c : Option SeatContent) : Table SeatContent :=
  match c with
  | some c => Table.set contents slot c
  | none => Table.erase contents slot

/-- The resolution of one slot (R124, R125): the new content and the queue request where it changed. -/
def ReservationUnit.resolveOne (s : State) (u : ReservationUnit) (slot : Nat) : Did ReservationUnit :=
  match enabledSlot s.tables.seat.active slot with
  | none => Did.nothing u
  | some seat =>
    let c := resolveSlot s u.placements slot seat
    if c = Table.find u.contents slot then Did.nothing u
    else ⟨{ u with contents := setContent u.contents slot c }, [.queueRequest slot]⟩

/-- The contents of every enabled slot of a SEAT bank under given placements. -/
def allContents (s : State) (ps : Table Placement) : Table SeatContent :=
  (s.tables.seat.active.filterMap (fun e =>
    if (seatSlot e.2).enabled then (resolveSlot s ps e.1 (seatSlot e.2)).map (fun c => (e.1, c)) else none))

/-- The resolution of every enabled slot (R123, R125, R126): the requests in ascending slot order, for the slots whose
content changed or, when forced, for every enabled slot. A slot no longer enabled loses its content. -/
def ReservationUnit.resolveAll (s : State) (force : Bool) (u : ReservationUnit) : Did ReservationUnit :=
  let contents := allContents s u.placements
  ⟨{ u with contents := contents },
   ((enabledSlots s.tables.seat.active).filter
     (fun i => force || Table.find contents i != Table.find u.contents i)).map Instr.queueRequest⟩

/-- The state after the Reservation Unit has become `d`, with its announcements. -/
def State.withResv (s : State) (d : Did ReservationUnit) : State :=
  { s with resv := d.unit, announced := s.announced ++ d.said }

/-- The basis renewed, a placement run where `run` asks for one, and every slot resolved (R109, R112, R123). -/
def State.resolveSeats (s : State) (run force : Bool) : State :=
  let u := s.resv.renew s.tables s.reck.calling
  s.withResv (ReservationUnit.resolveAll s force (if run then u.run s.tables s.reck.calling else u))

/-- The Reservation Unit takes an announcement of the Reckoning Unit (R112, R123): a placement run for a changed set, a
resolution for a changed set or a named item that R123 lists. -/
def execReckoningAnnouncementResv (news : ReckoningNews) (s : State) : StepOutcome :=
  let t := s.taken (.reckoningAnnouncementResv news)
  match news with
  | .sets => .next (t.resolveSeats true false)
  | .progress c =>
    if Changed.forResv c ∨ s.resv.stale s.tables s.reck.calling then .next (t.resolveSeats false false) else .next t

/-- The Reservation Unit takes an activation (R112, R123, R126). -/
def execActivationAnnouncementResv (families : FamilySet) (s : State) : StepOutcome :=
  .next ((s.taken (.activationAnnouncementResv families)).resolveSeats
    (families.seat || families.resv || families.route) (families.seat || families.text))

/-- The Reservation Unit takes a portion change (R112). -/
def execPortionChangeResv (s : State) : StepOutcome := .next ((s.taken .portionChangeResv).resolveSeats true false)

/-- The Reservation Unit takes a mode change (R122, R123). -/
def execModeChangeResv (s : State) : StepOutcome := .next ((s.taken .modeChangeResv).resolveSeats false false)

/-- The Reservation Unit takes a new horizon (R61, R123). -/
def execHorizonChange (s : State) : StepOutcome := .next ((s.taken .horizonChange).resolveSeats false false)

end Sys2Proof.Machine
end

