-- ==== Sys2Proof/Machine/SeatBus.lean ====
section
/-! DEFINITION. The Seat Bus Engine (chapter 7): the dirty queue, the choice of work, transactions, faulted modules, refresh
and the blanking pass. Its part of the seconds tick is in Machine/Tick.lean. -/

namespace Sys2Proof.Machine

/-- Whether a slot's module state is FAULTED (R128). -/
def SeatBusEngine.isFaulted (u : SeatBusEngine) (slot : Nat) : Bool := (Table.find u.faulted slot).isSome

/-- The faulted-module count: the enabled slots whose module state is FAULTED (R128). -/
def faultedCount (t : TableStore) (u : SeatBusEngine) : Nat :=
  ((enabledSlots t.seat.active).filter u.isFaulted).length

/-- A queue request (R131): the slot joins at the tail unless it is there. A slot that the active SEAT table does not
enable is not queued (log 8). -/
def SeatBusEngine.request (t : TableStore) (u : SeatBusEngine) (slot : Nat) : SeatBusEngine :=
  if slot ∈ u.dirty ∨ (enabledSlot t.seat.active slot).isNone then u else { u with dirty := u.dirty ++ [slot] }

/-- The message of a dirty update or a refresh (R129): SHOW of the content held, or BLANK. A slot newly enabled by a SEAT
activation holds BLANK until the Reservation Unit has resolved it (log 44, the model's choice). -/
def contentMessage (s : State) (slot : Nat) (address : Byte) : List Byte :=
  match Table.find s.resv.contents slot with
  | some c => showMessage address c
  | none => blankMessage address

/-- The message of a transaction (R129, R137, R140). -/
def messageFor (s : State) (kind : TransactionKind) (slot : Nat) (address : Byte) : List Byte :=
  match kind with
  | .dirty => contentMessage s slot address
  | .refresh => contentMessage s slot address
  | .blanking => blankMessage address
  | .repoll => pingMessage address

/-- A transaction begins (R134): a string not selected is selected and its settle time runs first. The answer is awaited
from the event that sends the message, the table having no row for the end of its sending (R130, log 51, the model's
choice). -/
def SeatBusEngine.begin (s : State) (u : SeatBusEngine) (kind : TransactionKind) (slot : Nat) (seat : SeatSlot) :
    SeatBusEngine :=
  { u with
    selected := some seat.string
    transaction := some { slot := slot, address := seat.address, kind := kind, message := messageFor s kind slot seat.address,
                          attempt := 1, awaiting := u.selected == some seat.string, discard := false } }

/-- The first slot of a list that the active SEAT table enables and that passes a test, with its fields. -/
def firstSlot (t : TableStore) (slots : List Nat) (test : Nat → Bool) : Option (Nat × SeatSlot) :=
  (slots.filter test).findSome? (fun i => (enabledSlot t.seat.active i).map (fun x => (i, x)))

/-- The dirty queue from its first slot that can be sent: heads that are FAULTED, or that the active SEAT table no longer
enables, leave the queue without a transaction (R132, R133, log 8). -/
def SeatBusEngine.sendable (t : TableStore) (u : SeatBusEngine) : List Nat :=
  u.dirty.dropWhile (fun i => u.isFaulted i || (enabledSlot t.seat.active i).isNone)

/-- The choice in RESTART_PENDING: the blanking pass (R140). -/
def SeatBusEngine.chooseBlanking (s : State) (u : SeatBusEngine) : SeatBusEngine :=
  let sweep (pointer : Nat) : SeatBusEngine :=
    match firstSlot s.tables (enabledSlots s.tables.seat.active) (fun i => pointer ≤ i) with
    | some (i, seat) => { u.begin s .blanking i seat with blanking := .running (i + 1) }
    | none => { u with blanking := .done }
  match u.blanking with
  | .none => sweep 0
  | .running pointer => sweep pointer
  | .done => u

/-- The choice in every other mode (R132): the head of the dirty queue, a due re-poll, the refresh. While a re-poll runs, its
timer stays at 0 (log 45, the model's choice). -/
def SeatBusEngine.chooseWork (s : State) (u : SeatBusEngine) : SeatBusEngine :=
  match u.sendable s.tables with
  | i :: rest =>
    match enabledSlot s.tables.seat.active i with
    | some seat => SeatBusEngine.begin s { u with dirty := rest } .dirty i seat
    | none => { u with dirty := rest }
  | [] =>
    let v := { u with dirty := [] }
    match firstSlot s.tables (enabledSlots s.tables.seat.active) (fun i => Table.find u.faulted i == some 0) with
    | some (i, seat) => v.begin s .repoll i seat
    | none =>
      if u.refreshActive then
        match firstSlot s.tables (enabledSlots s.tables.seat.active) (fun i => u.refreshPointer ≤ i && !u.isFaulted i) with
        | some (i, seat) => { v.begin s .refresh i seat with refreshPointer := i + 1 }
        | none => { v with refreshActive := false, refreshPointer := 0 }
      else v

/-- The engine's choice (R132): made without a transaction, once the relay is open (R128), by the mode as it stands. -/
def SeatBusEngine.choose (s : State) (u : SeatBusEngine) : SeatBusEngine :=
  if u.transaction.isSome ∨ s.line.relay = .closed then u
  else if s.mgmt.mode = .restartPending then u.chooseBlanking s
  else u.chooseWork s

/-- A lamp fault of a slot (R135, R138): reported while its mark is clear, and the mark set. -/
def SeatBusEngine.lampFault (u : SeatBusEngine) (slot : Nat) : Did SeatBusEngine :=
  if slot ∈ u.lampReported then Did.nothing u
  else ⟨{ u with lampReported := u.lampReported ++ [slot] }, [.faultReport (.seatLamp slot)]⟩

/-- A good answer ends the transaction (R135, R137, R140): a slot that was FAULTED becomes OK and is queued. An end between
a SEAT activation and its announcement counts as any other (log 46, the model's choice). -/
def SeatBusEngine.answered (t : TableStore) (u : SeatBusEngine) (x : Transaction) (lamp : Bool) : Did SeatBusEngine :=
  let v := { u with transaction := none }
  if x.discard then Did.nothing v
  else
    let w := if u.isFaulted x.slot then SeatBusEngine.request t { v with faulted := Table.erase v.faulted x.slot } x.slot else v
    if lamp then w.lampFault x.slot else Did.nothing w

/-- The last timeout ends the transaction (R135, R137, R140): the slot becomes or stays FAULTED with its re-poll timer
loaded; the entry into FAULTED is reported. An end between a SEAT activation and its announcement counts as any other, also
for a slot that the new table disables (log 46, the model's choice). -/
def SeatBusEngine.unanswered (u : SeatBusEngine) (x : Transaction) : Did SeatBusEngine :=
  let v := { u with transaction := none }
  if x.discard then Did.nothing v
  else ⟨{ v with faulted := Table.set v.faulted x.slot 30 },
        if u.isFaulted x.slot then [] else [.faultReport (.seatModule x.slot)]⟩

/-- The state after the engine has become `d` and then made its choice (R132). -/
def State.withBus (s : State) (d : Did SeatBusEngine) : State :=
  { s with bus := d.unit.choose s, announced := s.announced ++ d.said }

/-- The Seat Bus Engine takes a queue request (R131, R132). -/
def execQueueRequest (slot : Nat) (s : State) : StepOutcome :=
  .next ((s.taken (.queueRequest slot)).withBus (Did.nothing (s.bus.request s.tables slot)))

/-- The Seat Bus Engine takes a SEAT activation (R141). -/
def execSeatActivationEngine (s : State) : StepOutcome :=
  .next ((s.taken .seatActivationEngine).withBus (Did.nothing
    { s.bus with
      dirty := enabledSlots s.tables.seat.active
      faulted := []
      lampReported := []
      refreshPointer := 0
      refreshActive := false
      transaction := s.bus.transaction.map (fun x => { x with discard := true })
      blanking := match s.bus.blanking with
        | .none => .none
        | .running _ => .running 0
        | .done => .running 0 }))

/-- The Seat Bus Engine takes the setting of RESTART_PENDING: a choice (R132, R140). -/
def execModeChangeEngine (s : State) : StepOutcome :=
  .next ((s.taken .modeChangeEngine).withBus (Did.nothing s.bus))

/-- The Seat Bus Engine takes a fault clear: every lamp-reported mark is cleared (R138). -/
def execFaultClearEngine (s : State) : StepOutcome :=
  .next { s.taken .faultClearEngine with bus := { s.bus with lampReported := [] } }

/-- The settle time ends and the first message is sent (R134), its answer awaited from then (log 51). -/
def execSeatSettleEnd (s : State) : StepOutcome :=
  match s.bus.transaction with
  | some x =>
    if x.awaiting then .next s else .next { s with bus := { s.bus with transaction := some { x with awaiting := true } } }
  | none => .next s

/-- A module answers (R130, R135, R137, R140). An answer that is not good, or not awaited, is discarded. -/
def execSeatAnswer (address status check : Byte) (s : State) : StepOutcome :=
  match s.bus.transaction with
  | some x =>
    if x.awaiting && goodAnswer x.address address status check then
      .next (s.withBus (s.bus.answered s.tables x (status == 1)))
    else .next s
  | none => .next s

/-- 5 ms pass with no good answer (R130, R134, R135, R137). Where the message is sent again, its answer is awaited from this
event (log 51, the model's choice). -/
def execSeatAnswerTimeout (s : State) : StepOutcome :=
  match s.bus.transaction with
  | some x =>
    if !x.awaiting then .next s
    else if x.kind ≠ .repoll ∧ x.attempt < 3 then
      .next { s with bus := { s.bus with transaction := some { x with attempt := x.attempt + 1 } } }
    else .next (s.withBus (s.bus.unanswered x))
  | none => .next s

/-- A FAULTED slot's re-poll timer reaches 0 (R137). -/
def execRepollDue (slot : Nat) (s : State) : StepOutcome :=
  if s.bus.isFaulted slot then
    .next (s.withBus (Did.nothing { s.bus with faulted := Table.set s.bus.faulted slot 0 }))
  else .next s

/-- The refresh timer reaches 0: it is loaded with 20 and the round is active (R139). -/
def execRefreshRoundBegin (s : State) : StepOutcome :=
  if s.line.relay = .opened then
    .next (s.withBus (Did.nothing { s.bus with refreshTimer := 20, refreshActive := true }))
  else .next s

end Sys2Proof.Machine
end

