-- ==== Sys2Proof/Machine/Notice.lean ====
section
/-! DEFINITION. The Notice Unit (chapter 8): the acceptance list's decision, the notice queue, the text lines, the default
line and the local notices. ACCEPT_INSERT and ACCEPT_REMOVE are in Machine/Management.lean. -/

namespace Sys2Proof.Machine

/-! ### Entries and texts -/

/-- The entry of the queue with an id, if any. -/
def NoticeUnit.find (u : NoticeUnit) (id : Nat) : Option NoticeEntry := u.queue.find? (fun e => e.id == id)

/-- The text of a notice (R146). -/
def noticeText (t : TableStore) (e : NoticeEntry) : Text :=
  match e.text with
  | .inlined cs => cs
  | .pool id => t.string id.toNat

/-- The dwell of a text of a length (R157). -/
def dwellOf (length : Nat) : Nat := if length ≤ 24 then 8 else 8 + (length - 24 + 5) / 6

/-- Whether the lines are SHOWING the entry of an id. -/
def NoticeUnit.shows (u : NoticeUnit) (id : Nat) : Bool :=
  match u.lines with
  | .showing i _ _ => i == id
  | .blank => false
  | .default => false

/-- Whether an entry asks for an urgent overlay by its priority and flag (R151, R164). -/
def NoticeEntry.wants (e : NoticeEntry) : Bool := e.effective == 0 && e.overlay

/-- The entry placed at the end of its priority class (R151): directly before the first of a higher-numbered priority. -/
def insertEntry : List NoticeEntry → NoticeEntry → List NoticeEntry
  | [], e => [e]
  | x :: xs, e => if e.effective < x.effective then e :: x :: xs else x :: insertEntry xs e

/-- The queue with the entry of an id replaced in its place. -/
def replaceEntry (q : List NoticeEntry) (e : NoticeEntry) : List NoticeEntry := q.map (fun x => if x.id = e.id then e else x)

/-! ### Shows (R157, R158, R159) -/

/-- The show in progress ends, announced as a change of the current notice text (R166). -/
def NoticeUnit.endShow (u : NoticeUnit) : Did NoticeUnit :=
  match u.lines with
  | .showing _ _ _ => ⟨{ u with lines := .default }, [.noticeTextChange .current]⟩
  | .blank => Did.nothing u
  | .default => Did.nothing u

/-- The entry as its show starts (R157): not due, its timer loaded, one show taken when it has a count. -/
def NoticeEntry.started (e : NoticeEntry) : NoticeEntry :=
  { e with due := false, repeatTimer := e.interval,
           showsRemaining := if e.count = 0 then e.showsRemaining else e.showsRemaining - 1 }

/-- The lines as R157 leaves them: a show in progress stays; otherwise BLANK in a dark mode, the first due entry's show,
or DEFAULT. -/
def NoticeUnit.settle (s : State) (u : NoticeUnit) : Did NoticeUnit :=
  match u.lines with
  | .showing _ _ _ => Did.nothing u
  | _ =>
    if s.mgmt.mode.dark then Did.nothing { u with lines := .blank }
    else
      match u.queue.find? (·.due) with
      | some e =>
        let text := (noticeText s.tables e).take 96
        ⟨{ u with queue := replaceEntry u.queue e.started, lines := .showing e.id text (dwellOf text.length) },
         [.noticeTextChange .current]⟩
      | none => Did.nothing { u with lines := .default }

/-- The removal of the entry of an id (R154), less the choice of the next show. -/
def NoticeUnit.remove (u : NoticeUnit) (id : Nat) : Did NoticeUnit :=
  match u.find id with
  | none => Did.nothing u
  | some e =>
    let v := { u with queue := u.queue.filter (fun x => x.id != id) }
    (if u.shows id then v.endShow else Did.nothing v).andThen
      (fun w => ⟨w, if e.overlayWanted then [.overlayEnd id] else []⟩)

/-- The removal of the entry of an id (R154), the next show chosen. -/
def NoticeUnit.removeAndSettle (s : State) (u : NoticeUnit) (id : Nat) : Did NoticeUnit :=
  (u.remove id).andThen (NoticeUnit.settle s)

/-- Whether an entry leaves the queue at the counted end of a show (R158): interval 0, or its shows exhausted. -/
def NoticeEntry.spent (e : NoticeEntry) : Bool := e.interval == 0 || (e.count != 0 && e.showsRemaining == 0)

/-- The show in progress ends and counts as shown (R158), less the choice of the next show. An entry that stays keeps the due
flag that its timer set during its own show (R156, log 47, the model's choice). -/
def NoticeUnit.endCounted (u : NoticeUnit) : Did NoticeUnit :=
  match u.lines with
  | .showing id _ _ =>
    u.endShow.andThen (fun v =>
      match v.find id with
      | some e => if e.spent then v.remove id else Did.nothing v
      | none => Did.nothing v)
  | .blank => Did.nothing u
  | .default => Did.nothing u

/-- Pre-emption (R159): a priority-0 entry has become due, and a show of effective priority 1, 2 or 3 ends. -/
def NoticeUnit.preempt (u : NoticeUnit) : Did NoticeUnit :=
  match u.lines with
  | .showing id _ _ =>
    (match u.find id with
     | some e => if 1 ≤ e.effective then u.endCounted else Did.nothing u
     | none => Did.nothing u)
  | .blank => Did.nothing u
  | .default => Did.nothing u

/-- What follows when an entry of an effective priority becomes due (R157, R159). -/
def NoticeUnit.nowDue (s : State) (u : NoticeUnit) (effective : Nat) : Did NoticeUnit :=
  (if effective = 0 then u.preempt else Did.nothing u).andThen (NoticeUnit.settle s)

/-! ### Admission, update, eviction (R151, R152, R153) -/

/-- The admission of a new entry (R151). -/
def NoticeUnit.admission (s : State) (u : NoticeUnit) (e : NoticeEntry) : Did NoticeUnit :=
  let d : Did NoticeUnit := ⟨{ u with queue := insertEntry u.queue e }, if e.overlayWanted then [.overlayRequest e.id] else []⟩
  d.andThen (fun v => v.nowDue s e.effective)

/-- What an update announces of its overlay (R164, R166). -/
def overlayNews (t : TableStore) (old new : NoticeEntry) : List Instr :=
  if new.overlayWanted && !old.overlayWanted then [.overlayRequest new.id]
  else if !new.overlayWanted && old.overlayWanted then [.overlayEnd new.id]
  else if new.overlayWanted && noticeText t old != noticeText t new then [.noticeTextChange (.entry new.id)]
  else []

/-- The update of an entry whose id is queued (R153); `e` is the notice as it would be admitted. -/
def NoticeUnit.update (s : State) (u : NoticeUnit) (old e : NoticeEntry) : Did NoticeUnit :=
  let new := { e with repeatTimer := old.repeatTimer }
  let queue := if e.effective = old.effective then replaceEntry u.queue new
               else insertEntry (u.queue.filter (fun x => x.id != e.id)) new
  let d : Did NoticeUnit := ⟨{ u with queue := queue }, overlayNews s.tables old new⟩
  if u.shows e.id then (d.andThen NoticeUnit.endShow).andThen (NoticeUnit.settle s)
  else d.andThen (fun v => v.nowDue s e.effective)

/-- An accepted notice or a local notice offered to the queue: an update, an admission, an eviction or a drop (R151 to
R153). -/
def NoticeUnit.offer (s : State) (u : NoticeUnit) (e : NoticeEntry) : Did NoticeUnit :=
  match u.find e.id with
  | some old => u.update s old e
  | none =>
    if u.queue.length < 16 then u.admission s e
    else
      match u.queue.getLast? with
      | some last =>
        if e.effective < last.effective then
          (({ u with dropped := count16 u.dropped 1 } : NoticeUnit).removeAndSettle s last.id).andThen
            (fun v => v.admission s e)
        else Did.nothing { u with dropped := count16 u.dropped 1 }
      | none => Did.nothing { u with dropped := count16 u.dropped 1 }

/-! ### Taking a notice (R146, R147) -/

/-- Whether a filter entry matches a notice (R147). -/
def FilterEntry.matchesNotice (x : FilterEntry) (f : NoticeFields) (portion : Nat) : Bool :=
  (f.category &&& x.categoryMask) == (x.categoryValue &&& x.categoryMask) &&
    (f.language &&& x.languageMask) == (x.languageValue &&& x.languageMask) && holdsPortion x.portions portion

/-- The decision of the acceptance list (R147): the effective priority of an accepted notice, none for a rejected one. -/
def decideNotice (list : List FilterEntry) (f : NoticeFields) (portion : Nat) : Option Nat :=
  match list.find? (fun x => x.matchesNotice f portion) with
  | some x => if x.accept then some (x.override.getD f.priority.toNat) else none
  | none => none

/-- The repeat interval as taken (R146): 0 stays 0, 1..9 becomes 10, above 3600 becomes 3600. -/
def intervalOf (n : Nat) : Nat := if n = 0 then 0 else clamp 10 3600 n

/-- The entry that an accepted notice makes (R146, R151). -/
def noticeEntry (f : NoticeFields) (effective : Nat) : NoticeEntry :=
  { id := f.id.toNat, category := f.category, language := f.language, priority := f.priority.toNat, mask := f.mask,
    overlay := f.overlay, interval := intervalOf f.interval.toNat, count := f.count.toNat, lifetime := f.lifetime.toNat,
    text := match f.text with
      | .pool id => .pool id
      | .inlined cs => .inlined (cs.take 96),
    effective := effective, due := true, repeatTimer := 0, showsRemaining := f.count.toNat,
    remaining := if f.lifetime.toNat = 0 then none else some f.lifetime.toNat,
    overlayWanted := effective == 0 && f.overlay }

/-- The unit takes a NOTICE (R146), with the portion it took at the last portion announcement (R165). -/
def NoticeUnit.take (s : State) (u : NoticeUnit) (f : NoticeFields) : Did NoticeUnit :=
  if f.id.toNat = 0 ∨ 65279 < f.id.toNat then Did.nothing { u with rejected := count16 u.rejected 1 }
  else if !holdsPortion f.mask u.portion then Did.nothing u
  else
    match decideNotice u.acceptance f u.portion with
    | none => Did.nothing { u with rejected := count16 u.rejected 1 }
    | some effective => u.offer s (noticeEntry f effective)

/-- The state after the Notice Unit has become `d`, with its announcements. -/
def State.withNotice (s : State) (d : Did NoticeUnit) : State :=
  { s with notice := d.unit, announced := s.announced ++ d.said }

/-- The Notice Unit takes a NOTICE frame (R146). -/
def execNotice (f : NoticeFields) (s : State) : StepOutcome :=
  .next ((s.taken (.notice f)).withNotice (s.notice.take s f))

/-- The Notice Unit takes a NOTICE_CANCEL frame (R155). -/
def execNoticeCancel (payload : List Byte) (s : State) : StepOutcome :=
  let t := s.taken (.noticeCancel payload)
  if payload.length < 2 then .next t
  else if 65280 ≤ wordAt payload 0 2 then
    .next (t.withNotice (Did.nothing { s.notice with rejected := count16 s.notice.rejected 1 }))
  else if (s.notice.find (wordAt payload 0 2)).isNone then .next t
  else .next (t.withNotice (s.notice.removeAndSettle s (wordAt payload 0 2)))

/-! ### Timers (R154, R156, R157, R158) -/

/-- An entry's remaining lifetime reaches 0 (R154). An entry without a lifetime has none that expires. -/
def execLifetimeExpiry (id : Nat) (s : State) : StepOutcome :=
  match (s.notice.find id).bind (·.remaining) with
  | some _ => .next (s.withNotice (s.notice.removeAndSettle s id))
  | none => .next s

/-- The unit after the repeat timer of an entry has reached 0 (R156). -/
def NoticeUnit.repeatExpired (s : State) (u : NoticeUnit) (e : NoticeEntry) : Did NoticeUnit :=
  let v := { u with queue := replaceEntry u.queue { e with repeatTimer := 0, due := true } }
  if e.due then Did.nothing v else v.nowDue s e.effective

/-- An entry's repeat timer reaches 0 (R156). A timer that stands at 0 does not expire. -/
def execRepeatTimerExpiry (id : Nat) (s : State) : StepOutcome :=
  match s.notice.find id with
  | some e => if e.repeatTimer = 0 then .next s else .next (s.withNotice (s.notice.repeatExpired s e))
  | none => .next s

/-- A show's dwell count reaches 0 (R158). -/
def execDwellEnd (s : State) : StepOutcome :=
  match s.notice.lines with
  | .showing _ _ _ => .next (s.withNotice (s.notice.endCounted.andThen (NoticeUnit.settle s)))
  | .blank => .next s
  | .default => .next s

/-- Step 1 of a seconds tick (R157): lifetimes decrease and the expired entries leave. -/
def NoticeUnit.tickLifetimes (u : NoticeUnit) : Did NoticeUnit :=
  let v := { u with queue := u.queue.map (fun e => { e with remaining := e.remaining.map (fun n => n - 1) }) }
  Did.each NoticeUnit.remove v ((v.queue.filter (fun e => e.remaining == some 0)).map (·.id))

/-- Step 2 of a seconds tick (R157): repeat timers decrease, the expired entries become due, with any pre-emption. -/
def NoticeUnit.tickRepeats (u : NoticeUnit) : Did NoticeUnit :=
  let v := { u with queue := u.queue.map (fun e =>
    { e with repeatTimer := e.repeatTimer - 1, due := e.due || e.repeatTimer == 1 }) }
  if u.queue.any (fun e => e.repeatTimer == 1 && !e.due && e.effective == 0) then v.preempt else Did.nothing v

/-- Step 3 of a seconds tick (R157): the dwell count of the show in progress decreases. -/
def NoticeUnit.tickDwell (u : NoticeUnit) : Did NoticeUnit :=
  match u.lines with
  | .showing id text dwell =>
    if dwell ≤ 1 then u.endCounted else Did.nothing { u with lines := .showing id text (dwell - 1) }
  | .blank => Did.nothing u
  | .default => Did.nothing u

/-- A seconds tick at the Notice Unit: the three steps, and then the one choice (R157). -/
def NoticeUnit.tick (s : State) (u : NoticeUnit) : Did NoticeUnit :=
  ((u.tickLifetimes.andThen NoticeUnit.tickRepeats).andThen NoticeUnit.tickDwell).andThen (NoticeUnit.settle s)

/-! ### Modes (R160) -/

/-- A show in progress withdrawn, the lines BLANK (R160). -/
def NoticeUnit.withdraw (u : NoticeUnit) : Did NoticeUnit :=
  match u.lines with
  | .showing id _ _ =>
    ⟨{ u with
       lines := .blank
       queue := u.queue.map (fun e =>
         if e.id = id then
           { e with due := true, showsRemaining := if e.count = 0 then e.showsRemaining else e.showsRemaining + 1 }
         else e) },
     [.noticeTextChange .current]⟩
  | .blank => Did.nothing { u with lines := .blank }
  | .default => Did.nothing { u with lines := .blank }

/-- The Notice Unit takes a mode change (R160). -/
def execModeChangeNotice (before after : Mode) (s : State) : StepOutcome :=
  let t := s.taken (.modeChangeNotice before after)
  if after.dark then .next (t.withNotice s.notice.withdraw) else .next (t.withNotice (s.notice.settle s))

/-! ### The default line and the local notices (R161, R162, R163) -/

/-- The default text built afresh (R161). -/
def NoticeUnit.rebuildDefault (s : State) (u : NoticeUnit) : NoticeUnit :=
  { u with defaultText := defaultLine s.tables s.form.coachNumber s.reck.calling }

/-- The id of a local notice (R162). -/
def localId : ApproachKind → Nat
  | .calling => 65281
  | .closedDoor => 65282

/-- The local notice of a kind (R162). Its category and language are 0 and its own priority 1 (log 9, the model's choice):
R162 gives its effective priority alone, and nothing reads the three. -/
def localEntry (t : TableStore) (r : Progress) (k : ApproachKind) : NoticeEntry :=
  { id := localId k, category := 0, language := 0, priority := 1, mask := 7, overlay := false, interval := 30, count := 0,
    lifetime := 0, text := .inlined (localText t r k), effective := 1, due := true, repeatTimer := 0, showsRemaining := 0,
    remaining := none, overlayWanted := false }

/-- The text of a queued local notice rebuilt; lines that show it take it at once, the dwell kept (R163). -/
def NoticeUnit.rebuildLocal (s : State) (u : NoticeUnit) (k : ApproachKind) : Did NoticeUnit :=
  match u.find (localId k) with
  | none => Did.nothing u
  | some e =>
    let text := localText s.tables s.reck.progress k
    if e.text = .inlined text then Did.nothing u
    else
      let v := { u with queue := replaceEntry u.queue { e with text := .inlined text } }
      match u.lines with
      | .showing id _ dwell =>
        if id = localId k then ⟨{ v with lines := .showing id text dwell }, [.noticeTextChange .current]⟩ else Did.nothing v
      | .blank => Did.nothing v
      | .default => Did.nothing v

/-- Both local notices' texts rebuilt (R163). -/
def NoticeUnit.rebuildLocals (s : State) (u : NoticeUnit) : Did NoticeUnit :=
  (u.rebuildLocal s .calling).andThen (fun v => v.rebuildLocal s .closedDoor)

/-- The local notices kept in step with the approach in force (R162). -/
def NoticeUnit.reconcile (s : State) (u : NoticeUnit) : Did NoticeUnit :=
  let now := s.reck.progress.inForce
  if now = u.basis then u.rebuildLocals s
  else
    ((match u.basis with
      | some a => u.removeAndSettle s (localId a.kind)
      | none => Did.nothing u).andThen
     (fun v => match now with
      | some a => v.offer s (localEntry s.tables s.reck.progress a.kind)
      | none => Did.nothing v)).andThen
     (fun v => Did.nothing { v with basis := now })

/-- The Notice Unit takes an announcement of the Reckoning Unit (R161, R162). -/
def execReckoningAnnouncementNotice (news : ReckoningNews) (s : State) : StepOutcome :=
  let t := s.taken (.reckoningAnnouncementNotice news)
  match news with
  | .sets => .next (t.withNotice ((s.notice.rebuildDefault s).reconcile s))
  | .progress _ => .next (t.withNotice (s.notice.reconcile s))

/-- The purge of a portion change (R165): the entries whose mask lacks the new portion's bit, in queue order. -/
def NoticeUnit.purge (s : State) (u : NoticeUnit) (portion : Nat) : Did NoticeUnit :=
  Did.each (NoticeUnit.removeAndSettle s) u ((u.queue.filter (fun e => !holdsPortion e.mask portion)).map (·.id))

/-- The Notice Unit takes a portion change (R165). -/
def execPortionChangeNotice (portion : Nat) (s : State) : StepOutcome :=
  .next ((s.taken (.portionChangeNotice portion)).withNotice
    ((NoticeUnit.purge s { s.notice with portion := portion } portion).andThen (fun v => (v.rebuildDefault s).reconcile s)))

/-- The tables with the TEXT bank that a TEXT activation replaced, while the Notice Unit has not taken it (log 7). -/
def TableStore.withReplacedText (t : TableStore) : TableStore :=
  match t.replacedText with
  | none => t
  | some b => { t with text := { t.text with active := b } }

/-- The overlay-wanted entries whose text the TEXT activation has changed (R166, log 10). -/
def NoticeUnit.changedOverlays (t : TableStore) (u : NoticeUnit) : List Instr :=
  (u.queue.filter (fun e => e.overlayWanted && noticeText t.withReplacedText e != noticeText t e)).map
    (fun e => .noticeTextChange (.entry e.id))

/-- The Notice Unit takes a ROUTE or TEXT activation (R161, R162, R163, R166). -/
def execActivationAnnouncementNotice (families : FamilySet) (s : State) : StepOutcome :=
  let u := s.notice.rebuildDefault s
  let d := if families.route then u.reconcile s else Did.nothing u
  let e := if families.text then
      (d.andThen (fun v => v.rebuildLocals s)).andThen (fun v => ⟨v, v.changedOverlays s.tables⟩)
    else d
  let t := (s.taken (.activationAnnouncementNotice families)).withNotice e
  .next (if families.text then { t with tables := { s.tables with replacedText := none } } else t)

/-- The Notice Unit takes a coach number change (R161). -/
def execCoachNumberChange (s : State) : StepOutcome :=
  .next ((s.taken .coachNumberChange).withNotice (Did.nothing (s.notice.rebuildDefault s)))

end Sys2Proof.Machine
end

