-- ==== Sys2Proof/Machine/Draw.lean ====
section
/-! DEFINITION. Drawing (9.4, 9.5): what each element draws at a pixel, the pixel rule, and a whole buffer. -/

namespace Sys2Proof.Machine

/-- The width of a character cell (R181). -/
def cellWidth (bigFont : Bool) : Nat := if bigFont then 8 else 6

/-- The height of a character cell (R181). -/
def cellHeight (bigFont : Bool) : Nat := if bigFont then 12 else 8

/-- Whether the glyph of a character sets a pixel of its cell (R181): the free patterns of Config, with the two properties
R181 states. -/
def glyphPixel (bigFont : Bool) (ch : Byte) (x y : Nat) : Bool :=
  ch != space && decide (x < cellWidth bigFont ∧ y < cellHeight bigFont) && Config.glyph bigFont ch x y

/-- Whether a row of cells, the first at column `xs`, their tops at row `y0`, sets the pixel (x, y); a character is drawn
when all of its columns lie within `x0..x1` (R181). -/
def cellsPixel (bigFont : Bool) (cells : Text) (xs : Int) (y0 x0 x1 x y : Nat) : Bool :=
  let cw := cellWidth bigFont
  let dx := (x : Int) - xs
  if dx < 0 ∨ y < y0 then false
  else
    match cells[dx.toNat / cw]? with
    | none => false
    | some ch =>
      let left := xs + ((dx.toNat / cw * cw : Nat) : Int)
      decide ((x0 : Int) ≤ left ∧ left + cw - 1 ≤ x1) && glyphPixel bigFont ch (dx.toNat % cw) (y - y0)

/-- The first cell's column of a text that does not scroll (R181). -/
def alignedAt (align : Alignment) (x0 w tw : Nat) : Int :=
  match align with
  | .left => x0
  | .centre => x0 + ((w : Int) - tw) / 2
  | .right => (x0 : Int) + w - tw

/-- The cells of a scrolling text (R182): the cyclic sequence of the text and one blank cell from position `offset`. -/
def scrolledCells (text : Text) (offset n : Nat) : Text :=
  (List.range n).map (fun k => (text ++ [space]).getD ((offset + k) % (text.length + 1)) space)

/-- The position of a window stop, mirrored where the strip is (R183, R184). -/
def stripX (q : Rect) (mirrored : Bool) (x : Nat) : Int :=
  if mirrored then (q.x0 : Int) + (q.x0 + q.w - 1) - x else x

/-- What a STRIP element draws at (x, y) (R184): names over the marker over the stop marks and the track. -/
def stripPixel (e : Element) (names : List Text) (permille : Nat) (mirrored : Bool) (x y : Nat) : Option Colour :=
  let q := e.rect
  let at_ (i : Nat) : Int := stripX q mirrored (q.x0 + e.pitch / 2 + i * e.pitch)
  let marker : Int := stripX q mirrored (q.x0 + e.pitch / 2 + e.pitch * permille / 1000)
  let name : Bool := (List.range names.length).any (fun i =>
    let t := (names.getD i []).take (e.pitch / 6)
    cellsPixel false t (at_ i - ((6 * t.length / 2 : Nat) : Int)) (q.y0 + 12) q.x0 (q.x0 + q.w - 1) x y)
  let onMarker : Bool := decide (marker - 1 ≤ x ∧ (x : Int) ≤ marker + 1 ∧ q.y0 ≤ y ∧ y ≤ q.y0 + 11)
  let onMark : Bool := (List.range names.length).any (fun i =>
    decide (at_ i - 2 ≤ x ∧ (x : Int) ≤ at_ i + 2 ∧ q.y0 + 3 ≤ y ∧ y ≤ q.y0 + 8))
  let last := at_ (names.length - 1)
  let onTrack : Bool := decide (1 < names.length ∧ min (at_ 0) last ≤ x ∧ (x : Int) ≤ max (at_ 0) last ∧
    q.y0 + 5 ≤ y ∧ y ≤ q.y0 + 6)
  if names = [] then none
  else if name then some e.colour
  else if onMarker then some e.marker
  else if onMark || onTrack then some e.colour
  else none

/-- The colour an element's own rule gives at (x, y), or none where it draws nothing (R179 to R184). -/
def DrawItem.colourAt (i : DrawItem) (x y : Nat) : Option Colour :=
  let e := i.element
  let q := e.rect
  let cw := cellWidth e.bigFont
  match i.reading with
  | .fill => some e.colour
  | .text t none =>
    if cellsPixel e.bigFont t (alignedAt e.align q.x0 q.w (t.length * cw)) q.y0 q.x0 (q.x0 + q.w - 1) x y
    then some e.colour else none
  | .text t (some offset) =>
    if cellsPixel e.bigFont (scrolledCells t offset (q.w / cw)) q.x0 q.y0 q.x0 (q.x0 + q.w - 1) x y
    then some e.colour else none
  | .strip names permille mirrored => stripPixel e names permille mirrored x y

/-- Whether a pixel lies within a rectangle. -/
def Rect.contains (q : Rect) (x y : Nat) : Bool :=
  decide (q.x0 ≤ x ∧ x < q.x0 + q.w ∧ q.y0 ≤ y ∧ y < q.y0 + q.h)

/-- The clip test (R178). -/
def Element.clipPasses (e : Element) (x y : Nat) : Bool :=
  match e.mode with
  | .none => true
  | .inside => e.clip.contains x y
  | .outside => !e.clip.contains x y

/-- The colour of a pixel after an element, from its colour before it (R178). The panel's bounds are the buffer's. -/
def DrawItem.draw (i : DrawItem) (x y : Nat) (present : Colour) : Colour :=
  if i.element.rect.contains x y && i.element.clipPasses x y && i.element.protect != some present then
    (i.colourAt x y).getD present
  else present

/-- The colour of a pixel after the background and every element in drawing order (R176 step 2). -/
def ComposeJob.pixel (j : ComposeJob) (x y : Nat) : Colour := j.items.foldl (fun c i => i.draw x y c) j.background

/-- The buffer a compose draws (R176 step 2). -/
def ComposeJob.buffer (j : ComposeJob) : Buffer :=
  Vector.ofFn (fun y : Fin 48 => Vector.ofFn (fun x : Fin 192 => j.pixel x.val y.val))

end Sys2Proof.Machine
end

