-- ==== Sys2Proof/Machine/Panel.lean ====
section
/-! DEFINITION. The Panel Composer (chapter 9): rendered pages, page stacks, compose requests, composes, and brightness. Its
part of the seconds tick is in Machine/Tick.lean. -/

namespace Sys2Proof.Machine

/-! ### The rendered page (R169) -/

/-- The page a level stands for. -/
def LevelKind.page : LevelKind → Page
  | .map => .map
  | .approach => .approach
  | .urgent id => .urgent id

/-- The rendered page of a panel (R169). -/
def PanelState.rendered (mode : Mode) (q : PanelState) : Page :=
  if mode.dark then .service
  else
    match q.stack.head? with
    | some l => l.kind.page
    | none => .map

/-- The template kind code of a page (R168). -/
def Page.code : Page → Nat
  | .map => 0
  | .approach => 1
  | .urgent _ => 2
  | .service => 3

/-- Whether a panel selector names a panel (R168). -/
def selects (selector : Nat) : Panel → Bool
  | .panel1 => selector == 1 || selector == 3
  | .panel2 => selector == 2 || selector == 3

/-- The number of the template of a page on a panel: the first present one of its kind that names the panel (R169). -/
def templateNumber (t : TableStore) (panel : Panel) (page : Page) : Option Nat :=
  (List.range 12).find? (fun k =>
    match Table.find t.page.active (25 * k) with
    | some r => natAt r 0 == page.code && selects (natAt r 1) panel
    | none => false)

/-- The elements of a template in drawing order (R45, R168). -/
def templateElements (t : TableStore) (k : Nat) : List Element :=
  (List.range 24).filterMap (fun j => (Table.find t.page.active (25 * k + 1 + j)).map element)

/-- The elements of the template a page renders on a panel; none without a template (R169). -/
def pageElements (t : TableStore) (panel : Panel) (page : Page) : List Element :=
  ((templateNumber t panel page).map (templateElements t)).getD []

/-- The background colour of a page on a panel: colour 0 without a template (R168, R169). -/
def pageBackground (t : TableStore) (panel : Panel) (page : Page) : Colour :=
  (((templateNumber t panel page).bind (fun k => Table.find t.page.active (25 * k))).map
    (fun r => (byteAt r 2).extractLsb' 0 4)).getD 0

/-! ### What an element reads (R179, R180, R183) -/

/-- The current notice text (R166): the text of the entry showing, or empty. -/
def currentNoticeText (u : NoticeUnit) : Text :=
  match u.lines with
  | .showing _ text _ => text
  | .blank => []
  | .default => []

/-- Source 7 for a page (R180). An APPROACH page composed while no approach is in force reads the empty text (log 48, the
model's choice). -/
def noticeSource (s : State) : Page → Text
  | .map => currentNoticeText s.notice
  | .service => currentNoticeText s.notice
  | .urgent id => ((s.notice.find id).map (noticeText s.tables)).getD []
  | .approach =>
    match s.reck.progress.inForce with
    | some a => localText s.tables s.reck.progress a.kind
    | none => []

/-- The delay source (R180). -/
def delaySource (t : TableStore) (delay : Int) : Text :=
  if 0 < delay then joinParts [0x2B#8 :: decimal delay.toNat, t.string 10] else []

/-- The coach class source (R180). -/
def classSource : CoachClass → Text
  | .first => [0x31#8]
  | .second => [0x32#8]
  | .mixed => [0x31#8, 0x2F#8, 0x32#8]

/-- The text of a source for a page, cut to 96 (R180). A code above 8 reads as the empty text (R168). -/
def sourceText (s : State) (page : Page) (e : Element) : Text :=
  let r := s.reck.progress
  let text : Text := match e.source with
    | 0 => s.tables.string e.textId.toNat
    | 1 => s.tables.longName r.n
    | 2 => (r.arrival.map hhmm).getD dashes
    | 3 => delaySource s.tables r.delay
    | 4 => if s.form.coachNumber = 0 then [] else decimal s.form.coachNumber
    | 5 => classSource s.form.coachClass
    | 6 => s.tables.longName (finalStop s.reck.calling)
    | 7 => noticeSource s page
    | 8 => joinParts (s.tables.connections r.n)
    | _ => []
  text.take 96

/-- The start ordinal of the strip's window (R183). -/
def windowStart (r : Progress) : Option Nat :=
  match r.effective with
  | .atStop => r.a
  | .running => r.p <|> r.n
  | .approaching => r.p <|> r.n
  | .finished => r.p
  | .noRoute => none
  | .awaitingPosition => none
  | .hold => none

/-- The members of C in the window of a STRIP element (R183). -/
def windowStops (r : Progress) (calling : List Nat) (slots : Nat) : List Nat :=
  match windowStart r with
  | some x => (calling.filter (fun m => x ≤ m)).take slots
  | none => []

/-- The permille the marker uses: 0 in AT_STOP and FINISHED (R183). -/
def markerPermille (r : Progress) : Nat :=
  match r.effective with
  | .running => r.permille
  | .approaching => r.permille
  | _ => 0

/-- Whether a panel draws its strip mirrored (R184). -/
def stripMirrored (s : State) (panel : Panel) : Bool :=
  let right := match panel with
    | .panel1 => s.mgmt.params.travelRight1
    | .panel2 => s.mgmt.params.travelRight2
  right == (s.form.orientation == .reversed)

/-- The text of a CLOCK element (R179). -/
def clockText (c : Clock) : Text := if c.valid then hhmm c.minute else dashes

/-- What a compose reads for an element at its beginning (R176, R179, R180, R182, R183). -/
def readElement (s : State) (panel : Panel) (page : Page) (offset : Nat) (e : Element) : Reading :=
  match e.kind with
  | .fill => .fill
  | .clock => .text (clockText s.reck.clock) none
  | .text =>
    let t := sourceText s page e
    .text t (if e.scroll && decide (e.rect.w < t.length * cellWidth e.bigFont) then some offset else none)
  | .strip =>
    .strip ((windowStops s.reck.progress s.reck.calling (e.rect.w / e.pitch)).map s.tables.shortName)
      (markerPermille s.reck.progress) (stripMirrored s panel)

/-! ### Composes (R175, R176) -/

/-- Whether what was read is a scrolling element (R182). -/
def Reading.scrolls : Reading → Bool
  | .text _ (some _) => true
  | .text _ none => false
  | .fill => false
  | .strip _ _ _ => false

/-- The scroll offset a page uses (R182). -/
def PanelState.offsetOf (q : PanelState) (page : Page) : Nat :=
  match page with
  | .service => q.serviceOffset
  | _ => ((q.stack.head?).map (·.offset)).getD 0

/-- The inputs of a compose of the rendered page (R176 step 1). -/
def PanelState.job (s : State) (panel : Panel) (q : PanelState) : ComposeJob :=
  let page := q.rendered s.mgmt.mode
  { background := pageBackground s.tables panel page
    items := (pageElements s.tables panel page).map (fun e => ⟨e, readElement s panel page (q.offsetOf page) e⟩) }

/-- The stack with `g` applied to its top level. -/
def mapTop (g : Level → Level) : List Level → List Level
  | [] => []
  | l :: ls => g l :: ls

/-- A compose begins (R176 step 1). -/
def PanelState.beginCompose (s : State) (panel : Panel) (q : PanelState) : PanelState :=
  let j := q.job s panel
  let scrolled := j.items.any (fun i => i.reading.scrolls)
  if s.mgmt.mode.dark then { q with compose := some j, serviceScrolled := scrolled }
  else { q with compose := some j, stack := mapTop (fun l => { l with scrolled := scrolled }) q.stack }

/-- A compose request (R176): a compose begins, or the pending flag is set during one. -/
def PanelState.request (s : State) (panel : Panel) (q : PanelState) : PanelState :=
  if q.compose.isSome then { q with again := true } else q.beginCompose s panel

/-- The swap that ends a compose (R176 steps 2 and 3). -/
def PanelState.swap (s : State) (panel : Panel) (j : ComposeJob) (q : PanelState) : PanelState :=
  let r := { q with front := j.buffer, back := q.front, compose := none, again := false }
  if q.again then r.beginCompose s panel else r

/-! ### Page stacks (R170, R171, R172, R173) -/

/-- A push (R170), for a stack with room, and the compose it requests (R175). -/
def PanelState.push (s : State) (panel : Panel) (k : LevelKind) (q : PanelState) : PanelState :=
  PanelState.request s panel { q with stack := Level.fresh k :: q.stack }

/-- Whether a panel holds a live level of a kind. -/
def PanelState.live (q : PanelState) (k : LevelKind) : Bool := q.stack.any (fun l => l.kind == k && !l.dead)

/-- The live levels of a kind marked dead. -/
def PanelState.kill (q : PanelState) (k : LevelKind) : PanelState :=
  { q with stack := q.stack.map (fun l => if l.kind = k then { l with dead := true } else l) }

/-- The first entry of the notice queue that wants an overlay this panel does not hold live (R173). -/
def PanelState.wantedOverlay (u : NoticeUnit) (q : PanelState) : Option Nat :=
  (u.queue.find? (fun e => e.overlayWanted && !q.live (.urgent e.id))).map (·.id)

/-- A pop run (R173): dead levels leave from the top, and when any left, one wanted overlay is pushed. The second part says
whether an URGENT level was pushed (R186). -/
def PanelState.popRun (s : State) (panel : Panel) (q : PanelState) : PanelState × Bool :=
  let rest := q.stack.dropWhile (·.dead)
  let r := { q with stack := rest }
  if rest.length = q.stack.length then (q, false)
  else if 4 ≤ rest.length then (r.request s panel, false)
  else
    match r.wantedOverlay s.notice with
    | some id => (r.push s panel (.urgent id), true)
    | none =>
      if q.approachWant then (PanelState.push s panel .approach { r with approachWant := false }, false)
      else (r.request s panel, false)

/-- One panel follows the approach in force (R171), from the basis `before` to the record's approach `now`. -/
def PanelState.follow (s : State) (before now : Option Approach) (panel : Panel) (q : PanelState) : PanelState × Bool :=
  match before, now with
  | none, none => (q, false)
  | none, some _ =>
    if q.stack.length < 4 then (q.push s panel .approach, false) else ({ q with approachWant := true }, false)
  | some _, none => PanelState.popRun s panel { q.kill .approach with approachWant := false }
  | some x, some y =>
    if x = y then (q, false)
    else if q.rendered s.mgmt.mode = .approach then (q.request s panel, false) else (q, false)

/-- An overlay request at one panel (R172). -/
def PanelState.overlay (s : State) (id : Nat) (panel : Panel) (q : PanelState) : PanelState × Bool :=
  if s.notice.queue.any (fun e => e.id == id && e.overlayWanted) && !q.live (.urgent id) && decide (q.stack.length < 4) then
    (q.push s panel (.urgent id), true)
  else (q, false)

/-- An overlay end at one panel (R172). -/
def PanelState.endOverlay (s : State) (id : Nat) (panel : Panel) (q : PanelState) : PanelState × Bool :=
  (q.kill (.urgent id)).popRun s panel

/-! ### The two panels together, and brightness (R185, R186) -/

/-- An activity (R185, R186): in QUIET the idle timer is reloaded and the level is FULL. -/
def PanelComposer.active (s : State) (u : PanelComposer) : PanelComposer :=
  if s.mgmt.mode = .quiet then { u with idle := some s.mgmt.params.quietIdle, brightness := .full } else u

/-- The composer with `g` applied to both panels; an URGENT push on either is an activity (R186). -/
def PanelComposer.both (s : State) (g : Panel → PanelState → PanelState × Bool) (u : PanelComposer) : PanelComposer :=
  let a := g .panel1 u.panel1
  let b := g .panel2 u.panel2
  let v := { u with panel1 := a.1, panel2 := b.1 }
  if a.2 || b.2 then v.active s else v

/-- A compose requested of each panel that passes a test (R175). -/
def PanelComposer.requestWhere (s : State) (test : Panel → PanelState → Bool) (u : PanelComposer) : PanelComposer :=
  { u with panel1 := if test .panel1 u.panel1 then u.panel1.request s .panel1 else u.panel1
           panel2 := if test .panel2 u.panel2 then u.panel2.request s .panel2 else u.panel2 }

/-- A compose requested of both panels (R175). -/
def PanelComposer.requestBoth (s : State) (u : PanelComposer) : PanelComposer := u.requestWhere s (fun _ _ => true)

/-- Whether a panel's rendered template holds an element that passes a test (R175). -/
def PanelState.rendersElement (s : State) (test : Page → Element → Bool) (panel : Panel) (q : PanelState) : Bool :=
  (pageElements s.tables panel (q.rendered s.mgmt.mode)).any (test (q.rendered s.mgmt.mode))

/-- Whether an element of a page reads an item that an announcement names (R175, R180). -/
def readsChanged (c : Changed) (page : Page) (e : Element) : Bool :=
  match e.kind with
  | .fill => false
  | .clock => false
  | .strip => c.state || c.remembered || c.p || c.n || c.a || c.permille
  | .text =>
    match e.source with
    | 1 => c.n
    | 2 => c.arrival
    | 3 => c.delay
    | 7 => page == .approach && (c.n || c.arrival)
    | 8 => c.n
    | _ => false

/-- Whether an element is a TEXT element of a source. -/
def readsSource (source : Nat) (_ : Page) (e : Element) : Bool := e.kind == .text && e.source == source

/-- The composer follows the approach in force through its basis (R171). -/
def PanelComposer.followApproach (s : State) (u : PanelComposer) : PanelComposer :=
  let now := s.reck.progress.inForce
  { u.both s (PanelState.follow s u.basis now) with basis := now }

/-- The state after the composer takes `c`: it takes no event before the relay has opened (R187). -/
def State.withPanels (s : State) (c : Instr) (g : State → PanelComposer → PanelComposer) : StepOutcome :=
  let t := s.taken c
  if s.line.relay = .opened then .next { t with panels := g s s.panels } else .next t

/-- The Panel Composer takes an announcement of the Reckoning Unit (R171, R175). -/
def execReckoningAnnouncementPanel (news : ReckoningNews) (s : State) : StepOutcome :=
  s.withPanels (.reckoningAnnouncementPanel news) (fun s u =>
    let v := u.followApproach s
    match news with
    | .sets => v.requestBoth s
    | .progress c => v.requestWhere s (PanelState.rendersElement s (readsChanged c)))

/-- The Panel Composer takes an orientation change (R32, R175). -/
def execOrientationChange (s : State) : StepOutcome :=
  s.withPanels .orientationChange (fun s u => u.requestBoth s)

/-- The Panel Composer takes an overlay request (R172). -/
def execOverlayRequest (id : Nat) (s : State) : StepOutcome :=
  s.withPanels (.overlayRequest id) (fun s u => u.both s (PanelState.overlay s id))

/-- The Panel Composer takes an overlay end (R172). -/
def execOverlayEnd (id : Nat) (s : State) : StepOutcome :=
  s.withPanels (.overlayEnd id) (fun s u => u.both s (PanelState.endOverlay s id))

/-- The Panel Composer takes a change of notice text (R166, R175). -/
def execNoticeTextChange (item : NoticeTextItem) (s : State) : StepOutcome :=
  s.withPanels (.noticeTextChange item) (fun s u =>
    match item with
    | .current => u.requestWhere s (fun panel q =>
        (q.rendered s.mgmt.mode == .map || q.rendered s.mgmt.mode == .service) && q.rendersElement s (readsSource 7) panel)
    | .entry id => u.requestWhere s (fun _ q => q.rendered s.mgmt.mode == .urgent id))

/-- The Panel Composer takes an activity (R185, R186). -/
def execActivity (s : State) : StepOutcome := s.withPanels .activity (fun s u => u.active s)

/-- The brightness and idle timer after a mode change (R185). -/
def PanelComposer.modeLevel (s : State) (before after : Mode) (u : PanelComposer) : PanelComposer :=
  if after = .quiet then { u with idle := some s.mgmt.params.quietIdle, brightness := .full }
  else if before = .quiet then { u with idle := none, brightness := .full }
  else u

/-- The service offsets after a mode change (R182): 0 when SERVICE begins to be rendered. -/
def PanelComposer.modeOffset (before after : Mode) (u : PanelComposer) : PanelComposer :=
  if after.dark && !before.dark then
    { u with panel1 := { u.panel1 with serviceOffset := 0 }, panel2 := { u.panel2 with serviceOffset := 0 } }
  else u

/-- The Panel Composer takes a mode change (R175, R182, R185). -/
def execModeChangePanel (before after : Mode) (s : State) : StepOutcome :=
  s.withPanels (.modeChangePanel before after) (fun s u =>
    ((u.modeLevel s before after).modeOffset before after).requestBoth s)

/-- The Panel Composer takes a portion, coach number or class change (R38, R39, R171, R175). -/
def execFormationChangePanel (item : FormationItem) (s : State) : StepOutcome :=
  s.withPanels (.formationChangePanel item) (fun s u =>
    match item with
    | .portion => (u.followApproach s).requestBoth s
    | .coachNumber => u.requestWhere s (PanelState.rendersElement s (readsSource 4))
    | .coachClass => u.requestWhere s (PanelState.rendersElement s (readsSource 5)))

/-- The Panel Composer takes a PAGE, ROUTE or TEXT activation (R171, R175). -/
def execActivationAnnouncementPanel (families : FamilySet) (s : State) : StepOutcome :=
  s.withPanels (.activationAnnouncementPanel families) (fun s u =>
    (if families.route then u.followApproach s else u).requestBoth s)

/-- The Panel Composer takes a travel-right change (R61, R175). -/
def execTravelRightChange (panel : Panel) (s : State) : StepOutcome :=
  s.withPanels (.travelRightChange panel) (fun s u => u.requestWhere s (fun p _ => p == panel))

/-- The Panel Composer takes a clock minute change (R102, R175). -/
def execClockMinuteChange (s : State) : StepOutcome :=
  s.withPanels .clockMinuteChange (fun s u => u.requestWhere s (PanelState.rendersElement s (fun _ e => e.kind == .clock)))

/-- A compose of a panel finishes drawing and swaps (R176). -/
def execComposeSwap (panel : Panel) (s : State) : StepOutcome :=
  match panel with
  | .panel1 =>
    (match s.panels.panel1.compose with
     | some j => .next { s with panels := { s.panels with panel1 := s.panels.panel1.swap s .panel1 j } }
     | none => .next s)
  | .panel2 =>
    (match s.panels.panel2.compose with
     | some j => .next { s with panels := { s.panels with panel2 := s.panels.panel2.swap s .panel2 j } }
     | none => .next s)

/-- The idle timer reaches 0 in QUIET (R185). -/
def execIdleTimerExpiry (s : State) : StepOutcome :=
  match s.mgmt.mode, s.panels.idle with
  | .quiet, some (_ + 1) => .next { s with panels := { s.panels with idle := some 0, brightness := .low } }
  | _, _ => .next s

end Sys2Proof.Machine
end

