-- ==== Sys2Proof/Machine/Start.lean ====
section
/-! DEFINITION. Faults, power, start-up and the end of a restart hold (chapter 10, R16, R17). RESTART, STORE, IDENT, FAULT_READ
and FAULT_CLEAR are in Machine/Management.lean. -/

namespace Sys2Proof.Machine

/-! ### The fault record (R189) -/

/-- The Management Unit takes a fault report (R189), the clock stamp given. -/
def FaultStore.take (u : FaultStore) (clock : Option Nat) (f : FaultReport) : FaultStore :=
  match u.record with
  | none => { u with record := some { fault := f, clock := clock, uptime := u.uptime }, count := 1 }
  | some _ => { u with count := saturate 255 u.count 1 }

/-- The Management Unit takes a fault report (R189). -/
def execFaultReport (r : FaultReport) (s : State) : StepOutcome :=
  .next { s.taken (.faultReport r) with faults := s.faults.take s.reck.clock.stamp r }

/-! ### Power (R16, R193, R194) -/

/-- Power is applied (R193): every item at its value after power-on; the retained memory and the waiting commands stay, also
where power was already applied (log 49, the model's choice). -/
def execPowerOn (s : State) : StepOutcome :=
  .next { State.reset with retained := s.retained, pending := s.pending }

/-- Power is lost (R16, R193, R194, R196): the relay falls CLOSED and all state is lost but the retained memory, which
fails its check where a write was cut off. What is lost stands at its value after power-on (log 11). -/
def execPowerLoss (s : State) : StepOutcome :=
  .next { State.reset with powered := false,
                           retained := if s.mgmt.store.isSome then none else s.retained,
                           pending := s.pending }

/-! ### The retained settings (R194) -/

/-- The settings of a retained set in force (R194, R128, R82): identity, active SEAT table, parameters, the approach
parameters in use, the freshness counter and the dirty queue. -/
def State.withSettings (s : State) (r : RetainedSet) : State :=
  { s with
    retainedRead := true
    form := { s.form with identity := r.identity }
    tables := { s.tables with seat := { s.tables.seat with active := r.seats, tag := 0, count := 0 } }
    mgmt := { s.mgmt with params := r.params }
    reck := { s.reck with distanceInUse := r.params.approachDistance, leadInUse := r.params.approachLead,
                          freshness := r.params.freshness }
    bus := { s.bus with dirty := enabledSlots r.seats } }

/-- The settings when the check fails (R194). -/
def RetainedSet.defaults : RetainedSet := { identity := 0, seats := [], params := .default }

/-- The start-up read of the retained settings (R194): a failed check takes the defaults and reports RETAINED_INVALID,
stamped "clock invalid". -/
def State.readRetained (s : State) : State :=
  match s.retained with
  | some r => s.withSettings r
  | none =>
    { s.withSettings RetainedSet.defaults with faults := s.faults.take none .retainedInvalid }

/-- Start-up completes (R16, R192 step 4): the read is made where this start has not made it, the relay opens, both links
enter TRAINING and are reported, the engine makes its first choice and the lines are tested (R143, R157). -/
def execStartUpComplete (s : State) : StepOutcome :=
  if s.powered ∧ s.line.relay = .closed then
    let r := if s.retainedRead then s else s.readRetained
    let o := { r with line := { relay := .opened, end1 := { r.line.end1 with link := .training },
                                end2 := { r.line.end2 with link := .training } } }
    let n := o.notice.settle o
    .next { o with
      bus := o.bus.choose o
      notice := n.unit
      announced := o.announced ++ [.linkChangeReport .end1 .training, .linkChangeReport .end2 .training] ++ n.said }
  else .next s

/-! ### The end of a restart hold (R17, R192) -/

/-- The fault reports made and not yet taken. -/
def outstandingFaults (cs : List Instr) : List FaultReport :=
  cs.filterMap (fun c => match c with
    | .faultReport r => some r
    | _ => none)

/-- The fault record after the outstanding reports have been taken (log 12). -/
def State.settledFaults (s : State) : FaultStore :=
  (outstandingFaults s.announced).foldl (fun u r => u.take s.reck.clock.stamp r) s.faults

/-- The part after steps 1 and 2 of R192: the relay CLOSED, every volatile item at its value after restart; the cold flag,
the fault record and the fault count kept, the uptime 0. -/
def State.restarted (s : State) : State :=
  { State.reset with
    mgmt := { ManagementUnit.start with cold := s.mgmt.cold }
    faults := { s.settledFaults with uptime := 0 }
    retained := s.retained
    pending := s.pending }

/-- The hold timer expires (R192). A write always ends within the hold (R191), so the event does not occur during one. -/
def execRestartHoldEnd (s : State) : StepOutcome :=
  if s.mgmt.hold.isSome ∧ s.mgmt.store = none then .next s.restarted.readRetained else .next s

end Sys2Proof.Machine
end

