-- ==== Sys2Proof/Machine/Management.lean ====
section
/-! DEFINITION. The Management Unit (chapter 3): the common checks, replies, loading, committing, activation, and every
management command, those executed by other units among them. -/

namespace Sys2Proof.Machine

/-! ### Reception and reply (R41, R42, R43) -/

/-- A reply offered to the port R25 names for the numbered state now (R43). -/
def State.reply (s : State) (port : Port) (seq code : Byte) (result : Result) (data : ReplyData) : State :=
  { s with line := s.line.offer (s.form.replyPort port) (s.form.toLead 8 seq (.reply code result.code data)) }

/-- The length of a command's arguments when it is fixed (R41). -/
def fixedLength (code : Nat) : Option Nat :=
  match code with
  | 3 => some 5
  | 4 => some 1
  | 5 => some 1
  | 6 => some 3
  | 7 => some 1
  | 8 => some 0
  | 9 => some 3
  | 10 => some 2
  | 11 => some 10
  | 12 => some 4
  | 13 => some 9
  | 14 => some 1
  | 15 => some 1
  | 16 => some 0
  | 17 => some 0
  | 18 => some 4
  | 19 => some 0
  | _ => none

/-- The least length of a command's arguments when it is not fixed (R42 check 5). -/
def leastLength (code : Nat) : Nat :=
  match code with
  | 1 => 4
  | 2 => 1
  | _ => 0

/-- The common checks 3 to 5 of R42 for a named command: the result of the first that fails. -/
def commonCheck (code : Nat) (args : List Byte) (mode : Mode) : Option Result :=
  if mode = .restartPending ∧ code ≠ 7 ∧ code ≠ 16 then some .busy
  else
    match fixedLength code with
    | some n => if args.length ≠ n then some .badLength else none
    | none => if args.length < leastLength code then some .badLength else none

/-- What a command has done: the state after it, and its result with its data. -/
structure Answer where
  after  : State
  result : Result
  data   : ReplyData

/-- A refusal that changes nothing. -/
def refuse (s : State) (r : Result) : Answer := ⟨s, r, .none⟩

/-- The reply to a command, built when it has been executed or refused (R43). -/
def Answer.send (a : Answer) (code : Nat) (f : MgmtFrame) : StepOutcome :=
  .next (a.after.reply f.port f.seq (BitVec.ofNat 8 code) a.result a.data)

/-- A command through the common checks (R42): refused by `onRefuse`, or executed by `body`, and answered. -/
def runCommand (code : Nat) (f : MgmtFrame) (onRefuse : Result → Answer) (body : Answer) (mode : Mode) : StepOutcome :=
  match commonCheck code f.args mode with
  | some r => (onRefuse r).send code f
  | none => body.send code f

/-- A command whose refusal by a common check changes nothing (R42). -/
def State.command (s : State) (code : Nat) (f : MgmtFrame) (body : Answer) : StepOutcome :=
  runCommand code f (refuse s) body s.mgmt.mode

/-- The state with the load context none (R50). -/
def State.noContext (s : State) : State := { s with mgmt := { s.mgmt with context := none } }

/-- A MGMT frame with no command code, or with a code that names no command (R42 checks 1 and 2). -/
def execMgmtUnknownCommand (p : Port) (seq : Byte) (payload : List Byte) (s : State) : StepOutcome :=
  let t := s.taken (.mgmtUnknownCommand p seq payload)
  match payload with
  | [] => .next (t.reply p seq 0 .badLength .none)
  | code :: _ => .next (t.reply p seq code .unknownCommand .none)

/-! ### Loading (R47 to R51) -/

/-- Whether a family belongs to the pending commit (R48 test 2). -/
def ManagementUnit.locks (u : ManagementUnit) (f : Family) : Bool :=
  match u.commit with
  | some c => c.families.names f
  | none => false

/-- The character total of a TEXT bank (R51). -/
def charTotal (b : Table (List Byte)) : Nat := (b.map (fun e => e.2.length)).sum

/-- The staged bank with `m` records written at `i` (R47); TEXT keeps no characters at id 0. -/
def writeRecords (f : Family) (bank : Table (List Byte)) (i : Nat) (rs : List (List Byte)) : Table (List Byte) :=
  match f, i, rs with
  | .text, 0, _ :: rest => Table.setAll bank 0 ([] :: rest)
  | _, _, _ => Table.setAll bank i rs

/-- The tests on the records of a load and its execution (R47, R48 tests 3 to 6, R49 tests 2 to 5). -/
def State.loadRecords (s : State) (f : Family) (i m : Nat) (bytes : List Byte) : Answer :=
  if m = 0 ∨ f.capacity < i + m then refuse s.noContext .range
  else
    match splitRecords f m bytes with
    | none => refuse s.noContext .badLength
    | some rs =>
      let b := s.tables.family f
      let staged := writeRecords f b.staged i rs
      if f = .text ∧ rs.any (fun r => 96 < r.length) then refuse s.noContext .range
      else if f = .text ∧ 12288 < charTotal staged then refuse s.noContext .full
      else
        ⟨{ s with tables := s.tables.setFamily f { b with staged := staged, state := .filling },
                  mgmt := { s.mgmt with context := some (f, i + m) } },
         .ok, .context f (i + m)⟩

/-- LOAD after the common checks (R47, R48). -/
def State.load (s : State) (args : List Byte) : Answer :=
  match Family.ofCode (natAt args 0) with
  | none => refuse s.noContext .range
  | some f =>
    if s.mgmt.locks f then refuse s.noContext .locked
    else s.loadRecords f (wordAt args 1 2) (natAt args 3) (args.drop 4)

/-- LOAD (R47, R48). -/
def execLoad (f : MgmtFrame) (s : State) : StepOutcome :=
  let t := s.taken (.load f)
  runCommand 1 f (refuse t.noContext) (t.load f.args) s.mgmt.mode

/-- LOAD_NEXT after the common checks (R49). -/
def State.loadNext (s : State) (args : List Byte) : Answer :=
  match s.mgmt.context with
  | none => refuse s.noContext .noContext
  | some (f, i) => s.loadRecords f i (natAt args 0) (args.drop 1)

/-- LOAD_NEXT (R49). -/
def execLoadNext (f : MgmtFrame) (s : State) : StepOutcome :=
  let t := s.taken (.loadNext f)
  runCommand 2 f (refuse t.noContext) (t.loadNext f.args) s.mgmt.mode

/-! ### Validation (R53) -/

/-- The bank of a family that will be active after an activation (R52, R53). -/
def TableStore.after (t : TableStore) (fs : FamilySet) (f : Family) : Table (List Byte) :=
  if fs.names f then (t.family f).staged else (t.family f).active

/-- Whether a SEAT record breaks a condition, by itself or with a lower index (R53). -/
def seatOffends (bank : Table (List Byte)) (i : Nat) (r : List Byte) : Bool :=
  let x := seatSlot r
  x.enabled && (decide (3 < x.string ∨ x.address.toNat < 1 ∨ 32 < x.address.toNat) ||
    bank.any (fun e => decide (e.1 < i) && (seatSlot e.2).enabled && (seatSlot e.2).string == x.string &&
      (seatSlot e.2).address == x.address))

/-- Whether a RESV record breaks a condition (R53). -/
def resvOffends (seats bank : Table (List Byte)) (i : Nat) (r : List Byte) : Bool :=
  let x := resvRecord r
  decide (x.id = 0 ∨ 127 < x.slot ∨ x.board = x.alight) || (enabledSlot seats x.slot).isNone ||
    bank.any (fun e => decide (e.1 < i) && (resvRecord e.2).id == x.id)

/-- Whether a ROUTE record breaks a condition (R53). -/
def routeOffends (bank : Table (List Byte)) (i : Nat) (r : List Byte) : Bool :=
  let x := routeEntry i r
  (decide (1 ≤ i) && decide (x.segment < 1 ∨ 1000000 < x.segment)) ||
    bank.any (fun e => decide (e.1 < i) && (routeEntry e.1 e.2).code == x.code)

/-- Whether a PAGE record breaks a condition (R53, R168). -/
def pageOffends (bank : Table (List Byte)) (i : Nat) (r : List Byte) : Bool :=
  if i % 25 = 0 then decide (3 < natAt r 0 ∨ natAt r 1 < 1 ∨ 3 < natAt r 1)
  else decide (3 < natAt r 0) || (Table.find bank (i - i % 25)).isNone || !(rectAt r 1).onPanel || !(rectAt r 5).onPanel

/-- The highest index that holds a record. -/
def highest (bank : Table (List Byte)) : Nat := (greatest (bank.map (·.1))).getD 0

/-- The first offending index of a staged ROUTE bank in index order (R53). Where both a gap and a record offend, the gap is
ranked at its absent ordinal (log 43, the model's choice). -/
def routeFirstOffender (bank : Table (List Byte)) : Option Nat :=
  (List.range (highest bank + 1)).find? (fun i =>
    match Table.find bank i with
    | none => true
    | some r => routeOffends bank i r)

/-- The structural validation of one family's staged bank (R53): the detail of its first break. -/
def validateFamily (t : TableStore) (fs : FamilySet) (f : Family) : Option CommitDetail :=
  let bank := (t.family f).staged
  match f with
  | .seat => (bank.find? (fun e => seatOffends bank e.1 e.2)).map (fun e => .family .seat (some e.1))
  | .resv => (bank.find? (fun e => resvOffends (t.after fs .seat) bank e.1 e.2)).map (fun e => .family .resv (some e.1))
  | .route =>
    if bank.length < 2 then some (.family .route none)
    else (routeFirstOffender bank).map (fun i => .family .route (some i))
  | .text => none
  | .page => (bank.find? (fun e => pageOffends bank e.1 e.2)).map (fun e => .family .page (some e.1))

/-- The structural validation of a commit, family by family in code order (R53). -/
def validate (t : TableStore) (fs : FamilySet) : Option CommitDetail := fs.list.findSome? (validateFamily t fs)

/-! ### Committing and activation (R52 to R57) -/

/-- The banks of a family at activation (R56). -/
def FamilyBanks.activate (tag : Nat) (b : FamilyBanks) : FamilyBanks :=
  { active := b.staged, staged := [], state := .empty, tag := tag, count := (b.count + 1) % 65536 }

/-- The announcements of an activation (R57): step 1 first when ROUTE is in the set, otherwise step 2 at once. -/
def activationSays (fs : FamilySet) : List Instr := if fs.route then [.routeActivationReckoning fs] else stepTwo fs

/-- The ROUTE table the Reckoning Unit works on until it takes the activation of a set (R78, R99, log 7). -/
def TableStore.routeToReplace (t : TableStore) (fs : FamilySet) : Option RouteTable :=
  if fs.route then some (t.replacedRoute.getD ⟨t.route.active, t.cancelled⟩) else t.replacedRoute

/-- The TEXT bank the Notice Unit compares with when it takes the activation of a set (R166, log 7). -/
def TableStore.textToReplace (t : TableStore) (fs : FamilySet) : Option (Table (List Byte)) :=
  if fs.text then some (t.replacedText.getD t.text.active) else t.replacedText

/-- The activation of a commit (R56, R57). -/
def State.activate (s : State) (c : PendingCommit) : State :=
  let t := s.tables.mapFamilies c.families (FamilyBanks.activate c.tag)
  { s with tables := { t with cancelled := if c.families.route then [] else s.tables.cancelled,
                              replacedRoute := s.tables.routeToReplace c.families,
                              replacedText := s.tables.textToReplace c.families }
           mgmt := { s.mgmt with commit := none }
           announced := s.announced ++ activationSays c.families }

/-- The activation a COMMIT names: its kind byte and ordinal (R52). -/
def activationOf (kind k : Nat) : Option Activation :=
  match kind with
  | 0 => some .now
  | 1 => some (.atDeparture k)
  | 2 => some .atInauguration
  | _ => none

/-- Tests 4 and 5 of R52. -/
def State.departureRefused (s : State) (fs : FamilySet) : Activation → Option Result
  | .now => none
  | .atInauguration => none
  | .atDeparture k =>
    if 48 ≤ k ∨ (s.tables.after fs .route).length ≤ k then some .range
    else
      match s.reck.progress.d with
      | some d => if k ≤ d then some .passed else none
      | none => none

/-- A COMMIT accepted (R54, R55). -/
def State.accept (s : State) (c : PendingCommit) : State :=
  let t := { s with tables := s.tables.mapFamilies c.families (fun b => { b with state := .committed })
                    mgmt := { s.mgmt with commit := some c } }
  if c.activation = .now then t.activate c else t

/-- COMMIT after the common checks, the load context cleared (R50, R52). -/
def State.commit (s : State) (args : List Byte) : Answer :=
  let fs := FamilySet.ofByte (byteAt args 0)
  match activationOf (natAt args 1) (natAt args 2) with
  | none => if s.mgmt.commit.isSome then refuse s .pending else ⟨s, .invalid, .detail .noFamily⟩
  | some a =>
    if s.mgmt.commit.isSome then refuse s .pending
    else if fs.isNone ∨ 31 < natAt args 0 then ⟨s, .invalid, .detail .noFamily⟩
    else
      match fs.list.find? (fun f => (s.tables.family f).state == .empty) with
      | some f => ⟨s, .invalid, .detail (.family f none)⟩
      | none =>
        match s.departureRefused fs a with
        | some r => refuse s r
        | none =>
          match validate s.tables fs with
          | some d => ⟨s, .invalid, .detail d⟩
          | none =>
            ⟨s.accept { families := fs, activation := a, tag := wordAt args 3 2 }, .ok, .tag (wordAt args 3 2)⟩

/-- COMMIT (R52 to R57). -/
def execCommit (f : MgmtFrame) (s : State) : StepOutcome :=
  let t := s.taken (.commit f)
  t.command 3 f (t.noContext.commit f.args)

/-- The Management Unit takes a departure report (R55). -/
def execDepartureReport (d : Nat) (s : State) : StepOutcome :=
  let t := s.taken (.departureReport d)
  match s.mgmt.commit with
  | some c =>
    (match c.activation with
     | .atDeparture k => if k ≤ d then .next (t.activate c) else .next t
     | .atInauguration => .next t
     | .now => .next t)
  | none => .next t

/-- The Management Unit takes the announcement of a new inauguration (R30, R50, R55). -/
def execNewInauguration (s : State) : StepOutcome :=
  let t := (s.taken .newInauguration).noContext
  match s.mgmt.commit with
  | some c => if c.activation = .atInauguration then .next (t.activate c) else .next t
  | none => .next t

/-- Whether a DISCARD of a family set cancels the pending commit (R58). -/
def ManagementUnit.cancels (u : ManagementUnit) (fs : FamilySet) : Bool :=
  match u.commit with
  | some c => c.families.meets fs
  | none => false

/-- The Table Store with the pending commit's staged banks FILLING again (R46, R58). -/
def State.freedTables (s : State) : TableStore :=
  match s.mgmt.commit with
  | some c => s.tables.mapFamilies c.families (fun b => { b with state := .filling })
  | none => s.tables

/-- DISCARD after the common checks, the load context cleared (R50, R58). -/
def State.discard (s : State) (args : List Byte) : Answer :=
  let fs := FamilySet.ofByte (byteAt args 0)
  if 31 < natAt args 0 then refuse s .invalid
  else
    let freed := if s.mgmt.cancels fs then s.freedTables else s.tables
    ⟨{ s with tables := freed.mapFamilies fs (fun b => { b with staged := [], state := .empty })
              mgmt := { s.mgmt with commit := if s.mgmt.cancels fs then none else s.mgmt.commit } },
     .ok, .cancelled (s.mgmt.cancels fs)⟩

/-- DISCARD (R58). -/
def execDiscard (f : MgmtFrame) (s : State) : StepOutcome :=
  let t := s.taken (.discard f)
  t.command 4 f (t.noContext.discard f.args)

/-! ### Mode, parameters, cold flag, status (R59 to R64) -/

/-- The mode of a code (R59). -/
def modeOf (c : Nat) : Option Mode :=
  match c with
  | 0 => some .normal
  | 1 => some .quiet
  | 2 => some .service
  | _ => none

/-- The state with the mode set, a change announced (R59). -/
def State.setMode (s : State) (m : Mode) : State :=
  if s.mgmt.mode = m then s
  else
    { s with mgmt := { s.mgmt with mode := m }
             announced := s.announced ++
               [.modeChangeResv, .modeChangeNotice s.mgmt.mode m, .modeChangePanel s.mgmt.mode m] }

/-- MODE (R59). -/
def execMode (f : MgmtFrame) (s : State) : StepOutcome :=
  let t := s.taken (.mode f)
  t.command 5 f
    (match modeOf (natAt f.args 0) with
     | some m => ⟨t.setMode m, .ok, .none⟩
     | none => refuse t .range)

/-- The parameters with one set to a value, clamped (R60); none for a number above 6. -/
def Params.set (p : Params) (number value : Nat) : Option Params :=
  match number with
  | 0 => some { p with horizon := clamp 1 15 value }
  | 1 => some { p with approachDistance := clamp 200 5000 value }
  | 2 => some { p with approachLead := clamp 30 300 value }
  | 3 => some { p with freshness := clamp 2 60 value }
  | 4 => some { p with quietIdle := clamp 10 600 value }
  | 5 => some { p with travelRight1 := value != 0 }
  | 6 => some { p with travelRight2 := value != 0 }
  | _ => none

/-- A parameter's value as reported (R60): yes is 1, no is 0. -/
def Params.get (p : Params) (number : Nat) : Nat :=
  match number with
  | 0 => p.horizon
  | 1 => p.approachDistance
  | 2 => p.approachLead
  | 3 => p.freshness
  | 4 => p.quietIdle
  | 5 => if p.travelRight1 then 1 else 0
  | 6 => if p.travelRight2 then 1 else 0
  | _ => 0

/-- The announcements of a changed parameter set (R61). -/
def Params.news (old new : Params) : List Instr :=
  (if old.horizon = new.horizon then [] else [.horizonChange]) ++
  (if old.travelRight1 = new.travelRight1 then [] else [.travelRightChange .panel1]) ++
  (if old.travelRight2 = new.travelRight2 then [] else [.travelRightChange .panel2])

/-- PARAM (R60, R61). -/
def execParam (f : MgmtFrame) (s : State) : StepOutcome :=
  let t := s.taken (.param f)
  t.command 6 f
    (match s.mgmt.params.set (natAt f.args 0) (wordAt f.args 1 2) with
     | some p =>
       ⟨{ t with mgmt := { s.mgmt with params := p }, announced := t.announced ++ s.mgmt.params.news p },
        .ok, .param (natAt f.args 0) (p.get (natAt f.args 0))⟩
     | none => refuse t .range)

/-- The port group of the status record (R63). -/
def PortState.status (q : PortState) : PortStatus :=
  { link := q.link, badCheck := q.badCheck, throughDrop := q.throughDrop, localDrop := q.localDrop, linkLoss := q.linkLoss }

/-- The family group of the status record (R63). -/
def FamilyBanks.status (b : FamilyBanks) : FamilyStatus := { tag := b.tag, count := b.count, staged := b.state }

/-- The status record (R63). -/
def State.statusRecord (s : State) : StatusRecord :=
  { identity := s.form.identity, position := s.form.position, headPort := s.form.headPort, numbered := s.form.isNumbered,
    orientation := s.form.orientation, portion := s.form.portion, coachNumber := s.form.coachNumber,
    coachClass := s.form.coachClass, lastInauguration := s.form.lastInauguration, cold := s.mgmt.cold,
    mode := s.mgmt.mode, end1 := s.line.end1.status, end2 := s.line.end2.status, seat := s.tables.seat.status,
    resv := s.tables.resv.status, route := s.tables.route.status, text := s.tables.text.status,
    page := s.tables.page.status, commit := s.mgmt.commit, progress := s.reck.progress.state, d := s.reck.progress.d,
    n := s.reck.progress.n, eta := s.reck.progress.eta, clockValid := s.reck.clock.valid,
    unplaced := unplacedCount s.resv.placements, faulted := faultedCount s.tables s.bus, rejected := s.notice.rejected,
    dropped := s.notice.dropped, depth1 := s.panels.panel1.stack.length, depth2 := s.panels.panel2.stack.length,
    faultPresent := s.faults.record.isSome, faultCount := s.faults.count }

/-- A port with its four counters 0 (R64). -/
def PortState.cleared (q : PortState) : PortState :=
  { q with badCheck := 0, throughDrop := 0, localDrop := 0, linkLoss := 0 }

/-- The state with the ten counters 0 (R64). -/
def State.clearCounters (s : State) : State :=
  { s with line := { s.line with end1 := s.line.end1.cleared, end2 := s.line.end2.cleared }
           notice := { s.notice with rejected := 0, dropped := 0 } }

/-- STATUS (R63, R64). -/
def execStatus (f : MgmtFrame) (s : State) : StepOutcome :=
  let t := s.taken (.status f)
  t.command 7 f
    ⟨if byteAt f.args 0 = 0 then t else t.clearCounters, .ok, .status s.statusRecord⟩

/-- START_ACK (R62). -/
def execStartAck (f : MgmtFrame) (s : State) : StepOutcome :=
  let t := s.taken (.startAck f)
  t.command 8 f ⟨{ t with mgmt := { s.mgmt with cold := false } }, .ok, .none⟩

/-! ### Commands executed by the Formation Unit (R37 to R39, R195) -/

/-- The coach class of a code: above 2 is MIXED (R37). -/
def classOf (c : Nat) : CoachClass :=
  match c with
  | 0 => .first
  | 1 => .second
  | _ => .mixed

/-- The announcements of an ASSIGN (R38, R39). -/
def FormationUnit.assignNews (old new : FormationUnit) : List Instr :=
  (if old.portion = new.portion then [] else [.portionChangeReckoning new.portion]) ++
  (if old.coachNumber = new.coachNumber then [] else [.coachNumberChange, .formationChangePanel .coachNumber]) ++
  (if old.coachClass = new.coachClass then [] else [.formationChangePanel .coachClass])

/-- ASSIGN (R37, R38, R39). -/
def execAssign (f : MgmtFrame) (s : State) : StepOutcome :=
  let t := s.taken (.assign f)
  let u := { s.form with portion := min 3 (natAt f.args 0), coachNumber := min 99 (natAt f.args 1),
                         coachClass := classOf (natAt f.args 2) }
  t.command 9 f
    ⟨{ t with form := u, announced := t.announced ++ s.form.assignNews u }, .ok,
     .assigned u.portion u.coachNumber u.coachClass⟩

/-- IDENT (R195). -/
def execIdent (f : MgmtFrame) (s : State) : StepOutcome :=
  let t := s.taken (.ident f)
  let i := BitVec.ofNat 32 (wordAt f.args 0 4)
  t.command 18 f
    (if i = 0 then refuse t .invalid
     else ⟨{ t with form := { s.form with identity := i } }, .ok, .identity i⟩)

/-! ### STOP_CANCEL, executed by the Reckoning Unit (R76, R77) -/

/-- The ordinals with a set flag, after one flag is set or cleared; kept rising. -/
def setFlag (flags : List Nat) (ordinal : Nat) (flag : Bool) : List Nat :=
  let rest := flags.filter (fun i => i != ordinal)
  if flag then rest.filter (fun i => i < ordinal) ++ [ordinal] ++ rest.filter (fun i => ordinal < i) else rest

/-- The flag of an entry changed, with the recomputation and announcements of R77: where neither set changed, nothing is
announced, also where the recomputation has moved the arrival minute, which R95 and R100 would announce (log 50, the model's
choice). -/
def State.cancelStop (s : State) (ordinal : Nat) (flag : Bool) : State :=
  let t := s.tables.setCancelled (setFlag s.tables.asReckoned.cancelled ordinal flag)
  let r := s.reck.recomputeAll t.asReckoned
  { s with
    tables := t
    reck := r
    announced := s.announced ++
      (if r.calling = s.reck.calling ∧ r.halting = s.reck.halting then []
       else reckoningSays s.reck.progress r.progress false ++
         [.reckoningAnnouncementResv .sets, .reckoningAnnouncementNotice .sets, .reckoningAnnouncementPanel .sets]) }

/-- STOP_CANCEL (R76, R77), on the ROUTE table the Reckoning Unit reads (R78). -/
def execStopCancel (f : MgmtFrame) (s : State) : StepOutcome :=
  let t := s.taken (.stopCancel f)
  let ordinal := natAt f.args 0
  let flag := byteAt f.args 1 != 0
  t.command 10 f
    (if s.tables.asReckoned.entryCount ≤ ordinal then refuse t .range
     else
       let u := if s.tables.asReckoned.cancelled.contains ordinal = flag then t else t.cancelStop ordinal flag
       ⟨u, .ok, .stopCancelled ordinal flag u.reck.calling.length⟩)

/-! ### Live edits, executed by the Reservation Unit (R114 to R116, R124) -/

/-- The flag "staged RESV present" (R115). -/
def State.stagedResv (s : State) : Bool := s.tables.resv.state != .empty

/-- Whether a live edit finds the placements out of date: by the basis (R109), or because a SEAT or RESV activation has
replaced a bank they were made from (R117, log 13). -/
def ReservationUnit.outdated (t : TableStore) (calling : List Nat) (u : ReservationUnit) : Bool :=
  u.stale t calling || u.basisSeat != t.seat.count || u.basisResv != t.resv.count

/-- What a live edit does first (R109, R112, R117): where the placements are out of date, a placement run and the resolution
of every enabled slot. -/
def ReservationUnit.forEdit (s : State) (u : ReservationUnit) : Did ReservationUnit :=
  if u.outdated s.tables s.reck.calling then ReservationUnit.resolveAll s false (u.run s.tables s.reck.calling)
  else Did.nothing u

/-- The tests of RESV_ADD (R114) against a unit whose basis is current: the result of the first that fails, or b and a. -/
def resvAddTest (t : TableStore) (calling : List Nat) (u : ReservationUnit) (x : ResvRecord) : Result ⊕ (Nat × Nat) :=
  if x.id = 0 then .inl .invalid
  else if t.resv.active.any (fun e => (resvRecord e.2).id == x.id) then .inl .duplicate
  else if 512 ≤ t.resv.active.length then .inl .full
  else if 127 < x.slot ∨ (enabledSlot t.seat.active x.slot).isNone then .inl .invalid
  else if x.board = x.alight then .inl .invalid
  else
    match onRoute t calling x with
    | none => .inl .notOnRoute
    | some (b, a) =>
      if a < b then .inl .notOnRoute
      else if (chainOf u.placements x.slot).any (fun e => spansOverlap b a e.b e.a) then .inl .overlap
      else .inr (b, a)

/-- RESV_ADD after the common checks (R114, R115). -/
def State.resvAdd (s : State) (args : List Byte) : Answer :=
  let r := s.withResv (s.resv.forEdit s)
  let u := r.resv
  let x := resvRecord args
  match resvAddTest s.tables s.reck.calling u x with
  | .inl e => refuse r e
  | .inr (b, a) =>
    let i := Table.lowestFree s.tables.resv.active 0
    let resv := { s.tables.resv with active := Table.set s.tables.resv.active i args }
    let t : State := { r with tables := { s.tables with resv := resv } }
    let v := { u with placements := Table.set u.placements i (x.placement (.placed b a)) }
    ⟨t.withResv (v.resolveOne t x.slot), .ok, .resvAdded i b a s.stagedResv⟩

/-- RESV_ADD (R114, R115). -/
def execResvAdd (f : MgmtFrame) (s : State) : StepOutcome :=
  let t := s.taken (.resvAdd f)
  t.command 11 f (t.resvAdd f.args)

/-- RESV_DROP after the common checks (R116). -/
def State.resvDrop (s : State) (args : List Byte) : Answer :=
  let r := s.withResv (s.resv.forEdit s)
  let u := r.resv
  match s.tables.resv.active.find? (fun e => (resvRecord e.2).id == wordAt args 0 4) with
  | none => refuse r .notFound
  | some (i, bytes) =>
    let resv := { s.tables.resv with active := Table.erase s.tables.resv.active i }
    let t : State := { r with tables := { s.tables with resv := resv } }
    let v := { u with placements := Table.erase u.placements i }
    match (Table.find u.placements i).map Placement.outcome with
    | some (.unplaced reason) => ⟨{ t with resv := v }, .ok, .resvDropped (some reason) s.stagedResv⟩
    | _ => ⟨t.withResv (v.resolveOne t (resvRecord bytes).slot), .ok, .resvDropped none s.stagedResv⟩

/-- RESV_DROP (R116). -/
def execResvDrop (f : MgmtFrame) (s : State) : StepOutcome :=
  let t := s.taken (.resvDrop f)
  t.command 12 f (t.resvDrop f.args)

/-! ### The acceptance list, edited by the Notice Unit (R148, R149) -/

/-- The list with an entry placed at the front, or directly after the entry of an id (R148). -/
def insertAfter (after : Nat) (x : FilterEntry) : List FilterEntry → List FilterEntry
  | [] => if after = 0 then [x] else []
  | y :: ys => if after = 0 then x :: y :: ys else if y.id = after then y :: x :: ys else y :: insertAfter after x ys

/-- The filter entry of an ACCEPT_INSERT (R148). -/
def filterEntry (args : List Byte) : FilterEntry :=
  { id := natAt args 1, categoryValue := byteAt args 2, categoryMask := byteAt args 3, languageValue := byteAt args 4,
    languageMask := byteAt args 5, portions := (byteAt args 6).extractLsb' 0 3, accept := byteAt args 7 == 1,
    override := if natAt args 8 ≤ 3 then some (natAt args 8) else none }

/-- ACCEPT_INSERT after the common checks (R148). -/
def State.acceptInsert (s : State) (args : List Byte) : Answer :=
  let list := s.notice.acceptance
  if natAt args 1 = 0 ∨ 1 < natAt args 7 then refuse s .invalid
  else if 24 ≤ list.length then refuse s .full
  else if list.any (fun y => y.id == natAt args 1) then refuse s .duplicate
  else if natAt args 0 ≠ 0 ∧ !list.any (fun y => y.id == natAt args 0) then refuse s .notFound
  else
    let new := insertAfter (natAt args 0) (filterEntry args) list
    ⟨{ s with notice := { s.notice with acceptance := new } }, .ok, .listCount new.length⟩

/-- ACCEPT_INSERT (R148). -/
def execAcceptInsert (f : MgmtFrame) (s : State) : StepOutcome :=
  let t := s.taken (.acceptInsert f)
  t.command 13 f (t.acceptInsert f.args)

/-- ACCEPT_REMOVE (R149). -/
def execAcceptRemove (f : MgmtFrame) (s : State) : StepOutcome :=
  let t := s.taken (.acceptRemove f)
  let list := s.notice.acceptance
  let new := list.filter (fun y => y.id != natAt f.args 0)
  t.command 14 f
    (if !list.any (fun y => y.id == natAt f.args 0) then refuse t .notFound
     else ⟨{ t with notice := { s.notice with acceptance := new } }, .ok, .listCount new.length⟩)

/-! ### RESTART, faults, STORE (R190, R191, R196) -/

/-- The hold in seconds of a RESTART argument (R191). -/
def holdOf (n : Nat) : Nat := if n = 0 then 5 else min 30 n

/-- RESTART (R191). -/
def execRestart (f : MgmtFrame) (s : State) : StepOutcome :=
  let t := s.taken (.restart f)
  let m := t.setMode .restartPending
  t.command 15 f
    ⟨{ m with mgmt := { m.mgmt with hold := some (holdOf (natAt f.args 0)) }
              announced := m.announced ++ [.modeChangeEngine] },
     .ok, .hold (holdOf (natAt f.args 0))⟩

/-- FAULT_READ (R190). -/
def execFaultRead (f : MgmtFrame) (s : State) : StepOutcome :=
  let t := s.taken (.faultRead f)
  t.command 16 f ⟨t, .ok, .faults s.faults.record s.faults.count⟩

/-- FAULT_CLEAR (R190). -/
def execFaultClear (f : MgmtFrame) (s : State) : StepOutcome :=
  let t := s.taken (.faultClear f)
  t.command 17 f
    ⟨{ t with faults := { s.faults with record := none, count := 0 }, announced := t.announced ++ [.faultClearEngine] },
     .ok, .faultCount s.faults.count⟩

/-- The copy that STORE takes (R196). -/
def State.settings (s : State) : RetainedSet :=
  { identity := s.form.identity, seats := s.tables.seat.active, params := s.mgmt.params }

/-- STORE (R196): refused by a common check or with BUSY while WRITING; otherwise the write begins, and no reply is built
yet. -/
def execStore (f : MgmtFrame) (s : State) : StepOutcome :=
  let t := s.taken (.store f)
  match commonCheck 19 f.args s.mgmt.mode with
  | some r => (refuse t r).send 19 f
  | none =>
    if s.mgmt.store.isSome then (refuse t .busy).send 19 f
    else .next { t with mgmt := { s.mgmt with store := some { copy := s.settings, port := f.port, seq := f.seq } } }

/-- The retained write ends (R196): `agrees` is the outcome of the read-back. -/
def execStoreWriteEnd (agrees : Bool) (s : State) : StepOutcome :=
  match s.mgmt.store with
  | none => .next s
  | some w =>
    let t := { s with mgmt := { s.mgmt with store := none } }
    if agrees then .next ({ t with retained := some w.copy }.reply w.port w.seq 19 .ok .none)
    else
      .next ({ t with retained := none, announced := s.announced ++ [Instr.faultReport .retainedWriteFailed] }.reply
        w.port w.seq 19 .invalid .none)

end Sys2Proof.Machine
end

