-- ==== Sys2Proof/Machine/Tick.lean ====
section
/-! DEFINITION. The seconds tick (R103): what it does at each block that counts in whole seconds. -/

namespace Sys2Proof.Machine

/-- The tick at the Reckoning Unit (R97). -/
def ReckoningUnit.tick (t : TableStore) (r : ReckoningUnit) : Did ReckoningUnit :=
  if r.progress.state.counts then
    if r.freshness ≤ 1 then r.expire t else Did.nothing { r with freshness := r.freshness - 1 }
  else Did.nothing r

/-- The tick at the Seat Bus Engine, less its choice (R137, R139): the unit, and whether a choice is due (R132). -/
def SeatBusEngine.tick (u : SeatBusEngine) : SeatBusEngine × Bool :=
  let timers : Table Nat := u.faulted.map (fun e => (e.1, e.2 - 1))
  let v := if u.refreshTimer ≤ 1 then { u with faulted := timers, refreshTimer := 20, refreshActive := true }
           else { u with faulted := timers, refreshTimer := u.refreshTimer - 1 }
  (v, decide (u.refreshTimer ≤ 1) || u.faulted.any (fun e => e.2 == 1))

/-- The scroll advance of one panel (R182). -/
def PanelState.scrollTick (s : State) (panel : Panel) (q : PanelState) : PanelState :=
  if s.mgmt.mode.dark then
    if q.serviceScrolled then
      PanelState.request s panel { q with serviceOffset := (q.serviceOffset + 1) % 65536 } else q
  else if ((q.stack.head?).map (·.scrolled)).getD false then
    PanelState.request s panel { q with stack := mapTop (fun l => { l with offset := (l.offset + 1) % 65536 }) q.stack }
  else q

/-- The idle timer at a tick (R185). -/
def PanelComposer.idleTick (s : State) (u : PanelComposer) : PanelComposer :=
  match s.mgmt.mode, u.idle with
  | .quiet, some (n + 1) => { u with idle := some n, brightness := if n = 0 then .low else u.brightness }
  | _, _ => u

/-- The tick at the Panel Composer (R182, R185). -/
def PanelComposer.tick (s : State) (u : PanelComposer) : PanelComposer :=
  let v := u.idleTick s
  { v with panel1 := v.panel1.scrollTick s .panel1, panel2 := v.panel2.scrollTick s .panel2 }

/-- The state after the Reckoning Unit and the uptime have taken a tick (R97, R188). -/
def State.tickClockwork (s : State) : State :=
  let d := s.reck.tick s.tables.asReckoned
  { s with reck := d.unit, announced := s.announced ++ d.said
           faults := { s.faults with uptime := saturate 4294967295 s.faults.uptime 1 } }

/-- The state after the Seat Bus Engine has taken a tick (R132, R137, R139). -/
def State.tickBus (s : State) : State :=
  let r := s.bus.tick
  { s with bus := if r.2 then r.1.choose s else r.1 }

/-- The once-a-second tick (R103), from the opening of the relay on: the blocks take it one after another (log 14). -/
def execSecondsTick (s : State) : StepOutcome :=
  if s.line.relay = .opened then
    let a := s.tickClockwork.tickBus
    let b := a.withNotice (a.notice.tick a)
    .next { b with panels := b.panels.tick b }
  else .next s

end Sys2Proof.Machine
end

