-- ==== Sys2Proof/Machine/Dispatch.lean ====
section
/-! DEFINITION. The dispatch: one arm for each command. -/

namespace Sys2Proof.Machine

def exec (i : Instr) (s : State) : Host.Outcome State Fault Refusal :=
  match i with
  | .powerOn => Sys2Proof.Machine.execPowerOn s
  | .powerLoss => Sys2Proof.Machine.execPowerLoss s
  | .startUpComplete => Sys2Proof.Machine.execStartUpComplete s
  | .neighbourSignalAppears p => Sys2Proof.Machine.execNeighbourSignalAppears p s
  | .trainingCompletes p => Sys2Proof.Machine.execTrainingCompletes p s
  | .lossOfSignal p => Sys2Proof.Machine.execLossOfSignal p s
  | .linkChangeReport p link => Sys2Proof.Machine.execLinkChangeReport p link s
  | .frameArrival p bytes => Sys2Proof.Machine.execFrameArrival p bytes s
  | .transmissionEnd p => Sys2Proof.Machine.execTransmissionEnd p s
  | .enumerate p seq payload => Sys2Proof.Machine.execEnumerate p seq payload s
  | .newInauguration => Sys2Proof.Machine.execNewInauguration s
  | .orientationChange => Sys2Proof.Machine.execOrientationChange s
  | .position f => Sys2Proof.Machine.execPosition f s
  | .departureReport d => Sys2Proof.Machine.execDepartureReport d s
  | .time payload => Sys2Proof.Machine.execTime payload s
  | .secondsTick => Sys2Proof.Machine.execSecondsTick s
  | .clockSecond => Sys2Proof.Machine.execClockSecond s
  | .freshnessExpiry => Sys2Proof.Machine.execFreshnessExpiry s
  | .mgmtUnknownCommand p seq payload => Sys2Proof.Machine.execMgmtUnknownCommand p seq payload s
  | .load f => Sys2Proof.Machine.execLoad f s
  | .loadNext f => Sys2Proof.Machine.execLoadNext f s
  | .commit f => Sys2Proof.Machine.execCommit f s
  | .discard f => Sys2Proof.Machine.execDiscard f s
  | .mode f => Sys2Proof.Machine.execMode f s
  | .param f => Sys2Proof.Machine.execParam f s
  | .status f => Sys2Proof.Machine.execStatus f s
  | .startAck f => Sys2Proof.Machine.execStartAck f s
  | .assign f => Sys2Proof.Machine.execAssign f s
  | .stopCancel f => Sys2Proof.Machine.execStopCancel f s
  | .resvAdd f => Sys2Proof.Machine.execResvAdd f s
  | .resvDrop f => Sys2Proof.Machine.execResvDrop f s
  | .acceptInsert f => Sys2Proof.Machine.execAcceptInsert f s
  | .acceptRemove f => Sys2Proof.Machine.execAcceptRemove f s
  | .restart f => Sys2Proof.Machine.execRestart f s
  | .faultRead f => Sys2Proof.Machine.execFaultRead f s
  | .faultClear f => Sys2Proof.Machine.execFaultClear f s
  | .ident f => Sys2Proof.Machine.execIdent f s
  | .store f => Sys2Proof.Machine.execStore f s
  | .storeWriteEnd agrees => Sys2Proof.Machine.execStoreWriteEnd agrees s
  | .restartHoldEnd => Sys2Proof.Machine.execRestartHoldEnd s
  | .faultReport r => Sys2Proof.Machine.execFaultReport r s
  | .portionChangeReckoning portion => Sys2Proof.Machine.execPortionChangeReckoning portion s
  | .routeActivationReckoning families => Sys2Proof.Machine.execRouteActivationReckoning families s
  | .reckoningAnnouncementResv news => Sys2Proof.Machine.execReckoningAnnouncementResv news s
  | .activationAnnouncementResv families => Sys2Proof.Machine.execActivationAnnouncementResv families s
  | .portionChangeResv => Sys2Proof.Machine.execPortionChangeResv s
  | .modeChangeResv => Sys2Proof.Machine.execModeChangeResv s
  | .horizonChange => Sys2Proof.Machine.execHorizonChange s
  | .queueRequest slot => Sys2Proof.Machine.execQueueRequest slot s
  | .seatActivationEngine => Sys2Proof.Machine.execSeatActivationEngine s
  | .modeChangeEngine => Sys2Proof.Machine.execModeChangeEngine s
  | .faultClearEngine => Sys2Proof.Machine.execFaultClearEngine s
  | .seatSettleEnd => Sys2Proof.Machine.execSeatSettleEnd s
  | .seatAnswer address status check => Sys2Proof.Machine.execSeatAnswer address status check s
  | .seatAnswerTimeout => Sys2Proof.Machine.execSeatAnswerTimeout s
  | .repollDue slot => Sys2Proof.Machine.execRepollDue slot s
  | .refreshRoundBegin => Sys2Proof.Machine.execRefreshRoundBegin s
  | .notice f => Sys2Proof.Machine.execNotice f s
  | .noticeCancel payload => Sys2Proof.Machine.execNoticeCancel payload s
  | .lifetimeExpiry id => Sys2Proof.Machine.execLifetimeExpiry id s
  | .repeatTimerExpiry id => Sys2Proof.Machine.execRepeatTimerExpiry id s
  | .dwellEnd => Sys2Proof.Machine.execDwellEnd s
  | .modeChangeNotice before after => Sys2Proof.Machine.execModeChangeNotice before after s
  | .reckoningAnnouncementNotice news => Sys2Proof.Machine.execReckoningAnnouncementNotice news s
  | .portionChangeNotice portion => Sys2Proof.Machine.execPortionChangeNotice portion s
  | .activationAnnouncementNotice families => Sys2Proof.Machine.execActivationAnnouncementNotice families s
  | .coachNumberChange => Sys2Proof.Machine.execCoachNumberChange s
  | .reckoningAnnouncementPanel news => Sys2Proof.Machine.execReckoningAnnouncementPanel news s
  | .overlayRequest id => Sys2Proof.Machine.execOverlayRequest id s
  | .overlayEnd id => Sys2Proof.Machine.execOverlayEnd id s
  | .noticeTextChange item => Sys2Proof.Machine.execNoticeTextChange item s
  | .activity => Sys2Proof.Machine.execActivity s
  | .modeChangePanel before after => Sys2Proof.Machine.execModeChangePanel before after s
  | .formationChangePanel item => Sys2Proof.Machine.execFormationChangePanel item s
  | .activationAnnouncementPanel families => Sys2Proof.Machine.execActivationAnnouncementPanel families s
  | .travelRightChange panel => Sys2Proof.Machine.execTravelRightChange panel s
  | .clockMinuteChange => Sys2Proof.Machine.execClockMinuteChange s
  | .composeSwap panel => Sys2Proof.Machine.execComposeSwap panel s
  | .idleTimerExpiry => Sys2Proof.Machine.execIdleTimerExpiry s

end Sys2Proof.Machine
end

