-- ==== Sys2Proof/Machine/Step.lean ====
section
/-! DEFINITION. One step: the command at the front of the queue, or an announcement a block has made to another. -/

namespace Sys2Proof.Machine

/-- One step. A waiting command is taken from the front of the queue. When none waits, the first announcement made and
not yet taken is delivered (logs 4, 5); when there is none either, the block idles. -/
def step (s : State) : Host.Outcome State Fault Refusal :=
  match s.pending with
  | c :: rest => exec c { s with pending := rest }
  | [] =>
    match s.announced with
    | c :: _ => exec c s
    | [] => .next s

/-- The state with the command that a word spells put at the front of its queue. -/
def State.withFetchWord (s : State) (nbits w : Nat) : State :=
  match Sys2Proof.decodeTableWord nbits w with
  | some c => { s with pending := c :: s.pending }
  | none => s

end Sys2Proof.Machine
end

