-- ==== Sys2Proof/Safety.lean ====
section
/-! DEFINITION. The laws of the part's state that every step keeps, block by block. They are the ranges and bounds that the
spec states of each block's items, in the form the statements use. -/

namespace Sys2Proof.Machine

/-! ### The line (R1, R11 to R16) -/

/-- A port: queues of at most 8 and 4 frames, run count 0..4, 16-bit counters; an idle transmitter has no frame waiting, and
a link that is not UP sends none. -/
abbrev PortState.legal (q : PortState) : Prop :=
  q.through.length ≤ 8 ∧ q.own.length ≤ 4 ∧ q.run ≤ 4 ∧
    (q.badCheck ≤ 65535 ∧ q.throughDrop ≤ 65535 ∧ q.localDrop ≤ 65535 ∧ q.linkLoss ≤ 65535) ∧
    (q.sending = none → q.through = [] ∧ q.own = []) ∧ (q.link ≠ .up → q.sending = none)

/-- The line: both ports, and both links DOWN while the relay is CLOSED. -/
abbrev LineInterface.legal (l : LineInterface) : Prop :=
  l.end1.legal ∧ l.end2.legal ∧ (l.relay = .closed → l.end1.link = .down ∧ l.end2.link = .down)

/-! ### The formation (R23, R27) -/

/-- The formation state: position 1..32 while NUMBERED, with the orientation of the head port; portion 0..3, coach number
0..99, inauguration number and announcement count 0..255. -/
abbrev FormationUnit.legal (u : FormationUnit) : Prop :=
  (u.isNumbered = true → 1 ≤ u.position ∧ u.position ≤ 32) ∧
    (∀ h ∈ u.headPort.toList, u.orientation = orientationOf h) ∧
    u.portion ≤ 3 ∧ u.coachNumber ≤ 99 ∧ (∀ n ∈ u.lastInauguration.toList, n ≤ 255) ∧ u.announcements ≤ 255

/-! ### The banks (R44 to R51) and the pending commit (R46, R49, R54) -/

/-- A bank: canonical, and within the family's indexes. -/
abbrev bankLegal (f : Family) (b : Table (List Byte)) : Prop := Table.wf b ∧ ∀ e ∈ b, e.1 < f.capacity

/-- A family's banks: both legal, tag and count of 16 bits, and no record staged while the staged bank is EMPTY. -/
abbrev FamilyBanks.legal (f : Family) (b : FamilyBanks) : Prop :=
  bankLegal f b.active ∧ bankLegal f b.staged ∧ b.tag ≤ 65535 ∧ b.count ≤ 65535 ∧ (b.state = .empty → b.staged = [])

/-- The Table Store: the five families, at most 12,288 characters in each TEXT bank, and the set cancelled flags held
rising; the same of a replaced ROUTE table and a replaced TEXT bank, the model's own fields (log 7). -/
abbrev TableStore.legal (t : TableStore) : Prop :=
  (∀ f ∈ Family.all, (t.family f).legal f) ∧ charTotal t.text.active ≤ 12288 ∧ charTotal t.text.staged ≤ 12288 ∧
    t.cancelled.Pairwise (· < ·) ∧
    (∀ r ∈ t.replacedRoute.toList, bankLegal .route r.entries ∧ r.cancelled.Pairwise (· < ·)) ∧
    (∀ b ∈ t.replacedText.toList, bankLegal .text b)

/-- The SEAT tables that a start may bring: the retained one and the copy being written. -/
abbrev State.retainedLegal (s : State) : Prop :=
  (∀ r ∈ s.retained.toList, bankLegal .seat r.seats) ∧ (∀ w ∈ s.mgmt.store.toList, bankLegal .seat w.copy.seats)

/-- The pointer of the blanking pass while it runs (R128, R140). -/
def BlankingPass.pointer : BlankingPass → Option Nat
  | .none => .none
  | .running p => .some p
  | .done => .none

/-- The Seat Bus Engine: no slot twice in the dirty queue or among the reported lamps, re-poll timers 0..30, refresh timer
1..20 between ticks, the refresh pointer and the pointer of a running blanking pass 0..128 (128 past slot 127 by log 20) and
attempts 1..3. -/
abbrev SeatBusEngine.legal (u : SeatBusEngine) : Prop :=
  u.dirty.Nodup ∧ u.lampReported.Nodup ∧ Table.wf u.faulted ∧ (∀ e ∈ u.faulted, e.2 ≤ 30) ∧
    (1 ≤ u.refreshTimer ∧ u.refreshTimer ≤ 20) ∧
    (u.refreshPointer ≤ 128 ∧ ∀ p ∈ u.blanking.pointer.toList, p ≤ 128) ∧
    (∀ x ∈ u.transaction.toList, 1 ≤ x.attempt ∧ x.attempt ≤ 3)

/-- The banks with the engine that serves them, and the 16-bit tag a pending commit will leave with them (R54, R56). -/
abbrev State.tablesLegal (s : State) : Prop :=
  s.tables.legal ∧ s.retainedLegal ∧ s.bus.legal ∧ ∀ c ∈ s.mgmt.commit.toList, c.tag ≤ 65535

/-- The pending commit: a staged bank is COMMITTED exactly while the pending commit names its family, the load context's
family is not in it, and it waits for a departure or an inauguration. -/
abbrev State.commitLegal (s : State) : Prop :=
  (∀ f ∈ Family.all, (s.tables.family f).state = .committed ↔ s.mgmt.locks f = true) ∧
    (∀ x ∈ s.mgmt.context.toList, s.mgmt.locks x.1 = false ∧ x.2 ≤ x.1.capacity) ∧
    (∀ c ∈ s.mgmt.commit.toList, c.activation ≠ .now)

/-! ### Parameters, progress record and clock (R60, R82, R83, R102) -/

/-- The seven parameters in their ranges (R60). -/
abbrev Params.legal (p : Params) : Prop :=
  (1 ≤ p.horizon ∧ p.horizon ≤ 15) ∧ (200 ≤ p.approachDistance ∧ p.approachDistance ≤ 5000) ∧
    (30 ≤ p.approachLead ∧ p.approachLead ≤ 300) ∧ (2 ≤ p.freshness ∧ p.freshness ≤ 60) ∧
    (10 ≤ p.quietIdle ∧ p.quietIdle ≤ 600)

/-- The progress record: speed, ETA, permille, arrival minute, delay and metres run in their ranges; a remembered state
exactly in HOLD, and then one of four; an approach target exactly while an approach is in force. -/
abbrev Progress.legal (r : Progress) : Prop :=
  r.sRun ≤ 1048575 ∧ (∀ v ∈ r.vs.toList, v ≤ 1000) ∧ (∀ e ∈ r.eta.toList, e ≤ 5999) ∧ r.permille ≤ 999 ∧
    (∀ m ∈ r.arrival.toList, m ≤ 1439) ∧ (-60 ≤ r.delay ∧ r.delay ≤ 999) ∧
    (r.state = .hold ↔ r.remembered.isSome = true) ∧
    (∀ m ∈ r.remembered.toList, m ∈ [ProgressState.atStop, .running, .approaching, .finished]) ∧
    (r.approach.isSome = true ↔ r.state = .approaching ∨ r.remembered = some .approaching)

/-- A last frame: its clamped fields (R85). -/
abbrev LastFrame.legal (f : LastFrame) : Prop := f.sRun ≤ 1048575 ∧ f.v ≤ 1000 ∧ -60 ≤ f.delay ∧ f.delay ≤ 999

/-- The Reckoning Unit: its record, last frame, approach parameters, freshness counter 0..60, and a clock that stays in
its day. -/
abbrev ReckoningUnit.legal (r : ReckoningUnit) : Prop :=
  r.progress.legal ∧ (∀ f ∈ r.lastFrame.toList, f.legal) ∧ (200 ≤ r.distanceInUse ∧ r.distanceInUse ≤ 5000) ∧
    (30 ≤ r.leadInUse ∧ r.leadInUse ≤ 300) ∧ r.freshness ≤ 60 ∧ r.clock.seconds ≤ 86399 ∧ r.clock.phase ≤ 999

/-- The Reckoning Unit with the parameter sets it is loaded from. -/
abbrev State.reckoningLegal (s : State) : Prop :=
  s.reck.legal ∧ s.mgmt.params.legal ∧ (∀ r ∈ s.retained.toList, r.params.legal) ∧
    (∀ w ∈ s.mgmt.store.toList, w.copy.params.legal)

/-! ### Placement (R110, R111) -/

/-- The span of a placement: its b and a while it is placed. -/
def Placement.span (p : Placement) : Option (Nat × Nat) :=
  match p.outcome with
  | .placed b a => some (b, a)
  | .unplaced _ => none

/-- Whether two placements may stand together: not the same slot, or not both placed, or spans that do not overlap. -/
def Placement.clear (x y : Placement) : Bool :=
  match x.span, y.span with
  | some s, some t => x.slot != y.slot || !spansOverlap s.1 s.2 t.1 t.2
  | _, _ => true

/-- The law of R110: every placed record has b below a, both members of the basis' calling set, and no two placed records
of one slot overlap. -/
abbrev ReservationUnit.placementLaw (u : ReservationUnit) : Prop :=
  (∀ e ∈ u.placements, ∀ x ∈ e.2.span.toList, x.1 < x.2 ∧ x.1 ∈ u.basisCalling ∧ x.2 ∈ u.basisCalling) ∧
    u.placements.Pairwise (fun x y => x.2.clear y.2 = true)

/-! ### Notices (R145, R148, R150, R164) -/

/-- An entry of the notice queue: its fields in the ranges of R150, and the overlay-wanted flag set exactly when the entry
asks for an overlay (R151, R164). -/
abbrev NoticeEntry.legal (e : NoticeEntry) : Prop :=
  (1 ≤ e.id ∧ e.id ≤ 65535) ∧ e.effective ≤ 3 ∧ e.interval ≤ 3600 ∧ e.repeatTimer ≤ 3600 ∧ e.count ≤ 255 ∧
    (∀ n ∈ e.remaining.toList, 1 ≤ n ∧ n ≤ 65535) ∧ e.overlayWanted = e.wants

/-- The text lines: a show is of a queued entry, of at most 96 characters, with a dwell count of 1..20. -/
def Lines.legal (ids : List Nat) : Lines → Bool
  | .blank => true
  | .default => true
  | .showing id text dwell => ids.contains id && decide (text.length ≤ 96 ∧ 1 ≤ dwell ∧ dwell ≤ 20)

/-- The Notice Unit: at most 16 entries with no id twice, in ascending order of effective priority; at most 24 filter
entries with no id twice; the lines, the default text and the counters in their ranges. -/
abbrev NoticeUnit.legal (u : NoticeUnit) : Prop :=
  (u.queue.length ≤ 16 ∧ (u.queue.map (·.id)).Nodup ∧ u.queue.Pairwise (fun x y => x.effective ≤ y.effective) ∧
    (∀ e ∈ u.queue, e.legal)) ∧
  (u.acceptance.length ≤ 24 ∧ (u.acceptance.map (·.id)).Nodup ∧
    (∀ x ∈ u.acceptance, (1 ≤ x.id ∧ x.id ≤ 255) ∧ ∀ p ∈ x.override.toList, p ≤ 3)) ∧
  u.lines.legal (u.queue.map (·.id)) = true ∧ u.defaultText.length ≤ 96 ∧ u.rejected ≤ 65535 ∧ u.dropped ≤ 65535

/-- Every entry of the queue concerns the coach (R150): its portion mask holds the bit of the portion the unit has taken
(log 30), where that portion is 1, 2 or 3. -/
abbrev NoticeUnit.portionLaw (u : NoticeUnit) : Prop :=
  1 ≤ u.portion → u.portion ≤ 3 → ∀ e ∈ u.queue, e.mask.getLsbD (u.portion - 1) = true

/-! ### Panels (R167, R170, R171, R185) -/

/-- The live APPROACH levels of a stack. -/
def PanelState.liveApproaches (q : PanelState) : Nat :=
  (q.stack.filter (fun l => l.kind == .approach && !l.dead)).length

/-- A page stack: 1..4 levels, MAP at the bottom alone and live, no two live levels of one kind and id, and exactly one
of a live APPROACH level and an approach want while the basis names an approach, neither otherwise. -/
abbrev PanelState.legal (basis : Option Approach) (q : PanelState) : Prop :=
  (1 ≤ q.stack.length ∧ q.stack.length ≤ 4) ∧
    q.stack.getLast?.map (fun l => (l.kind, l.dead)) = some (.map, false) ∧
    (∀ l ∈ q.stack.dropLast, l.kind ≠ .map) ∧
    ((q.stack.filter (fun l => !l.dead)).map (·.kind)).Nodup ∧
    q.liveApproaches + (if q.approachWant then 1 else 0) = (if basis.isSome then 1 else 0) ∧
    (∀ l ∈ q.stack, l.offset ≤ 65535) ∧ q.serviceOffset ≤ 65535

/-- The Panel Composer: both stacks, and the level LOW only with the idle timer at 0. -/
abbrev PanelComposer.legal (u : PanelComposer) : Prop :=
  u.panel1.legal u.basis ∧ u.panel2.legal u.basis ∧ (u.brightness = .low → u.idle = some 0)

/-! ### Faults and restart (R188, R189, R191) -/

/-- The fault record: present exactly while faults are counted, the count 0..255, the uptime of 32 bits. -/
abbrev FaultStore.legal (u : FaultStore) : Prop :=
  (u.record.isSome = true ↔ 1 ≤ u.count) ∧ u.count ≤ 255 ∧ u.uptime ≤ 4294967295

/-- The restart hold: running exactly in RESTART_PENDING, of 1..30 s. -/
abbrev ManagementUnit.holdLegal (u : ManagementUnit) : Prop :=
  (u.mode = .restartPending ↔ u.hold.isSome = true) ∧ ∀ n ∈ u.hold.toList, 1 ≤ n ∧ n ≤ 30

/-! ### The words of the statements -/

/-- The five tests of R5 on the bytes of a frame: the last says that its check does not match. -/
abbrev malformed (bs : List Byte) : Prop :=
  (bs.length < 11 ∨ 251 < bs.length) ∨ 240 < natAt bs 8 ∨ (natAt bs 8 : Int) ≠ (bs.length : Int) - 11 ∨
    4 < ((byteAt bs 0).extractLsb' 0 4).toNat ∨ bs.drop (bs.length - 2) ≠ crcBytes (bs.take (bs.length - 2))

/-- The code and frame of a management command that has a name (R41). -/
def namedCommand : Instr → Option (Nat × MgmtFrame)
  | .load f => some (1, f)
  | .loadNext f => some (2, f)
  | .commit f => some (3, f)
  | .discard f => some (4, f)
  | .mode f => some (5, f)
  | .param f => some (6, f)
  | .status f => some (7, f)
  | .startAck f => some (8, f)
  | .assign f => some (9, f)
  | .stopCancel f => some (10, f)
  | .resvAdd f => some (11, f)
  | .resvDrop f => some (12, f)
  | .acceptInsert f => some (13, f)
  | .acceptRemove f => some (14, f)
  | .restart f => some (15, f)
  | .faultRead f => some (16, f)
  | .faultClear f => some (17, f)
  | .ident f => some (18, f)
  | .store f => some (19, f)
  | _ => none

/-- The argument bytes of the commands of fixed length (R41): pairs of a code and a length. -/
def argumentBytes : List (Nat × Nat) :=
  [(3, 5), (4, 1), (5, 1), (6, 3), (7, 1), (8, 0), (9, 3), (10, 2), (11, 10), (12, 4), (13, 9), (14, 1), (15, 1), (16, 0),
   (17, 0), (18, 4), (19, 0)]

/-- The state with the load context none where the command is LOAD or LOAD_NEXT (R42, R50). -/
def contextAfterRefusal (code : Nat) (s : State) : State := if code = 1 ∨ code = 2 then s.noContext else s

/-- The three commands after which every item stands at its value after a start: they change any item. -/
def isStart : Instr → Bool
  | .powerOn => true
  | .powerLoss => true
  | .restartHoldEnd => true
  | _ => false

/-- The cancelled flags, and the tables not yet replaced for the units that still read them, as they were. -/
abbrev TableStore.keepsFlags (old new : TableStore) : Prop :=
  new.cancelled = old.cancelled ∧ new.replacedRoute = old.replacedRoute ∧ new.replacedText = old.replacedText

/-- The effect of an accepted LOAD or LOAD_NEXT of `m` records at index `i` of a family (R47): those records written and
present, for TEXT the characters at id 0 not kept, the staged bank FILLING, the context advanced, nothing else changed. -/
abbrev loads (s t : State) (fam : Family) (i m : Nat) (rs : List (List Byte)) : Prop :=
  t = { s with tables := t.tables, mgmt := { s.mgmt with context := some (fam, i + m) } } ∧
    (t.tables.family fam).state = .filling ∧ (t.tables.family fam).active = (s.tables.family fam).active ∧
    (t.tables.family fam).tag = (s.tables.family fam).tag ∧ (t.tables.family fam).count = (s.tables.family fam).count ∧
    s.tables.keepsFlags t.tables ∧ (∀ g, g ≠ fam → t.tables.family g = s.tables.family g) ∧
    ∀ j, Table.find (t.tables.family fam).staged j =
      if i ≤ j ∧ j < i + m then (if fam = .text ∧ j = 0 then some [] else rs[j - i]?)
      else Table.find (s.tables.family fam).staged j

/-- The records that the bytes of a load hold exactly (R45, R48 test 4): `m` of the family's size one after another, or for
TEXT `m`, each of the characters that follow its length byte. -/
abbrev fills (fam : Family) (m : Nat) (bytes : List Byte) (rs : List (List Byte)) : Prop :=
  rs.length = m ∧
    (∀ size, (fam, size) ∈ [(Family.seat, 7), (.resv, 10), (.route, 58), (.page, 18)] →
      (∀ r ∈ rs, r.length = size) ∧ rs.flatten = bytes) ∧
    (fam = .text → (∀ r ∈ rs, r.length ≤ 255) ∧ rs.flatMap (fun r => BitVec.ofNat 8 r.length :: r) = bytes)

/-- The tests of R48 and R49 on the records of a load: the count, the encoding, and for TEXT the lengths and the total. -/
abbrev loadable (s : State) (fam : Family) (i m : Nat) (bytes : List Byte) (rs : List (List Byte)) : Prop :=
  1 ≤ m ∧ i + m ≤ fam.capacity ∧ splitRecords fam m bytes = some rs ∧
    (fam = .text → (∀ r ∈ rs, r.length ≤ 96) ∧ charTotal (writeRecords fam (s.tables.family fam).staged i rs) ≤ 12288)

/-- The banks after an activation of a family set (R56), and the ROUTE table and the TEXT bank that it replaces, kept until
their units take it (log 7). -/
abbrev activates (old new : TableStore) (fs : FamilySet) (tag : Nat) : Prop :=
  (∀ g, new.family g = if fs.names g = true then
      { active := (old.family g).staged, staged := [], state := .empty, tag := tag,
        count := ((old.family g).count + 1) % 65536 } else old.family g) ∧
    new.cancelled = (if fs.route then [] else old.cancelled) ∧
    new.replacedRoute = (if fs.route then some (old.replacedRoute.getD ⟨old.route.active, old.cancelled⟩)
      else old.replacedRoute) ∧
    new.replacedText = if fs.text then some (old.replacedText.getD old.text.active) else old.replacedText

/-- The show of an entry ended and counted as shown (R158): the lines in DEFAULT for the choice that follows, the entry
removed when its interval is 0 or its shows are exhausted, and what is announced of it. One that stays keeps its due flag (log
47, the model's choice). -/
def NoticeUnit.countedEnd (u : NoticeUnit) (x : NoticeEntry) : Did NoticeUnit :=
  let leaves : Bool := x.interval == 0 || (x.count != 0 && x.showsRemaining == 0)
  ⟨{ u with lines := .default, queue := if leaves then u.queue.filter (fun e => e.id != x.id) else u.queue },
   [.noticeTextChange .current] ++ (if leaves && x.overlayWanted then [.overlayEnd x.id] else [])⟩

/-- Pre-emption (R159): an entry of effective priority `p` has become due, and the show of an entry of priority 1 to 3 ends
when `p` is 0. -/
def NoticeUnit.preemptedBy (u : NoticeUnit) (p : Nat) : Did NoticeUnit :=
  match u.queue.find? (fun x => u.shows x.id) with
  | some x => if p = 0 ∧ x.effective ≠ 0 then u.countedEnd x else ⟨u, []⟩
  | none => ⟨u, []⟩

/-- The entry of an id, if any, removed (R154) and the next show chosen (R157, log 21): its show ends, its overlay ends. -/
def NoticeUnit.without (s : State) (u : NoticeUnit) (id : Nat) : Did NoticeUnit :=
  let v : NoticeUnit :=
    { u with queue := u.queue.filter (fun e => e.id != id), lines := if u.shows id then .default else u.lines }
  ⟨(v.settle s).unit,
    (if u.shows id then [.noticeTextChange .current] else []) ++
      (if u.queue.any (fun e => e.id == id && e.overlayWanted) then [.overlayEnd id] else []) ++ (v.settle s).said⟩

/-- Entries removed one after another, in order (R165). -/
def NoticeUnit.withoutAll (s : State) : NoticeUnit → List Nat → Did NoticeUnit
  | u, [] => ⟨u, []⟩
  | u, id :: ids =>
    let first := u.without s id
    let rest := NoticeUnit.withoutAll s first.unit ids
    ⟨rest.unit, first.said ++ rest.said⟩

/-- A local notice `x`, of priority 1 and without an overlay (R162), offered to admission: the update of the entry of its id
(R153), an admission (R151), an eviction or a drop (R152), with the choice that follows (R157). -/
def NoticeUnit.offeredLocal (s : State) (u : NoticeUnit) (x : NoticeEntry) : Did NoticeUnit :=
  let placed (q : List NoticeEntry) (y : NoticeEntry) : List NoticeEntry :=
    q.filter (fun e => e.effective ≤ 1) ++ y :: q.filter (fun e => 1 < e.effective)
  let chosen (v : NoticeUnit) (said : List Instr) : Did NoticeUnit := ⟨(v.settle s).unit, said ++ (v.settle s).said⟩
  let full : NoticeUnit := { u with dropped := min 65535 (u.dropped + 1) }
  match u.queue.find? (fun e => e.id == x.id) with
  | some old =>
    let new : NoticeEntry := { x with repeatTimer := old.repeatTimer }
    let queue := if old.effective = 1 then u.queue.map (fun e => if e.id = x.id then new else e)
                 else placed (u.queue.filter (fun e => e.id != x.id)) new
    let ends : List Instr := if old.overlayWanted then [.overlayEnd x.id] else []
    if u.shows x.id then chosen { u with queue := queue, lines := .default } (ends ++ [.noticeTextChange .current])
    else chosen { u with queue := queue } ends
  | none =>
    if u.queue.length < 16 then chosen { u with queue := placed u.queue x } []
    else
      match u.queue.getLast? with
      | some last =>
        if 1 < last.effective then
          let left := full.without s last.id
          chosen { left.unit with queue := placed left.unit.queue x } left.said
        else ⟨full, []⟩
      | none => ⟨full, []⟩

/-- The text that a local notice has now, by its id (R162, R163). -/
def localTextNow (s : State) (id : Nat) : Option Text :=
  if id = 65281 then some (localText s.tables s.reck.progress .calling)
  else if id = 65282 then some (localText s.tables s.reck.progress .closedDoor) else none

/-- An entry with its text rebuilt, where it is a local notice (R163). -/
def NoticeEntry.renewed (s : State) (e : NoticeEntry) : NoticeEntry :=
  match localTextNow s e.id with
  | some cs => { e with text := .inlined cs }
  | none => e

/-- The texts of the local notices rebuilt (R163): in the queue, and on the lines that show one whose text changes. -/
def NoticeUnit.rebuilt (s : State) (u : NoticeUnit) : Did NoticeUnit :=
  let v : NoticeUnit := { u with queue := u.queue.map (NoticeEntry.renewed s) }
  match u.lines, u.queue.find? (fun e => u.shows e.id) with
  | .showing id _ dwell, some e =>
    match localTextNow s id with
    | some cs =>
      if e.text = .inlined cs then ⟨v, []⟩ else ⟨{ v with lines := .showing id cs dwell }, [.noticeTextChange .current]⟩
    | none => ⟨v, []⟩
  | _, _ => ⟨v, []⟩

/-- The local notices kept in step with the approach in force (R162): the texts rebuilt where it is the basis, otherwise the
old approach's notice removed, the new one's offered, and the basis moved. -/
def NoticeUnit.reconciled (s : State) (u : NoticeUnit) : Did NoticeUnit :=
  let now := s.reck.progress.inForce
  if now = u.basis then u.rebuilt s
  else
    let left : Did NoticeUnit := match u.basis with
      | some a => u.without s (localId a.kind)
      | none => ⟨u, []⟩
    let new : Did NoticeUnit := match now with
      | some a => left.unit.offeredLocal s (localEntry s.tables s.reck.progress a.kind)
      | none => ⟨left.unit, []⟩
    ⟨{ new.unit with basis := now }, left.said ++ new.said⟩

/-- Whether a row of character cells, the first at column `xs`, their tops at row `top`, sets the pixel (x, y): a cell of a
character other than space, wholly within columns `x0..x1`, whose glyph sets it (R181; the glyphs are log 2's). -/
abbrev cellsSet (bigFont : Bool) (cells : Text) (xs : Int) (top x0 x1 x y : Nat) : Prop :=
  ∃ (j : Nat) (c : Byte), cells[j]? = some c ∧ c ≠ 0x20#8 ∧
    let left : Int := xs + ((j * cellWidth bigFont : Nat) : Int)
    (x0 : Int) ≤ left ∧ left + cellWidth bigFont ≤ x1 + 1 ∧ left ≤ x ∧ (x : Int) < left + cellWidth bigFont ∧
      top ≤ y ∧ y < top + cellHeight bigFont ∧ Config.glyph bigFont c ((x : Int) - left).toNat (y - top) = true

end Sys2Proof.Machine
end

