-- ==== Sys2Proof/Certificates/Slice0/Obligations.lean ====
section
/-! DEFINITION. The statements about the model, for the provers. In all of them an announcement or a delivery between blocks
stands in `announced` from the event that makes it, and its own row strikes the first equal copy (logs 4, 5); rows that deliver
test the relay only where a statement says so (log 41). -/

open Sys2Proof Sys2Proof.Machine

/-! ### The step, the start, and every command -/

/-- A command at the front of the queue: the step is that command on the rest of the queue. With no command waiting the step
takes the first announcement not yet taken, or idles (the model's choice, logs 4, 5). -/
def Obligations.StepRunsTheCommand : Prop :=
  (∀ (c : Instr) (rest : List Instr) (s : State), step { s with pending := c :: rest } = exec c { s with pending := rest }) ∧
  (∀ s : State, s.pending = [] →
    (∀ c cs, s.announced = c :: cs → step s = exec c s) ∧ (s.announced = [] → step s = .next s))

/-- The values that the state tables of the chapters give after power-on, the retained settings not yet read; and the laws of
Safety.lean, which hold there. Until the settings are read, the identity and the parameters stand at their defaults (log 1).
The model's own fields, the retained memory, the clock's phase and the scrolling marks have the values of logs 1, 4, 6, 7, 13,
18, 28 and 30. -/
def Obligations.ResetValues : Prop :=
  let s := State.reset
  (s.line.relay = .closed ∧ ∀ p, s.line.port p =
    { link := .down, through := [], own := [], sending := none, run := 0, badCheck := 0, throughDrop := 0, localDrop := 0,
      linkLoss := 0 }) ∧
  (s.form.isNumbered = false ∧ s.form.position = 0 ∧ s.form.headPort = none ∧ s.form.orientation = .unknown ∧
    s.form.lastInauguration = none ∧ s.form.portion = 0 ∧ s.form.coachNumber = 0 ∧ s.form.coachClass = .mixed ∧
    s.form.announcements = 0 ∧ s.form.identity = 0) ∧
  (s.tables.cancelled = [] ∧ ∀ f, s.tables.family f = { active := [], staged := [], state := .empty, tag := 0, count := 0 }) ∧
  (s.mgmt.context = none ∧ s.mgmt.commit = none ∧ s.mgmt.mode = .normal ∧ s.mgmt.hold = none ∧ s.mgmt.store = none ∧
    s.mgmt.cold = true ∧ s.mgmt.params =
      { horizon := 3, approachDistance := 1500, approachLead := 90, freshness := 8, quietIdle := 60, travelRight1 := true,
        travelRight2 := false }) ∧
  (s.faults.record = none ∧ s.faults.count = 0 ∧ s.faults.uptime = 0) ∧
  (s.reck.progress =
      { state := .noRoute, remembered := none, d := none, a := none, p := none, n := none, h := none, sRun := 0, vs := none,
        remaining := 0, eta := none, permille := 0, arrival := none, delay := 0, door := .closed, approach := none } ∧
    s.reck.lastFrame = none ∧ s.reck.distanceInUse = s.mgmt.params.approachDistance ∧
    s.reck.leadInUse = s.mgmt.params.approachLead ∧ s.reck.freshness = s.mgmt.params.freshness ∧ s.reck.calling = [] ∧
    s.reck.halting = [] ∧ s.reck.clock.valid = false ∧ s.reck.clock.seconds = 0) ∧
  (s.resv.placements = [] ∧ s.resv.basisCount = 0 ∧ s.resv.basisCalling = [] ∧ s.resv.contents = []) ∧
  (s.bus.dirty = enabledSlots s.tables.seat.active ∧ s.bus.faulted = [] ∧ s.bus.lampReported = [] ∧
    s.bus.selected = none ∧ s.bus.transaction = none ∧
    s.bus.refreshPointer = 0 ∧ s.bus.refreshTimer = 20 ∧ s.bus.refreshActive = false ∧ s.bus.blanking = .none) ∧
  (s.notice.acceptance = [] ∧ s.notice.queue = [] ∧ s.notice.lines = .blank ∧ s.notice.defaultText = [] ∧
    s.notice.basis = none ∧ s.notice.rejected = 0 ∧ s.notice.dropped = 0) ∧
  (s.panels.basis = none ∧ s.panels.brightness = .full ∧ s.panels.idle = none ∧
    ∀ q ∈ [s.panels.panel1, s.panels.panel2],
      q.stack.map (fun l => (l.kind, l.offset, l.dead)) = [(.map, 0, false)] ∧ q.approachWant = false ∧
      q.serviceOffset = 0 ∧ q.compose = none ∧ q.again = false ∧
      q.front = Vector.replicate 48 (Vector.replicate 192 0) ∧ q.back = Vector.replicate 48 (Vector.replicate 192 0)) ∧
  (s.retained = none ∧ s.retainedRead = false ∧ s.announced = [] ∧ s.pending = [] ∧ s.tables.replacedRoute = none ∧
    s.tables.replacedText = none ∧ s.reck.portion = 0 ∧ s.notice.portion = 0 ∧ s.resv.basisSeat = 0 ∧
    s.resv.basisResv = 0) ∧
  (s.line.legal ∧ s.form.legal ∧ s.tablesLegal ∧ s.commitLegal ∧ s.reckoningLegal ∧ s.resv.placementLaw ∧
    s.notice.legal ∧ s.notice.portionLaw ∧ s.panels.legal ∧ s.faults.legal ∧ s.mgmt.holdLegal)

/-- No command stops the part, and none touches the commands that wait. An event whose premise does not hold leaves the state
as it is (log 15). -/
def Obligations.EveryCommandCompletes : Prop :=
  ∀ (c : Instr) (s : State), ∃ t, exec c s = .next t ∧ t.pending = s.pending

/-! ### The laws that every step keeps -/

/-- Every step keeps the line's law (R1, R12, R15, R16). -/
def Obligations.LineLawKept : Prop :=
  ∀ s t : State, s.line.legal → step s = .next t → t.line.legal

/-- Every step keeps the formation's law (R23, R27, R35, R37). -/
def Obligations.FormationLawKept : Prop :=
  ∀ s t : State, s.form.legal → step s = .next t → t.form.legal

/-- Every step keeps the law of the banks and of the engine that serves them (R45, R51, R56, R128, R131), the replaced ROUTE
table and TEXT bank of log 7 among the banks. Past slot 127 a pointer stands at 128 (log 20). -/
def Obligations.TablesLawKept : Prop :=
  ∀ s t : State, s.tablesLegal → step s = .next t → t.tablesLegal

/-- Every step keeps the law of the pending commit (R46, R49, R54). -/
def Obligations.CommitLawKept : Prop :=
  ∀ s t : State, s.commitLegal → step s = .next t → t.commitLegal

/-- Every step keeps the law of the progress record, the clock and the parameters (R60, R82, R83, R85, R102). -/
def Obligations.ReckoningLawKept : Prop :=
  ∀ s t : State, s.reckoningLegal → step s = .next t → t.reckoningLegal

/-- Every step keeps the law of placement (R110), in states whose banks are within the law. -/
def Obligations.PlacementLawKept : Prop :=
  ∀ s t : State, s.tablesLegal → s.resv.placementLaw → step s = .next t → t.resv.placementLaw

/-- Every step keeps the law of the notice queue, the acceptance list and the text lines (R145, R148, R150, R164); and with
it the clause of R150 on the portion masks, the portion being the one the unit has taken (log 30), where it is not 0. -/
def Obligations.NoticeLawKept : Prop :=
  (∀ s t : State, s.notice.legal → step s = .next t → t.notice.legal) ∧
  (∀ s t : State, s.notice.legal → s.notice.portionLaw → step s = .next t → t.notice.portionLaw)

/-- Every step keeps the law of the page stacks (R170, R171) and of the brightness (R185). -/
def Obligations.PanelLawKept : Prop :=
  ∀ s t : State, s.panels.legal → step s = .next t → t.panels.legal

/-- Every step keeps the law of the fault record and of the restart hold (R188, R189, R191). -/
def Obligations.FaultAndHoldLawKept : Prop :=
  ∀ s t : State, s.faults.legal ∧ s.mgmt.holdLegal → step s = .next t → t.faults.legal ∧ t.mgmt.holdLegal

/-! ### Rules over all commands -/

/-- Only ASSIGN sets the portion, the coach number and the class (R23); only IDENT the identity (R40); only the end of a STORE
write, or a loss of power during one, the retained memory (R194, R196); only an activation a tag and a count (R46, R56). The
starts are named apart. Once clear, the cold flag stays clear until power is lost or applied (R62, R193; the loss of power
by log 11); RESTART_PENDING is left by the restart alone, or with the power (R59, R140). That POWER_ON keeps the retained
memory also while a STORE write is in progress is the model's choice (log 49). -/
def Obligations.ItemsChangedByTheirCommandsAlone : Prop :=
  (∀ (c : Instr) (s t : State), exec c s = .next t → (∀ f, c ≠ .assign f) → isStart c = false →
    t.form.portion = s.form.portion ∧ t.form.coachNumber = s.form.coachNumber ∧ t.form.coachClass = s.form.coachClass) ∧
  (∀ (c : Instr) (s t : State), exec c s = .next t → (∀ f, c ≠ .ident f) → c ≠ .startUpComplete → isStart c = false →
    t.form.identity = s.form.identity) ∧
  (∀ (c : Instr) (s t : State), exec c s = .next t → (∀ b, c ≠ .storeWriteEnd b) →
    (c = .powerLoss → s.mgmt.store = none) → t.retained = s.retained) ∧
  (∀ (c : Instr) (s t : State), exec c s = .next t → (∀ f, c ≠ .commit f) → (∀ d, c ≠ .departureReport d) →
    c ≠ .newInauguration → c ≠ .startUpComplete → isStart c = false →
    ∀ f, (t.tables.family f).tag = (s.tables.family f).tag ∧ (t.tables.family f).count = (s.tables.family f).count) ∧
  (∀ (c : Instr) (s t : State), exec c s = .next t → s.mgmt.cold = false → c ≠ .powerOn → c ≠ .powerLoss →
    t.mgmt.cold = false) ∧
  (∀ (c : Instr) (s t : State), exec c s = .next t → s.mgmt.mode = .restartPending → isStart c = false →
    t.mgmt.mode = .restartPending)

/-! ### The line (chapter 1) -/

/-- The link events of R2 at a port, with the report of R3; where an event's row does not apply nothing changes. Loss of
signal from UP loses and counts the frames held and reports LINK_LOST (R3); from TRAINING only the change is reported. That
nothing changes where no row applies is log 15. -/
def Obligations.LinkEvents : Prop :=
  (∀ (p : Port) (s : State),
    (exec (.neighbourSignalAppears p) s = .next
      (if s.line.relay = .opened ∧ (s.line.port p).link = .down then
        { s with line := s.line.mapPort p (fun q => { q with link := .training })
                 announced := s.announced ++ [.linkChangeReport p .training] }
       else s)) ∧
    (exec (.trainingCompletes p) s = .next
      (if (s.line.port p).link = .training then
        { s with line := s.line.mapPort p (fun q => { q with link := .up })
                 announced := s.announced ++ [.linkChangeReport p .up] }
       else s))) ∧
  (∀ (p : Port) (s : State),
    ((s.line.port p).link = .up → ∃ t, exec (.lossOfSignal p) s = .next t ∧
      t = { s with line := t.line, announced := s.announced ++ [.faultReport (.linkLost p), .linkChangeReport p .down] } ∧
      t.line.relay = s.line.relay ∧ t.line.port p.other = s.line.port p.other ∧
      t.line.port p =
        { s.line.port p with
          link := .down, through := [], own := [], sending := none, run := 0
          linkLoss := min 65535 ((s.line.port p).linkLoss + ((s.line.port p).through.length + (s.line.port p).own.length +
            (if (s.line.port p).sending.isSome then 1 else 0))) }) ∧
    ((s.line.port p).link = .training → exec (.lossOfSignal p) s = .next
      { s with line := s.line.mapPort p (fun q => { q with link := .down })
               announced := s.announced ++ [.linkChangeReport p .down] }) ∧
    ((s.line.port p).link = .down → exec (.lossOfSignal p) s = .next s))

/-- The arbiter (R13): which frame an idle transmitter begins, and the run count; the end of a transmission (R14); and what
becomes of a frame offered to a port (R11, R12). -/
def Obligations.TransmitQueues : Prop :=
  ((∀ (q : PortState) (f : Frame) (own : List Frame), q.sending = none → q.own = f :: own →
    (q.run = 4 ∨ q.through = []) → q.arbitrate = { q with own := own, sending := some f, run := 0 }) ∧
  (∀ (q : PortState) (g : Frame) (through : List Frame), q.sending = none → q.through = g :: through →
    (q.own = [] ∨ q.run ≠ 4) →
    q.arbitrate = { q with through := through, sending := some g, run := if q.own = [] then q.run else q.run + 1 }) ∧
  (∀ q : PortState, q.sending ≠ none ∨ (q.own = [] ∧ q.through = []) → q.arbitrate = q) ∧
  (∀ q : PortState, q.lose.run = 0) ∧
  (∀ (p : Port) (s : State), (s.line.port p).sending ≠ none → exec (.transmissionEnd p) s = .next
    { s with line := s.line.mapPort p (fun q => PortState.arbitrate { q with sending := none }) })) ∧
  (∀ (f : Frame) (q : PortState),
    (q.link ≠ .up → q.offerLocal f = q) ∧
    (q.link = .up → q.own.length < 4 → q.offerLocal f = PortState.arbitrate { q with own := q.own ++ [f] }) ∧
    (q.link = .up → 4 ≤ q.own.length → q.offerLocal f = { q with localDrop := min 65535 (q.localDrop + 1) }) ∧
    (q.through.length < 8 → q.offerThrough f = PortState.arbitrate { q with through := q.through ++ [f] }) ∧
    (8 ≤ q.through.length → q.offerThrough f = { q with throughDrop := min 65535 (q.throughDrop + 1) }))

/-- Malformed frames are discarded and counted once, every other sequence of bytes is read as a frame (R5); a good frame has
the forward copy of R7 and the local copy of R8, independent of each other. -/
def Obligations.FrameArrivals : Prop :=
  (∀ (p : Port) (bs : List Byte) (s : State), (s.line.port p).link = .up →
    (malformed bs → exec (.frameArrival p bs) s = .next
      { s with line := s.line.mapPort p (fun q => { q with badCheck := min 65535 (q.badCheck + 1) }) }) ∧
    (¬ malformed bs → ∃ target, Target.ofHeader bs = some target ∧
      parseFrame bs = some
        { kind := (byteAt bs 0).extractLsb' 4 4, target := target, hops := (byteAt bs 5).extractLsb' 0 6,
          origin := byteAt bs 6, seq := byteAt bs 7, payload := .bytes ((bs.drop 9).take (natAt bs 8)) })) ∧
  (∀ (p : Port) (bs : List Byte) (s : State) (f : Frame), (s.line.port p).link = .up → parseFrame bs = some f →
    exec (.frameArrival p bs) s = .next
      { s with
        line := if 0 < f.hops.toNat ∧ s.form.consumes f.target = false ∧ f.kind ≠ 1 ∧
                   (s.line.port p.other).link = .up
                then s.line.mapPort p.other (PortState.offerThrough { f with hops := f.hops - 1 }) else s.line
        announced := s.announced ++
          (if s.form.concerns f.target = true then dispatchFrame p f.seq f.kind f.payload.toBytes else []) })

/-- Which targets concern this coach and which are consumed here (R6). -/
def Obligations.TargetTable : Prop :=
  ∀ u : FormationUnit,
    (∀ p, (u.concerns (.coach p) = true ↔ u.isNumbered = true ∧ p.toNat = u.position) ∧
      u.consumes (.coach p) = u.concerns (.coach p)) ∧
    (u.legal → ∀ p : Byte, p.toNat < 1 ∨ 32 < p.toNat → u.concerns (.coach p) = false) ∧
    (∀ i, (u.concerns (.ident i) = true ↔ i = u.identity ∧ u.identity ≠ 0) ∧
      u.consumes (.ident i) = u.concerns (.ident i)) ∧
    (u.concerns .lead = false ∧ u.consumes .lead = false) ∧ (u.concerns .all = true ∧ u.consumes .all = false) ∧
    (∀ m, (u.concerns (.portion m) = true ↔ u.portion ≠ 0 ∧ m.getLsbD (u.portion - 1) = true) ∧
      u.consumes (.portion m) = false)

/-- The Frame Dispatcher's table, with the payloads it holds back (R9), and the command code of a MGMT payload (R41). That
the row of a command is chosen at the arrival is log 38. -/
def Obligations.DispatchTable : Prop :=
  ∀ (p : Port) (seq : Byte) (payload : List Byte),
    dispatchFrame p seq 1 payload = [.enumerate p seq payload] ∧
    dispatchFrame p seq 3 payload =
      (if payload.length < 10 then [] else [.position (PositionFields.ofBytes payload)]) ∧
    dispatchFrame p seq 4 payload = [.time payload] ∧
    dispatchFrame p seq 5 payload =
      (if payload.length < 11 ∨ ((byteAt payload 4).getLsbD 6 = true ∧ payload.length < 11 + min 96 (natAt payload 10))
       then [] else [.notice (NoticeFields.ofBytes payload)]) ∧
    dispatchFrame p seq 6 payload = [.noticeCancel payload] ∧
    dispatchFrame p seq 7 payload = [mgmtCommand p seq payload] ∧
    (∀ kind : BitVec 4, kind.toNat ∉ [1, 3, 4, 5, 6, 7] → dispatchFrame p seq kind payload = []) ∧
    (∀ code args, payload = code :: args →
      (1 ≤ code.toNat ∧ code.toNat ≤ 19 →
        namedCommand (mgmtCommand p seq payload) = some (code.toNat, { port := p, seq := seq, args := args })) ∧
      (code.toNat = 0 ∨ 20 ≤ code.toNat → mgmtCommand p seq payload = .mgmtUnknownCommand p seq payload)) ∧
    mgmtCommand p seq [] = .mgmtUnknownCommand p seq []

/-- A frame sent is a frame received: the bytes of a frame with a payload of at most 240 bytes read back to it, every
header field at every value it can hold (R4, R19). -/
def Obligations.FrameReadsBack : Prop :=
  ∀ (f : Frame) (bs : List Byte), f.payload = .bytes bs → bs.length ≤ 240 → parseFrame f.toBytes = some f

/-! ### The formation (chapter 2) -/

/-- The report of a link change: the loss of the numbering at the head port, and the LINK_EVENT (R25, R33, R34, R35). The
link state it carries is that of the report (log 40). -/
def Obligations.LinkChangeReports : Prop :=
  ∀ (p : Port) (link : LinkState) (s : State),
    let u : FormationUnit :=
      if link = .down ∧ s.form.headPort = some p then { s.form with numbering := .unnumbered } else s.form
    let event : Frame :=
      { kind := 9, target := .lead
        hops := if u.isNumbered then BitVec.ofNat 6 u.position else 63
        origin := BitVec.ofNat 8 u.position, seq := BitVec.ofNat 8 s.form.announcements
        payload := .linkEvent
          { port := p, link := link, identity := u.identity, numbered := u.isNumbered, position := u.position,
            orientation := u.orientation, lastInauguration := u.lastInauguration } }
    exec (.linkChangeReport p link) s = .next
      { s with
        announced := s.announced.erase (.linkChangeReport p link)
        form := { u with announcements := (s.form.announcements + 1) % 256 }
        line := match u.headPort with
          | some h => s.line.offer h event
          | none => (s.line.offer .end1 event).offer .end2 event }

/-- An ENUMERATE: the numbering with its onward frame or ENUMERATE_END (R26 to R30, R32), the overlong formation (R31), and
a payload too short (R26). -/
def Obligations.Enumeration : Prop :=
  ∀ (p : Port) (seq : Byte) (payload : List Byte) (s : State),
    (∀ number count rest, payload = number :: count :: rest → count.toNat + 1 ≤ 32 →
      let n := count.toNat + 1
      let orientation : Orientation := if p = .end1 then .normal else .reversed
      exec (.enumerate p seq payload) s = .next
        { s with
          form := { s.form with numbering := .numbered n p, orientation := orientation
                                lastInauguration := some number.toNat }
          line :=
            if (s.line.port p.other).link = .up then
              s.line.offer p.other
                { kind := 1, target := .all, hops := 63, origin := BitVec.ofNat 8 n, seq := seq
                  payload := .bytes [number, BitVec.ofNat 8 n] }
            else
              s.line.offer p
                { kind := 2, target := .lead, hops := BitVec.ofNat 6 n, origin := BitVec.ofNat 8 n, seq := seq
                  payload := .enumerateEnd n s.form.identity false }
          announced := s.announced.erase (.enumerate p seq payload) ++
            (if s.form.lastInauguration = some number.toNat then [] else [.newInauguration]) ++
            (if s.form.orientation = orientation then [] else [.orientationChange]) }) ∧
    (∀ number count rest, payload = number :: count :: rest → 32 < count.toNat + 1 →
      exec (.enumerate p seq payload) s = .next
        { s with
          form := { s.form with numbering := .unnumbered }
          line := s.line.offer p
            { kind := 2, target := .lead, hops := 63, origin := 0, seq := seq
              payload := .enumerateEnd 32 s.form.identity true }
          announced := s.announced.erase (.enumerate p seq payload) ++ [.faultReport .formationTooLong] }) ∧
    (payload.length < 2 → exec (.enumerate p seq payload) s = .next
      { s with announced := s.announced.erase (.enumerate p seq payload) })

/-! ### Management (chapter 3) -/

/-- The reply (R11, R25, R43): its header, its payload, the port it is offered to, and the number of each result; and the
common checks 1 and 2 of R42: no command code, and a code that names no command. A code that names a command is answered here
as log 37 says. -/
def Obligations.RepliesAndUnknownCommands : Prop :=
  (∀ (s : State) (port : Port) (seq code : Byte) (result : Result) (data : ReplyData),
    (s.form.numbering = .unnumbered → s.reply port seq code result data =
      { s with
        line := s.line.offer port
          { kind := 8, target := .lead, hops := 63, origin := 0, seq := seq, payload := .reply code result.code data } }) ∧
    (∀ n head, s.form.numbering = .numbered n head → s.reply port seq code result data =
      { s with
        line := s.line.offer head
          { kind := 8, target := .lead, hops := BitVec.ofNat 6 n, origin := BitVec.ofNat 8 n, seq := seq
            payload := .reply code result.code data } })) ∧
  ([Result.ok, .busy, .locked, .pending, .passed, .range, .noContext, .full, .duplicate, .overlap, .notOnRoute, .notFound,
    .invalid, .unknownCommand, .badLength].map Result.code = [0, 1, 2, 3, 4, 5, 6, 7, 8, 9, 10, 11, 12, 13, 14]) ∧
  (∀ (p : Port) (seq : Byte) (s : State),
    exec (.mgmtUnknownCommand p seq []) s = .next
      (State.reply { s with announced := s.announced.erase (.mgmtUnknownCommand p seq []) } p seq 0 .badLength .none) ∧
    ∀ code args, exec (.mgmtUnknownCommand p seq (code :: args)) s = .next
      (State.reply { s with announced := s.announced.erase (.mgmtUnknownCommand p seq (code :: args)) } p seq code
        .unknownCommand .none))

/-- The common checks 3 to 5 of R42, in their order, for all nineteen commands: the reply, and no other effect than the
context that a refused LOAD or LOAD_NEXT clears. -/
def Obligations.CommonChecks : Prop :=
  ∀ (c : Instr) (code : Nat) (f : MgmtFrame) (s : State), namedCommand c = some (code, f) →
    let refused (r : Result) : Host.Outcome State Fault Refusal :=
      .next ((contextAfterRefusal code { s with announced := s.announced.erase c }).reply f.port f.seq
        (BitVec.ofNat 8 code) r .none)
    (s.mgmt.mode = .restartPending → code ≠ 7 → code ≠ 16 → exec c s = refused .busy) ∧
    (s.mgmt.mode ≠ .restartPending ∨ code = 7 ∨ code = 16 →
      (∀ n, (code, n) ∈ argumentBytes → f.args.length ≠ n → exec c s = refused .badLength) ∧
      (code = 1 → f.args.length < 4 → exec c s = refused .badLength) ∧
      (code = 2 → f.args.length < 1 → exec c s = refused .badLength))

/-- An accepted LOAD and an accepted LOAD_NEXT; a refusal writes nothing and clears the context (R47, R48, R49), and none is
accepted into a family of the pending commit (R54), for LOAD_NEXT by the law of the load context. Then the refusals of both,
each with its result, the first test that fails deciding (R48, R49), with the capacities, the records that the bytes hold and
the bank they leave (R45, R47, R51). -/
def Obligations.LoadsTaken : Prop :=
  ((∀ (f : MgmtFrame) (s : State) (fam : Family) (rs : List (List Byte)),
    s.mgmt.mode ≠ .restartPending → 4 ≤ f.args.length → Family.ofCode (natAt f.args 0) = some fam →
    s.mgmt.locks fam = false → loadable s fam (wordAt f.args 1 2) (natAt f.args 3) (f.args.drop 4) rs →
    ∃ t, exec (.load f) s = .next (t.reply f.port f.seq 1 .ok (.context fam (wordAt f.args 1 2 + natAt f.args 3))) ∧
      loads { s with announced := s.announced.erase (.load f) } t fam (wordAt f.args 1 2) (natAt f.args 3) rs) ∧
  (∀ (f : MgmtFrame) (s : State) (fam : Family) (i : Nat) (rs : List (List Byte)),
    s.mgmt.mode ≠ .restartPending → 1 ≤ f.args.length → s.mgmt.context = some (fam, i) →
    loadable s fam i (natAt f.args 0) (f.args.drop 1) rs →
    ∃ t, exec (.loadNext f) s = .next (t.reply f.port f.seq 2 .ok (.context fam (i + natAt f.args 0))) ∧
      loads { s with announced := s.announced.erase (.loadNext f) } t fam i (natAt f.args 0) rs)) ∧
  (∀ (f : MgmtFrame) (s t : State),
    (exec (.load f) s = .next t →
      (t.tables = s.tables ∧ t.mgmt.context = none) ∨
      ∃ fam, Family.ofCode (natAt f.args 0) = some fam ∧ s.mgmt.locks fam = false ∧
        (t.tables.family fam).state = .filling ∧ (∀ g, g ≠ fam → t.tables.family g = s.tables.family g) ∧
        t.mgmt.context = some (fam, wordAt f.args 1 2 + natAt f.args 3)) ∧
    (exec (.loadNext f) s = .next t →
      (t.tables = s.tables ∧ t.mgmt.context = none) ∨
      ∃ fam i, s.mgmt.context = some (fam, i) ∧ (s.commitLegal → s.mgmt.locks fam = false) ∧
        (t.tables.family fam).state = .filling ∧ (∀ g, g ≠ fam → t.tables.family g = s.tables.family g) ∧
        t.mgmt.context = some (fam, i + natAt f.args 0))) ∧
  (∀ (f : MgmtFrame) (s : State), s.mgmt.mode ≠ .restartPending →
    let refused (c : Instr) (code : Byte) (r : Result) : Prop := exec c s = .next
      (State.reply { s with announced := s.announced.erase c, mgmt := { s.mgmt with context := none } } f.port f.seq code r
        .none)
    -- the tests on the records, from the index `i` of a family
    let tests (c : Instr) (code : Byte) (fam : Family) (i m : Nat) (bytes : List Byte) : Prop :=
      (m = 0 ∨ fam.capacity < i + m → refused c code .range) ∧
      (1 ≤ m → i + m ≤ fam.capacity →
        ((∀ rs, ¬ fills fam m bytes rs) → refused c code .badLength) ∧
        ∀ rs, fills fam m bytes rs → fam = .text →
          ((∃ r ∈ rs, 96 < r.length) → refused c code .range) ∧
          ((∀ r ∈ rs, r.length ≤ 96) → 12288 < charTotal (writeRecords .text s.tables.text.staged i rs) →
            refused c code .full))
    (4 ≤ f.args.length →
      (4 < natAt f.args 0 → refused (.load f) 1 .range) ∧
      ∀ fam, Family.ofCode (natAt f.args 0) = some fam →
        (s.mgmt.locks fam = true → refused (.load f) 1 .locked) ∧
        (s.mgmt.locks fam = false →
          tests (.load f) 1 fam (wordAt f.args 1 2) (natAt f.args 3) (f.args.drop 4))) ∧
    (1 ≤ f.args.length →
      (s.mgmt.context = none → refused (.loadNext f) 2 .noContext) ∧
      ∀ fam i, s.mgmt.context = some (fam, i) →
        tests (.loadNext f) 2 fam i (natAt f.args 0) (f.args.drop 1))) ∧
  ([0, 1, 2, 3, 4].map Family.ofCode = [some .seat, some .resv, some .route, some .text, some .page] ∧
    [Family.seat, .resv, .route, .text, .page].map Family.capacity = [128, 512, 48, 256, 300]) ∧
  (∀ (u : ManagementUnit) (fam : Family),
    u.locks fam = true ↔ ∃ c, u.commit = some c ∧ c.families.names fam = true) ∧
  ∀ (fam : Family) (m i : Nat) (bytes : List Byte) (rs : List (List Byte)) (bank : Table (List Byte)),
    (splitRecords fam m bytes = some rs ↔ fills fam m bytes rs) ∧
    (Table.wf bank → Table.wf (writeRecords fam bank i rs)) ∧
    (∀ j, Table.find (writeRecords fam bank i rs) j =
      if i ≤ j ∧ j < i + rs.length then (if fam = .text ∧ j = 0 then some [] else rs[j - i]?) else Table.find bank j)

/-- The six tests of COMMIT, the first that holds deciding; a refused COMMIT changes nothing but the load context (R52). -/
def Obligations.CommitRefusals : Prop :=
  ∀ (f : MgmtFrame) (s : State), s.mgmt.mode ≠ .restartPending → f.args.length = 5 →
    let fs := FamilySet.ofByte (byteAt f.args 0)
    let kind := natAt f.args 1
    let k := natAt f.args 2
    let refused (r : Result) (data : ReplyData) : Host.Outcome State Fault Refusal :=
      .next (State.reply { s with announced := s.announced.erase (.commit f), mgmt := { s.mgmt with context := none } }
        f.port f.seq 3 r data)
    let bad1 : Prop := s.mgmt.commit ≠ none
    let bad2 : Prop := (∀ g, fs.names g = false) ∨ 31 < natAt f.args 0 ∨ 2 < kind
    let bad4 : Prop := kind = 1 ∧ (48 ≤ k ∨ (s.tables.after fs .route).length ≤ k)
    let bad5 : Prop := kind = 1 ∧ ∃ d, s.reck.progress.d = some d ∧ k ≤ d
    (bad1 → exec (.commit f) s = refused .pending .none) ∧
    (¬ bad1 → bad2 → exec (.commit f) s = refused .invalid (.detail .noFamily)) ∧
    (¬ bad1 → ¬ bad2 →
      (∀ g, fs.list.find? (fun g => (s.tables.family g).state == .empty) = some g →
        exec (.commit f) s = refused .invalid (.detail (.family g none))) ∧
      ((∀ g, fs.names g = true → (s.tables.family g).state ≠ .empty) →
        (bad4 → exec (.commit f) s = refused .range .none) ∧
        (¬ bad4 → bad5 → exec (.commit f) s = refused .passed .none) ∧
        (¬ bad4 → ¬ bad5 → ∀ d, validate s.tables fs = some d → exec (.commit f) s = refused .invalid (.detail d))))

/-- An accepted COMMIT (R54, R55, R56): with NOW the activation, otherwise the pending commit and the COMMITTED banks. The
replaced ROUTE table and TEXT bank are kept by log 7. Step 1 of R57 carries the whole set to the Reckoning Unit, so that step
2 can name each unit's families: log 39, where R57 has it name the families the unit reads. -/
def Obligations.CommitAccepted : Prop :=
  ∀ (f : MgmtFrame) (s : State), s.mgmt.mode ≠ .restartPending → f.args.length = 5 → s.mgmt.commit = none →
    let fs := FamilySet.ofByte (byteAt f.args 0)
    let kind := natAt f.args 1
    let k := natAt f.args 2
    let tag := wordAt f.args 3 2
    (∃ g, fs.names g = true) → natAt f.args 0 ≤ 31 → kind ≤ 2 →
    (∀ g, fs.names g = true → (s.tables.family g).state ≠ .empty) →
    (kind = 1 → k < 48 ∧ k < (s.tables.after fs .route).length ∧ ∀ d, s.reck.progress.d = some d → d < k) →
    validate s.tables fs = none →
    ∃ t : State, exec (.commit f) s = .next (t.reply f.port f.seq 3 .ok (.tag tag)) ∧
      (kind = 0 → t = { s with
          tables := t.tables, mgmt := { s.mgmt with context := none }
          announced := s.announced.erase (.commit f) ++ activationSays fs } ∧ activates s.tables t.tables fs tag) ∧
      (kind ≠ 0 → t = { s with
          tables := t.tables, announced := s.announced.erase (.commit f)
          mgmt := { s.mgmt with
            context := none
            commit := some { families := fs, activation := if kind = 1 then .atDeparture k else .atInauguration,
                             tag := tag } } } ∧
        (∀ g, t.tables.family g =
          if fs.names g = true then { s.tables.family g with state := .committed } else s.tables.family g) ∧
        s.tables.keepsFlags t.tables)

/-- The events that activate a pending commit and those that leave it pending (R30, R50, R55, R56), and whom an activation is
announced to, ROUTE's first step alone when ROUTE is in the set (R57). The replaced ROUTE table and TEXT bank are kept by log
7. Step 1 carries the whole set to the Reckoning Unit, so that step 2 can name each unit's families: log 39, where R57 has it
name the families the unit reads. -/
def Obligations.CommitActivation : Prop :=
  (∀ (s : State) (d : Nat),
    (∀ c k, s.mgmt.commit = some c → c.activation = .atDeparture k → k ≤ d →
      ∃ t, exec (.departureReport d) s = .next t ∧ activates s.tables t.tables c.families c.tag ∧
        t = { s with tables := t.tables, mgmt := { s.mgmt with commit := none }
                     announced := s.announced.erase (.departureReport d) ++ activationSays c.families }) ∧
    ((∀ c k, s.mgmt.commit = some c → c.activation = .atDeparture k → d < k) →
      exec (.departureReport d) s = .next { s with announced := s.announced.erase (.departureReport d) }) ∧
    (∀ c, s.mgmt.commit = some c → c.activation = .atInauguration →
      ∃ t, exec .newInauguration s = .next t ∧ activates s.tables t.tables c.families c.tag ∧
        t = { s with tables := t.tables, mgmt := { s.mgmt with commit := none, context := none }
                     announced := s.announced.erase .newInauguration ++ activationSays c.families }) ∧
    ((∀ c, s.mgmt.commit = some c → c.activation ≠ .atInauguration) →
      exec .newInauguration s = .next
        { s with mgmt := { s.mgmt with context := none }, announced := s.announced.erase .newInauguration })) ∧
  (∀ fs : FamilySet,
    (fs.route = true → activationSays fs = [.routeActivationReckoning fs]) ∧
    (fs.route = false → activationSays fs = stepTwo fs) ∧
    (∀ x, .activationAnnouncementResv x ∈ stepTwo fs ↔
      x = { fs with page := false } ∧ (fs.seat ∨ fs.resv ∨ fs.route ∨ fs.text)) ∧
    (.seatActivationEngine ∈ stepTwo fs ↔ fs.seat = true) ∧
    (∀ x, .activationAnnouncementNotice x ∈ stepTwo fs ↔
      x = { fs with seat := false, resv := false, page := false } ∧ (fs.route ∨ fs.text)) ∧
    (∀ x, .activationAnnouncementPanel x ∈ stepTwo fs ↔
      x = { fs with seat := false, resv := false } ∧ (fs.route ∨ fs.text ∨ fs.page)) ∧
    (stepTwo fs).length ≤ 4)

/-- Structural validation (R53): the conditions, family by family, and the detail of a break: the first record in index order
that breaks one, the higher index of a pair, ROUTE with no index below two entries; the rank of a gap of ROUTE among breaking
records is the model's choice (log 43). A commit is valid when each named family is, and the first family in code order that
is not gives the detail. -/
def Obligations.ValidationConditions : Prop :=
  ∀ (t : TableStore) (fs : FamilySet),
    (validateFamily t fs .seat = none ↔
      (∀ e ∈ t.seat.staged, (seatSlot e.2).enabled = true →
        (seatSlot e.2).string ≤ 3 ∧ 1 ≤ (seatSlot e.2).address.toNat ∧ (seatSlot e.2).address.toNat ≤ 32) ∧
      (∀ e ∈ t.seat.staged, ∀ e' ∈ t.seat.staged, e.1 < e'.1 → (seatSlot e.2).enabled = true →
        (seatSlot e'.2).enabled = true → (seatSlot e.2).string = (seatSlot e'.2).string →
        (seatSlot e.2).address ≠ (seatSlot e'.2).address)) ∧
    (validateFamily t fs .resv = none ↔
      (∀ e ∈ t.resv.staged, (resvRecord e.2).id ≠ 0 ∧ (resvRecord e.2).slot ≤ 127 ∧
        enabledSlot (if fs.seat then t.seat.staged else t.seat.active) (resvRecord e.2).slot ≠ none ∧
        (resvRecord e.2).board ≠ (resvRecord e.2).alight) ∧
      (∀ e ∈ t.resv.staged, ∀ e' ∈ t.resv.staged, e.1 < e'.1 → (resvRecord e.2).id ≠ (resvRecord e'.2).id)) ∧
    (Table.wf t.route.staged → (validateFamily t fs .route = none ↔
      2 ≤ t.route.staged.length ∧ t.route.staged.map (·.1) = List.range t.route.staged.length ∧
      (∀ e ∈ t.route.staged, ∀ e' ∈ t.route.staged, e.1 < e'.1 →
        (routeEntry e.1 e.2).code ≠ (routeEntry e'.1 e'.2).code) ∧
      (∀ e ∈ t.route.staged, 1 ≤ e.1 →
        1 ≤ (routeEntry e.1 e.2).segment ∧ (routeEntry e.1 e.2).segment ≤ 1000000))) ∧
    validateFamily t fs .text = none ∧
    (validateFamily t fs .page = none ↔ ∀ e ∈ t.page.staged,
      (e.1 % 25 = 0 → natAt e.2 0 ≤ 3 ∧ 1 ≤ natAt e.2 1 ∧ natAt e.2 1 ≤ 3) ∧
      (e.1 % 25 ≠ 0 → natAt e.2 0 ≤ 3 ∧ Table.find t.page.staged (e.1 - e.1 % 25) ≠ none ∧
        ∀ q ∈ [rectAt e.2 1, rectAt e.2 5], 1 ≤ q.w ∧ 1 ≤ q.h ∧ q.x0 + q.w ≤ 192 ∧ q.y0 + q.h ≤ 48)) ∧
    -- which detail a family gives: the first of its records, in index order, that breaks a condition
    (let first (g : Family) (breaks : Nat × List Byte → Prop) : Prop :=
       ∀ pre e post, (t.family g).staged = pre ++ e :: post → (∀ x ∈ pre, ¬ breaks x) → breaks e →
         validateFamily t fs g = some (.family g (some e.1))
     first .seat (fun e => (seatSlot e.2).enabled = true ∧
       (3 < (seatSlot e.2).string ∨ (seatSlot e.2).address.toNat = 0 ∨ 32 < (seatSlot e.2).address.toNat ∨
         ∃ e' ∈ t.seat.staged, e'.1 < e.1 ∧ (seatSlot e'.2).enabled = true ∧
           (seatSlot e'.2).string = (seatSlot e.2).string ∧ (seatSlot e'.2).address = (seatSlot e.2).address)) ∧
     first .resv (fun e => (resvRecord e.2).id = 0 ∨ 127 < (resvRecord e.2).slot ∨
       enabledSlot (if fs.seat then t.seat.staged else t.seat.active) (resvRecord e.2).slot = none ∨
       (resvRecord e.2).board = (resvRecord e.2).alight ∨
       ∃ e' ∈ t.resv.staged, e'.1 < e.1 ∧ (resvRecord e'.2).id = (resvRecord e.2).id) ∧
     first .page (fun e =>
       (e.1 % 25 = 0 ∧ (3 < natAt e.2 0 ∨ natAt e.2 1 = 0 ∨ 3 < natAt e.2 1)) ∨
       (e.1 % 25 ≠ 0 ∧ (3 < natAt e.2 0 ∨ Table.find t.page.staged (e.1 - e.1 % 25) = none ∨
         ∃ q ∈ [rectAt e.2 1, rectAt e.2 5], q.w = 0 ∨ q.h = 0 ∨ 192 < q.x0 + q.w ∨ 48 < q.y0 + q.h)))) ∧
    (t.route.staged.length < 2 → validateFamily t fs .route = some (.family .route none)) ∧
    (2 ≤ t.route.staged.length → Table.wf t.route.staged →
      let breaks (i : Nat) : Prop := (∀ e ∈ t.route.staged, e.1 ≠ i) ∨
        ∃ e ∈ t.route.staged, e.1 = i ∧
          ((1 ≤ i ∧ ((routeEntry i e.2).segment = 0 ∨ 1000000 < (routeEntry i e.2).segment)) ∨
            ∃ e' ∈ t.route.staged, e'.1 < i ∧ (routeEntry e'.1 e'.2).code = (routeEntry i e.2).code)
      ∀ i, (∃ e ∈ t.route.staged, i ≤ e.1) → breaks i → (∀ j, j < i → ¬ breaks j) →
        validateFamily t fs .route = some (.family .route (some i))) ∧
    -- the whole set
    (validate t fs = none ↔ ∀ g, fs.names g = true → validateFamily t fs g = none) ∧
    (∀ pre g post d, [Family.seat, .resv, .route, .text, .page] = pre ++ g :: post →
      (∀ x ∈ pre, fs.names x = true → validateFamily t fs x = none) → fs.names g = true →
      validateFamily t fs g = some d → validate t fs = some d)

/-- DISCARD (R46, R50, R58). -/
def Obligations.DiscardTaken : Prop :=
  ∀ (f : MgmtFrame) (s : State), s.mgmt.mode ≠ .restartPending → f.args.length = 1 →
    let fs := FamilySet.ofByte (byteAt f.args 0)
    let named (g : Family) : Prop := ∃ c, s.mgmt.commit = some c ∧ c.families.names g = true
    (s.mgmt.cancels fs = true ↔ ∃ g, named g ∧ fs.names g = true) ∧
    (31 < natAt f.args 0 → exec (.discard f) s = .next
      (State.reply { s with announced := s.announced.erase (.discard f), mgmt := { s.mgmt with context := none } }
        f.port f.seq 4 .invalid .none)) ∧
    (natAt f.args 0 ≤ 31 →
      ∃ t : State, exec (.discard f) s = .next (t.reply f.port f.seq 4 .ok (.cancelled (s.mgmt.cancels fs))) ∧
        t = { s with
          tables := t.tables, announced := s.announced.erase (.discard f)
          mgmt := { s.mgmt with context := none
                                commit := if s.mgmt.cancels fs = true then none else s.mgmt.commit } } ∧
        s.tables.keepsFlags t.tables ∧
        ∀ g, (t.tables.family g).active = (s.tables.family g).active ∧
          (t.tables.family g).tag = (s.tables.family g).tag ∧ (t.tables.family g).count = (s.tables.family g).count ∧
          (fs.names g = true → (t.tables.family g).staged = [] ∧ (t.tables.family g).state = .empty) ∧
          (fs.names g = false → (t.tables.family g).staged = (s.tables.family g).staged ∧
            (s.mgmt.cancels fs = true ∧ named g → (t.tables.family g).state = .filling) ∧
            (¬ (s.mgmt.cancels fs = true ∧ named g) → (t.tables.family g).state = (s.tables.family g).state)))

/-- MODE (R59): the mode and its announcements, the mode already held, a value above 2. PARAM (R60, R61): the clamped value,
what is announced of a change, a number above 6. A yes or no parameter is reported as 1 or 0 (log 31). The announcements to
the Notice Unit and the Panel Composer carry the mode before and after (log 29), where R59 announces the new mode. -/
def Obligations.ModeAndParam : Prop :=
  (∀ (f : MgmtFrame) (s : State), s.mgmt.mode ≠ .restartPending → f.args.length = 1 →
    let taken : State := { s with announced := s.announced.erase (.mode f) }
    (∀ m, (natAt f.args 0, m) ∈ [(0, Mode.normal), (1, .quiet), (2, .service)] →
      (s.mgmt.mode = m → exec (.mode f) s = .next (taken.reply f.port f.seq 5 .ok .none)) ∧
      (s.mgmt.mode ≠ m → exec (.mode f) s = .next
        (State.reply { taken with
          mgmt := { s.mgmt with mode := m }
          announced := taken.announced ++
            [.modeChangeResv, .modeChangeNotice s.mgmt.mode m, .modeChangePanel s.mgmt.mode m] } f.port f.seq 5 .ok .none))) ∧
    (2 < natAt f.args 0 → exec (.mode f) s = .next (taken.reply f.port f.seq 5 .range .none))) ∧
  (∀ (f : MgmtFrame) (s : State), s.mgmt.mode ≠ .restartPending → f.args.length = 3 →
    let v := wordAt f.args 1 2
    let p := s.mgmt.params
    let yes (b : Bool) : Nat := if b then 1 else 0
    let becomes (q : Params) (held : Nat) (said : List Instr) : Prop :=
      exec (.param f) s = .next
        (State.reply { s with
          mgmt := { s.mgmt with params := q }
          announced := s.announced.erase (.param f) ++ (if q = p then [] else said) }
          f.port f.seq 6 .ok (.param (natAt f.args 0) held))
    (natAt f.args 0 = 0 →
      becomes { p with horizon := max 1 (min 15 v) } (max 1 (min 15 v)) [.horizonChange]) ∧
    (natAt f.args 0 = 1 →
      becomes { p with approachDistance := max 200 (min 5000 v) } (max 200 (min 5000 v)) []) ∧
    (natAt f.args 0 = 2 → becomes { p with approachLead := max 30 (min 300 v) } (max 30 (min 300 v)) []) ∧
    (natAt f.args 0 = 3 → becomes { p with freshness := max 2 (min 60 v) } (max 2 (min 60 v)) []) ∧
    (natAt f.args 0 = 4 → becomes { p with quietIdle := max 10 (min 600 v) } (max 10 (min 600 v)) []) ∧
    (natAt f.args 0 = 5 → becomes { p with travelRight1 := v != 0 } (yes (v != 0)) [.travelRightChange .panel1]) ∧
    (natAt f.args 0 = 6 → becomes { p with travelRight2 := v != 0 } (yes (v != 0)) [.travelRightChange .panel2]) ∧
    (6 < natAt f.args 0 → exec (.param f) s = .next
      (State.reply { s with announced := s.announced.erase (.param f) } f.port f.seq 6 .range .none)))

/-- STATUS (R63, R64): the record it answers with, and the ten counters it clears; in every mode. -/
def Obligations.StatusTaken : Prop :=
  ∀ (f : MgmtFrame) (s : State), f.args.length = 1 →
    let port (q : PortState) : PortStatus := ⟨q.link, q.badCheck, q.throughDrop, q.localDrop, q.linkLoss⟩
    let family (b : FamilyBanks) : FamilyStatus := ⟨b.tag, b.count, b.state⟩
    let record : StatusRecord :=
      { identity := s.form.identity, position := s.form.position, headPort := s.form.headPort,
        numbered := s.form.isNumbered, orientation := s.form.orientation, portion := s.form.portion,
        coachNumber := s.form.coachNumber, coachClass := s.form.coachClass,
        lastInauguration := s.form.lastInauguration, cold := s.mgmt.cold, mode := s.mgmt.mode,
        end1 := port s.line.end1, end2 := port s.line.end2, seat := family s.tables.seat,
        resv := family s.tables.resv, route := family s.tables.route, text := family s.tables.text,
        page := family s.tables.page, commit := s.mgmt.commit, progress := s.reck.progress.state,
        d := s.reck.progress.d, n := s.reck.progress.n, eta := s.reck.progress.eta,
        clockValid := s.reck.clock.valid, unplaced := unplacedCount s.resv.placements,
        faulted := faultedCount s.tables s.bus, rejected := s.notice.rejected, dropped := s.notice.dropped,
        depth1 := s.panels.panel1.stack.length, depth2 := s.panels.panel2.stack.length,
        faultPresent := s.faults.record.isSome, faultCount := s.faults.count }
    let zeroed (q : PortState) : PortState := { q with badCheck := 0, throughDrop := 0, localDrop := 0, linkLoss := 0 }
    let taken : State := { s with announced := s.announced.erase (.status f) }
    (natAt f.args 0 = 0 → exec (.status f) s = .next (taken.reply f.port f.seq 7 .ok (.status record))) ∧
    (natAt f.args 0 ≠ 0 → exec (.status f) s = .next
      (State.reply { taken with
        line := { s.line with end1 := zeroed s.line.end1, end2 := zeroed s.line.end2 }
        notice := { s.notice with rejected := 0, dropped := 0 } } f.port f.seq 7 .ok (.status record)))

/-- START_ACK clears the cold flag, set at power-on, reported in the status record (R62). -/
def Obligations.StartAck : Prop :=
  ∀ (f : MgmtFrame) (s : State),
    (s.mgmt.mode ≠ .restartPending → f.args.length = 0 → exec (.startAck f) s = .next
      (State.reply { s with announced := s.announced.erase (.startAck f), mgmt := { s.mgmt with cold := false } }
        f.port f.seq 8 .ok .none)) ∧
    (∀ t, exec .powerOn s = .next t → t.mgmt.cold = true) ∧ s.statusRecord.cold = s.mgmt.cold

/-- ASSIGN (R37, R38, R39): the clamped values and what is announced of each that changed. IDENT (R195): an identity of 0 is
refused with INVALID, any other replaces the working copy. -/
def Obligations.AssignAndIdent : Prop :=
  (∀ (f : MgmtFrame) (s : State), s.mgmt.mode ≠ .restartPending → f.args.length = 3 →
    let portion := min 3 (natAt f.args 0)
    let number := min 99 (natAt f.args 1)
    let coachClass : CoachClass := if natAt f.args 2 = 0 then .first else if natAt f.args 2 = 1 then .second else .mixed
    exec (.assign f) s = .next
      (State.reply { s with
        form := { s.form with portion := portion, coachNumber := number, coachClass := coachClass }
        announced := s.announced.erase (.assign f) ++
          (if portion = s.form.portion then [] else [.portionChangeReckoning portion]) ++
          (if number = s.form.coachNumber then [] else [.coachNumberChange, .formationChangePanel .coachNumber]) ++
          (if coachClass = s.form.coachClass then [] else [.formationChangePanel .coachClass]) }
        f.port f.seq 9 .ok (.assigned portion number coachClass))) ∧
  (∀ (f : MgmtFrame) (s : State), s.mgmt.mode ≠ .restartPending → f.args.length = 4 →
    let i := byteAt f.args 0 ++ byteAt f.args 1 ++ byteAt f.args 2 ++ byteAt f.args 3
    let taken : State := { s with announced := s.announced.erase (.ident f) }
    (i = 0 → exec (.ident f) s = .next (taken.reply f.port f.seq 18 .invalid .none)) ∧
    (i ≠ 0 → exec (.ident f) s = .next
      (State.reply { taken with form := { s.form with identity := i } } f.port f.seq 18 .ok (.identity i))))

/-! ### Route, position and clock (chapters 4 and 5) -/

/-- The calling set of a portion and the halting set (R69, R70, R71): which ordinals they hold, in ascending order. -/
def Obligations.CallingAndHaltingSets : Prop :=
  ∀ (t : TableStore) (portion : Nat), Table.wf t.route.active →
    (∀ x, x ∈ t.callingSet portion ↔ ∃ e, t.entry x = some e ∧ portion ≠ 0 ∧ e.mask.getLsbD (portion - 1) = true ∧
      x ∉ t.cancelled) ∧
    (∀ x, x ∈ t.haltingSet ↔ ∃ e, t.entry x = some e ∧ e.mask ≠ 0 ∧ x ∉ t.cancelled) ∧
    (t.callingSet portion).Pairwise (· < ·) ∧ t.haltingSet.Pairwise (· < ·) ∧
    (bankLegal .route t.route.active → (t.callingSet portion).length ≤ 48)

/-- STOP_CANCEL (R76, R77, R78): an ordinal beyond the table, a flag already so, and a changed flag with its recomputation,
announced only where it changed a set: that a record changed without a set is not announced follows R77 against R95 and R100
(log 50, the model's choice). The table is the one the Reckoning Unit reads: the replaced one until it has taken a ROUTE
activation (log 7). The portion is the one the Reckoning Unit has taken (log 30). -/
def Obligations.StopCancelTaken : Prop :=
  ∀ (f : MgmtFrame) (s : State), s.mgmt.mode ≠ .restartPending → f.args.length = 2 →
    let ordinal := natAt f.args 0
    let flag : Bool := natAt f.args 1 != 0
    let taken : State := { s with announced := s.announced.erase (.stopCancel f) }
    let old : TableStore := s.tables.asReckoned
    (s.tables.replacedRoute = none → old = s.tables) ∧
    (∀ r, s.tables.replacedRoute = some r → old.route.active = r.entries ∧ old.cancelled = r.cancelled) ∧
    (old.route.active.length ≤ ordinal → exec (.stopCancel f) s = .next (taken.reply f.port f.seq 10 .range .none)) ∧
    (ordinal < old.route.active.length → old.cancelled.contains ordinal = flag →
      exec (.stopCancel f) s = .next
        (taken.reply f.port f.seq 10 .ok (.stopCancelled ordinal flag s.reck.calling.length))) ∧
    (ordinal < old.route.active.length → old.cancelled.contains ordinal ≠ flag →
      ∃ t : State, exec (.stopCancel f) s = .next
          (t.reply f.port f.seq 10 .ok (.stopCancelled ordinal flag t.reck.calling.length)) ∧
        let new : TableStore := t.tables.asReckoned
        t = { s with
          tables := { s.tables with cancelled := t.tables.cancelled, replacedRoute := t.tables.replacedRoute }
          reck := t.reck
          announced := s.announced.erase (.stopCancel f) ++
            (if t.reck.calling = s.reck.calling ∧ t.reck.halting = s.reck.halting then []
             else reckoningSays s.reck.progress t.reck.progress false ++
               [.reckoningAnnouncementResv .sets, .reckoningAnnouncementNotice .sets,
                .reckoningAnnouncementPanel .sets]) } ∧
        new.route.active = old.route.active ∧
        (∀ x, x ∈ new.cancelled ↔ if x = ordinal then flag = true else x ∈ old.cancelled) ∧
        (s.tables.replacedRoute.isSome = true → t.tables.cancelled = s.tables.cancelled) ∧
        t.reck = { s.reck with
          calling := new.callingSet s.reck.portion, halting := new.haltingSet
          progress := ReckoningUnit.recompute new
            { s.reck with calling := new.callingSet s.reck.portion, halting := new.haltingSet } })

/-- A POSITION frame (R84 to R87, R95, R96): what an accepted one stores and reports; a discarded one changes nothing. Taken
before a ROUTE activation it is tested and computed against the old table (R99, log 7). The portion tested is the one the
Reckoning Unit has taken (log 30). -/
def Obligations.PositionTaken : Prop :=
  ∀ (f : PositionFields) (s : State),
    let entries := match s.tables.replacedRoute with
      | some r => r.entries
      | none => s.tables.route.active
    let accepted : Prop := s.reck.portion ≠ 0 ∧ f.mask.getLsbD (s.reck.portion - 1) = true ∧
      f.d.toNat < entries.length ∧ (f.atPlatform = true → f.a.toNat < entries.length)
    let last : LastFrame :=
      { atPlatform := f.atPlatform, door := f.door, d := f.d.toNat, a := f.a.toNat, sRun := min f.sRun.toNat 1048575,
        v := min f.v.toNat 1000, delay := max (-60) (min f.delay.toInt 999) }
    let old := s.reck.progress
    let vs : Nat :=
      if old.state = .hold ∨ old.state = .awaitingPosition ∨ old.state = .noRoute then last.v
      else match old.vs with
        | none => last.v
        | some v => (3 * v + last.v + 2) / 4
    (¬ accepted → exec (.position f) s = .next { s with announced := s.announced.erase (.position f) }) ∧
    (accepted → ∃ t : State, exec (.position f) s = .next t ∧
      t = { s with reck := t.reck
                   announced := s.announced.erase (.position f) ++ reckoningSays old t.reck.progress true ++
                     [.departureReport f.d.toNat] } ∧
      t.reck = { s.reck with lastFrame := some last, freshness := s.mgmt.params.freshness, progress := t.reck.progress
                             distanceInUse := s.mgmt.params.approachDistance
                             leadInUse := s.mgmt.params.approachLead } ∧
      t.reck.progress =
        { ReckoningUnit.compute s.tables.asReckoned { t.reck with progress := { old with vs := some vs } } last true with
          delay := last.delay, door := f.door } ∧
      t.reck.progress.vs = some vs ∧ ((∀ v, old.vs = some v → v ≤ 1000) → vs ≤ 1000))

/-- The ordinals and the state of the progress computation (R88). -/
def Obligations.RecordOrdinals : Prop :=
  ∀ (t : TableStore) (r : ReckoningUnit) (f : LastFrame) (framed : Bool),
    let q := r.compute t f framed
    let atStop : Prop := f.atPlatform = true ∧ f.a ∈ r.calling
    let above (set : List Nat) (x : Nat) (o : Option Nat) : Prop :=
      ∀ n, o = some n ↔ n ∈ set ∧ x < n ∧ ∀ m ∈ set, x < m → n ≤ m
    (atStop → q.a = some f.a ∧ q.p = some f.a ∧ above r.calling f.a q.n ∧ q.h = none ∧
      (q.n ≠ none → q.state = .atStop) ∧ (q.n = none → q.state = .finished)) ∧
    (¬ atStop → q.a = none ∧ above r.calling f.d q.n ∧
      (∀ p, q.p = some p ↔ p ∈ r.calling ∧ p ≤ f.d ∧ ∀ m ∈ r.calling, m ≤ f.d → m ≤ p) ∧
      (q.n ≠ none → above r.halting f.d q.h) ∧ (q.n = none → q.h = none) ∧
      (q.n ≠ none → q.state = .running ∨ q.state = .approaching) ∧ (q.n = none → q.state = .finished)) ∧
    q.d = some f.d ∧ q.sRun = f.sRun ∧ q.remembered = none

/-- The remaining distance, the ETA and the approach test of the progress computation (R89, R90, R91). -/
def Obligations.RemainingEtaApproach : Prop :=
  ∀ (t : TableStore) (r : ReckoningUnit) (f : LastFrame) (framed : Bool) (vs : Nat), r.progress.vs = some vs →
    let q := r.compute t f framed
    let run (x : Nat) : Nat := (max 0 ((t.distance f.d x : Int) - f.sRun)).toNat
    let eta (remaining : Nat) : Option Nat :=
      if vs < 20 then (if 0 < remaining then none else some 0)
      else some (min 5999 ((remaining * 10 + vs - 1) / vs))
    (q.state = .atStop →
      (∃ n, q.n = some n ∧ q.remaining = t.distance f.a n) ∧ q.eta = none ∧ q.approach = none) ∧
    (q.state = .finished → q.remaining = 0 ∧ q.eta = none ∧ q.approach = none) ∧
    (q.state = .running ∨ q.state = .approaching →
      ∃ (n : Nat) (g : Approach), q.n = some n ∧ q.remaining = run n ∧ q.eta = eta (run n) ∧
        ((∃ h, q.h = some h ∧ h < n ∧ g = ⟨h, .closedDoor⟩) ∨ ((∀ h, q.h = some h → n ≤ h) ∧ g = ⟨n, .calling⟩)) ∧
        (q.state = .approaching ↔
          (r.progress.approach = some g ∧ (r.progress.state = .approaching ∨
            (framed = true ∧ r.progress.state = .hold ∧ r.progress.remembered = some .approaching))) ∨
          run g.target ≤ r.distanceInUse ∨ ∃ e, eta (run g.target) = some e ∧ e ≤ r.leadInUse) ∧
        q.approach = if q.state = .approaching then some g else none)

/-- The permille and the arrival minute of the progress computation (R92, R93), with the distance of R68. -/
def Obligations.PermilleAndArrival : Prop :=
  (∀ (t : TableStore) (x y : Nat), t.distance x x = 0 ∧
    (x ≤ y → t.distance x (y + 1) = t.distance x y + t.segment (y + 1))) ∧
  ∀ (t : TableStore) (r : ReckoningUnit) (f : LastFrame) (framed : Bool),
    let q := r.compute t f framed
    (q.state ≠ .running → q.state ≠ .approaching → q.permille = 0) ∧
    (q.p = none → q.permille = 0) ∧
    (q.state = .running ∨ q.state = .approaching → ∀ p n, q.p = some p → q.n = some n →
      q.permille = min 999 ((t.distance p f.d + f.sRun) * 1000 / t.distance p n)) ∧
    (q.state = .finished → q.arrival = none) ∧
    (∀ e, r.clock.valid = true → q.eta = some e → q.arrival = some ((r.clock.seconds + e + 30) / 60 % 1440)) ∧
    (q.state ≠ .finished → r.clock.valid = false ∨ q.eta = none →
      ∀ n e, q.n = some n → t.entry n = some e →
        (∀ m : Nat, (e.arrival = some m ∨ (e.arrival = none ∧ e.departure = some m)) →
          q.arrival = some (((m : Int) + f.delay) % 1440).toNat) ∧
        (e.arrival = none → e.departure = none → q.arrival = none))

/-- What the Reckoning Unit announces of a changed record, once to each unit, and what it announces as activity (R95). -/
def Obligations.RecordAnnouncements : Prop :=
  ∀ (old new : Progress) (framed : Bool),
    let said := reckoningSays old new framed
    let forResv : Prop := old.state ≠ new.state ∨ old.remembered ≠ new.remembered ∨ old.p ≠ new.p ∨ old.n ≠ new.n ∨
      old.a ≠ new.a ∨ old.approach ≠ new.approach ∨ old.inForce ≠ new.inForce
    let forNotice : Prop := forResv ∨ old.arrival ≠ new.arrival
    let forPanel : Prop := forNotice ∨ old.permille ≠ new.permille ∨ old.delay ≠ new.delay
    (∀ c, .reckoningAnnouncementResv c ∈ said ↔ c = .progress (Progress.changed old new) ∧ forResv) ∧
    (∀ c, .reckoningAnnouncementNotice c ∈ said ↔ c = .progress (Progress.changed old new) ∧ forNotice) ∧
    (∀ c, .reckoningAnnouncementPanel c ∈ said ↔ c = .progress (Progress.changed old new) ∧ forPanel) ∧
    (.activity ∈ said ↔ (new.inForce ≠ none ∧ new.inForce ≠ old.inForce) ∨
      (new.state = .atStop ∧ old.state ≠ .atStop) ∨
      (framed = true ∧ new.door ≠ .closed ∧ old.door = .closed)) ∧
    said.count (.reckoningAnnouncementResv (.progress (Progress.changed old new))) ≤ 1 ∧
    said.count (.reckoningAnnouncementNotice (.progress (Progress.changed old new))) ≤ 1 ∧
    said.count (.reckoningAnnouncementPanel (.progress (Progress.changed old new))) ≤ 1

/-- The recomputations of a portion change and of a ROUTE activation (R38, R72, R99, R100, R101). Step 2 of R38 and R57 is
announced by the meaning of step 1 (log 39), which for R57 carries the whole set of activated families, and the portion of R38
is kept by the unit that takes it (log 30). A portion change taken before a ROUTE activation reads the old table (R99, log 7). -/
def Obligations.Recomputations : Prop :=
  (∀ (portion : Nat) (s : State), ∃ t : State, exec (.portionChangeReckoning portion) s = .next t ∧
    let old : TableStore := s.tables.asReckoned
    t = { s with reck := t.reck
                 announced := s.announced.erase (.portionChangeReckoning portion) ++
                   reckoningSays s.reck.progress t.reck.progress false ++
                   [.portionChangeResv, .portionChangeNotice portion, .formationChangePanel .portion] } ∧
    t.reck = { s.reck with portion := portion, calling := old.callingSet portion
                           halting := old.haltingSet, progress := t.reck.progress } ∧
    (s.reck.lastFrame = none → t.reck.progress =
      { s.reck.progress with
        state := if old.route.active = [] then .noRoute else .awaitingPosition
        remembered := none, d := none, a := none, p := none, n := none, h := none, remaining := 0, eta := none
        permille := 0, arrival := none, approach := none }) ∧
    (∀ f, s.reck.lastFrame = some f → s.reck.progress.state ≠ .hold →
      t.reck.progress = ReckoningUnit.compute old { t.reck with progress := s.reck.progress } f false) ∧
    (∀ f, s.reck.lastFrame = some f → s.reck.progress.state = .hold →
      let q := t.reck.progress
      let o := findOrdinals t.reck.calling t.reck.halting f
      q.state = .hold ∧ q.d = some f.d ∧ q.a = o.a ∧ q.p = o.p ∧ q.n = o.n ∧ q.eta = none ∧
      (q.vs = s.reck.progress.vs ∧ q.sRun = s.reck.progress.sRun ∧ q.delay = s.reck.progress.delay ∧
        q.door = s.reck.progress.door) ∧
      (o.n = none → q.remembered = some .finished ∧ q.h = none ∧ q.remaining = 0 ∧ q.permille = 0 ∧ q.arrival = none) ∧
      (∀ n, o.n = some n → o.a ≠ none → q.remembered = some .atStop ∧ q.h = none ∧ q.permille = 0 ∧
        q.remaining = old.distance f.a n) ∧
      (∀ n, o.n = some n → o.a = none → q.h = o.h ∧
        q.remembered = (if s.reck.progress.remembered = some .approaching ∧ s.reck.progress.approach = approachTarget o
          then some .approaching else some .running) ∧
        q.remaining = (max 0 ((old.distance f.d n : Int) - f.sRun)).toNat ∧
        (o.p = none → q.permille = 0) ∧
        (∀ p, o.p = some p → q.permille = min 999 ((old.distance p f.d + f.sRun) * 1000 / old.distance p n))) ∧
      (∀ n e, o.n = some n → old.entry n = some e →
        (∀ m : Nat, (e.arrival = some m ∨ (e.arrival = none ∧ e.departure = some m)) →
          q.arrival = some (((m : Int) + f.delay) % 1440).toNat) ∧
        (e.arrival = none → e.departure = none → q.arrival = none)) ∧
      q.approach = if q.remembered = some .approaching then s.reck.progress.approach else none)) ∧
  (∀ (families : FamilySet) (s : State), ∃ t : State, exec (.routeActivationReckoning families) s = .next t ∧
    t = { s with reck := t.reck
                 tables := { s.tables with replacedRoute := none }
                 announced := s.announced.erase (.routeActivationReckoning families) ++
                   reckoningSays s.reck.progress t.reck.progress false ++ stepTwo families } ∧
    t.reck = { s.reck with
      calling := s.tables.callingSet s.reck.portion, halting := s.tables.haltingSet, lastFrame := none
      progress := { s.reck.progress with
        state := .awaitingPosition, remembered := none, d := none, a := none, p := none, n := none, h := none
        remaining := 0, eta := none, permille := 0, arrival := none, approach := none } })

/-- Entry into HOLD (R97), TIME frames (R104) and the second of the clock (R102). The phase of the clock by log 18, an expiry
commanded by itself by logs 15 and 16, the table read before a ROUTE activation is taken by log 7. -/
def Obligations.HoldAndClock : Prop :=
  (∀ s : State,
    let p := s.reck.progress
    (∀ f, p.state ∈ [.atStop, .running, .approaching] → s.reck.lastFrame = some f →
      ∃ t : State, exec .freshnessExpiry s = .next t ∧
        t = { s with reck := { s.reck with freshness := 0, progress := t.reck.progress }
                     announced := s.announced ++ reckoningSays p t.reck.progress false ++
                       [.faultReport .positionStale] } ∧
        t.reck.progress = { p with
          state := .hold, remembered := some p.state, eta := none, arrival := t.reck.progress.arrival } ∧
        (∀ n e, p.n = some n → s.tables.asReckoned.entry n = some e →
          (∀ m : Nat, (e.arrival = some m ∨ (e.arrival = none ∧ e.departure = some m)) →
            t.reck.progress.arrival = some (((m : Int) + f.delay) % 1440).toNat) ∧
          (e.arrival = none → e.departure = none → t.reck.progress.arrival = none))) ∧
    (p.state ∉ [.atStop, .running, .approaching] → exec .freshnessExpiry s = .next s)) ∧
  (∀ (payload : List Byte) (s : State),
    let seconds := wordAt payload 0 3
    let ms := wordAt payload 3 2
    let taken : State := { s with announced := s.announced.erase (.time payload) }
    (payload.length < 5 ∨ 86399 < seconds ∨ 999 < ms → exec (.time payload) s = .next taken) ∧
    (5 ≤ payload.length → seconds ≤ 86399 → ms ≤ 999 → exec (.time payload) s = .next
      { taken with
        reck := { s.reck with clock := { seconds := seconds, phase := ms, valid := true } }
        announced := taken.announced ++
          (if s.reck.clock.valid = true ∧ s.reck.clock.seconds / 60 = seconds / 60 then [] else [.clockMinuteChange]) })) ∧
  (∀ s : State, s.powered = true →
    let next := if s.reck.clock.seconds + 1 = 86400 then 0 else s.reck.clock.seconds + 1
    s.reck.clock.seconds ≤ 86399 → exec .clockSecond s = .next
      { s with
        reck := { s.reck with clock := { s.reck.clock with seconds := next, phase := 0 } }
        announced := s.announced ++ (if s.reck.clock.seconds / 60 = next / 60 then [] else [.clockMinuteChange]) })

/-- The seconds tick once the relay is open (R97, R103, R132, R137, R139, R154, R156, R157, R159, R182, R185, R188), before
which it changes nothing (log 15): the blocks one after another in the order of log 14, Reckoning Unit and uptime (state `a`),
Seat Bus Engine (`b`), Notice Unit (`c`), Panel Composer. Each reads what the blocks before it have left. That order and the
scrolling marks (log 28) are the model's choice. The choice of R157 is `settle`, of which AcceptanceAndShows says what it
does; the choice of R132 is `choose`, that of SeatChoices. The freshness counter that a tick brings to 0 acts as
FRESHNESS_EXPIRY does (log 16), and an entry that stays at the counted end of its show keeps the due flag its timer set during
that show (`countedEnd`, log 47): both are the model's. A show that ends and one that starts in one tick are announced as two
changes of the current notice text (R166), with no comparison of the texts (log 22). The overlay ends are those of R164. A
re-poll timer at 0 stays at 0, also while its re-poll runs (log 45). -/
def Obligations.SecondsTickTaken : Prop :=
  (∀ s : State, s.line.relay = .closed → exec .secondsTick s = .next s) ∧
  ∀ s : State, s.line.relay = .opened → ∃ t a b c : State, exec .secondsTick s = .next t ∧
    -- Reckoning Unit (R97) and uptime (R188)
    (a = { s with faults := { s.faults with uptime := min 4294967295 (s.faults.uptime + 1) }
                  reck := a.reck, announced := a.announced } ∧
      (s.reck.progress.state ∉ [.atStop, .running, .approaching] → a.reck = s.reck ∧ a.announced = s.announced) ∧
      (s.reck.progress.state ∈ [.atStop, .running, .approaching] →
        (2 ≤ s.reck.freshness →
          a.reck = { s.reck with freshness := s.reck.freshness - 1 } ∧ a.announced = s.announced) ∧
        (s.reck.freshness ≤ 1 →
          exec .freshnessExpiry s = .next { s with reck := a.reck, announced := a.announced } ∧
          a.reck.freshness = 0 ∧ a.reck.progress.state = .hold ∧
          a.reck.progress.remembered = some s.reck.progress.state ∧
          a.announced = s.announced ++ reckoningSays s.reck.progress a.reck.progress false ++
            [.faultReport .positionStale]))) ∧
    -- Seat Bus Engine: re-poll timers (R137), refresh timer (R139), and the choice where one is due (R132)
    (b = { a with bus := b.bus } ∧
      let ticked : SeatBusEngine :=
        { s.bus with
          faulted := s.bus.faulted.map (fun e => (e.1, e.2 - 1))
          refreshTimer := if s.bus.refreshTimer ≤ 1 then 20 else s.bus.refreshTimer - 1
          refreshActive := s.bus.refreshActive || decide (s.bus.refreshTimer ≤ 1) }
      (s.bus.refreshTimer ≤ 1 ∨ (∃ e ∈ s.bus.faulted, e.2 = 1) → b.bus = ticked.choose a) ∧
      (¬ (s.bus.refreshTimer ≤ 1 ∨ ∃ e ∈ s.bus.faulted, e.2 = 1) → b.bus = ticked)) ∧
    -- Notice Unit: the three steps and the one choice (R157)
    (c = { b with notice := c.notice, announced := c.announced } ∧
      (s.notice.legal → ∃ u1 u2 u3 : NoticeUnit, ∃ said1 said2 said3 : List Instr,
        (let aged := s.notice.queue.map (fun e => { e with remaining := e.remaining.map (fun n => n - 1) })
         u1 = { s.notice with
           queue := aged.filter (fun e => e.remaining != some 0)
           lines := if aged.any (fun e => e.remaining == some 0 && s.notice.shows e.id) then .default else s.notice.lines } ∧
         said1 = (aged.filter (fun e => e.remaining == some 0)).flatMap (fun e =>
           (if s.notice.shows e.id then [.noticeTextChange .current] else []) ++
             (if e.overlayWanted then [.overlayEnd e.id] else []))) ∧
        (let timed : NoticeUnit := { u1 with queue := u1.queue.map (fun e =>
           { e with repeatTimer := e.repeatTimer - 1, due := e.due || e.repeatTimer == 1 }) }
         let preempting : Prop := ∃ e ∈ u1.queue, e.repeatTimer = 1 ∧ e.due = false ∧ e.effective = 0
         (preempting → u2 = (timed.preemptedBy 0).unit ∧ said2 = (timed.preemptedBy 0).said) ∧
         (¬ preempting → u2 = timed ∧ said2 = [])) ∧
        ((∀ x text dwell, x ∈ u2.queue → u2.lines = .showing x.id text dwell →
            (2 ≤ dwell → u3 = { u2 with lines := .showing x.id text (dwell - 1) } ∧ said3 = []) ∧
            (dwell ≤ 1 → u3 = (u2.countedEnd x).unit ∧ said3 = (u2.countedEnd x).said)) ∧
          ((∀ id text dwell, u2.lines ≠ .showing id text dwell) → u3 = u2 ∧ said3 = [])) ∧
        u3.legal ∧ c.notice = (u3.settle b).unit ∧
        c.announced = a.announced ++ said1 ++ said2 ++ said3 ++ (u3.settle b).said)) ∧
    -- Panel Composer: the idle timer (R185) and the scroll advance of each panel (R182)
    (t = { c with panels := t.panels } ∧ t.panels.basis = s.panels.basis ∧
      (∀ n, s.mgmt.mode = .quiet → s.panels.idle = some (n + 1) →
        t.panels.idle = some n ∧ t.panels.brightness = if n = 0 then .low else s.panels.brightness) ∧
      (s.mgmt.mode ≠ .quiet ∨ s.panels.idle = none ∨ s.panels.idle = some 0 →
        t.panels.idle = s.panels.idle ∧ t.panels.brightness = s.panels.brightness) ∧
      let scrolls (panel : Panel) (q r : PanelState) : Prop :=
        (s.mgmt.mode ∈ [.service, .restartPending] →
          (q.serviceScrolled = true →
            r = PanelState.request c panel { q with serviceOffset := (q.serviceOffset + 1) % 65536 }) ∧
          (q.serviceScrolled = false → r = q)) ∧
        (s.mgmt.mode ∈ [.normal, .quiet] →
          (∀ l ls, q.stack = l :: ls → l.scrolled = true →
            r = PanelState.request c panel { q with stack := { l with offset := (l.offset + 1) % 65536 } :: ls }) ∧
          ((∀ l ls, q.stack = l :: ls → l.scrolled = false) → r = q))
      scrolls .panel1 s.panels.panel1 t.panels.panel1 ∧ scrolls .panel2 s.panels.panel2 t.panels.panel2)

/-! ### Reservations and seats (chapters 6 and 7) -/

/-- A placement run visits the records in order and gives each by the first test that fails (R110); and the five events that
resolve every seat: the placement run they make, the contents, and the queue requests (R109, R112, R118, R123, R125, R126).
Whether the placements are out of date is judged by the basis of R109 alone (log 13), and the active tables are read as they
stand (log 34). -/
def Obligations.SeatResolution : Prop :=
  (∀ (t : TableStore) (calling : List Nat), placeAll t calling [] [] = [] ∧
    ∀ (pre : Table (List Byte)) (i : Nat) (bytes : List Byte),
      let x := resvRecord bytes
      let before := placeAll t calling [] pre
      let journey (b a : Nat) : Prop :=
        t.lookup x.board = some b ∧ t.lookup x.alight = some a ∧ b ∈ calling ∧ a ∈ calling
      let taken (b a : Nat) : Prop :=
        ∃ e ∈ before, e.2.slot = x.slot ∧ ∃ b' a', e.2.outcome = .placed b' a' ∧ b < a' ∧ b' < a
      ∃ o : PlacementOutcome,
        placeAll t calling [] (pre ++ [(i, bytes)]) =
          before ++ [(i, { id := x.id, slot := x.slot, note := x.note, outcome := o })] ∧
        (127 < x.slot ∨ enabledSlot t.seat.active x.slot = none → o = .unplaced .seatDisabled) ∧
        (x.slot ≤ 127 → enabledSlot t.seat.active x.slot ≠ none →
          ((∀ b a, ¬ journey b a) → o = .unplaced .notOnRoute) ∧
          (∀ b a, journey b a →
            (a ≤ b → o = .unplaced .order) ∧ (b < a → taken b a → o = .unplaced .overlap) ∧
            (b < a → ¬ taken b a → o = .placed b a)))) ∧
  ∀ (c : Instr) (s : State) (run force : Bool),
    (c = .reckoningAnnouncementResv .sets ∧ run = true ∧ force = false) ∨
    (∃ x, c = .reckoningAnnouncementResv (.progress x) ∧ run = false ∧ force = false ∧
      (x.state ∨ x.remembered ∨ x.p ∨ x.n ∨ x.a ∨ x.approach)) ∨
    (∃ fs, c = .activationAnnouncementResv fs ∧ run = (fs.seat || fs.resv || fs.route) ∧
      force = (fs.seat || fs.text)) ∨
    (c = .portionChangeResv ∧ run = true ∧ force = false) ∨
    (c = .modeChangeResv ∧ run = false ∧ force = false) ∨
    (c = .horizonChange ∧ run = false ∧ force = false) →
    Table.wf s.tables.seat.active →
    ∃ t : State, exec c s = .next t ∧
      t = { s with
        resv := t.resv
        announced := s.announced.erase c ++
          ((enabledSlots s.tables.seat.active).filter (fun i => force ||
            Table.find t.resv.contents i != Table.find s.resv.contents i)).map Instr.queueRequest } ∧
      t.resv.placements = (if run = true ∨ s.resv.basisCount ≠ s.tables.route.count ∨ s.resv.basisCalling ≠ s.reck.calling
        then placeAll s.tables s.reck.calling [] s.tables.resv.active else s.resv.placements) ∧
      t.resv.basisCount = s.tables.route.count ∧ t.resv.basisCalling = s.reck.calling ∧
      (∀ i x, enabledSlot s.tables.seat.active i = some x →
        Table.find t.resv.contents i = resolveSlot s t.resv.placements i x) ∧
      (∀ i, enabledSlot s.tables.seat.active i = none → Table.find t.resv.contents i = none)

/-- The content of a seat (R111, R118 to R122): its chain, the current segment start, and the content each case of R119 gives,
BLANK where no case applies. The active TEXT and ROUTE tables are read as they stand (log 34). -/
def Obligations.SeatLamps : Prop :=
  ∀ (s : State) (ps : Table Placement) (slot : Nat) (x : SeatSlot),
    let chain := chainOf ps slot
    let r := s.reck.progress
    let calling := s.reck.calling
    ((∀ e : ChainEntry, e ∈ chain ↔
        ∃ p ∈ ps, p.2.slot = slot ∧ p.2.outcome = .placed e.b e.a ∧ p.2.note = e.note) ∧
      chain.Pairwise (fun e e' => e.b ≤ e'.b)) ∧
    (resolveSlot s ps slot x = none ↔
      s.mgmt.mode ∈ [.service, .restartPending] ∨ r.state ∈ [.noRoute, .awaitingPosition] ∨
        (r.state = .hold ∧ r.remembered ∉ [some .atStop, some .running, some .approaching, some .finished])) ∧
    ∀ c, resolveSlot s ps slot x = some c → ∃ cur : Option Nat,
      let state := if r.state = .hold then r.remembered else some r.state
      let covers (e : ChainEntry) : Prop := ∃ c0, cur = some c0 ∧ e.b ≤ c0 ∧ c0 < e.a
      let later (e : ChainEntry) : Prop := ∀ c0, cur = some c0 → c0 < e.b
      let near : List Nat := match cur, r.n with
        | some c0, _ => (calling.filter (fun m => c0 < m)).take s.mgmt.params.horizon
        | none, some n => (calling.filter (fun m => n ≤ m)).take s.mgmt.params.horizon
        | none, none => []
      let preview (e : ChainEntry) : Prop := r.inForce.map (·.kind) = some .calling ∧ r.n = some e.a
      let shows (lamp : Lamp) (lineA lineB : Text) (icon : Nat) : Prop :=
        c = { lamp := lamp, dim := s.mgmt.mode == .quiet, label := x.label, lineA := lineA.take 12, lineB := lineB.take 12
              icon := if x.icon = true then icon else 0 }
      (state = some .atStop → cur = r.a) ∧ (state = some .running ∨ state = some .approaching → cur = r.p) ∧
      (state = some .finished → ∀ m, cur = some m ↔ m ∈ calling ∧ ∀ y ∈ calling, y ≤ m) ∧
      (∀ pre e post, chain = pre ++ e :: post → (∀ y ∈ pre, ¬ covers y) → covers e →
        (∃ p ∈ ps, p.2.slot = slot ∧ p.2.outcome = .placed e.b e.a) ∧
        (¬ preview e → shows .red (s.tables.string 1) (s.tables.shortName e.a) e.note) ∧
        (preview e → (∀ pre y post, chain = pre ++ y :: post → (∀ z ∈ pre, z.b ≠ e.a) → y.b = e.a →
          shows .red (s.tables.string 1) (s.tables.shortName y.a) y.note)) ∧
        (preview e → (∀ y ∈ chain, y.b ≠ e.a) → shows .amber (s.tables.string 3) (s.tables.shortName e.a) e.note)) ∧
      ((∀ e ∈ chain, ¬ covers e) →
        (∀ pre y post, chain = pre ++ y :: post → (∀ z ∈ pre, ¬ later z) → later y →
          (y.b ∈ near → shows .amber (s.tables.string 2) (s.tables.shortName y.b) y.note) ∧
          (y.b ∉ near → shows .green [] [] 0)) ∧
        ((∀ y ∈ chain, ¬ later y) → shows .green [] [] 0))

/-- RESV_ADD and RESV_DROP (R109, R112, R114, R115, R116, R124): the renewal that comes first, the seven refusals of RESV_ADD
in their order, and each accepted edit. Between a SEAT or RESV activation and its announcement the placements are renewed as
log 13 says (the model's reading). The active tables are read as they stand, against the calling set as it stands (log 34). -/
def Obligations.LiveEdits : Prop :=
  ∀ (f : MgmtFrame) (s : State), s.mgmt.mode ≠ .restartPending →
    let old := s.resv
    let u := (s.resv.forEdit s).unit
    let said := (s.resv.forEdit s).said
    let staged : Bool := s.tables.resv.state != .empty
    let outdated : Prop := old.basisCount ≠ s.tables.route.count ∨ old.basisCalling ≠ s.reck.calling ∨
      old.basisSeat ≠ s.tables.seat.count ∨ old.basisResv ≠ s.tables.resv.count
    -- the renewal: a placement run and the resolution of every enabled slot, where the placements are out of date
    (¬ outdated → u = old ∧ said = []) ∧
    (outdated →
      u = { placements := placeAll s.tables s.reck.calling [] s.tables.resv.active, contents := u.contents
            basisCount := s.tables.route.count, basisCalling := s.reck.calling
            basisSeat := s.tables.seat.count, basisResv := s.tables.resv.count } ∧
      (Table.wf s.tables.seat.active →
        (∀ i x, enabledSlot s.tables.seat.active i = some x →
          Table.find u.contents i = resolveSlot s u.placements i x) ∧
        (∀ i, enabledSlot s.tables.seat.active i = none → Table.find u.contents i = none)) ∧
      said = ((enabledSlots s.tables.seat.active).filter (fun i =>
        Table.find u.contents i != Table.find old.contents i)).map Instr.queueRequest) ∧
    (f.args.length = 10 →
      let x := resvRecord f.args
      let journey (b a : Nat) : Prop :=
        s.tables.lookup x.board = some b ∧ s.tables.lookup x.alight = some a ∧ b ∈ s.reck.calling ∧ a ∈ s.reck.calling
      let bad1 : Prop := x.id = 0
      let bad2 : Prop := ∃ e ∈ s.tables.resv.active, (resvRecord e.2).id = x.id
      let bad3 : Prop := 512 ≤ s.tables.resv.active.length
      let bad4 : Prop := 127 < x.slot ∨ enabledSlot s.tables.seat.active x.slot = none
      let bad5 : Prop := x.board = x.alight
      let bad6 : Prop := ¬ ∃ b a, journey b a ∧ b ≤ a
      let bad7 : Prop := ∃ b a, journey b a ∧
        ∃ e ∈ u.placements, e.2.slot = x.slot ∧ ∃ b' a', e.2.outcome = .placed b' a' ∧ b < a' ∧ b' < a
      let refused (r : Result) : Prop := exec (.resvAdd f) s = .next
        (State.reply { s with resv := u, announced := s.announced.erase (.resvAdd f) ++ said } f.port f.seq 11 r .none)
      (bad1 → refused .invalid) ∧
      (¬ bad1 → bad2 → refused .duplicate) ∧
      (¬ bad1 → ¬ bad2 → bad3 → refused .full) ∧
      (¬ bad1 → ¬ bad2 → ¬ bad3 → bad4 → refused .invalid) ∧
      (¬ bad1 → ¬ bad2 → ¬ bad3 → ¬ bad4 → bad5 → refused .invalid) ∧
      (¬ bad1 → ¬ bad2 → ¬ bad3 → ¬ bad4 → ¬ bad5 → bad6 → refused .notOnRoute) ∧
      (¬ bad1 → ¬ bad2 → ¬ bad3 → ¬ bad4 → ¬ bad5 → ¬ bad6 → bad7 → refused .overlap) ∧
      (¬ bad1 → ¬ bad2 → ¬ bad3 → ¬ bad5 → ¬ bad6 → ¬ bad7 → Table.wf s.tables.resv.active →
        ∀ b a seat, journey b a → enabledSlot s.tables.seat.active x.slot = some seat → x.slot ≤ 127 →
        ∃ (t : State) (i : Nat), exec (.resvAdd f) s = .next
            (t.reply f.port f.seq 11 .ok (.resvAdded i b a staged)) ∧
          t = { s with tables := { s.tables with resv := { s.tables.resv with active := t.tables.resv.active } }
                       resv := { u with placements := t.resv.placements, contents := t.resv.contents }
                       announced := s.announced.erase (.resvAdd f) ++ said ++
                         (if Table.find t.resv.contents x.slot = Table.find u.contents x.slot then []
                          else [.queueRequest x.slot]) } ∧
          Table.find s.tables.resv.active i = none ∧ (∀ j, j < i → Table.find s.tables.resv.active j ≠ none) ∧
          (∀ j, Table.find t.tables.resv.active j =
            if j = i then some f.args else Table.find s.tables.resv.active j) ∧
          (∀ j, Table.find t.resv.placements j =
            if j = i then some { id := x.id, slot := x.slot, note := x.note, outcome := .placed b a }
            else Table.find u.placements j) ∧
          (∀ j, Table.find t.resv.contents j =
            if j = x.slot then resolveSlot s t.resv.placements x.slot seat else Table.find u.contents j))) ∧
    (f.args.length = 4 →
      ((∀ e ∈ s.tables.resv.active, (resvRecord e.2).id ≠ wordAt f.args 0 4) → exec (.resvDrop f) s = .next
        (State.reply { s with resv := u, announced := s.announced.erase (.resvDrop f) ++ said } f.port f.seq 12 .notFound
          .none)) ∧
      (∀ pre i bytes post, s.tables.resv.active = pre ++ (i, bytes) :: post →
        (∀ e ∈ pre, (resvRecord e.2).id ≠ wordAt f.args 0 4) → (resvRecord bytes).id = wordAt f.args 0 4 →
        let slot := (resvRecord bytes).slot
        ∃ (t : State) (reason : Option UnplacedReason), exec (.resvDrop f) s = .next
            (t.reply f.port f.seq 12 .ok (.resvDropped reason staged)) ∧
          t = { s with tables := { s.tables with resv := { s.tables.resv with active := t.tables.resv.active } }
                       resv := { u with placements := t.resv.placements, contents := t.resv.contents }
                       announced := s.announced.erase (.resvDrop f) ++ said ++
                         (if Table.find t.resv.contents slot = Table.find u.contents slot then []
                          else [.queueRequest slot]) } ∧
          (∀ j, Table.find t.tables.resv.active j = if j = i then none else Table.find s.tables.resv.active j) ∧
          (∀ j, Table.find t.resv.placements j = if j = i then none else Table.find u.placements j) ∧
          (∀ y, (Table.find u.placements i).map Placement.outcome = some (.unplaced y) →
            reason = some y ∧ t.resv.contents = u.contents ∧
            (Table.wf u.placements → unplacedCount t.resv.placements + 1 = unplacedCount u.placements)) ∧
          (∀ b a, (Table.find u.placements i).map Placement.outcome = some (.placed b a) → reason = none ∧
            (∀ seat, enabledSlot s.tables.seat.active slot = some seat → ∀ j, Table.find t.resv.contents j =
              if j = slot then resolveSlot s t.resv.placements slot seat else Table.find u.contents j) ∧
            (enabledSlot s.tables.seat.active slot = none → t.resv.contents = u.contents) ∧
            (Table.wf u.placements → unplacedCount t.resv.placements = unplacedCount u.placements))))

/-- Queue requests (R131), the SEAT activation at the engine (R141), and the end of a settle time (R134), each followed by
the engine's choice where R132 asks for one. The answer to a message is awaited from the event that sends it (log 51). A
slot that is not enabled is not queued (log 8); an event without its
transaction changes nothing (log 15). -/
def Obligations.SeatRequests : Prop :=
  (∀ (slot : Nat) (s : State), exec (.queueRequest slot) s = .next
    { s with
      announced := s.announced.erase (.queueRequest slot)
      bus := SeatBusEngine.choose s
        (if slot ∈ s.bus.dirty then s.bus
         else if enabledSlot s.tables.seat.active slot = none then s.bus
         else { s.bus with dirty := s.bus.dirty ++ [slot] }) }) ∧
  (∀ s : State, exec .seatActivationEngine s = .next
    { s with
      announced := s.announced.erase .seatActivationEngine
      bus := SeatBusEngine.choose s
        { s.bus with
          dirty := enabledSlots s.tables.seat.active, faulted := [], lampReported := [], refreshPointer := 0
          refreshActive := false, transaction := s.bus.transaction.map (fun x => { x with discard := true })
          blanking := if s.bus.blanking = .none then .none else .running 0 } }) ∧
  (∀ (x : Transaction) (s : State), s.bus.transaction = some x → x.awaiting = false →
    exec .seatSettleEnd s = .next { s with bus := { s.bus with transaction := some { x with awaiting := true } } }) ∧
  (∀ s : State, (∀ x, s.bus.transaction = some x → x.awaiting = true) → exec .seatSettleEnd s = .next s)

/-- The ends of a transaction (R130, R134, R135, R137, R140, R141): answers and timeouts. An event without its transaction
changes nothing (log 15); a slot that is not enabled is not queued (log 8). The outcome of a transaction not marked for discard
is applied, the FAULTED entry and the fault report with it, also for a slot that the table no longer enables (log 46), and an
answer is awaited from the event that sends its message (log 51): both are the model's choice. -/
def Obligations.SeatTransactions : Prop :=
  (∀ (address status check : Byte) (s : State),
    let good (x : Transaction) : Prop := x.awaiting = true ∧
      (address.toNat + status.toNat + check.toNat) % 256 = 0 ∧ address = x.address ∧ status.toNat ≤ 1
    ((∀ x, s.bus.transaction = some x → ¬ good x) → exec (.seatAnswer address status check) s = .next s) ∧
    (∀ x, s.bus.transaction = some x → good x → x.discard = true →
      exec (.seatAnswer address status check) s = .next
        { s with bus := SeatBusEngine.choose s { s.bus with transaction := none } }) ∧
    (∀ x, s.bus.transaction = some x → good x → x.discard = false →
      let faulted : Bool := (Table.find s.bus.faulted x.slot).isSome
      let lamp : Bool := decide (status.toNat = 1) && !s.bus.lampReported.contains x.slot
      exec (.seatAnswer address status check) s = .next
        { s with
          bus := SeatBusEngine.choose s
            { s.bus with
              transaction := none
              faulted := if faulted then Table.erase s.bus.faulted x.slot else s.bus.faulted
              dirty := if faulted ∧ x.slot ∉ s.bus.dirty ∧ enabledSlot s.tables.seat.active x.slot ≠ none
                       then s.bus.dirty ++ [x.slot] else s.bus.dirty
              lampReported := if lamp then s.bus.lampReported ++ [x.slot] else s.bus.lampReported }
          announced := s.announced ++ (if lamp then [.faultReport (.seatLamp x.slot)] else []) })) ∧
  (∀ s : State,
    ((∀ x, s.bus.transaction = some x → x.awaiting = false) → exec .seatAnswerTimeout s = .next s) ∧
    (∀ x, s.bus.transaction = some x → x.awaiting = true → x.kind ≠ .repoll → x.attempt < 3 →
      exec .seatAnswerTimeout s = .next
        { s with bus := { s.bus with transaction := some { x with attempt := x.attempt + 1 } } }) ∧
    (∀ x, s.bus.transaction = some x → x.awaiting = true → x.kind = .repoll ∨ 3 ≤ x.attempt → x.discard = true →
      exec .seatAnswerTimeout s = .next
        { s with bus := SeatBusEngine.choose s { s.bus with transaction := none } }) ∧
    (∀ x, s.bus.transaction = some x → x.awaiting = true → x.kind = .repoll ∨ 3 ≤ x.attempt → x.discard = false →
      exec .seatAnswerTimeout s = .next
        { s with
          bus := SeatBusEngine.choose s
            { s.bus with transaction := none, faulted := Table.set s.bus.faulted x.slot 30 }
          announced := s.announced ++ (if (Table.find s.bus.faulted x.slot).isSome then []
                                       else [.faultReport (.seatModule x.slot)]) }))

/-- The engine's choice (R132, R133, R134, R137, R139, R140) and the events that make one and nothing else; and the bytes of
the three messages (R22). The active SEAT table is read as it stands (log 34): a head that is not enabled leaves the queue
(log 8); past slot 127 a pointer stands at 128 (log 20); REPOLL_DUE and REFRESH_ROUND_BEGIN commanded by themselves are those
of log 16. An enabled slot with no content held is sent BLANK, also one newly enabled and not yet resolved (log 44), and the
answer to a message is awaited from the event that sends it (log 51): both are the model's choice. -/
def Obligations.SeatChoices : Prop :=
  (∀ s : State, exec .modeChangeEngine s = .next
    { s with announced := s.announced.erase .modeChangeEngine, bus := s.bus.choose s }) ∧
  (∀ (slot n : Nat) (s : State), Table.find s.bus.faulted slot = some n → exec (.repollDue slot) s = .next
    { s with bus := SeatBusEngine.choose s { s.bus with faulted := Table.set s.bus.faulted slot 0 } }) ∧
  (∀ s : State, s.line.relay = .opened → exec .refreshRoundBegin s = .next
    { s with bus := SeatBusEngine.choose s { s.bus with refreshTimer := 20, refreshActive := true } }) ∧
  (∀ (s : State) (u : SeatBusEngine),
    let enabled (i : Nat) : Prop := enabledSlot s.tables.seat.active i ≠ none
    let sends (i : Nat) : Prop := enabled i ∧ Table.find u.faulted i = none
    let begins (v : SeatBusEngine) (kind : TransactionKind) (i : Nat) : Prop :=
      ∃ x, enabledSlot s.tables.seat.active i = some x ∧ v.selected = some x.string ∧
        v.transaction = some
          { slot := i, address := x.address, kind := kind, attempt := 1, awaiting := u.selected == some x.string,
            discard := false
            message := match kind with
              | .repoll => pingMessage x.address
              | .blanking => blankMessage x.address
              | _ => match Table.find s.resv.contents i with
                | some c => showMessage x.address c
                | none => blankMessage x.address }
    (u.transaction ≠ none ∨ s.line.relay = .closed → u.choose s = u) ∧
    (u.transaction = none → s.line.relay = .opened → Table.wf s.tables.seat.active → s.mgmt.mode ≠ .restartPending →
      (∀ pre i post, u.dirty = pre ++ i :: post → (∀ j ∈ pre, ¬ sends j) → sends i →
        begins (u.choose s) .dirty i ∧ (u.choose s).dirty = post) ∧
      ((∀ j ∈ u.dirty, ¬ sends j) → (u.choose s).dirty = [] ∧
        (∀ i, enabled i → Table.find u.faulted i = some 0 → (∀ j, j < i → enabled j → Table.find u.faulted j ≠ some 0) →
          begins (u.choose s) .repoll i) ∧
        ((∀ j, enabled j → Table.find u.faulted j ≠ some 0) →
          (u.refreshActive = false → u.choose s = { u with dirty := [] }) ∧
          (u.refreshActive = true →
            (∀ i, u.refreshPointer ≤ i → sends i → (∀ j, u.refreshPointer ≤ j → j < i → ¬ sends j) →
              begins (u.choose s) .refresh i ∧ (u.choose s).refreshPointer = i + 1) ∧
            ((∀ j, u.refreshPointer ≤ j → ¬ sends j) →
              u.choose s = { u with dirty := [], refreshActive := false, refreshPointer := 0 }))))) ∧
    (u.transaction = none → s.line.relay = .opened → Table.wf s.tables.seat.active → s.mgmt.mode = .restartPending →
      (u.blanking = .done → u.choose s = u) ∧
      (∀ pointer, u.blanking = .running pointer ∨ (u.blanking = .none ∧ pointer = 0) →
        (∀ i, pointer ≤ i → enabled i → (∀ j, pointer ≤ j → j < i → ¬ enabled j) →
          begins (u.choose s) .blanking i ∧ (u.choose s).blanking = .running (i + 1)) ∧
        ((∀ j, pointer ≤ j → ¬ enabled j) → u.choose s = { u with blanking := .done })))) ∧
  (∀ (address : Byte) (c : SeatContent),
    let sound (bs : List Byte) : Prop := (bs.map BitVec.toNat).sum % 256 = 0
    let padded (n : Nat) (t : Text) : List Byte := t.take n ++ List.replicate (n - t.length) 0x20#8
    (∃ check, pingMessage address = [address, 3, check] ∧ sound (pingMessage address)) ∧
    (∃ check, blankMessage address = [address, 2, check] ∧ sound (blankMessage address)) ∧
    (∃ form check, showMessage address c =
        [address, 1, form] ++ padded 4 c.label ++ padded 12 c.lineA ++ padded 12 c.lineB ++ [check] ∧
      sound (showMessage address c) ∧ (showMessage address c).length = 32 ∧
      (form.extractLsb' 0 2).toNat = (match c.lamp with
        | .green => 1
        | .amber => 2
        | .red => 3) ∧
      form.getLsbD 2 = c.dim ∧ form.getLsbD 3 = false ∧
      (c.icon ≤ 15 → (form.extractLsb' 4 4).toNat = c.icon)))

/-! ### Notices (chapter 8) -/

/-- The acceptance list's edits (R148, R149). -/
def Obligations.AcceptanceList : Prop :=
  ∀ (f : MgmtFrame) (s : State),
    let list := s.notice.acceptance
    let inserted (r : Result) (l : List FilterEntry) (data : ReplyData) : Prop := exec (.acceptInsert f) s = .next
      (State.reply { s with announced := s.announced.erase (.acceptInsert f), notice := { s.notice with acceptance := l } }
        f.port f.seq 13 r data)
    let removed (r : Result) (l : List FilterEntry) (data : ReplyData) : Prop := exec (.acceptRemove f) s = .next
      (State.reply { s with announced := s.announced.erase (.acceptRemove f), notice := { s.notice with acceptance := l } }
        f.port f.seq 14 r data)
    let id := natAt f.args 1
    let after := natAt f.args 0
    let entry : FilterEntry :=
      { id := id, categoryValue := byteAt f.args 2, categoryMask := byteAt f.args 3, languageValue := byteAt f.args 4,
        languageMask := byteAt f.args 5, portions := (byteAt f.args 6).setWidth 3, accept := natAt f.args 7 == 1,
        override := if natAt f.args 8 ≤ 3 then some (natAt f.args 8) else none }
    (s.mgmt.mode = .restartPending → inserted .busy list .none ∧ removed .busy list .none) ∧
    (s.mgmt.mode ≠ .restartPending → f.args.length = 9 →
      (id = 0 ∨ 1 < natAt f.args 7 → inserted .invalid list .none) ∧
      (id ≠ 0 → natAt f.args 7 ≤ 1 →
        (24 ≤ list.length → inserted .full list .none) ∧
        (list.length < 24 →
          ((∃ y ∈ list, y.id = id) → inserted .duplicate list .none) ∧
          ((∀ y ∈ list, y.id ≠ id) →
            (after ≠ 0 → (∀ y ∈ list, y.id ≠ after) → inserted .notFound list .none) ∧
            (after = 0 → inserted .ok (entry :: list) (.listCount (list.length + 1))) ∧
            (∀ pre y post, after ≠ 0 → list = pre ++ y :: post → y.id = after → (∀ x ∈ pre, x.id ≠ after) →
              inserted .ok (pre ++ y :: entry :: post) (.listCount (list.length + 1))))))) ∧
    (s.mgmt.mode ≠ .restartPending → f.args.length = 1 →
      ((∀ y ∈ list, y.id ≠ after) → removed .notFound list .none) ∧
      (∀ pre y post, list = pre ++ y :: post → y.id = after → (∀ x ∈ pre ++ post, x.id ≠ after) →
        removed .ok (pre ++ post) (.listCount (pre ++ post).length)))

/-- The decision of the acceptance list (R147) and the start of a show (R157). A show's start is announced (R166), with no
comparison of the text with what the lines held (log 22); a pool text is read from the active table as it stands (log 34). -/
def Obligations.AcceptanceAndShows : Prop :=
  (∀ (f : NoticeFields) (portion : Nat) (list : List FilterEntry),
    let matching (x : FilterEntry) : Prop :=
      f.category &&& x.categoryMask = x.categoryValue &&& x.categoryMask ∧
      f.language &&& x.languageMask = x.languageValue &&& x.languageMask ∧
      portion ≠ 0 ∧ x.portions.getLsbD (portion - 1) = true
    ((∀ x ∈ list, ¬ matching x) → decideNotice list f portion = none) ∧
    (∀ pre x post, list = pre ++ x :: post → (∀ y ∈ pre, ¬ matching y) → matching x →
      decideNotice list f portion =
        if x.accept = true then some (match x.override with
          | some p => p
          | none => f.priority.toNat) else none)) ∧
  (∀ (s : State) (u : NoticeUnit), u.legal →
    let showing : Prop := ∃ id text dwell, u.lines = .showing id text dwell
    (showing → u.settle s = ⟨u, []⟩) ∧
    (¬ showing → s.mgmt.mode ∈ [.service, .restartPending] → u.settle s = ⟨{ u with lines := .blank }, []⟩) ∧
    (¬ showing → s.mgmt.mode ∈ [.normal, .quiet] →
      ((∀ e ∈ u.queue, e.due = false) → u.settle s = ⟨{ u with lines := .default }, []⟩) ∧
      (∀ pre e post, u.queue = pre ++ e :: post → (∀ x ∈ pre, x.due = false) → e.due = true →
        let text := ((match e.text with
          | .inlined cs => cs
          | .pool id => s.tables.string id.toNat)).take 96
        u.settle s =
          ⟨{ u with
             queue := pre ++ { e with due := false, repeatTimer := e.interval
                                      showsRemaining := if e.count = 0 then e.showsRemaining
                                                        else e.showsRemaining - 1 } :: post
             lines := .showing e.id text (if text.length ≤ 24 then 8 else 8 + (text.length - 24 + 5) / 6) },
           [.noticeTextChange .current]⟩)))

/-- A NOTICE (R146, R151 to R153, R157, R159, R164 to R166): rejected, passed over, admitted, dropped, admitted with an
eviction, or an update of the entry of its id; with the pre-emption and the choice of the next show that follow, whatever the
lines show. The portion tested is the one the unit took (log 30); the choice is made within the event (log 21), and each start
and end of a show is announced (log 22). The texts of an update are compared as the active TEXT table stands (log 34). A
pre-empted entry that stays keeps the due flag its timer set during its own show (`countedEnd`, log 47): these are the
model's. -/
def Obligations.NoticeTaken : Prop :=
  ∀ (f : NoticeFields) (s : State),
    let taken : State := { s with announced := s.announced.erase (.notice f) }
    let u := s.notice
    let held : Prop := u.portion ≠ 0 ∧ f.mask.getLsbD (u.portion - 1) = true
    let interval : Nat := if f.interval.toNat = 0 then 0 else max 10 (min 3600 f.interval.toNat)
    let entry (p : Nat) : NoticeEntry :=
      { id := f.id.toNat, category := f.category, language := f.language, priority := f.priority.toNat, mask := f.mask,
        overlay := f.overlay, interval := interval, count := f.count.toNat, lifetime := f.lifetime.toNat
        text := match f.text with
          | .pool id => .pool id
          | .inlined cs => .inlined (cs.take 96)
        effective := p, due := true, repeatTimer := 0, showsRemaining := f.count.toNat
        remaining := if f.lifetime.toNat = 0 then none else some f.lifetime.toNat
        overlayWanted := p == 0 && f.overlay }
    -- the notice ends in `v` with an entry of priority `p` due: pre-emption, and then the choice
    let becomes (v : NoticeUnit) (p : Nat) (said : List Instr) : Prop :=
      let ended := v.preemptedBy p
      let chosen := ended.unit.settle s
      exec (.notice f) s = .next
        { taken with notice := chosen.unit, announced := taken.announced ++ said ++ ended.said ++ chosen.said }
    let admitted (v : NoticeUnit) (p : Nat) (said : List Instr) : Prop :=
      ∀ pre post, v.queue = pre ++ post → (∀ x ∈ pre, x.effective ≤ p) → (∀ x ∈ post, p < x.effective) →
        becomes { v with queue := pre ++ entry p :: post } p
          (said ++ if p = 0 ∧ f.overlay = true then [.overlayRequest f.id.toNat] else [])
    (f.id.toNat = 0 ∨ 65279 < f.id.toNat → exec (.notice f) s = .next
      { taken with notice := { u with rejected := min 65535 (u.rejected + 1) } }) ∧
    (1 ≤ f.id.toNat → f.id.toNat ≤ 65279 →
      (¬ held → exec (.notice f) s = .next taken) ∧
      (held → decideNotice u.acceptance f u.portion = none → exec (.notice f) s = .next
        { taken with notice := { u with rejected := min 65535 (u.rejected + 1) } }) ∧
      (∀ p, held → decideNotice u.acceptance f u.portion = some p → u.legal →
        ((∀ e ∈ u.queue, e.id ≠ f.id.toNat) →
          (u.queue.length < 16 → admitted u p []) ∧
          (∀ rest last, u.queue = rest ++ [last] → u.queue.length = 16 →
            (last.effective ≤ p → exec (.notice f) s = .next
              { taken with notice := { u with dropped := min 65535 (u.dropped + 1) } }) ∧
            (p < last.effective →
              let shown : Bool := u.shows last.id
              let left := NoticeUnit.settle s
                { u with queue := rest, dropped := min 65535 (u.dropped + 1), lines := if shown then .default else u.lines }
              admitted left.unit p ((if shown then [.noticeTextChange .current] else []) ++
                (if last.overlayWanted then [.overlayEnd last.id] else []) ++ left.said)))) ∧
        (∀ pre old post, u.queue = pre ++ old :: post → old.id = f.id.toNat →
          let new : NoticeEntry := { entry p with repeatTimer := old.repeatTimer }
          let said : List Instr :=
            if new.overlayWanted && !old.overlayWanted then [.overlayRequest old.id]
            else if !new.overlayWanted && old.overlayWanted then [.overlayEnd old.id]
            else if new.overlayWanted && noticeText s.tables old != noticeText s.tables new
              then [.noticeTextChange (.entry old.id)] else []
          ∀ q : List NoticeEntry,
            (p = old.effective → q = pre ++ new :: post) →
            (p ≠ old.effective → ∃ before after, q = before ++ new :: after ∧ pre ++ post = before ++ after ∧
              (∀ x ∈ before, x.effective ≤ p) ∧ ∀ x ∈ after, p < x.effective) →
            (∀ text dwell, u.lines = .showing old.id text dwell →
              let chosen := NoticeUnit.settle s { u with queue := q, lines := .default }
              exec (.notice f) s = .next
                { taken with
                  notice := chosen.unit
                  announced := taken.announced ++ said ++ [.noticeTextChange .current] ++ chosen.said }) ∧
            ((∀ text dwell, u.lines ≠ .showing old.id text dwell) → becomes { u with queue := q } p said))))

/-- Cancellations, expired lifetimes, expired repeat timers and the end of a dwell (R154, R155, R156, R158, R159, R164). The
next show is chosen within the event (log 21), each start and end of a show is announced (R166, log 22), and an expiry
commanded by itself is that of log 16, of no timer that of log 15. An entry that stays after its show keeps its due flag by
log 47. -/
def Obligations.NoticeEnds : Prop :=
  ∀ (s : State), s.notice.legal →
    let u := s.notice
    let without (id : Nat) : NoticeUnit := { u with queue := u.queue.filter (fun e => e.id != id) }
    let gone (c : Instr) (announced : List Instr) (e : NoticeEntry) : Prop :=
      let ends : List Instr := if e.overlayWanted then [.overlayEnd e.id] else []
      ((∃ id text dwell, id ≠ e.id ∧ u.lines = .showing id text dwell) → exec c s = .next
        { s with notice := without e.id, announced := announced ++ ends }) ∧
      ((∀ id text dwell, u.lines ≠ .showing id text dwell) →
        let d := NoticeUnit.settle s (without e.id)
        exec c s = .next { s with notice := d.unit, announced := announced ++ ends ++ d.said }) ∧
      (∀ text dwell, u.lines = .showing e.id text dwell →
        let d := NoticeUnit.settle s { without e.id with lines := .default }
        exec c s = .next { s with notice := d.unit
                                  announced := announced ++ ([.noticeTextChange .current] ++ ends ++ d.said) })
    (∀ payload : List Byte,
      let erased := s.announced.erase (.noticeCancel payload)
      (payload.length < 2 → exec (.noticeCancel payload) s = .next { s with announced := erased }) ∧
      (2 ≤ payload.length →
        (65280 ≤ wordAt payload 0 2 → exec (.noticeCancel payload) s = .next
          { s with announced := erased, notice := { u with rejected := min 65535 (u.rejected + 1) } }) ∧
        (wordAt payload 0 2 < 65280 →
          ((∀ e ∈ u.queue, e.id ≠ wordAt payload 0 2) → exec (.noticeCancel payload) s = .next
            { s with announced := erased }) ∧
          (∀ e ∈ u.queue, e.id = wordAt payload 0 2 → gone (.noticeCancel payload) erased e)))) ∧
    (∀ e ∈ u.queue, e.remaining ≠ none → gone (.lifetimeExpiry e.id) s.announced e) ∧
    (∀ id, (∀ e ∈ u.queue, e.id = id → e.remaining = none) → exec (.lifetimeExpiry id) s = .next s) ∧
    (∀ pre e post, u.queue = pre ++ e :: post → 1 ≤ e.repeatTimer →
      (∃ x text dwell, x ∈ u.queue ∧ u.lines = .showing x.id text dwell ∧
        (e.due = true ∨ e.effective ≠ 0 ∨ x.effective = 0)) →
      exec (.repeatTimerExpiry e.id) s = .next
        { s with notice := { u with queue := pre ++ { e with repeatTimer := 0, due := true } :: post } }) ∧
    (∀ pre e post, u.queue = pre ++ e :: post → 1 ≤ e.repeatTimer →
      let v : NoticeUnit := { u with queue := pre ++ { e with repeatTimer := 0, due := true } :: post }
      (e.due = true → exec (.repeatTimerExpiry e.id) s = .next { s with notice := v }) ∧
      (e.due = false →
        let ended := v.preemptedBy e.effective
        let chosen := ended.unit.settle s
        exec (.repeatTimerExpiry e.id) s = .next
          { s with notice := chosen.unit, announced := s.announced ++ (ended.said ++ chosen.said) })) ∧
    (∀ id, (∀ e ∈ u.queue, e.id = id → e.repeatTimer = 0) → exec (.repeatTimerExpiry id) s = .next s) ∧
    ((∀ id text dwell, u.lines ≠ .showing id text dwell) → exec .dwellEnd s = .next s) ∧
    (∀ e text dwell, e ∈ u.queue → u.lines = .showing e.id text dwell →
      let spent : Bool := e.interval == 0 || (e.count != 0 && e.showsRemaining == 0)
      let d := NoticeUnit.settle s { (if spent then without e.id else u) with lines := .default }
      exec .dwellEnd s = .next
        { s with notice := d.unit
                 announced := s.announced ++ ([.noticeTextChange .current] ++
                   (if spent && e.overlayWanted then [.overlayEnd e.id] else []) ++ d.said) })

/-- What the Notice Unit does at the announcements of other blocks (R160 to R163, R165, R166), with the texts it builds (R81,
R161, R163): what each does to the queue, and then the whole of it, the lines and every announcement made, for a portion
change, an announcement of the Reckoning Unit and an activation. The modes and the portion are those the announcement carries
(logs 29, 30); the overlays whose pool text a TEXT activation has changed are found by log 10, against the bank kept by log 7;
a purge chooses the next show after each removal (log 21), and each start and end of a show is announced (log 22); the active
tables are read as they stand (log 34); a local notice's category, language and own priority are those of log 9; the text of
one whose stop the record no longer holds is that of log 52. -/
def Obligations.NoticeAnnouncements : Prop :=
  ∀ (s : State), s.notice.legal →
    let u := s.notice
    let now := s.reck.progress.inForce
    let completes (c : Instr) (t : State) : Prop :=
      exec c s = .next t ∧ t = { s with notice := t.notice, announced := t.announced }
    let local_ (v : NoticeUnit) : Prop :=
      (now = none → ∀ a, u.basis = some a → ∀ e ∈ v.queue, e.id ≠ localId a.kind) ∧
      (∀ a b, u.basis = some a → now = some b → a.kind ≠ b.kind → ∀ e ∈ v.queue, e.id ≠ localId a.kind) ∧
      (∀ a, now = some a → u.basis ≠ now → u.queue.length < 16 → ∃ e ∈ v.queue, e.id = localId a.kind ∧
        e.effective = 1 ∧ e.text = .inlined (localText s.tables s.reck.progress a.kind))
    -- the other entries: those that stay keep all but what a show changes, and nothing joins but the local notice
    let others (stays : NoticeEntry → Prop) (v : NoticeUnit) : Prop :=
      (u.queue.length < 16 → ∀ e ∈ u.queue, stays e → (∀ k, e.id ≠ localId k) → ∃ e' ∈ v.queue,
        e' = { e with due := e'.due, repeatTimer := e'.repeatTimer, showsRemaining := e'.showsRemaining }) ∧
      ∀ e' ∈ v.queue, (∃ e ∈ u.queue, e.id = e'.id) ∨ ∃ a, now = some a ∧ u.basis ≠ now ∧ e'.id = localId a.kind
    -- the texts of the local notices rebuilt, the approach being as it was (R163)
    let rebuilt (e : NoticeEntry) : NoticeEntry :=
      if e.id = 65281 then { e with text := .inlined (localText s.tables s.reck.progress .calling) }
      else if e.id = 65282 then { e with text := .inlined (localText s.tables s.reck.progress .closedDoor) } else e
    let shownChanges (e : NoticeEntry) (text : Text) (dwell : Nat) : Prop :=
      e ∈ u.queue ∧ u.lines = .showing e.id text dwell ∧ (rebuilt e).text ≠ e.text
    -- the overlays whose pool text a TEXT activation has changed (R166)
    let read (bank : Table (List Byte)) (id : Byte) : Text := if id = 0 then [] else (Table.find bank id.toNat).getD []
    let changed (e : NoticeEntry) : Bool := e.overlayWanted && match e.text with
      | .inlined _ => false
      | .pool id => read (s.tables.replacedText.getD s.tables.text.active) id != read s.tables.text.active id
    (∀ before after, after ∈ [Mode.service, .restartPending] →
      (∀ pre e post text dwell, u.queue = pre ++ e :: post → u.lines = .showing e.id text dwell →
        exec (.modeChangeNotice before after) s = .next
          { s with
            announced := s.announced.erase (.modeChangeNotice before after) ++ [.noticeTextChange .current]
            notice := { u with
              lines := .blank
              queue := pre ++ { e with due := true, showsRemaining := if e.count = 0 then e.showsRemaining
                                                                      else e.showsRemaining + 1 } :: post } }) ∧
      ((∀ id text dwell, u.lines ≠ .showing id text dwell) → exec (.modeChangeNotice before after) s = .next
        { s with announced := s.announced.erase (.modeChangeNotice before after), notice := { u with lines := .blank } })) ∧
    (∀ before after, after ∈ [Mode.normal, .quiet] → exec (.modeChangeNotice before after) s = .next
      { s with notice := (u.settle s).unit
               announced := s.announced.erase (.modeChangeNotice before after) ++ (u.settle s).said }) ∧
    exec .coachNumberChange s = .next
      { s with
        announced := s.announced.erase .coachNumberChange
        notice := { u with defaultText := if s.form.coachNumber = 0 ∨ s.reck.calling = [] then [] else
          (joinParts [s.tables.string 9, decimal s.form.coachNumber,
            s.tables.longName (finalStop s.reck.calling)]).take 96 } } ∧
    (∀ portion, ∃ t, completes (.portionChangeNotice portion) t ∧ t.notice.basis = now ∧ t.notice.portion = portion ∧
      t.notice.defaultText = defaultLine s.tables s.form.coachNumber s.reck.calling ∧
      (1 ≤ portion → portion ≤ 3 → (∀ e ∈ t.notice.queue, e.mask.getLsbD (portion - 1) = true) ∧
        others (fun e => e.mask.getLsbD (portion - 1) = true) t.notice) ∧
      (portion = 0 → ∀ e ∈ t.notice.queue, ∃ a, now = some a ∧ u.basis ≠ now ∧ e.id = localId a.kind)) ∧
    (∀ news, ∃ t, completes (.reckoningAnnouncementNotice news) t ∧ t.notice.basis = now ∧ local_ t.notice ∧
      others (fun _ => True) t.notice ∧
      (news = .sets → t.notice.defaultText = defaultLine s.tables s.form.coachNumber s.reck.calling) ∧
      (news ≠ .sets → t.notice.defaultText = u.defaultText) ∧
      (now = u.basis → t.notice.queue = u.queue.map rebuilt ∧
        (∀ e text dwell, shownChanges e text dwell →
          (∃ k, t.notice.lines = .showing e.id (localText s.tables s.reck.progress k) dwell ∧ e.id = localId k) ∧
          t.announced = s.announced.erase (.reckoningAnnouncementNotice news) ++ [.noticeTextChange .current]) ∧
        ((∀ e text dwell, ¬ shownChanges e text dwell) → t.notice.lines = u.lines ∧
          t.announced = s.announced.erase (.reckoningAnnouncementNotice news)))) ∧
    (∀ fs, ∃ t, exec (.activationAnnouncementNotice fs) s = .next t ∧
      t = { s with notice := t.notice, announced := t.announced
                   tables := if fs.text then { s.tables with replacedText := none } else s.tables } ∧
      t.notice.defaultText = defaultLine s.tables s.form.coachNumber s.reck.calling ∧
      others (fun _ => True) t.notice ∧
      (fs.route = true → t.notice.basis = now ∧ local_ t.notice) ∧
      (fs.route = false → fs.text = true → t.notice.queue = u.queue.map rebuilt) ∧
      (fs.text = true → (∀ k, ∀ e ∈ t.notice.queue, e.id = localId k →
        e.text = .inlined (localText s.tables s.reck.progress k)) ∧
        ∃ said, (∀ id, .noticeTextChange (.entry id) ∉ said) ∧
          t.announced = s.announced.erase (.activationAnnouncementNotice fs) ++ said ++
            (t.notice.queue.filter changed).map (fun e => .noticeTextChange (.entry e.id)))) ∧
    -- the whole of each, in the words of Safety.lean
    (let afresh (v : NoticeUnit) : NoticeUnit :=
       { v with defaultText := defaultLine s.tables s.form.coachNumber s.reck.calling }
     (∀ portion : Nat,
       let lacking := u.queue.filter (fun e => portion == 0 || !e.mask.getLsbD (portion - 1))
       let purged := NoticeUnit.withoutAll s { u with portion := portion } (lacking.map (·.id))
       let kept := (afresh purged.unit).reconciled s
       exec (.portionChangeNotice portion) s = .next
         { s with notice := kept.unit
                  announced := s.announced.erase (.portionChangeNotice portion) ++ (purged.said ++ kept.said) }) ∧
     (∀ news : ReckoningNews,
       let kept := (if news = .sets then afresh u else u).reconciled s
       exec (.reckoningAnnouncementNotice news) s = .next
         { s with notice := kept.unit
                  announced := s.announced.erase (.reckoningAnnouncementNotice news) ++ kept.said }) ∧
     (∀ fs : FamilySet,
       let kept : Did NoticeUnit := if fs.route then (afresh u).reconciled s else ⟨afresh u, []⟩
       let texts : Did NoticeUnit := if fs.text then kept.unit.rebuilt s else ⟨kept.unit, []⟩
       exec (.activationAnnouncementNotice fs) s = .next
         { s with notice := texts.unit
                  tables := if fs.text then { s.tables with replacedText := none } else s.tables
                  announced := s.announced.erase (.activationAnnouncementNotice fs) ++ (kept.said ++ texts.said ++
                    if fs.text then (texts.unit.queue.filter changed).map (fun e => .noticeTextChange (.entry e.id))
                    else []) })) ∧
    -- the local notices and the texts
    (∀ k, localEntry s.tables s.reck.progress k =
      { id := if k = .calling then 65281 else 65282, category := 0, language := 0, priority := 1, mask := 7, overlay := false
        interval := 30, count := 0, lifetime := 0, text := .inlined (localText s.tables s.reck.progress k), effective := 1
        due := true, repeatTimer := 0, showsRemaining := 0, remaining := none, overlayWanted := false }) ∧
    (∀ (t : TableStore) (r : Progress),
      let name (o : Option Nat) : Text := match o.bind t.entry with
        | some e => e.longName
        | none => []
      let arrival : Text := match r.arrival with
        | some m => hhmm m
        | none => []
      let door : Text := match (r.n.bind t.entry).map RouteEntry.side with
        | some .left => t.string 5
        | some .right => t.string 6
        | some .both => t.string 7
        | _ => []
      let notes : List Text := match r.n.bind t.entry with
        | some e => e.notes.map (fun id => t.string id.toNat)
        | none => []
      localText t r .calling = (joinParts ([t.string 4, name r.n, arrival, door] ++ notes)).take 96 ∧
      localText t r .closedDoor = (joinParts [t.string 8, name (r.inForce.map (·.target))]).take 96) ∧
    (∀ parts : List Text, joinParts parts = List.intercalate [0x20#8] (parts.filter (fun p => p != []))) ∧
    (∀ m : Nat, m < 1440 → hhmm m = [m / 600, m / 60 % 10, 10, m % 60 / 10, m % 10].map (fun d => BitVec.ofNat 8 (48 + d))) ∧
    (∀ n : Nat, n < 1000 → decimal n =
      (if n < 10 then [n] else if n < 100 then [n / 10, n % 10] else [n / 100, n / 10 % 10, n % 10]).map
        (fun d => BitVec.ofNat 8 (48 + d)))

/-! ### Panels (chapter 9) -/

/-- The page stacks: pop runs (R173), the approach (R171), overlay requests and overlay ends (R172), and the approach followed
at both panels from the basis. An URGENT level pushed by any of them is an activity: in QUIET it reloads the idle timer and
the level is FULL (R185, R186). A pop run that ends in a push makes one request (log 23). -/
def Obligations.PageStacks : Prop :=
  (∀ (s : State) (panel : Panel) (q : PanelState),
    let shape (l : Level) : LevelKind × Nat × Bool := (l.kind, l.offset, l.dead)
    let wanted : Option Nat := (s.notice.queue.find? (fun e => e.overlayWanted &&
      !(q.stack.dropWhile (·.dead)).any (fun l => l.kind == .urgent e.id && !l.dead))).map (·.id)
    (∀ l ls, q.stack = l :: ls → l.dead = false → q.popRun s panel = (q, false)) ∧
    (∀ l ls rest, q.stack = l :: ls → l.dead = true → rest = q.stack.dropWhile (·.dead) → rest.length < 4 →
      let r := (q.popRun s panel).1
      (∀ id, wanted = some id → r.stack.map shape = (.urgent id, 0, false) :: rest.map shape ∧
        r.approachWant = q.approachWant ∧ (q.popRun s panel).2 = true) ∧
      (wanted = none → (q.popRun s panel).2 = false ∧
        (q.approachWant = true → r.stack.map shape = (.approach, 0, false) :: rest.map shape ∧ r.approachWant = false) ∧
        (q.approachWant = false → r.stack.map shape = rest.map shape ∧ r.approachWant = false)) ∧
      r.compose.isSome = true ∧ (q.compose.isSome = true → r.again = true ∧ r.compose = q.compose)) ∧
    (∀ x : Approach, q.stack.length < 4 → q.follow s none (some x) panel = (q.push s panel .approach, false)) ∧
    (∀ x : Approach, 4 ≤ q.stack.length → q.follow s none (some x) panel = ({ q with approachWant := true }, false)) ∧
    (∀ x : Approach, q.follow s (some x) none panel =
      PanelState.popRun s panel
        { q with stack := q.stack.map (fun l => if l.kind = .approach then { l with dead := true } else l)
                 approachWant := false }) ∧
    (∀ x y : Approach, x ≠ y → q.follow s (some x) (some y) panel =
      (if q.rendered s.mgmt.mode = .approach then q.request s panel else q, false)) ∧
    (∀ b : Option Approach, q.follow s b b panel = (q, false))) ∧
  (∀ (id : Nat) (s : State), s.line.relay = .opened →
    ∃ t : State, exec (.overlayRequest id) s = .next t ∧
      t = { s with panels := t.panels, announced := s.announced.erase (.overlayRequest id) } ∧
      t.panels.basis = s.panels.basis ∧
      let room (q : PanelState) : Prop := (∃ e ∈ s.notice.queue, e.id = id ∧ e.overlayWanted = true) ∧
        (∀ l ∈ q.stack, l.kind = .urgent id → l.dead = true) ∧ q.stack.length < 4
      (room s.panels.panel1 → t.panels.panel1 = s.panels.panel1.push s .panel1 (.urgent id)) ∧
      (¬ room s.panels.panel1 → t.panels.panel1 = s.panels.panel1) ∧
      (room s.panels.panel2 → t.panels.panel2 = s.panels.panel2.push s .panel2 (.urgent id)) ∧
      (¬ room s.panels.panel2 → t.panels.panel2 = s.panels.panel2) ∧
      ((room s.panels.panel1 ∨ room s.panels.panel2) ∧ s.mgmt.mode = .quiet →
        t.panels.idle = some s.mgmt.params.quietIdle ∧ t.panels.brightness = .full) ∧
      (¬ ((room s.panels.panel1 ∨ room s.panels.panel2) ∧ s.mgmt.mode = .quiet) →
        t.panels.idle = s.panels.idle ∧ t.panels.brightness = s.panels.brightness)) ∧
  (∀ (id : Nat) (s : State), s.line.relay = .opened →
    ∃ t : State, exec (.overlayEnd id) s = .next t ∧
      t = { s with panels := t.panels, announced := s.announced.erase (.overlayEnd id) } ∧
      let killed (q : PanelState) : PanelState :=
        { q with stack := q.stack.map (fun l => if l.kind = .urgent id then { l with dead := true } else l) }
      t.panels.panel1 = ((killed s.panels.panel1).popRun s .panel1).1 ∧
      t.panels.panel2 = ((killed s.panels.panel2).popRun s .panel2).1 ∧ t.panels.basis = s.panels.basis ∧
      let pushed : Prop := ((killed s.panels.panel1).popRun s .panel1).2 = true ∨
        ((killed s.panels.panel2).popRun s .panel2).2 = true
      (pushed → s.mgmt.mode = .quiet → t.panels.idle = some s.mgmt.params.quietIdle ∧ t.panels.brightness = .full) ∧
      (¬ (pushed ∧ s.mgmt.mode = .quiet) →
        t.panels.idle = s.panels.idle ∧ t.panels.brightness = s.panels.brightness)) ∧
  (∀ (s : State) (u : PanelComposer),
    let now := s.reck.progress.inForce
    let one := u.panel1.follow s u.basis now .panel1
    let two := u.panel2.follow s u.basis now .panel2
    let v := u.followApproach s
    let pushed : Prop := one.2 = true ∨ two.2 = true
    v.panel1 = one.1 ∧ v.panel2 = two.1 ∧ v.basis = now ∧
    (pushed → s.mgmt.mode = .quiet → v.idle = some s.mgmt.params.quietIdle ∧ v.brightness = .full) ∧
    (¬ (pushed ∧ s.mgmt.mode = .quiet) → v.idle = u.idle ∧ v.brightness = u.brightness))

/-- The compose requests of R175 that the announcements of other blocks make, and the approach basis they renew (R171;
`followApproach` is each panel's `follow` from the basis to the record's approach, with the activity of an URGENT push, as
PageStacks says); which items of the record each element reads (R175, R180, R183), and the page and template a panel renders
(R168, R169). The requests of one event are taken one after another (log 23). The active tables are read as they stand (log
34). -/
def Obligations.ComposeRequests : Prop :=
  (∀ (mode : Mode) (q : PanelState),
    (mode ∈ [.service, .restartPending] → q.rendered mode = .service) ∧
    (mode ∈ [.normal, .quiet] → ∀ l ls, q.stack = l :: ls →
      (l.kind = .map → q.rendered mode = .map) ∧ (l.kind = .approach → q.rendered mode = .approach) ∧
      (∀ id, l.kind = .urgent id → q.rendered mode = .urgent id))) ∧
  (∀ (t : TableStore) (panel : Panel) (page : Page),
    let code : Nat := match page with
      | .map => 0
      | .approach => 1
      | .urgent _ => 2
      | .service => 3
    let serves (k : Nat) : Prop := ∃ r, Table.find t.page.active (25 * k) = some r ∧ natAt r 0 = code ∧
      (natAt r 1 = 3 ∨ (natAt r 1 = 1 ∧ panel = .panel1) ∨ (natAt r 1 = 2 ∧ panel = .panel2))
    (∀ k r, k < 12 → serves k → (∀ j, j < k → ¬ serves j) → Table.find t.page.active (25 * k) = some r →
      pageElements t panel page =
        (List.range 24).filterMap (fun j => (Table.find t.page.active (25 * k + 1 + j)).map element) ∧
      pageBackground t panel page = (byteAt r 2).extractLsb' 0 4) ∧
    ((∀ k, k < 12 → ¬ serves k) → pageElements t panel page = [] ∧ pageBackground t panel page = 0)) ∧
  ∀ (s : State), s.line.relay = .opened →
    let reads (c : Changed) (page : Page) (e : Element) : Bool :=
      (e.kind == .strip && (c.state || c.remembered || c.p || c.n || c.a || c.permille)) ||
      (e.kind == .text && ((e.source == 1 && c.n) || (e.source == 2 && c.arrival) || (e.source == 3 && c.delay) ||
        (e.source == 8 && c.n) || (e.source == 7 && page == .approach && (c.n || c.arrival))))
    let asks (panel : Panel) (test : Element → Bool) (q : PanelState) : Bool :=
      (pageElements s.tables panel (q.rendered s.mgmt.mode)).any test
    let requested (c : Instr) (u : PanelComposer) (one two : Bool) : Prop :=
      exec c s = .next
        { s with
          announced := s.announced.erase c
          panels := { u with panel1 := if one then u.panel1.request s .panel1 else u.panel1
                             panel2 := if two then u.panel2.request s .panel2 else u.panel2 } }
    let each (c : Instr) (test : Panel → PanelState → Bool) : Prop :=
      requested c s.panels (test .panel1 s.panels.panel1) (test .panel2 s.panels.panel2)
    let followed (u : PanelComposer) : Prop := u = s.panels.followApproach s ∧ u.basis = s.reck.progress.inForce
    requested .orientationChange s.panels true true ∧
    requested (.travelRightChange .panel1) s.panels true false ∧
    requested (.travelRightChange .panel2) s.panels false true ∧
    each .clockMinuteChange (fun p q => asks p (fun e => e.kind == .clock) q) ∧
    each (.formationChangePanel .coachNumber) (fun p q => asks p (fun e => e.kind == .text && e.source == 4) q) ∧
    each (.formationChangePanel .coachClass) (fun p q => asks p (fun e => e.kind == .text && e.source == 5) q) ∧
    each (.noticeTextChange .current) (fun p q =>
      (q.rendered s.mgmt.mode == .map || q.rendered s.mgmt.mode == .service) &&
        asks p (fun e => e.kind == .text && e.source == 7) q) ∧
    (∀ id, each (.noticeTextChange (.entry id)) (fun _ q => q.rendered s.mgmt.mode == .urgent id)) ∧
    (∃ u, followed u ∧ requested (.formationChangePanel .portion) u true true) ∧
    (∃ u, followed u ∧ requested (.reckoningAnnouncementPanel .sets) u true true) ∧
    (∀ c, ∃ u, followed u ∧ requested (.reckoningAnnouncementPanel (.progress c)) u
      (asks .panel1 (reads c (u.panel1.rendered s.mgmt.mode)) u.panel1)
      (asks .panel2 (reads c (u.panel2.rendered s.mgmt.mode)) u.panel2)) ∧
    (∀ fs, fs.route = true → ∃ u, followed u ∧ requested (.activationAnnouncementPanel fs) u true true) ∧
    (∀ fs, fs.route = false → requested (.activationAnnouncementPanel fs) s.panels true true)

/-- A compose (R176): begun at a request or set pending, what it reads for each element (R179, R180, R182, R183, R184), its
swap, the elements drawn one over the other, the pixel rule (R178) and the pixels each kind of element sets (R179, R181 to
R184); mode changes, activity and the idle timer at the panels (R182, R185, R186). The glyphs are free (log 2); the scrolling
mark that a compose sets is the model's (log 28); source 7 of an APPROACH page with no approach in force is empty by log 48; a
compose reads the active tables as they stand (log 34), and the text of a local notice whose stop the record does not hold is
that of log 52; the modes are those the announcement carries (log 29); an idle timer expiry commanded at any count above 0 is
that count reaching 0 (log 16); a swap with no compose, and an expiry with no timer above 0 in QUIET, change nothing (log 15). -/
def Obligations.ComposesAndBrightness : Prop :=
  (∀ (s : State) (panel : Panel) (q : PanelState),
    (q.compose.isSome = true → q.request s panel = { q with again := true }) ∧
    (q.compose = none → (q.request s panel).compose = some
        { background := pageBackground s.tables panel (q.rendered s.mgmt.mode)
          items := (pageElements s.tables panel (q.rendered s.mgmt.mode)).map (fun e =>
            ⟨e, readElement s panel (q.rendered s.mgmt.mode) (q.offsetOf (q.rendered s.mgmt.mode)) e⟩) } ∧
      (q.request s panel).again = q.again ∧ (q.request s panel).front = q.front ∧ (q.request s panel).back = q.back)) ∧
  (∀ (q : PanelState) (page : Page), (page = .service → q.offsetOf page = q.serviceOffset) ∧
    (page ≠ .service → ∀ l ls, q.stack = l :: ls → q.offsetOf page = l.offset)) ∧
  (∀ (s : State) (panel : Panel) (page : Page) (offset : Nat) (e : Element),
    let r := s.reck.progress
    let got := readElement s panel page offset e
    let name (o : Option Nat) : Text := match o.bind s.tables.entry with
      | some x => x.longName
      | none => []
    let absent : Text := [0x2D#8, 0x2D#8, 0x3A#8, 0x2D#8, 0x2D#8]
    (e.kind = .fill → got = .fill) ∧
    (e.kind = .clock →
      got = .text (if s.reck.clock.valid = true then hhmm (s.reck.clock.seconds / 60) else absent) none) ∧
    (e.kind = .text → ∃ text : Text,
      got = .text text
        (if e.scroll = true ∧ e.rect.w < text.length * (if e.bigFont then 8 else 6) then some offset else none) ∧
      (e.source = 0 → text = (s.tables.string e.textId.toNat).take 96) ∧
      (e.source = 1 → text = (name r.n).take 96) ∧
      (e.source = 2 → text = match r.arrival with
        | some m => hhmm m
        | none => absent) ∧
      (e.source = 3 →
        (0 < r.delay → text = (joinParts [0x2B#8 :: decimal r.delay.toNat, s.tables.string 10]).take 96) ∧
        (r.delay ≤ 0 → text = [])) ∧
      (e.source = 4 → text = if s.form.coachNumber = 0 then [] else decimal s.form.coachNumber) ∧
      (e.source = 5 → text = match s.form.coachClass with
        | .first => [0x31#8]
        | .second => [0x32#8]
        | .mixed => [0x31#8, 0x2F#8, 0x32#8]) ∧
      (e.source = 6 → (s.reck.calling = [] → text = []) ∧
        ∀ m ∈ s.reck.calling, (∀ y ∈ s.reck.calling, y ≤ m) → text = (name (some m)).take 96) ∧
      (e.source = 7 →
        (page ∈ [.map, .service] →
          (∀ id shown dwell, s.notice.lines = .showing id shown dwell → text = shown.take 96) ∧
          ((∀ id shown dwell, s.notice.lines ≠ .showing id shown dwell) → text = [])) ∧
        (∀ id, page = .urgent id →
          (∀ pre x post, s.notice.queue = pre ++ x :: post → (∀ y ∈ pre, y.id ≠ id) → x.id = id →
            (∀ cs, x.text = .inlined cs → text = cs.take 96) ∧
            (∀ i, x.text = .pool i → text = (s.tables.string i.toNat).take 96)) ∧
          ((∀ x ∈ s.notice.queue, x.id ≠ id) → text = [])) ∧
        (page = .approach → (∀ a, r.inForce = some a → text = localText s.tables r a.kind) ∧
          (r.inForce = none → text = []))) ∧
      (e.source = 8 → text = (joinParts (match r.n.bind s.tables.entry with
        | some x => x.notes.map (fun id => s.tables.string id.toNat)
        | none => [])).take 96) ∧
      (8 < e.source → text = [])) ∧
    (e.kind = .strip → ∃ (names : List Text) (permille : Nat) (mirrored : Bool), got = .strip names permille mirrored ∧
      let state := if r.state = .hold then r.remembered else some r.state
      let fromStop (x : Nat) : List Text :=
        ((s.reck.calling.filter (fun m => x ≤ m)).take (e.rect.w / e.pitch)).map s.tables.shortName
      let starts (o : Option Nat) : Prop := (∀ x, o = some x → names = fromStop x) ∧ (o = none → names = [])
      (state = some .atStop → starts r.a ∧ permille = 0) ∧
      (state = some .running ∨ state = some .approaching →
        (r.p ≠ none → starts r.p) ∧ (r.p = none → starts r.n) ∧ permille = r.permille) ∧
      (state = some .finished → starts r.p ∧ permille = 0) ∧
      (state ∉ [some .atStop, some .running, some .approaching, some .finished] → names = []) ∧
      let right : Bool := match panel with
        | .panel1 => s.mgmt.params.travelRight1
        | .panel2 => s.mgmt.params.travelRight2
      (mirrored = false ↔ (right = true ∧ s.form.orientation ∈ [.normal, .unknown]) ∨
        (right = false ∧ s.form.orientation = .reversed)))) ∧
  (∀ (j : ComposeJob) (x : Fin 192) (y : Fin 48), (Vector.get j.buffer y).get x = j.pixel x.val y.val) ∧
  (∀ (background : Colour) (items : List DrawItem) (i : DrawItem) (x y : Nat),
    ComposeJob.pixel ⟨background, []⟩ x y = background ∧
    ComposeJob.pixel ⟨background, items ++ [i]⟩ x y = i.draw x y (ComposeJob.pixel ⟨background, items⟩ x y)) ∧
  (∀ (e : Element) (x y : Nat),
    let q := e.rect
    let right := q.x0 + q.w - 1
    DrawItem.colourAt ⟨e, .fill⟩ x y = some e.colour ∧
    (∀ cells : Text,
      let width := cells.length * cellWidth e.bigFont
      let first : Int := match e.align with
        | .left => q.x0
        | .centre => q.x0 + ((q.w : Int) - width) / 2
        | .right => (q.x0 : Int) + q.w - width
      (cellsSet e.bigFont cells first q.y0 q.x0 right x y →
        DrawItem.colourAt ⟨e, .text cells none⟩ x y = some e.colour) ∧
      (¬ cellsSet e.bigFont cells first q.y0 q.x0 right x y → DrawItem.colourAt ⟨e, .text cells none⟩ x y = none)) ∧
    (∀ (text : Text) (offset : Nat),
      let cells : Text := (List.range (q.w / cellWidth e.bigFont)).map
        (fun k => (text ++ [0x20#8]).getD ((offset + k) % (text.length + 1)) 0x20#8)
      (cellsSet e.bigFont cells q.x0 q.y0 q.x0 right x y →
        DrawItem.colourAt ⟨e, .text text (some offset)⟩ x y = some e.colour) ∧
      (¬ cellsSet e.bigFont cells q.x0 q.y0 q.x0 right x y →
        DrawItem.colourAt ⟨e, .text text (some offset)⟩ x y = none)) ∧
    (∀ (names : List Text) (permille : Nat) (mirrored : Bool), names ≠ [] →
      let place (x : Nat) : Int := if mirrored then (q.x0 : Int) + (q.x0 + q.w - 1) - x else x
      let mark (i : Nat) : Int := place (q.x0 + e.pitch / 2 + i * e.pitch)
      let marker : Int := place (q.x0 + e.pitch / 2 + e.pitch * permille / 1000)
      let named : Prop := ∃ i name, names[i]? = some name ∧
        let cut := name.take (e.pitch / 6)
        cellsSet false cut (mark i - ((6 * cut.length / 2 : Nat) : Int)) (q.y0 + 12) q.x0 right x y
      let marked : Prop := marker - 1 ≤ x ∧ (x : Int) ≤ marker + 1 ∧ q.y0 ≤ y ∧ y ≤ q.y0 + 11
      let stopped : Prop := ∃ i, i < names.length ∧ mark i - 2 ≤ x ∧ (x : Int) ≤ mark i + 2 ∧ q.y0 + 3 ≤ y ∧ y ≤ q.y0 + 8
      let tracked : Prop := 1 < names.length ∧ min (mark 0) (mark (names.length - 1)) ≤ x ∧
        (x : Int) ≤ max (mark 0) (mark (names.length - 1)) ∧ q.y0 + 5 ≤ y ∧ y ≤ q.y0 + 6
      let colour := DrawItem.colourAt ⟨e, .strip names permille mirrored⟩ x y
      (named → colour = some e.colour) ∧ (¬ named → marked → colour = some e.marker) ∧
      (¬ named → ¬ marked → stopped ∨ tracked → colour = some e.colour) ∧
      (¬ named → ¬ marked → ¬ stopped → ¬ tracked → colour = none)) ∧
    ∀ (permille : Nat) (mirrored : Bool), DrawItem.colourAt ⟨e, .strip [] permille mirrored⟩ x y = none) ∧
  (∀ (i : DrawItem) (x y : Nat) (present : Colour),
    let e := i.element
    let inside (r : Rect) : Prop := r.x0 ≤ x ∧ x ≤ r.x0 + r.w - 1 ∧ r.y0 ≤ y ∧ y ≤ r.y0 + r.h - 1
    let writes : Prop := inside e.rect ∧ (e.mode = .inside → inside e.clip) ∧ (e.mode = .outside → ¬ inside e.clip) ∧
      e.protect ≠ some present
    1 ≤ e.rect.w → 1 ≤ e.rect.h → 1 ≤ e.clip.w → 1 ≤ e.clip.h →
      (writes → i.draw x y present = (i.colourAt x y).getD present) ∧ (¬ writes → i.draw x y present = present)) ∧
  (∀ (s : State) (j : ComposeJob), s.panels.panel1.compose = some j → ∃ t : State,
    exec (.composeSwap .panel1) s = .next t ∧ t = { s with panels := { s.panels with panel1 := t.panels.panel1 } } ∧
    t.panels.panel1.front = j.buffer ∧ t.panels.panel1.back = s.panels.panel1.front ∧ t.panels.panel1.again = false ∧
    t.panels.panel1.compose.isSome = s.panels.panel1.again) ∧
  (∀ (s : State) (j : ComposeJob), s.panels.panel2.compose = some j → ∃ t : State,
    exec (.composeSwap .panel2) s = .next t ∧ t = { s with panels := { s.panels with panel2 := t.panels.panel2 } } ∧
    t.panels.panel2.front = j.buffer ∧ t.panels.panel2.back = s.panels.panel2.front ∧ t.panels.panel2.again = false ∧
    t.panels.panel2.compose.isSome = s.panels.panel2.again) ∧
  (∀ s : State, s.line.relay = .opened →
    (s.mgmt.mode = .quiet → exec .activity s = .next
      { s with announced := s.announced.erase .activity
               panels := { s.panels with idle := some s.mgmt.params.quietIdle, brightness := .full } }) ∧
    (s.mgmt.mode ≠ .quiet → exec .activity s = .next { s with announced := s.announced.erase .activity }) ∧
    (∀ before after, ∃ t : State, exec (.modeChangePanel before after) s = .next t ∧
      t = { s with panels := t.panels, announced := s.announced.erase (.modeChangePanel before after) } ∧
      (after = .quiet → t.panels.idle = some s.mgmt.params.quietIdle ∧ t.panels.brightness = .full) ∧
      (after ≠ .quiet → before = .quiet → t.panels.idle = none ∧ t.panels.brightness = .full) ∧
      (after ≠ .quiet → before ≠ .quiet →
        t.panels.idle = s.panels.idle ∧ t.panels.brightness = s.panels.brightness) ∧
      ∀ q ∈ [(s.panels.panel1, t.panels.panel1), (s.panels.panel2, t.panels.panel2)],
        q.2.compose.isSome = true ∧ (q.1.compose.isSome = true → q.2.again = true) ∧
        q.2.stack.map (fun l => (l.kind, l.offset, l.dead)) = q.1.stack.map (fun l => (l.kind, l.offset, l.dead)) ∧
        q.2.serviceOffset = (if after ∈ [.service, .restartPending] ∧ before ∉ [.service, .restartPending] then 0
                             else q.1.serviceOffset))) ∧
  (∀ (s : State) (n : Nat), s.mgmt.mode = .quiet → s.panels.idle = some (n + 1) → exec .idleTimerExpiry s = .next
    { s with panels := { s.panels with idle := some 0, brightness := .low } }) ∧
  (∀ s : State,
    (s.mgmt.mode ≠ .quiet ∨ s.panels.idle = none ∨ s.panels.idle = some 0 → exec .idleTimerExpiry s = .next s) ∧
    (s.panels.panel1.compose = none → exec (.composeSwap .panel1) s = .next s) ∧
    (s.panels.panel2.compose = none → exec (.composeSwap .panel2) s = .next s))

/-! ### Faults, restart and retained settings (chapter 10) -/

/-- Fault reports (R189), FAULT_READ and FAULT_CLEAR (R190), and the clear at the engine (R138). -/
def Obligations.FaultCommands : Prop :=
  (∀ (r : FaultReport) (s : State),
    (s.faults.record = none → exec (.faultReport r) s = .next
      { s with
        announced := s.announced.erase (.faultReport r)
        faults := { s.faults with
          record := some { fault := r, uptime := s.faults.uptime
                           clock := if s.reck.clock.valid then some s.reck.clock.seconds else none }
          count := 1 } }) ∧
    (s.faults.record ≠ none → exec (.faultReport r) s = .next
      { s with announced := s.announced.erase (.faultReport r)
               faults := { s.faults with count := min 255 (s.faults.count + 1) } })) ∧
  (∀ (f : MgmtFrame) (s : State), f.args.length = 0 →
    exec (.faultRead f) s = .next
      (State.reply { s with announced := s.announced.erase (.faultRead f) } f.port f.seq 16 .ok
        (.faults s.faults.record s.faults.count)) ∧
    (s.faults.legal → s.faults.record = none → s.faults.count = 0) ∧
    (s.mgmt.mode ≠ .restartPending → exec (.faultClear f) s = .next
      (State.reply { s with
        announced := s.announced.erase (.faultClear f) ++ [.faultClearEngine]
        faults := { s.faults with record := none, count := 0 } } f.port f.seq 17 .ok (.faultCount s.faults.count))) ∧
    (s.mgmt.mode = .restartPending → exec (.faultClear f) s = .next
      (State.reply { s with announced := s.announced.erase (.faultClear f) } f.port f.seq 17 .busy .none))) ∧
  (∀ s : State, exec .faultClearEngine s = .next
    { s with announced := s.announced.erase .faultClearEngine, bus := { s.bus with lampReported := [] } })

/-- RESTART (R191), and STORE with the end of its write (R196). The outcome of the read-back is an operand (log 25); the
announcements carry the mode before and after (log 29); an end with no write changes nothing (log 15). -/
def Obligations.RestartAndStore : Prop :=
  (∀ (f : MgmtFrame) (s : State), s.mgmt.mode ≠ .restartPending → f.args.length = 1 →
    let hold := if natAt f.args 0 = 0 then 5 else min 30 (natAt f.args 0)
    exec (.restart f) s = .next
      (State.reply { s with
        mgmt := { s.mgmt with mode := .restartPending, hold := some hold }
        announced := s.announced.erase (.restart f) ++
          [.modeChangeResv, .modeChangeNotice s.mgmt.mode .restartPending,
           .modeChangePanel s.mgmt.mode .restartPending, .modeChangeEngine] } f.port f.seq 15 .ok (.hold hold))) ∧
  (∀ (f : MgmtFrame) (s : State), s.mgmt.mode ≠ .restartPending → f.args.length = 0 →
    let taken : State := { s with announced := s.announced.erase (.store f) }
    (s.mgmt.store ≠ none → exec (.store f) s = .next (taken.reply f.port f.seq 19 .busy .none)) ∧
    (s.mgmt.store = none → exec (.store f) s = .next
      { taken with
        mgmt := { s.mgmt with
          store := some { copy := { identity := s.form.identity, seats := s.tables.seat.active, params := s.mgmt.params }
                          port := f.port, seq := f.seq } } })) ∧
  (∀ (w : StoreWrite) (s : State), s.mgmt.store = some w →
    exec (.storeWriteEnd true) s = .next
      (State.reply { s with retained := some w.copy, mgmt := { s.mgmt with store := none } } w.port w.seq 19 .ok .none) ∧
    exec (.storeWriteEnd false) s = .next
      (State.reply { s with retained := none, mgmt := { s.mgmt with store := none }
                            announced := s.announced ++ [.faultReport .retainedWriteFailed] }
        w.port w.seq 19 .invalid .none)) ∧
  (∀ (b : Bool) (s : State), s.mgmt.store = none → exec (.storeWriteEnd b) s = .next s)

/-- Power, start-up and the end of a restart hold (R16, R17, R192, R193, R194); the state without power by log 11. POWER_ON
sent to a part that has power resets it and keeps the retained set, also with a STORE write in progress (log 49, the model's
choice). The fault reports on their way at the end of a hold are taken first, in order and with the clock and uptime as they
stand (log 12, the model's reading). The phases of power and start-up are those of log 1, the place of the report of a failed
check that of log 24; a hold's end during a write changes nothing (log 26), nor does one with no hold or a start-up already
complete (log 15). The choice of R157 at a start is `settle`, of which AcceptanceAndShows says what it does. It is made within
the event (log 21) and announced with no comparison of texts (log 22). -/
def Obligations.Starts : Prop :=
  (∀ s : State, exec .powerOn s = .next { State.reset with retained := s.retained, pending := s.pending }) ∧
  (∀ s : State, exec .powerLoss s = .next
    { State.reset with powered := false, pending := s.pending
                       retained := if s.mgmt.store = none then s.retained else none }) ∧
  (∀ s : State,
    let settings : RetainedSet := match s.retained with
      | some r => r
      | none => { identity := 0, seats := [], params := .default }
    -- the fault reports made and not yet taken, and the record one makes
    let reports : List FaultReport := s.announced.filterMap (fun c => match c with
      | .faultReport r => some r
      | _ => none)
    let stamped (r : FaultReport) : FaultRecord :=
      { fault := r, uptime := s.faults.uptime, clock := if s.reck.clock.valid then some s.reck.clock.seconds else none }
    (∀ n, s.mgmt.hold = some n → s.mgmt.store = none →
      ∃ t : State, exec .restartHoldEnd s = .next t ∧
        t = { State.reset with
          retained := s.retained, pending := s.pending, retainedRead := true
          form := { FormationUnit.start with identity := settings.identity }
          tables := { TableStore.start with seat := { FamilyBanks.start with active := settings.seats } }
          mgmt := { ManagementUnit.start with cold := s.mgmt.cold, params := settings.params }
          reck := { ReckoningUnit.start with
            distanceInUse := settings.params.approachDistance, leadInUse := settings.params.approachLead
            freshness := settings.params.freshness }
          bus := { SeatBusEngine.start with dirty := enabledSlots settings.seats }
          faults := t.faults } ∧
        t.faults.uptime = 0 ∧
        (reports = [] →
          (s.retained ≠ none → t.faults.record = s.faults.record ∧ t.faults.count = s.faults.count) ∧
          (s.retained = none → s.faults.record = none → t.faults.count = 1 ∧
            t.faults.record = some { fault := .retainedInvalid, clock := none, uptime := 0 }) ∧
          (s.retained = none → s.faults.record ≠ none → t.faults.record = s.faults.record ∧
            t.faults.count = min 255 (s.faults.count + 1))) ∧
        (s.faults.legal →
          t.faults.count = min 255 (s.faults.count + reports.length + (if s.retained = none then 1 else 0)) ∧
          (∀ x, s.faults.record = some x → t.faults.record = some x) ∧
          (∀ r rest, s.faults.record = none → reports = r :: rest → t.faults.record = some (stamped r)) ∧
          (s.faults.record = none → reports = [] → t.faults.record =
            if s.retained = none then some { fault := .retainedInvalid, clock := none, uptime := 0 } else none))) ∧
    (s.mgmt.hold = none ∨ s.mgmt.store ≠ none → exec .restartHoldEnd s = .next s) ∧
    (s.powered = false ∨ s.line.relay = .opened → exec .startUpComplete s = .next s) ∧
    (s.powered = true → s.line.relay = .closed → s.retainedRead = false →
      ∃ t : State, exec .startUpComplete s = .next t ∧
        t = { s with
          retainedRead := true
          line := { relay := .opened, end1 := { s.line.end1 with link := .training }
                    end2 := { s.line.end2 with link := .training } }
          form := { s.form with identity := settings.identity }
          tables := { s.tables with seat := { s.tables.seat with active := settings.seats, tag := 0, count := 0 } }
          mgmt := { s.mgmt with params := settings.params }
          reck := { s.reck with
            distanceInUse := settings.params.approachDistance, leadInUse := settings.params.approachLead
            freshness := settings.params.freshness }
          faults := t.faults, bus := t.bus, notice := t.notice, announced := t.announced } ∧
        (s.retained ≠ none → t.faults = s.faults) ∧
        (s.retained = none → s.faults.record = none → t.faults.count = 1 ∧ t.faults.record =
          some { fault := .retainedInvalid, clock := none, uptime := s.faults.uptime }) ∧
        t.bus = SeatBusEngine.choose t { s.bus with dirty := enabledSlots settings.seats } ∧
        t.notice = (s.notice.settle t).unit ∧
        t.announced = s.announced ++ [.linkChangeReport .end1 .training, .linkChangeReport .end2 .training] ++
          (s.notice.settle t).said ∧
        (s.notice.queue = [] → s.notice.lines = .blank → s.mgmt.mode = .normal →
          t.notice = { s.notice with lines := .default } ∧
          t.announced = s.announced ++ [.linkChangeReport .end1 .training, .linkChangeReport .end2 .training])) ∧
    (s.powered = true → s.line.relay = .closed → s.retainedRead = true →
      ∃ t : State, exec .startUpComplete s = .next t ∧
        t = { s with
          line := { relay := .opened, end1 := { s.line.end1 with link := .training }
                    end2 := { s.line.end2 with link := .training } }
          bus := t.bus, notice := t.notice, announced := t.announced } ∧
        t.bus = s.bus.choose t ∧ t.notice = (s.notice.settle t).unit ∧
        t.announced = s.announced ++ [.linkChangeReport .end1 .training, .linkChangeReport .end2 .training] ++
          (s.notice.settle t).said ∧
        (s.notice.queue = [] → s.notice.lines = .blank → s.mgmt.mode = .normal →
          t.notice = { s.notice with lines := .default } ∧
          t.announced = s.announced ++ [.linkChangeReport .end1 .training, .linkChangeReport .end2 .training])))
end

