-- ==== Sys2Proof/Laws/State.lean ====
section
/-! SUPPORT. Each named update of the state, field by field. -/

namespace Sys2Proof.Machine

variable (s : State)

/-! ### State.announce -/

@[simp] theorem State.announce_announced (cs : List Instr) :
    (s.announce cs).announced = s.announced ++ cs := rfl

@[simp] theorem State.announce_powered (cs : List Instr) : (s.announce cs).powered = s.powered := rfl

@[simp] theorem State.announce_retainedRead (cs : List Instr) : (s.announce cs).retainedRead = s.retainedRead := rfl

@[simp] theorem State.announce_retained (cs : List Instr) : (s.announce cs).retained = s.retained := rfl

@[simp] theorem State.announce_line (cs : List Instr) : (s.announce cs).line = s.line := rfl

@[simp] theorem State.announce_form (cs : List Instr) : (s.announce cs).form = s.form := rfl

@[simp] theorem State.announce_tables (cs : List Instr) : (s.announce cs).tables = s.tables := rfl

@[simp] theorem State.announce_mgmt (cs : List Instr) : (s.announce cs).mgmt = s.mgmt := rfl

@[simp] theorem State.announce_faults (cs : List Instr) : (s.announce cs).faults = s.faults := rfl

@[simp] theorem State.announce_reck (cs : List Instr) : (s.announce cs).reck = s.reck := rfl

@[simp] theorem State.announce_resv (cs : List Instr) : (s.announce cs).resv = s.resv := rfl

@[simp] theorem State.announce_bus (cs : List Instr) : (s.announce cs).bus = s.bus := rfl

@[simp] theorem State.announce_notice (cs : List Instr) : (s.announce cs).notice = s.notice := rfl

@[simp] theorem State.announce_panels (cs : List Instr) : (s.announce cs).panels = s.panels := rfl

@[simp] theorem State.announce_pending (cs : List Instr) : (s.announce cs).pending = s.pending := rfl

/-! ### State.taken -/

@[simp] theorem State.taken_announced (c : Instr) :
    (s.taken c).announced = s.announced.erase c := rfl

@[simp] theorem State.taken_powered (c : Instr) : (s.taken c).powered = s.powered := rfl

@[simp] theorem State.taken_retainedRead (c : Instr) : (s.taken c).retainedRead = s.retainedRead := rfl

@[simp] theorem State.taken_retained (c : Instr) : (s.taken c).retained = s.retained := rfl

@[simp] theorem State.taken_line (c : Instr) : (s.taken c).line = s.line := rfl

@[simp] theorem State.taken_form (c : Instr) : (s.taken c).form = s.form := rfl

@[simp] theorem State.taken_tables (c : Instr) : (s.taken c).tables = s.tables := rfl

@[simp] theorem State.taken_mgmt (c : Instr) : (s.taken c).mgmt = s.mgmt := rfl

@[simp] theorem State.taken_faults (c : Instr) : (s.taken c).faults = s.faults := rfl

@[simp] theorem State.taken_reck (c : Instr) : (s.taken c).reck = s.reck := rfl

@[simp] theorem State.taken_resv (c : Instr) : (s.taken c).resv = s.resv := rfl

@[simp] theorem State.taken_bus (c : Instr) : (s.taken c).bus = s.bus := rfl

@[simp] theorem State.taken_notice (c : Instr) : (s.taken c).notice = s.notice := rfl

@[simp] theorem State.taken_panels (c : Instr) : (s.taken c).panels = s.panels := rfl

@[simp] theorem State.taken_pending (c : Instr) : (s.taken c).pending = s.pending := rfl

/-! ### State.changeLink -/

@[simp] theorem State.changeLink_line (p : Port) (link : LinkState) :
    (s.changeLink p link).line = s.line.mapPort p (fun q => { q with link := link }) := rfl

@[simp] theorem State.changeLink_announced (p : Port) (link : LinkState) :
    (s.changeLink p link).announced = s.announced ++ [.linkChangeReport p link] := rfl

@[simp] theorem State.changeLink_powered (p : Port) (link : LinkState) :
    (s.changeLink p link).powered = s.powered := rfl

@[simp] theorem State.changeLink_retainedRead (p : Port) (link : LinkState) :
    (s.changeLink p link).retainedRead = s.retainedRead := rfl

@[simp] theorem State.changeLink_retained (p : Port) (link : LinkState) :
    (s.changeLink p link).retained = s.retained := rfl

@[simp] theorem State.changeLink_form (p : Port) (link : LinkState) : (s.changeLink p link).form = s.form := rfl

@[simp] theorem State.changeLink_tables (p : Port) (link : LinkState) : (s.changeLink p link).tables = s.tables := rfl

@[simp] theorem State.changeLink_mgmt (p : Port) (link : LinkState) : (s.changeLink p link).mgmt = s.mgmt := rfl

@[simp] theorem State.changeLink_faults (p : Port) (link : LinkState) : (s.changeLink p link).faults = s.faults := rfl

@[simp] theorem State.changeLink_reck (p : Port) (link : LinkState) : (s.changeLink p link).reck = s.reck := rfl

@[simp] theorem State.changeLink_resv (p : Port) (link : LinkState) : (s.changeLink p link).resv = s.resv := rfl

@[simp] theorem State.changeLink_bus (p : Port) (link : LinkState) : (s.changeLink p link).bus = s.bus := rfl

@[simp] theorem State.changeLink_notice (p : Port) (link : LinkState) : (s.changeLink p link).notice = s.notice := rfl

@[simp] theorem State.changeLink_panels (p : Port) (link : LinkState) : (s.changeLink p link).panels = s.panels := rfl

@[simp] theorem State.changeLink_pending (p : Port) (link : LinkState) :
    (s.changeLink p link).pending = s.pending := rfl

/-! ### State.numberCoach -/

@[simp] theorem State.numberCoach_form (p : Port) (seq n : Byte) (k : Nat) :
    (s.numberCoach p seq n k).form =
      { s.form.numbered p k with lastInauguration := some n.toNat } := rfl

@[simp] theorem State.numberCoach_powered (p : Port) (seq n : Byte) (k : Nat) :
    (s.numberCoach p seq n k).powered = s.powered := rfl

@[simp] theorem State.numberCoach_retainedRead (p : Port) (seq n : Byte) (k : Nat) :
    (s.numberCoach p seq n k).retainedRead = s.retainedRead := rfl

@[simp] theorem State.numberCoach_retained (p : Port) (seq n : Byte) (k : Nat) :
    (s.numberCoach p seq n k).retained = s.retained := rfl

@[simp] theorem State.numberCoach_tables (p : Port) (seq n : Byte) (k : Nat) :
    (s.numberCoach p seq n k).tables = s.tables := rfl

@[simp] theorem State.numberCoach_mgmt (p : Port) (seq n : Byte) (k : Nat) :
    (s.numberCoach p seq n k).mgmt = s.mgmt := rfl

@[simp] theorem State.numberCoach_faults (p : Port) (seq n : Byte) (k : Nat) :
    (s.numberCoach p seq n k).faults = s.faults := rfl

@[simp] theorem State.numberCoach_reck (p : Port) (seq n : Byte) (k : Nat) :
    (s.numberCoach p seq n k).reck = s.reck := rfl

@[simp] theorem State.numberCoach_resv (p : Port) (seq n : Byte) (k : Nat) :
    (s.numberCoach p seq n k).resv = s.resv := rfl

@[simp] theorem State.numberCoach_bus (p : Port) (seq n : Byte) (k : Nat) :
    (s.numberCoach p seq n k).bus = s.bus := rfl

@[simp] theorem State.numberCoach_notice (p : Port) (seq n : Byte) (k : Nat) :
    (s.numberCoach p seq n k).notice = s.notice := rfl

@[simp] theorem State.numberCoach_panels (p : Port) (seq n : Byte) (k : Nat) :
    (s.numberCoach p seq n k).panels = s.panels := rfl

@[simp] theorem State.numberCoach_pending (p : Port) (seq n : Byte) (k : Nat) :
    (s.numberCoach p seq n k).pending = s.pending := rfl

/-! ### State.overlong -/

@[simp] theorem State.overlong_form (p : Port) (seq : Byte) :
    (s.overlong p seq).form = { s.form with numbering := .unnumbered } := rfl

@[simp] theorem State.overlong_powered (p : Port) (seq : Byte) : (s.overlong p seq).powered = s.powered := rfl

@[simp] theorem State.overlong_retainedRead (p : Port) (seq : Byte) :
    (s.overlong p seq).retainedRead = s.retainedRead := rfl

@[simp] theorem State.overlong_retained (p : Port) (seq : Byte) : (s.overlong p seq).retained = s.retained := rfl

@[simp] theorem State.overlong_tables (p : Port) (seq : Byte) : (s.overlong p seq).tables = s.tables := rfl

@[simp] theorem State.overlong_mgmt (p : Port) (seq : Byte) : (s.overlong p seq).mgmt = s.mgmt := rfl

@[simp] theorem State.overlong_faults (p : Port) (seq : Byte) : (s.overlong p seq).faults = s.faults := rfl

@[simp] theorem State.overlong_reck (p : Port) (seq : Byte) : (s.overlong p seq).reck = s.reck := rfl

@[simp] theorem State.overlong_resv (p : Port) (seq : Byte) : (s.overlong p seq).resv = s.resv := rfl

@[simp] theorem State.overlong_bus (p : Port) (seq : Byte) : (s.overlong p seq).bus = s.bus := rfl

@[simp] theorem State.overlong_notice (p : Port) (seq : Byte) : (s.overlong p seq).notice = s.notice := rfl

@[simp] theorem State.overlong_panels (p : Port) (seq : Byte) : (s.overlong p seq).panels = s.panels := rfl

@[simp] theorem State.overlong_pending (p : Port) (seq : Byte) : (s.overlong p seq).pending = s.pending := rfl

/-! ### State.setClock -/

@[simp] theorem State.setClock_reck (c : Clock) :
    (s.setClock c).reck = { s.reck with clock := c } := rfl

@[simp] theorem State.setClock_announced (c : Clock) :
    (s.setClock c).announced = s.announced ++ Clock.news s.reck.clock c := rfl

@[simp] theorem State.setClock_powered (c : Clock) : (s.setClock c).powered = s.powered := rfl

@[simp] theorem State.setClock_retainedRead (c : Clock) : (s.setClock c).retainedRead = s.retainedRead := rfl

@[simp] theorem State.setClock_retained (c : Clock) : (s.setClock c).retained = s.retained := rfl

@[simp] theorem State.setClock_line (c : Clock) : (s.setClock c).line = s.line := rfl

@[simp] theorem State.setClock_form (c : Clock) : (s.setClock c).form = s.form := rfl

@[simp] theorem State.setClock_tables (c : Clock) : (s.setClock c).tables = s.tables := rfl

@[simp] theorem State.setClock_mgmt (c : Clock) : (s.setClock c).mgmt = s.mgmt := rfl

@[simp] theorem State.setClock_faults (c : Clock) : (s.setClock c).faults = s.faults := rfl

@[simp] theorem State.setClock_resv (c : Clock) : (s.setClock c).resv = s.resv := rfl

@[simp] theorem State.setClock_bus (c : Clock) : (s.setClock c).bus = s.bus := rfl

@[simp] theorem State.setClock_notice (c : Clock) : (s.setClock c).notice = s.notice := rfl

@[simp] theorem State.setClock_panels (c : Clock) : (s.setClock c).panels = s.panels := rfl

@[simp] theorem State.setClock_pending (c : Clock) : (s.setClock c).pending = s.pending := rfl

/-! ### State.withResv -/

@[simp] theorem State.withResv_resv (d : Did ReservationUnit) :
    (s.withResv d).resv = d.unit := rfl

@[simp] theorem State.withResv_announced (d : Did ReservationUnit) :
    (s.withResv d).announced = s.announced ++ d.said := rfl

@[simp] theorem State.withResv_powered (d : Did ReservationUnit) : (s.withResv d).powered = s.powered := rfl

@[simp] theorem State.withResv_retainedRead (d : Did ReservationUnit) :
    (s.withResv d).retainedRead = s.retainedRead := rfl

@[simp] theorem State.withResv_retained (d : Did ReservationUnit) : (s.withResv d).retained = s.retained := rfl

@[simp] theorem State.withResv_line (d : Did ReservationUnit) : (s.withResv d).line = s.line := rfl

@[simp] theorem State.withResv_form (d : Did ReservationUnit) : (s.withResv d).form = s.form := rfl

@[simp] theorem State.withResv_tables (d : Did ReservationUnit) : (s.withResv d).tables = s.tables := rfl

@[simp] theorem State.withResv_mgmt (d : Did ReservationUnit) : (s.withResv d).mgmt = s.mgmt := rfl

@[simp] theorem State.withResv_faults (d : Did ReservationUnit) : (s.withResv d).faults = s.faults := rfl

@[simp] theorem State.withResv_reck (d : Did ReservationUnit) : (s.withResv d).reck = s.reck := rfl

@[simp] theorem State.withResv_bus (d : Did ReservationUnit) : (s.withResv d).bus = s.bus := rfl

@[simp] theorem State.withResv_notice (d : Did ReservationUnit) : (s.withResv d).notice = s.notice := rfl

@[simp] theorem State.withResv_panels (d : Did ReservationUnit) : (s.withResv d).panels = s.panels := rfl

@[simp] theorem State.withResv_pending (d : Did ReservationUnit) : (s.withResv d).pending = s.pending := rfl

/-! ### State.resolveSeats -/

@[simp] theorem State.resolveSeats_powered (run force : Bool) : (s.resolveSeats run force).powered = s.powered := rfl

@[simp] theorem State.resolveSeats_retainedRead (run force : Bool) :
    (s.resolveSeats run force).retainedRead = s.retainedRead := rfl

@[simp] theorem State.resolveSeats_retained (run force : Bool) :
    (s.resolveSeats run force).retained = s.retained := rfl

@[simp] theorem State.resolveSeats_line (run force : Bool) : (s.resolveSeats run force).line = s.line := rfl

@[simp] theorem State.resolveSeats_form (run force : Bool) : (s.resolveSeats run force).form = s.form := rfl

@[simp] theorem State.resolveSeats_tables (run force : Bool) : (s.resolveSeats run force).tables = s.tables := rfl

@[simp] theorem State.resolveSeats_mgmt (run force : Bool) : (s.resolveSeats run force).mgmt = s.mgmt := rfl

@[simp] theorem State.resolveSeats_faults (run force : Bool) : (s.resolveSeats run force).faults = s.faults := rfl

@[simp] theorem State.resolveSeats_reck (run force : Bool) : (s.resolveSeats run force).reck = s.reck := rfl

@[simp] theorem State.resolveSeats_bus (run force : Bool) : (s.resolveSeats run force).bus = s.bus := rfl

@[simp] theorem State.resolveSeats_notice (run force : Bool) : (s.resolveSeats run force).notice = s.notice := rfl

@[simp] theorem State.resolveSeats_panels (run force : Bool) : (s.resolveSeats run force).panels = s.panels := rfl

@[simp] theorem State.resolveSeats_pending (run force : Bool) : (s.resolveSeats run force).pending = s.pending := rfl

/-! ### State.withBus -/

@[simp] theorem State.withBus_bus (d : Did SeatBusEngine) :
    (s.withBus d).bus = d.unit.choose s := rfl

@[simp] theorem State.withBus_announced (d : Did SeatBusEngine) :
    (s.withBus d).announced = s.announced ++ d.said := rfl

@[simp] theorem State.withBus_powered (d : Did SeatBusEngine) : (s.withBus d).powered = s.powered := rfl

@[simp] theorem State.withBus_retainedRead (d : Did SeatBusEngine) :
    (s.withBus d).retainedRead = s.retainedRead := rfl

@[simp] theorem State.withBus_retained (d : Did SeatBusEngine) : (s.withBus d).retained = s.retained := rfl

@[simp] theorem State.withBus_line (d : Did SeatBusEngine) : (s.withBus d).line = s.line := rfl

@[simp] theorem State.withBus_form (d : Did SeatBusEngine) : (s.withBus d).form = s.form := rfl

@[simp] theorem State.withBus_tables (d : Did SeatBusEngine) : (s.withBus d).tables = s.tables := rfl

@[simp] theorem State.withBus_mgmt (d : Did SeatBusEngine) : (s.withBus d).mgmt = s.mgmt := rfl

@[simp] theorem State.withBus_faults (d : Did SeatBusEngine) : (s.withBus d).faults = s.faults := rfl

@[simp] theorem State.withBus_reck (d : Did SeatBusEngine) : (s.withBus d).reck = s.reck := rfl

@[simp] theorem State.withBus_resv (d : Did SeatBusEngine) : (s.withBus d).resv = s.resv := rfl

@[simp] theorem State.withBus_notice (d : Did SeatBusEngine) : (s.withBus d).notice = s.notice := rfl

@[simp] theorem State.withBus_panels (d : Did SeatBusEngine) : (s.withBus d).panels = s.panels := rfl

@[simp] theorem State.withBus_pending (d : Did SeatBusEngine) : (s.withBus d).pending = s.pending := rfl

/-! ### State.withNotice -/

@[simp] theorem State.withNotice_notice (d : Did NoticeUnit) :
    (s.withNotice d).notice = d.unit := rfl

@[simp] theorem State.withNotice_announced (d : Did NoticeUnit) :
    (s.withNotice d).announced = s.announced ++ d.said := rfl

@[simp] theorem State.withNotice_powered (d : Did NoticeUnit) : (s.withNotice d).powered = s.powered := rfl

@[simp] theorem State.withNotice_retainedRead (d : Did NoticeUnit) :
    (s.withNotice d).retainedRead = s.retainedRead := rfl

@[simp] theorem State.withNotice_retained (d : Did NoticeUnit) : (s.withNotice d).retained = s.retained := rfl

@[simp] theorem State.withNotice_line (d : Did NoticeUnit) : (s.withNotice d).line = s.line := rfl

@[simp] theorem State.withNotice_form (d : Did NoticeUnit) : (s.withNotice d).form = s.form := rfl

@[simp] theorem State.withNotice_tables (d : Did NoticeUnit) : (s.withNotice d).tables = s.tables := rfl

@[simp] theorem State.withNotice_mgmt (d : Did NoticeUnit) : (s.withNotice d).mgmt = s.mgmt := rfl

@[simp] theorem State.withNotice_faults (d : Did NoticeUnit) : (s.withNotice d).faults = s.faults := rfl

@[simp] theorem State.withNotice_reck (d : Did NoticeUnit) : (s.withNotice d).reck = s.reck := rfl

@[simp] theorem State.withNotice_resv (d : Did NoticeUnit) : (s.withNotice d).resv = s.resv := rfl

@[simp] theorem State.withNotice_bus (d : Did NoticeUnit) : (s.withNotice d).bus = s.bus := rfl

@[simp] theorem State.withNotice_panels (d : Did NoticeUnit) : (s.withNotice d).panels = s.panels := rfl

@[simp] theorem State.withNotice_pending (d : Did NoticeUnit) : (s.withNotice d).pending = s.pending := rfl

/-! ### State.reply -/

@[simp] theorem State.reply_line (p : Port) (seq code : Byte) (r : Result) (d : ReplyData) :
    (s.reply p seq code r d).line =
      s.line.offer (s.form.replyPort p) (s.form.toLead 8 seq (.reply code r.code d)) := rfl

@[simp] theorem State.reply_powered (p : Port) (seq code : Byte) (r : Result) (d : ReplyData) :
    (s.reply p seq code r d).powered = s.powered := rfl

@[simp] theorem State.reply_retainedRead (p : Port) (seq code : Byte) (r : Result) (d : ReplyData) :
    (s.reply p seq code r d).retainedRead = s.retainedRead := rfl

@[simp] theorem State.reply_retained (p : Port) (seq code : Byte) (r : Result) (d : ReplyData) :
    (s.reply p seq code r d).retained = s.retained := rfl

@[simp] theorem State.reply_form (p : Port) (seq code : Byte) (r : Result) (d : ReplyData) :
    (s.reply p seq code r d).form = s.form := rfl

@[simp] theorem State.reply_tables (p : Port) (seq code : Byte) (r : Result) (d : ReplyData) :
    (s.reply p seq code r d).tables = s.tables := rfl

@[simp] theorem State.reply_mgmt (p : Port) (seq code : Byte) (r : Result) (d : ReplyData) :
    (s.reply p seq code r d).mgmt = s.mgmt := rfl

@[simp] theorem State.reply_faults (p : Port) (seq code : Byte) (r : Result) (d : ReplyData) :
    (s.reply p seq code r d).faults = s.faults := rfl

@[simp] theorem State.reply_reck (p : Port) (seq code : Byte) (r : Result) (d : ReplyData) :
    (s.reply p seq code r d).reck = s.reck := rfl

@[simp] theorem State.reply_resv (p : Port) (seq code : Byte) (r : Result) (d : ReplyData) :
    (s.reply p seq code r d).resv = s.resv := rfl

@[simp] theorem State.reply_bus (p : Port) (seq code : Byte) (r : Result) (d : ReplyData) :
    (s.reply p seq code r d).bus = s.bus := rfl

@[simp] theorem State.reply_notice (p : Port) (seq code : Byte) (r : Result) (d : ReplyData) :
    (s.reply p seq code r d).notice = s.notice := rfl

@[simp] theorem State.reply_panels (p : Port) (seq code : Byte) (r : Result) (d : ReplyData) :
    (s.reply p seq code r d).panels = s.panels := rfl

@[simp] theorem State.reply_announced (p : Port) (seq code : Byte) (r : Result) (d : ReplyData) :
    (s.reply p seq code r d).announced = s.announced := rfl

@[simp] theorem State.reply_pending (p : Port) (seq code : Byte) (r : Result) (d : ReplyData) :
    (s.reply p seq code r d).pending = s.pending := rfl

/-! ### State.noContext -/

@[simp] theorem State.noContext_mgmt :
    s.noContext.mgmt = { s.mgmt with context := none } := rfl

@[simp] theorem State.noContext_powered : s.noContext.powered = s.powered := rfl

@[simp] theorem State.noContext_retainedRead : s.noContext.retainedRead = s.retainedRead := rfl

@[simp] theorem State.noContext_retained : s.noContext.retained = s.retained := rfl

@[simp] theorem State.noContext_line : s.noContext.line = s.line := rfl

@[simp] theorem State.noContext_form : s.noContext.form = s.form := rfl

@[simp] theorem State.noContext_tables : s.noContext.tables = s.tables := rfl

@[simp] theorem State.noContext_faults : s.noContext.faults = s.faults := rfl

@[simp] theorem State.noContext_reck : s.noContext.reck = s.reck := rfl

@[simp] theorem State.noContext_resv : s.noContext.resv = s.resv := rfl

@[simp] theorem State.noContext_bus : s.noContext.bus = s.bus := rfl

@[simp] theorem State.noContext_notice : s.noContext.notice = s.notice := rfl

@[simp] theorem State.noContext_panels : s.noContext.panels = s.panels := rfl

@[simp] theorem State.noContext_announced : s.noContext.announced = s.announced := rfl

@[simp] theorem State.noContext_pending : s.noContext.pending = s.pending := rfl

/-! ### State.activate -/

@[simp] theorem State.activate_mgmt (c : PendingCommit) :
    (s.activate c).mgmt = { s.mgmt with commit := none } := rfl

@[simp] theorem State.activate_announced (c : PendingCommit) :
    (s.activate c).announced = s.announced ++ activationSays c.families := rfl

@[simp] theorem State.activate_powered (c : PendingCommit) : (s.activate c).powered = s.powered := rfl

@[simp] theorem State.activate_retainedRead (c : PendingCommit) : (s.activate c).retainedRead = s.retainedRead := rfl

@[simp] theorem State.activate_retained (c : PendingCommit) : (s.activate c).retained = s.retained := rfl

@[simp] theorem State.activate_line (c : PendingCommit) : (s.activate c).line = s.line := rfl

@[simp] theorem State.activate_form (c : PendingCommit) : (s.activate c).form = s.form := rfl

@[simp] theorem State.activate_faults (c : PendingCommit) : (s.activate c).faults = s.faults := rfl

@[simp] theorem State.activate_reck (c : PendingCommit) : (s.activate c).reck = s.reck := rfl

@[simp] theorem State.activate_resv (c : PendingCommit) : (s.activate c).resv = s.resv := rfl

@[simp] theorem State.activate_bus (c : PendingCommit) : (s.activate c).bus = s.bus := rfl

@[simp] theorem State.activate_notice (c : PendingCommit) : (s.activate c).notice = s.notice := rfl

@[simp] theorem State.activate_panels (c : PendingCommit) : (s.activate c).panels = s.panels := rfl

@[simp] theorem State.activate_pending (c : PendingCommit) : (s.activate c).pending = s.pending := rfl

/-! ### State.accept -/

@[simp] theorem State.accept_powered (c : PendingCommit) :
    (s.accept c).powered = s.powered := by unfold State.accept; dsimp only; split <;> rfl

@[simp] theorem State.accept_retainedRead (c : PendingCommit) :
    (s.accept c).retainedRead = s.retainedRead := by unfold State.accept; dsimp only; split <;> rfl

@[simp] theorem State.accept_retained (c : PendingCommit) :
    (s.accept c).retained = s.retained := by unfold State.accept; dsimp only; split <;> rfl

@[simp] theorem State.accept_line (c : PendingCommit) :
    (s.accept c).line = s.line := by unfold State.accept; dsimp only; split <;> rfl

@[simp] theorem State.accept_form (c : PendingCommit) :
    (s.accept c).form = s.form := by unfold State.accept; dsimp only; split <;> rfl

@[simp] theorem State.accept_faults (c : PendingCommit) :
    (s.accept c).faults = s.faults := by unfold State.accept; dsimp only; split <;> rfl

@[simp] theorem State.accept_reck (c : PendingCommit) :
    (s.accept c).reck = s.reck := by unfold State.accept; dsimp only; split <;> rfl

@[simp] theorem State.accept_resv (c : PendingCommit) :
    (s.accept c).resv = s.resv := by unfold State.accept; dsimp only; split <;> rfl

@[simp] theorem State.accept_bus (c : PendingCommit) :
    (s.accept c).bus = s.bus := by unfold State.accept; dsimp only; split <;> rfl

@[simp] theorem State.accept_notice (c : PendingCommit) :
    (s.accept c).notice = s.notice := by unfold State.accept; dsimp only; split <;> rfl

@[simp] theorem State.accept_panels (c : PendingCommit) :
    (s.accept c).panels = s.panels := by unfold State.accept; dsimp only; split <;> rfl

@[simp] theorem State.accept_pending (c : PendingCommit) :
    (s.accept c).pending = s.pending := by unfold State.accept; dsimp only; split <;> rfl

/-! ### State.setMode -/

@[simp] theorem State.setMode_powered (m : Mode) :
    (s.setMode m).powered = s.powered := by unfold State.setMode; split <;> rfl

@[simp] theorem State.setMode_retainedRead (m : Mode) :
    (s.setMode m).retainedRead = s.retainedRead := by unfold State.setMode; split <;> rfl

@[simp] theorem State.setMode_retained (m : Mode) :
    (s.setMode m).retained = s.retained := by unfold State.setMode; split <;> rfl

@[simp] theorem State.setMode_line (m : Mode) : (s.setMode m).line = s.line := by unfold State.setMode; split <;> rfl

@[simp] theorem State.setMode_form (m : Mode) : (s.setMode m).form = s.form := by unfold State.setMode; split <;> rfl

@[simp] theorem State.setMode_tables (m : Mode) :
    (s.setMode m).tables = s.tables := by unfold State.setMode; split <;> rfl

@[simp] theorem State.setMode_faults (m : Mode) :
    (s.setMode m).faults = s.faults := by unfold State.setMode; split <;> rfl

@[simp] theorem State.setMode_reck (m : Mode) : (s.setMode m).reck = s.reck := by unfold State.setMode; split <;> rfl

@[simp] theorem State.setMode_resv (m : Mode) : (s.setMode m).resv = s.resv := by unfold State.setMode; split <;> rfl

@[simp] theorem State.setMode_bus (m : Mode) : (s.setMode m).bus = s.bus := by unfold State.setMode; split <;> rfl

@[simp] theorem State.setMode_notice (m : Mode) :
    (s.setMode m).notice = s.notice := by unfold State.setMode; split <;> rfl

@[simp] theorem State.setMode_panels (m : Mode) :
    (s.setMode m).panels = s.panels := by unfold State.setMode; split <;> rfl

@[simp] theorem State.setMode_pending (m : Mode) :
    (s.setMode m).pending = s.pending := by unfold State.setMode; split <;> rfl

/-! ### State.clearCounters -/

@[simp] theorem State.clearCounters_powered : s.clearCounters.powered = s.powered := rfl

@[simp] theorem State.clearCounters_retainedRead : s.clearCounters.retainedRead = s.retainedRead := rfl

@[simp] theorem State.clearCounters_retained : s.clearCounters.retained = s.retained := rfl

@[simp] theorem State.clearCounters_form : s.clearCounters.form = s.form := rfl

@[simp] theorem State.clearCounters_tables : s.clearCounters.tables = s.tables := rfl

@[simp] theorem State.clearCounters_mgmt : s.clearCounters.mgmt = s.mgmt := rfl

@[simp] theorem State.clearCounters_faults : s.clearCounters.faults = s.faults := rfl

@[simp] theorem State.clearCounters_reck : s.clearCounters.reck = s.reck := rfl

@[simp] theorem State.clearCounters_resv : s.clearCounters.resv = s.resv := rfl

@[simp] theorem State.clearCounters_bus : s.clearCounters.bus = s.bus := rfl

@[simp] theorem State.clearCounters_panels : s.clearCounters.panels = s.panels := rfl

@[simp] theorem State.clearCounters_announced : s.clearCounters.announced = s.announced := rfl

@[simp] theorem State.clearCounters_pending : s.clearCounters.pending = s.pending := rfl

/-! ### State.cancelStop -/

@[simp] theorem State.cancelStop_powered (o : Nat) (flag : Bool) : (s.cancelStop o flag).powered = s.powered := rfl

@[simp] theorem State.cancelStop_retainedRead (o : Nat) (flag : Bool) :
    (s.cancelStop o flag).retainedRead = s.retainedRead := rfl

@[simp] theorem State.cancelStop_retained (o : Nat) (flag : Bool) : (s.cancelStop o flag).retained = s.retained := rfl

@[simp] theorem State.cancelStop_line (o : Nat) (flag : Bool) : (s.cancelStop o flag).line = s.line := rfl

@[simp] theorem State.cancelStop_form (o : Nat) (flag : Bool) : (s.cancelStop o flag).form = s.form := rfl

@[simp] theorem State.cancelStop_mgmt (o : Nat) (flag : Bool) : (s.cancelStop o flag).mgmt = s.mgmt := rfl

@[simp] theorem State.cancelStop_faults (o : Nat) (flag : Bool) : (s.cancelStop o flag).faults = s.faults := rfl

@[simp] theorem State.cancelStop_resv (o : Nat) (flag : Bool) : (s.cancelStop o flag).resv = s.resv := rfl

@[simp] theorem State.cancelStop_bus (o : Nat) (flag : Bool) : (s.cancelStop o flag).bus = s.bus := rfl

@[simp] theorem State.cancelStop_notice (o : Nat) (flag : Bool) : (s.cancelStop o flag).notice = s.notice := rfl

@[simp] theorem State.cancelStop_panels (o : Nat) (flag : Bool) : (s.cancelStop o flag).panels = s.panels := rfl

@[simp] theorem State.cancelStop_pending (o : Nat) (flag : Bool) : (s.cancelStop o flag).pending = s.pending := rfl

/-! ### State.withSettings -/

@[simp] theorem State.withSettings_powered (r : RetainedSet) : (s.withSettings r).powered = s.powered := rfl

@[simp] theorem State.withSettings_retained (r : RetainedSet) : (s.withSettings r).retained = s.retained := rfl

@[simp] theorem State.withSettings_line (r : RetainedSet) : (s.withSettings r).line = s.line := rfl

@[simp] theorem State.withSettings_faults (r : RetainedSet) : (s.withSettings r).faults = s.faults := rfl

@[simp] theorem State.withSettings_resv (r : RetainedSet) : (s.withSettings r).resv = s.resv := rfl

@[simp] theorem State.withSettings_notice (r : RetainedSet) : (s.withSettings r).notice = s.notice := rfl

@[simp] theorem State.withSettings_panels (r : RetainedSet) : (s.withSettings r).panels = s.panels := rfl

@[simp] theorem State.withSettings_announced (r : RetainedSet) : (s.withSettings r).announced = s.announced := rfl

@[simp] theorem State.withSettings_pending (r : RetainedSet) : (s.withSettings r).pending = s.pending := rfl

/-! ### State.readRetained -/

@[simp] theorem State.readRetained_powered :
    s.readRetained.powered = s.powered := by unfold State.readRetained; split <;> rfl

@[simp] theorem State.readRetained_retained :
    s.readRetained.retained = s.retained := by unfold State.readRetained; split <;> rfl

@[simp] theorem State.readRetained_line : s.readRetained.line = s.line := by unfold State.readRetained; split <;> rfl

@[simp] theorem State.readRetained_resv : s.readRetained.resv = s.resv := by unfold State.readRetained; split <;> rfl

@[simp] theorem State.readRetained_notice :
    s.readRetained.notice = s.notice := by unfold State.readRetained; split <;> rfl

@[simp] theorem State.readRetained_panels :
    s.readRetained.panels = s.panels := by unfold State.readRetained; split <;> rfl

@[simp] theorem State.readRetained_announced :
    s.readRetained.announced = s.announced := by unfold State.readRetained; split <;> rfl

@[simp] theorem State.readRetained_pending :
    s.readRetained.pending = s.pending := by unfold State.readRetained; split <;> rfl

/-! ### State.tickClockwork -/

@[simp] theorem State.tickClockwork_faults :
    s.tickClockwork.faults = { s.faults with uptime := saturate 4294967295 s.faults.uptime 1 } := rfl

@[simp] theorem State.tickClockwork_reck :
    s.tickClockwork.reck = (s.reck.tick s.tables.asReckoned).unit := rfl

@[simp] theorem State.tickClockwork_powered : s.tickClockwork.powered = s.powered := rfl

@[simp] theorem State.tickClockwork_retainedRead : s.tickClockwork.retainedRead = s.retainedRead := rfl

@[simp] theorem State.tickClockwork_retained : s.tickClockwork.retained = s.retained := rfl

@[simp] theorem State.tickClockwork_line : s.tickClockwork.line = s.line := rfl

@[simp] theorem State.tickClockwork_form : s.tickClockwork.form = s.form := rfl

@[simp] theorem State.tickClockwork_tables : s.tickClockwork.tables = s.tables := rfl

@[simp] theorem State.tickClockwork_mgmt : s.tickClockwork.mgmt = s.mgmt := rfl

@[simp] theorem State.tickClockwork_resv : s.tickClockwork.resv = s.resv := rfl

@[simp] theorem State.tickClockwork_bus : s.tickClockwork.bus = s.bus := rfl

@[simp] theorem State.tickClockwork_notice : s.tickClockwork.notice = s.notice := rfl

@[simp] theorem State.tickClockwork_panels : s.tickClockwork.panels = s.panels := rfl

@[simp] theorem State.tickClockwork_pending : s.tickClockwork.pending = s.pending := rfl

/-! ### State.tickBus -/

@[simp] theorem State.tickBus_bus :
    s.tickBus.bus = if s.bus.tick.2 then s.bus.tick.1.choose s else s.bus.tick.1 := rfl

@[simp] theorem State.tickBus_powered : s.tickBus.powered = s.powered := rfl

@[simp] theorem State.tickBus_retainedRead : s.tickBus.retainedRead = s.retainedRead := rfl

@[simp] theorem State.tickBus_retained : s.tickBus.retained = s.retained := rfl

@[simp] theorem State.tickBus_line : s.tickBus.line = s.line := rfl

@[simp] theorem State.tickBus_form : s.tickBus.form = s.form := rfl

@[simp] theorem State.tickBus_tables : s.tickBus.tables = s.tables := rfl

@[simp] theorem State.tickBus_mgmt : s.tickBus.mgmt = s.mgmt := rfl

@[simp] theorem State.tickBus_faults : s.tickBus.faults = s.faults := rfl

@[simp] theorem State.tickBus_reck : s.tickBus.reck = s.reck := rfl

@[simp] theorem State.tickBus_resv : s.tickBus.resv = s.resv := rfl

@[simp] theorem State.tickBus_notice : s.tickBus.notice = s.notice := rfl

@[simp] theorem State.tickBus_panels : s.tickBus.panels = s.panels := rfl

@[simp] theorem State.tickBus_announced : s.tickBus.announced = s.announced := rfl

@[simp] theorem State.tickBus_pending : s.tickBus.pending = s.pending := rfl

/-! ### The tables while an activation is not yet taken -/

@[simp] theorem TableStore.asReckoned_none (t : TableStore) (h : t.replacedRoute = none) : t.asReckoned = t := by
  simp [TableStore.asReckoned, h]

/-- The unit reads the entries it has not yet been told to leave (R99). -/
@[simp] theorem TableStore.asReckoned_active (t : TableStore) :
    t.asReckoned.route.active = (t.replacedRoute.map RouteTable.entries).getD t.route.active := by
  unfold TableStore.asReckoned; cases t.replacedRoute <;> rfl

@[simp] theorem TableStore.asReckoned_cancelled (t : TableStore) :
    t.asReckoned.cancelled = (t.replacedRoute.map RouteTable.cancelled).getD t.cancelled := by
  unfold TableStore.asReckoned; cases t.replacedRoute <;> rfl

@[simp] theorem TableStore.asReckoned_text (t : TableStore) : t.asReckoned.text = t.text := by
  unfold TableStore.asReckoned; split <;> rfl

/-- The flags written are the flags read. -/
@[simp] theorem TableStore.setCancelled_asReckoned (t : TableStore) (flags : List Nat) :
    (t.setCancelled flags).asReckoned = { t.asReckoned with
      replacedRoute := (t.setCancelled flags).replacedRoute, cancelled := flags } := by
  unfold TableStore.setCancelled TableStore.asReckoned; cases h : t.replacedRoute <;> rfl

@[simp] theorem TableStore.setCancelled_route (t : TableStore) (flags : List Nat) :
    (t.setCancelled flags).route = t.route := by unfold TableStore.setCancelled; split <;> rfl

@[simp] theorem TableStore.setCancelled_resv (t : TableStore) (flags : List Nat) :
    (t.setCancelled flags).resv = t.resv := by unfold TableStore.setCancelled; split <;> rfl

@[simp] theorem TableStore.setCancelled_seat (t : TableStore) (flags : List Nat) :
    (t.setCancelled flags).seat = t.seat := by unfold TableStore.setCancelled; split <;> rfl

@[simp] theorem TableStore.setCancelled_text (t : TableStore) (flags : List Nat) :
    (t.setCancelled flags).text = t.text := by unfold TableStore.setCancelled; split <;> rfl

@[simp] theorem TableStore.setCancelled_page (t : TableStore) (flags : List Nat) :
    (t.setCancelled flags).page = t.page := by unfold TableStore.setCancelled; split <;> rfl

/-! ### State.restarted: every volatile item at its value after restart (R192) -/

@[simp] theorem State.restarted_powered : s.restarted.powered = true := rfl

@[simp] theorem State.restarted_retainedRead : s.restarted.retainedRead = false := rfl

@[simp] theorem State.restarted_retained : s.restarted.retained = s.retained := rfl

@[simp] theorem State.restarted_line : s.restarted.line = State.reset.line := rfl

@[simp] theorem State.restarted_form : s.restarted.form = .start := rfl

@[simp] theorem State.restarted_tables : s.restarted.tables = .start := rfl

@[simp] theorem State.restarted_mgmt : s.restarted.mgmt = { ManagementUnit.start with cold := s.mgmt.cold } := rfl

@[simp] theorem State.restarted_faults : s.restarted.faults = { s.settledFaults with uptime := 0 } := rfl

@[simp] theorem State.restarted_reck : s.restarted.reck = .start := rfl

@[simp] theorem State.restarted_resv : s.restarted.resv = .start := rfl

@[simp] theorem State.restarted_bus : s.restarted.bus = .start := rfl

@[simp] theorem State.restarted_notice : s.restarted.notice = .start := rfl

@[simp] theorem State.restarted_panels : s.restarted.panels = .start := rfl

@[simp] theorem State.restarted_announced : s.restarted.announced = [] := rfl

@[simp] theorem State.restarted_pending : s.restarted.pending = s.pending := rfl

end Sys2Proof.Machine
end

