-- ==== Sys2Proof/Laws/Frames.lean ====
section
/-! SUPPORT. What each command leaves unchanged: one lemma for each meaning, over the parts of the state that the command
never writes. Later proofs cite these and unfold no meaning. -/

namespace Sys2Proof.Machine

variable {s t : State}

@[simp] theorem refuse_after (s : State) (r : Result) : (refuse s r).after = s := rfl

@[simp] theorem refuse_result (s : State) (r : Result) : (refuse s r).result = r := rfl

@[simp] theorem refuse_data (s : State) (r : Result) : (refuse s r).data = .none := rfl

/-- A management command ends in one reply, to its own meaning or to the refusal of a common check (R42, R43). -/
theorem runCommand_next {code : Nat} {f : MgmtFrame} {onRefuse : Result → Answer} {body : Answer} {mode : Mode}
    (h : runCommand code f onRefuse body mode = .next t) :
    ∃ a : Answer, (a = body ∨ ∃ r, a = onRefuse r) ∧
      t = a.after.reply f.port f.seq (BitVec.ofNat 8 code) a.result a.data := by
  unfold runCommand at h
  split at h
  · rename_i r _; exact ⟨onRefuse r, .inr ⟨r, rfl⟩, by simpa [Answer.send] using h.symm⟩
  · exact ⟨body, .inl rfl, by simpa [Answer.send] using h.symm⟩

/-- What a management command keeps: what its meaning and its refusals keep, where the reply keeps it too. -/
theorem runCommand_keeps {P : State → Prop} {code : Nat} {f : MgmtFrame} {onRefuse : Result → Answer} {body : Answer}
    {mode : Mode} (h : runCommand code f onRefuse body mode = .next t)
    (hreply : ∀ a p q c r d, P a → P (a.reply p q c r d)) (hbody : P body.after) (hrefuse : ∀ r, P (onRefuse r).after) :
    P t := by
  obtain ⟨a, ha, rfl⟩ := runCommand_next h
  rcases ha with rfl | ⟨r, rfl⟩
  · exact hreply _ _ _ _ _ _ hbody
  · exact hreply _ _ _ _ _ _ (hrefuse r)

/-- A management command always answers a next state. -/
theorem runCommand_completes (code : Nat) (f : MgmtFrame) (onRefuse : Result → Answer) (body : Answer) (mode : Mode) :
    ∃ t, runCommand code f onRefuse body mode = .next t := by
  unfold runCommand
  split <;> exact ⟨_, rfl⟩

/-- The Panel Composer takes its announcements once the relay is open, and nothing before (R187). -/
theorem withPanels_next {c : Instr} {g : State → PanelComposer → PanelComposer} (h : s.withPanels c g = .next t) :
    (s.line.relay = .opened ∧ t = { s.taken c with panels := g s s.panels }) ∨
      (s.line.relay ≠ .opened ∧ t = s.taken c) := by
  unfold State.withPanels at h
  dsimp only at h
  split at h
  · rename_i hr; cases h; exact .inl ⟨hr, rfl⟩
  · rename_i hr; cases h; exact .inr ⟨hr, rfl⟩

theorem execPowerOn_frame (h : execPowerOn s = .next t) :
    t.retained = s.retained ∧ t.pending = s.pending := by
  unfold execPowerOn at h
  try dsimp only at h
  all_goals (cases h; simp)

theorem execPowerLoss_frame (h : execPowerLoss s = .next t) :
    t.pending = s.pending := by
  unfold execPowerLoss at h
  try dsimp only at h
  repeat' split at h
  all_goals (cases h; simp)

theorem execStartUpComplete_frame (h : execStartUpComplete s = .next t) :
    t.powered = s.powered ∧ t.retained = s.retained ∧ t.resv = s.resv ∧ t.panels = s.panels ∧ t.pending = s.pending := by
  unfold execStartUpComplete at h
  try dsimp only at h
  repeat' split at h
  all_goals (cases h; simp)

theorem execNeighbourSignalAppears_frame {p : Port} (h : execNeighbourSignalAppears p s = .next t) :
    t.powered = s.powered ∧ t.retainedRead = s.retainedRead ∧ t.retained = s.retained ∧ t.form = s.form ∧
      t.tables = s.tables ∧ t.mgmt = s.mgmt ∧ t.faults = s.faults ∧ t.reck = s.reck ∧ t.resv = s.resv ∧
      t.bus = s.bus ∧ t.notice = s.notice ∧ t.panels = s.panels ∧ t.pending = s.pending := by
  unfold execNeighbourSignalAppears at h
  try dsimp only at h
  repeat' split at h
  all_goals (cases h; simp)

theorem execTrainingCompletes_frame {p : Port} (h : execTrainingCompletes p s = .next t) :
    t.powered = s.powered ∧ t.retainedRead = s.retainedRead ∧ t.retained = s.retained ∧ t.form = s.form ∧
      t.tables = s.tables ∧ t.mgmt = s.mgmt ∧ t.faults = s.faults ∧ t.reck = s.reck ∧ t.resv = s.resv ∧
      t.bus = s.bus ∧ t.notice = s.notice ∧ t.panels = s.panels ∧ t.pending = s.pending := by
  unfold execTrainingCompletes at h
  try dsimp only at h
  repeat' split at h
  all_goals (cases h; simp)

theorem execLossOfSignal_frame {p : Port} (h : execLossOfSignal p s = .next t) :
    t.powered = s.powered ∧ t.retainedRead = s.retainedRead ∧ t.retained = s.retained ∧ t.form = s.form ∧
      t.tables = s.tables ∧ t.mgmt = s.mgmt ∧ t.faults = s.faults ∧ t.reck = s.reck ∧ t.resv = s.resv ∧
      t.bus = s.bus ∧ t.notice = s.notice ∧ t.panels = s.panels ∧ t.pending = s.pending := by
  unfold execLossOfSignal at h
  try dsimp only at h
  repeat' split at h
  all_goals (cases h; simp)

theorem execLinkChangeReport_frame {p : Port} {link : LinkState} (h : execLinkChangeReport p link s = .next t) :
    t.powered = s.powered ∧ t.retainedRead = s.retainedRead ∧ t.retained = s.retained ∧ t.tables = s.tables ∧
      t.mgmt = s.mgmt ∧ t.faults = s.faults ∧ t.reck = s.reck ∧ t.resv = s.resv ∧ t.bus = s.bus ∧
      t.notice = s.notice ∧ t.panels = s.panels ∧ t.pending = s.pending := by
  unfold execLinkChangeReport at h
  try dsimp only at h
  all_goals (cases h; simp)

theorem execFrameArrival_frame {p : Port} {bytes : List Byte} (h : execFrameArrival p bytes s = .next t) :
    t.powered = s.powered ∧ t.retainedRead = s.retainedRead ∧ t.retained = s.retained ∧ t.form = s.form ∧
      t.tables = s.tables ∧ t.mgmt = s.mgmt ∧ t.faults = s.faults ∧ t.reck = s.reck ∧ t.resv = s.resv ∧
      t.bus = s.bus ∧ t.notice = s.notice ∧ t.panels = s.panels ∧ t.pending = s.pending := by
  unfold execFrameArrival at h
  try dsimp only at h
  repeat' split at h
  all_goals (cases h; simp)

theorem execTransmissionEnd_frame {p : Port} (h : execTransmissionEnd p s = .next t) :
    t.powered = s.powered ∧ t.retainedRead = s.retainedRead ∧ t.retained = s.retained ∧ t.form = s.form ∧
      t.tables = s.tables ∧ t.mgmt = s.mgmt ∧ t.faults = s.faults ∧ t.reck = s.reck ∧ t.resv = s.resv ∧
      t.bus = s.bus ∧ t.notice = s.notice ∧ t.panels = s.panels ∧ t.announced = s.announced ∧ t.pending = s.pending := by
  unfold execTransmissionEnd at h
  try dsimp only at h
  repeat' split at h
  all_goals (cases h; simp)

theorem execEnumerate_frame {p : Port} {seq : Byte} {payload : List Byte}
    (h : execEnumerate p seq payload s = .next t) :
    t.powered = s.powered ∧ t.retainedRead = s.retainedRead ∧ t.retained = s.retained ∧ t.tables = s.tables ∧
      t.mgmt = s.mgmt ∧ t.faults = s.faults ∧ t.reck = s.reck ∧ t.resv = s.resv ∧ t.bus = s.bus ∧
      t.notice = s.notice ∧ t.panels = s.panels ∧ t.pending = s.pending := by
  unfold execEnumerate at h
  try dsimp only at h
  repeat' split at h
  all_goals (cases h; simp)

theorem execNewInauguration_frame (h : execNewInauguration s = .next t) :
    t.powered = s.powered ∧ t.retainedRead = s.retainedRead ∧ t.retained = s.retained ∧ t.line = s.line ∧
      t.form = s.form ∧ t.faults = s.faults ∧ t.reck = s.reck ∧ t.resv = s.resv ∧ t.bus = s.bus ∧
      t.notice = s.notice ∧ t.panels = s.panels ∧ t.pending = s.pending := by
  unfold execNewInauguration at h
  try dsimp only at h
  repeat' split at h
  all_goals (cases h; simp)

theorem execOrientationChange_frame (h : execOrientationChange s = .next t) :
    t.powered = s.powered ∧ t.retainedRead = s.retainedRead ∧ t.retained = s.retained ∧ t.line = s.line ∧
      t.form = s.form ∧ t.tables = s.tables ∧ t.mgmt = s.mgmt ∧ t.faults = s.faults ∧ t.reck = s.reck ∧
      t.resv = s.resv ∧ t.bus = s.bus ∧ t.notice = s.notice ∧ t.pending = s.pending := by
  rcases withPanels_next h with ⟨_, rfl⟩ | ⟨_, rfl⟩ <;> simp

theorem execPosition_frame {f : PositionFields} (h : execPosition f s = .next t) :
    t.powered = s.powered ∧ t.retainedRead = s.retainedRead ∧ t.retained = s.retained ∧ t.line = s.line ∧
      t.form = s.form ∧ t.tables = s.tables ∧ t.mgmt = s.mgmt ∧ t.faults = s.faults ∧ t.resv = s.resv ∧
      t.bus = s.bus ∧ t.notice = s.notice ∧ t.panels = s.panels ∧ t.pending = s.pending := by
  unfold execPosition at h
  try dsimp only at h
  repeat' split at h
  all_goals (cases h; simp)

theorem execDepartureReport_frame {d : Nat} (h : execDepartureReport d s = .next t) :
    t.powered = s.powered ∧ t.retainedRead = s.retainedRead ∧ t.retained = s.retained ∧ t.line = s.line ∧
      t.form = s.form ∧ t.faults = s.faults ∧ t.reck = s.reck ∧ t.resv = s.resv ∧ t.bus = s.bus ∧
      t.notice = s.notice ∧ t.panels = s.panels ∧ t.pending = s.pending := by
  unfold execDepartureReport at h
  try dsimp only at h
  repeat' split at h
  all_goals (cases h; simp)

theorem execTime_frame {payload : List Byte} (h : execTime payload s = .next t) :
    t.powered = s.powered ∧ t.retainedRead = s.retainedRead ∧ t.retained = s.retained ∧ t.line = s.line ∧
      t.form = s.form ∧ t.tables = s.tables ∧ t.mgmt = s.mgmt ∧ t.faults = s.faults ∧ t.resv = s.resv ∧
      t.bus = s.bus ∧ t.notice = s.notice ∧ t.panels = s.panels ∧ t.pending = s.pending := by
  unfold execTime at h
  try dsimp only at h
  repeat' split at h
  all_goals (cases h; simp)

theorem execSecondsTick_frame (h : execSecondsTick s = .next t) :
    t.powered = s.powered ∧ t.retainedRead = s.retainedRead ∧ t.retained = s.retained ∧ t.line = s.line ∧
      t.form = s.form ∧ t.tables = s.tables ∧ t.mgmt = s.mgmt ∧ t.resv = s.resv ∧ t.pending = s.pending := by
  unfold execSecondsTick at h
  try dsimp only at h
  repeat' split at h
  all_goals (cases h; simp)

theorem execClockSecond_frame (h : execClockSecond s = .next t) :
    t.powered = s.powered ∧ t.retainedRead = s.retainedRead ∧ t.retained = s.retained ∧ t.line = s.line ∧
      t.form = s.form ∧ t.tables = s.tables ∧ t.mgmt = s.mgmt ∧ t.faults = s.faults ∧ t.resv = s.resv ∧
      t.bus = s.bus ∧ t.notice = s.notice ∧ t.panels = s.panels ∧ t.pending = s.pending := by
  unfold execClockSecond at h
  try dsimp only at h
  repeat' split at h
  all_goals (cases h; simp)

theorem execFreshnessExpiry_frame (h : execFreshnessExpiry s = .next t) :
    t.powered = s.powered ∧ t.retainedRead = s.retainedRead ∧ t.retained = s.retained ∧ t.line = s.line ∧
      t.form = s.form ∧ t.tables = s.tables ∧ t.mgmt = s.mgmt ∧ t.faults = s.faults ∧ t.resv = s.resv ∧
      t.bus = s.bus ∧ t.notice = s.notice ∧ t.panels = s.panels ∧ t.pending = s.pending := by
  unfold execFreshnessExpiry at h
  try dsimp only at h
  repeat' split at h
  all_goals (cases h; simp)

theorem execMgmtUnknownCommand_frame {p : Port} {seq : Byte} {payload : List Byte}
    (h : execMgmtUnknownCommand p seq payload s = .next t) :
    t.powered = s.powered ∧ t.retainedRead = s.retainedRead ∧ t.retained = s.retained ∧ t.form = s.form ∧
      t.tables = s.tables ∧ t.mgmt = s.mgmt ∧ t.faults = s.faults ∧ t.reck = s.reck ∧ t.resv = s.resv ∧
      t.bus = s.bus ∧ t.notice = s.notice ∧ t.panels = s.panels ∧ t.pending = s.pending := by
  unfold execMgmtUnknownCommand at h
  try dsimp only at h
  repeat' split at h
  all_goals (cases h; simp)

theorem execLoad_frame {f : MgmtFrame} (h : execLoad f s = .next t) :
    t.powered = s.powered ∧ t.retainedRead = s.retainedRead ∧ t.retained = s.retained ∧ t.form = s.form ∧
      t.faults = s.faults ∧ t.reck = s.reck ∧ t.resv = s.resv ∧ t.bus = s.bus ∧ t.notice = s.notice ∧
      t.panels = s.panels ∧ t.pending = s.pending := by
  obtain ⟨a, ha, rfl⟩ := runCommand_next h
  rcases ha with rfl | ⟨r, rfl⟩
  · simp only [State.load, State.loadRecords]
    repeat' split
    all_goals simp
  · simp

theorem execLoadNext_frame {f : MgmtFrame} (h : execLoadNext f s = .next t) :
    t.powered = s.powered ∧ t.retainedRead = s.retainedRead ∧ t.retained = s.retained ∧ t.form = s.form ∧
      t.faults = s.faults ∧ t.reck = s.reck ∧ t.resv = s.resv ∧ t.bus = s.bus ∧ t.notice = s.notice ∧
      t.panels = s.panels ∧ t.pending = s.pending := by
  obtain ⟨a, ha, rfl⟩ := runCommand_next h
  rcases ha with rfl | ⟨r, rfl⟩
  · simp only [State.loadNext, State.loadRecords]
    repeat' split
    all_goals simp
  · simp

theorem execCommit_frame {f : MgmtFrame} (h : execCommit f s = .next t) :
    t.powered = s.powered ∧ t.retainedRead = s.retainedRead ∧ t.retained = s.retained ∧ t.form = s.form ∧
      t.faults = s.faults ∧ t.reck = s.reck ∧ t.resv = s.resv ∧ t.bus = s.bus ∧ t.notice = s.notice ∧
      t.panels = s.panels ∧ t.pending = s.pending := by
  obtain ⟨a, ha, rfl⟩ := runCommand_next h
  rcases ha with rfl | ⟨r, rfl⟩
  · simp only [State.commit]
    repeat' split
    all_goals simp
  · simp

theorem execDiscard_frame {f : MgmtFrame} (h : execDiscard f s = .next t) :
    t.powered = s.powered ∧ t.retainedRead = s.retainedRead ∧ t.retained = s.retained ∧ t.form = s.form ∧
      t.faults = s.faults ∧ t.reck = s.reck ∧ t.resv = s.resv ∧ t.bus = s.bus ∧ t.notice = s.notice ∧
      t.panels = s.panels ∧ t.pending = s.pending := by
  obtain ⟨a, ha, rfl⟩ := runCommand_next h
  rcases ha with rfl | ⟨r, rfl⟩
  · simp only [State.discard]
    repeat' split
    all_goals simp
  · simp

theorem execMode_frame {f : MgmtFrame} (h : execMode f s = .next t) :
    t.powered = s.powered ∧ t.retainedRead = s.retainedRead ∧ t.retained = s.retained ∧ t.form = s.form ∧
      t.tables = s.tables ∧ t.faults = s.faults ∧ t.reck = s.reck ∧ t.resv = s.resv ∧ t.bus = s.bus ∧
      t.notice = s.notice ∧ t.panels = s.panels ∧ t.pending = s.pending := by
  obtain ⟨a, ha, rfl⟩ := runCommand_next h
  rcases ha with rfl | ⟨r, rfl⟩
  · repeat' split
    all_goals simp
  · simp

theorem execParam_frame {f : MgmtFrame} (h : execParam f s = .next t) :
    t.powered = s.powered ∧ t.retainedRead = s.retainedRead ∧ t.retained = s.retained ∧ t.form = s.form ∧
      t.tables = s.tables ∧ t.faults = s.faults ∧ t.reck = s.reck ∧ t.resv = s.resv ∧ t.bus = s.bus ∧
      t.notice = s.notice ∧ t.panels = s.panels ∧ t.pending = s.pending := by
  obtain ⟨a, ha, rfl⟩ := runCommand_next h
  rcases ha with rfl | ⟨r, rfl⟩
  · repeat' split
    all_goals simp
  · simp

theorem execStatus_frame {f : MgmtFrame} (h : execStatus f s = .next t) :
    t.powered = s.powered ∧ t.retainedRead = s.retainedRead ∧ t.retained = s.retained ∧ t.form = s.form ∧
      t.tables = s.tables ∧ t.mgmt = s.mgmt ∧ t.faults = s.faults ∧ t.reck = s.reck ∧ t.resv = s.resv ∧
      t.bus = s.bus ∧ t.panels = s.panels ∧ t.pending = s.pending := by
  obtain ⟨a, ha, rfl⟩ := runCommand_next h
  rcases ha with rfl | ⟨r, rfl⟩
  · repeat' split
    all_goals simp
  · simp

theorem execStartAck_frame {f : MgmtFrame} (h : execStartAck f s = .next t) :
    t.powered = s.powered ∧ t.retainedRead = s.retainedRead ∧ t.retained = s.retained ∧ t.form = s.form ∧
      t.tables = s.tables ∧ t.faults = s.faults ∧ t.reck = s.reck ∧ t.resv = s.resv ∧ t.bus = s.bus ∧
      t.notice = s.notice ∧ t.panels = s.panels ∧ t.pending = s.pending := by
  obtain ⟨a, ha, rfl⟩ := runCommand_next h
  rcases ha with rfl | ⟨r, rfl⟩
  · simp
  · simp

theorem execAssign_frame {f : MgmtFrame} (h : execAssign f s = .next t) :
    t.powered = s.powered ∧ t.retainedRead = s.retainedRead ∧ t.retained = s.retained ∧ t.tables = s.tables ∧
      t.mgmt = s.mgmt ∧ t.faults = s.faults ∧ t.reck = s.reck ∧ t.resv = s.resv ∧ t.bus = s.bus ∧
      t.notice = s.notice ∧ t.panels = s.panels ∧ t.pending = s.pending := by
  obtain ⟨a, ha, rfl⟩ := runCommand_next h
  rcases ha with rfl | ⟨r, rfl⟩
  · simp
  · simp

theorem execStopCancel_frame {f : MgmtFrame} (h : execStopCancel f s = .next t) :
    t.powered = s.powered ∧ t.retainedRead = s.retainedRead ∧ t.retained = s.retained ∧ t.form = s.form ∧
      t.mgmt = s.mgmt ∧ t.faults = s.faults ∧ t.resv = s.resv ∧ t.bus = s.bus ∧ t.notice = s.notice ∧
      t.panels = s.panels ∧ t.pending = s.pending := by
  obtain ⟨a, ha, rfl⟩ := runCommand_next h
  rcases ha with rfl | ⟨r, rfl⟩
  · repeat' split
    all_goals simp
  · simp

theorem execResvAdd_frame {f : MgmtFrame} (h : execResvAdd f s = .next t) :
    t.powered = s.powered ∧ t.retainedRead = s.retainedRead ∧ t.retained = s.retained ∧ t.form = s.form ∧
      t.mgmt = s.mgmt ∧ t.faults = s.faults ∧ t.reck = s.reck ∧ t.bus = s.bus ∧ t.notice = s.notice ∧
      t.panels = s.panels ∧ t.pending = s.pending := by
  obtain ⟨a, ha, rfl⟩ := runCommand_next h
  rcases ha with rfl | ⟨r, rfl⟩
  · simp only [State.resvAdd]
    repeat' split
    all_goals simp
  · simp

theorem execResvDrop_frame {f : MgmtFrame} (h : execResvDrop f s = .next t) :
    t.powered = s.powered ∧ t.retainedRead = s.retainedRead ∧ t.retained = s.retained ∧ t.form = s.form ∧
      t.mgmt = s.mgmt ∧ t.faults = s.faults ∧ t.reck = s.reck ∧ t.bus = s.bus ∧ t.notice = s.notice ∧
      t.panels = s.panels ∧ t.pending = s.pending := by
  obtain ⟨a, ha, rfl⟩ := runCommand_next h
  rcases ha with rfl | ⟨r, rfl⟩
  · simp only [State.resvDrop]
    repeat' split
    all_goals simp
  · simp

theorem execAcceptInsert_frame {f : MgmtFrame} (h : execAcceptInsert f s = .next t) :
    t.powered = s.powered ∧ t.retainedRead = s.retainedRead ∧ t.retained = s.retained ∧ t.form = s.form ∧
      t.tables = s.tables ∧ t.mgmt = s.mgmt ∧ t.faults = s.faults ∧ t.reck = s.reck ∧ t.resv = s.resv ∧
      t.bus = s.bus ∧ t.panels = s.panels ∧ t.pending = s.pending := by
  obtain ⟨a, ha, rfl⟩ := runCommand_next h
  rcases ha with rfl | ⟨r, rfl⟩
  · simp only [State.acceptInsert]
    repeat' split
    all_goals simp
  · simp

theorem execAcceptRemove_frame {f : MgmtFrame} (h : execAcceptRemove f s = .next t) :
    t.powered = s.powered ∧ t.retainedRead = s.retainedRead ∧ t.retained = s.retained ∧ t.form = s.form ∧
      t.tables = s.tables ∧ t.mgmt = s.mgmt ∧ t.faults = s.faults ∧ t.reck = s.reck ∧ t.resv = s.resv ∧
      t.bus = s.bus ∧ t.panels = s.panels ∧ t.pending = s.pending := by
  obtain ⟨a, ha, rfl⟩ := runCommand_next h
  rcases ha with rfl | ⟨r, rfl⟩
  · repeat' split
    all_goals simp
  · simp

theorem execRestart_frame {f : MgmtFrame} (h : execRestart f s = .next t) :
    t.powered = s.powered ∧ t.retainedRead = s.retainedRead ∧ t.retained = s.retained ∧ t.form = s.form ∧
      t.tables = s.tables ∧ t.faults = s.faults ∧ t.reck = s.reck ∧ t.resv = s.resv ∧ t.bus = s.bus ∧
      t.notice = s.notice ∧ t.panels = s.panels ∧ t.pending = s.pending := by
  obtain ⟨a, ha, rfl⟩ := runCommand_next h
  rcases ha with rfl | ⟨r, rfl⟩
  · simp
  · simp

theorem execFaultRead_frame {f : MgmtFrame} (h : execFaultRead f s = .next t) :
    t.powered = s.powered ∧ t.retainedRead = s.retainedRead ∧ t.retained = s.retained ∧ t.form = s.form ∧
      t.tables = s.tables ∧ t.mgmt = s.mgmt ∧ t.faults = s.faults ∧ t.reck = s.reck ∧ t.resv = s.resv ∧
      t.bus = s.bus ∧ t.notice = s.notice ∧ t.panels = s.panels ∧ t.pending = s.pending := by
  obtain ⟨a, ha, rfl⟩ := runCommand_next h
  rcases ha with rfl | ⟨r, rfl⟩
  · simp
  · simp

theorem execFaultClear_frame {f : MgmtFrame} (h : execFaultClear f s = .next t) :
    t.powered = s.powered ∧ t.retainedRead = s.retainedRead ∧ t.retained = s.retained ∧ t.form = s.form ∧
      t.tables = s.tables ∧ t.mgmt = s.mgmt ∧ t.reck = s.reck ∧ t.resv = s.resv ∧ t.bus = s.bus ∧
      t.notice = s.notice ∧ t.panels = s.panels ∧ t.pending = s.pending := by
  obtain ⟨a, ha, rfl⟩ := runCommand_next h
  rcases ha with rfl | ⟨r, rfl⟩
  · simp
  · simp

theorem execIdent_frame {f : MgmtFrame} (h : execIdent f s = .next t) :
    t.powered = s.powered ∧ t.retainedRead = s.retainedRead ∧ t.retained = s.retained ∧ t.tables = s.tables ∧
      t.mgmt = s.mgmt ∧ t.faults = s.faults ∧ t.reck = s.reck ∧ t.resv = s.resv ∧ t.bus = s.bus ∧
      t.notice = s.notice ∧ t.panels = s.panels ∧ t.pending = s.pending := by
  obtain ⟨a, ha, rfl⟩ := runCommand_next h
  rcases ha with rfl | ⟨r, rfl⟩
  · repeat' split
    all_goals simp
  · simp

theorem execStore_frame {f : MgmtFrame} (h : execStore f s = .next t) :
    t.powered = s.powered ∧ t.retainedRead = s.retainedRead ∧ t.retained = s.retained ∧ t.form = s.form ∧
      t.tables = s.tables ∧ t.faults = s.faults ∧ t.reck = s.reck ∧ t.resv = s.resv ∧ t.bus = s.bus ∧
      t.notice = s.notice ∧ t.panels = s.panels ∧ t.pending = s.pending := by
  unfold execStore at h
  try dsimp only at h
  repeat' split at h
  all_goals (cases h; simp)

theorem execStoreWriteEnd_frame {agrees : Bool} (h : execStoreWriteEnd agrees s = .next t) :
    t.powered = s.powered ∧ t.retainedRead = s.retainedRead ∧ t.form = s.form ∧ t.tables = s.tables ∧
      t.faults = s.faults ∧ t.reck = s.reck ∧ t.resv = s.resv ∧ t.bus = s.bus ∧ t.notice = s.notice ∧
      t.panels = s.panels ∧ t.pending = s.pending := by
  unfold execStoreWriteEnd at h
  try dsimp only at h
  repeat' split at h
  all_goals (cases h; simp)

theorem execRestartHoldEnd_frame (h : execRestartHoldEnd s = .next t) :
    t.retained = s.retained ∧ t.pending = s.pending := by
  unfold execRestartHoldEnd at h
  try dsimp only at h
  repeat' split at h
  all_goals (cases h; simp)

theorem execFaultReport_frame {r : FaultReport} (h : execFaultReport r s = .next t) :
    t.powered = s.powered ∧ t.retainedRead = s.retainedRead ∧ t.retained = s.retained ∧ t.line = s.line ∧
      t.form = s.form ∧ t.tables = s.tables ∧ t.mgmt = s.mgmt ∧ t.reck = s.reck ∧ t.resv = s.resv ∧ t.bus = s.bus ∧
      t.notice = s.notice ∧ t.panels = s.panels ∧ t.pending = s.pending := by
  unfold execFaultReport at h
  try dsimp only at h
  all_goals (cases h; simp)

theorem execPortionChangeReckoning_frame {portion : Nat} (h : execPortionChangeReckoning portion s = .next t) :
    t.powered = s.powered ∧ t.retainedRead = s.retainedRead ∧ t.retained = s.retained ∧ t.line = s.line ∧
      t.form = s.form ∧ t.tables = s.tables ∧ t.mgmt = s.mgmt ∧ t.faults = s.faults ∧ t.resv = s.resv ∧
      t.bus = s.bus ∧ t.notice = s.notice ∧ t.panels = s.panels ∧ t.pending = s.pending := by
  unfold execPortionChangeReckoning at h
  try dsimp only at h
  all_goals (cases h; simp)

theorem execRouteActivationReckoning_frame {families : FamilySet}
    (h : execRouteActivationReckoning families s = .next t) :
    t.powered = s.powered ∧ t.retainedRead = s.retainedRead ∧ t.retained = s.retained ∧ t.line = s.line ∧
      t.form = s.form ∧ t.mgmt = s.mgmt ∧ t.faults = s.faults ∧ t.resv = s.resv ∧
      t.bus = s.bus ∧ t.notice = s.notice ∧ t.panels = s.panels ∧ t.pending = s.pending := by
  unfold execRouteActivationReckoning at h
  try dsimp only at h
  all_goals (cases h; simp)

theorem execReckoningAnnouncementResv_frame {news : ReckoningNews}
    (h : execReckoningAnnouncementResv news s = .next t) :
    t.powered = s.powered ∧ t.retainedRead = s.retainedRead ∧ t.retained = s.retained ∧ t.line = s.line ∧
      t.form = s.form ∧ t.tables = s.tables ∧ t.mgmt = s.mgmt ∧ t.faults = s.faults ∧ t.reck = s.reck ∧
      t.bus = s.bus ∧ t.notice = s.notice ∧ t.panels = s.panels ∧ t.pending = s.pending := by
  unfold execReckoningAnnouncementResv at h
  try dsimp only at h
  repeat' split at h
  all_goals (cases h; simp)

theorem execActivationAnnouncementResv_frame {families : FamilySet}
    (h : execActivationAnnouncementResv families s = .next t) :
    t.powered = s.powered ∧ t.retainedRead = s.retainedRead ∧ t.retained = s.retained ∧ t.line = s.line ∧
      t.form = s.form ∧ t.tables = s.tables ∧ t.mgmt = s.mgmt ∧ t.faults = s.faults ∧ t.reck = s.reck ∧
      t.bus = s.bus ∧ t.notice = s.notice ∧ t.panels = s.panels ∧ t.pending = s.pending := by
  unfold execActivationAnnouncementResv at h
  try dsimp only at h
  all_goals (cases h; simp)

theorem execPortionChangeResv_frame (h : execPortionChangeResv s = .next t) :
    t.powered = s.powered ∧ t.retainedRead = s.retainedRead ∧ t.retained = s.retained ∧ t.line = s.line ∧
      t.form = s.form ∧ t.tables = s.tables ∧ t.mgmt = s.mgmt ∧ t.faults = s.faults ∧ t.reck = s.reck ∧
      t.bus = s.bus ∧ t.notice = s.notice ∧ t.panels = s.panels ∧ t.pending = s.pending := by
  unfold execPortionChangeResv at h
  try dsimp only at h
  all_goals (cases h; simp)

theorem execModeChangeResv_frame (h : execModeChangeResv s = .next t) :
    t.powered = s.powered ∧ t.retainedRead = s.retainedRead ∧ t.retained = s.retained ∧ t.line = s.line ∧
      t.form = s.form ∧ t.tables = s.tables ∧ t.mgmt = s.mgmt ∧ t.faults = s.faults ∧ t.reck = s.reck ∧
      t.bus = s.bus ∧ t.notice = s.notice ∧ t.panels = s.panels ∧ t.pending = s.pending := by
  unfold execModeChangeResv at h
  try dsimp only at h
  all_goals (cases h; simp)

theorem execHorizonChange_frame (h : execHorizonChange s = .next t) :
    t.powered = s.powered ∧ t.retainedRead = s.retainedRead ∧ t.retained = s.retained ∧ t.line = s.line ∧
      t.form = s.form ∧ t.tables = s.tables ∧ t.mgmt = s.mgmt ∧ t.faults = s.faults ∧ t.reck = s.reck ∧
      t.bus = s.bus ∧ t.notice = s.notice ∧ t.panels = s.panels ∧ t.pending = s.pending := by
  unfold execHorizonChange at h
  try dsimp only at h
  all_goals (cases h; simp)

theorem execQueueRequest_frame {slot : Nat} (h : execQueueRequest slot s = .next t) :
    t.powered = s.powered ∧ t.retainedRead = s.retainedRead ∧ t.retained = s.retained ∧ t.line = s.line ∧
      t.form = s.form ∧ t.tables = s.tables ∧ t.mgmt = s.mgmt ∧ t.faults = s.faults ∧ t.reck = s.reck ∧
      t.resv = s.resv ∧ t.notice = s.notice ∧ t.panels = s.panels ∧ t.pending = s.pending := by
  unfold execQueueRequest at h
  try dsimp only at h
  all_goals (cases h; simp)

theorem execSeatActivationEngine_frame (h : execSeatActivationEngine s = .next t) :
    t.powered = s.powered ∧ t.retainedRead = s.retainedRead ∧ t.retained = s.retained ∧ t.line = s.line ∧
      t.form = s.form ∧ t.tables = s.tables ∧ t.mgmt = s.mgmt ∧ t.faults = s.faults ∧ t.reck = s.reck ∧
      t.resv = s.resv ∧ t.notice = s.notice ∧ t.panels = s.panels ∧ t.pending = s.pending := by
  unfold execSeatActivationEngine at h
  try dsimp only at h
  repeat' split at h
  all_goals (cases h; simp)

theorem execModeChangeEngine_frame (h : execModeChangeEngine s = .next t) :
    t.powered = s.powered ∧ t.retainedRead = s.retainedRead ∧ t.retained = s.retained ∧ t.line = s.line ∧
      t.form = s.form ∧ t.tables = s.tables ∧ t.mgmt = s.mgmt ∧ t.faults = s.faults ∧ t.reck = s.reck ∧
      t.resv = s.resv ∧ t.notice = s.notice ∧ t.panels = s.panels ∧ t.pending = s.pending := by
  unfold execModeChangeEngine at h
  try dsimp only at h
  all_goals (cases h; simp)

theorem execFaultClearEngine_frame (h : execFaultClearEngine s = .next t) :
    t.powered = s.powered ∧ t.retainedRead = s.retainedRead ∧ t.retained = s.retained ∧ t.line = s.line ∧
      t.form = s.form ∧ t.tables = s.tables ∧ t.mgmt = s.mgmt ∧ t.faults = s.faults ∧ t.reck = s.reck ∧
      t.resv = s.resv ∧ t.notice = s.notice ∧ t.panels = s.panels ∧ t.pending = s.pending := by
  unfold execFaultClearEngine at h
  try dsimp only at h
  all_goals (cases h; simp)

theorem execSeatSettleEnd_frame (h : execSeatSettleEnd s = .next t) :
    t.powered = s.powered ∧ t.retainedRead = s.retainedRead ∧ t.retained = s.retained ∧ t.line = s.line ∧
      t.form = s.form ∧ t.tables = s.tables ∧ t.mgmt = s.mgmt ∧ t.faults = s.faults ∧ t.reck = s.reck ∧
      t.resv = s.resv ∧ t.notice = s.notice ∧ t.panels = s.panels ∧ t.announced = s.announced ∧ t.pending = s.pending := by
  unfold execSeatSettleEnd at h
  try dsimp only at h
  repeat' split at h
  all_goals (cases h; simp)

theorem execSeatAnswer_frame {address : Byte} {status : Byte} {check : Byte}
    (h : execSeatAnswer address status check s = .next t) :
    t.powered = s.powered ∧ t.retainedRead = s.retainedRead ∧ t.retained = s.retained ∧ t.line = s.line ∧
      t.form = s.form ∧ t.tables = s.tables ∧ t.mgmt = s.mgmt ∧ t.faults = s.faults ∧ t.reck = s.reck ∧
      t.resv = s.resv ∧ t.notice = s.notice ∧ t.panels = s.panels ∧ t.pending = s.pending := by
  unfold execSeatAnswer at h
  try dsimp only at h
  repeat' split at h
  all_goals (cases h; simp)

theorem execSeatAnswerTimeout_frame (h : execSeatAnswerTimeout s = .next t) :
    t.powered = s.powered ∧ t.retainedRead = s.retainedRead ∧ t.retained = s.retained ∧ t.line = s.line ∧
      t.form = s.form ∧ t.tables = s.tables ∧ t.mgmt = s.mgmt ∧ t.faults = s.faults ∧ t.reck = s.reck ∧
      t.resv = s.resv ∧ t.notice = s.notice ∧ t.panels = s.panels ∧ t.pending = s.pending := by
  unfold execSeatAnswerTimeout at h
  try dsimp only at h
  repeat' split at h
  all_goals (cases h; simp)

theorem execRepollDue_frame {slot : Nat} (h : execRepollDue slot s = .next t) :
    t.powered = s.powered ∧ t.retainedRead = s.retainedRead ∧ t.retained = s.retained ∧ t.line = s.line ∧
      t.form = s.form ∧ t.tables = s.tables ∧ t.mgmt = s.mgmt ∧ t.faults = s.faults ∧ t.reck = s.reck ∧
      t.resv = s.resv ∧ t.notice = s.notice ∧ t.panels = s.panels ∧ t.pending = s.pending := by
  unfold execRepollDue at h
  try dsimp only at h
  repeat' split at h
  all_goals (cases h; simp)

theorem execRefreshRoundBegin_frame (h : execRefreshRoundBegin s = .next t) :
    t.powered = s.powered ∧ t.retainedRead = s.retainedRead ∧ t.retained = s.retained ∧ t.line = s.line ∧
      t.form = s.form ∧ t.tables = s.tables ∧ t.mgmt = s.mgmt ∧ t.faults = s.faults ∧ t.reck = s.reck ∧
      t.resv = s.resv ∧ t.notice = s.notice ∧ t.panels = s.panels ∧ t.pending = s.pending := by
  unfold execRefreshRoundBegin at h
  try dsimp only at h
  repeat' split at h
  all_goals (cases h; simp)

theorem execNotice_frame {f : NoticeFields} (h : execNotice f s = .next t) :
    t.powered = s.powered ∧ t.retainedRead = s.retainedRead ∧ t.retained = s.retained ∧ t.line = s.line ∧
      t.form = s.form ∧ t.tables = s.tables ∧ t.mgmt = s.mgmt ∧ t.faults = s.faults ∧ t.reck = s.reck ∧
      t.resv = s.resv ∧ t.bus = s.bus ∧ t.panels = s.panels ∧ t.pending = s.pending := by
  unfold execNotice at h
  try dsimp only at h
  all_goals (cases h; simp)

theorem execNoticeCancel_frame {payload : List Byte} (h : execNoticeCancel payload s = .next t) :
    t.powered = s.powered ∧ t.retainedRead = s.retainedRead ∧ t.retained = s.retained ∧ t.line = s.line ∧
      t.form = s.form ∧ t.tables = s.tables ∧ t.mgmt = s.mgmt ∧ t.faults = s.faults ∧ t.reck = s.reck ∧
      t.resv = s.resv ∧ t.bus = s.bus ∧ t.panels = s.panels ∧ t.pending = s.pending := by
  unfold execNoticeCancel at h
  try dsimp only at h
  repeat' split at h
  all_goals (cases h; simp)

theorem execLifetimeExpiry_frame {id : Nat} (h : execLifetimeExpiry id s = .next t) :
    t.powered = s.powered ∧ t.retainedRead = s.retainedRead ∧ t.retained = s.retained ∧ t.line = s.line ∧
      t.form = s.form ∧ t.tables = s.tables ∧ t.mgmt = s.mgmt ∧ t.faults = s.faults ∧ t.reck = s.reck ∧
      t.resv = s.resv ∧ t.bus = s.bus ∧ t.panels = s.panels ∧ t.pending = s.pending := by
  unfold execLifetimeExpiry at h
  try dsimp only at h
  repeat' split at h
  all_goals (cases h; simp)

theorem execRepeatTimerExpiry_frame {id : Nat} (h : execRepeatTimerExpiry id s = .next t) :
    t.powered = s.powered ∧ t.retainedRead = s.retainedRead ∧ t.retained = s.retained ∧ t.line = s.line ∧
      t.form = s.form ∧ t.tables = s.tables ∧ t.mgmt = s.mgmt ∧ t.faults = s.faults ∧ t.reck = s.reck ∧
      t.resv = s.resv ∧ t.bus = s.bus ∧ t.panels = s.panels ∧ t.pending = s.pending := by
  unfold execRepeatTimerExpiry at h
  try dsimp only at h
  repeat' split at h
  all_goals (cases h; simp)

theorem execDwellEnd_frame (h : execDwellEnd s = .next t) :
    t.powered = s.powered ∧ t.retainedRead = s.retainedRead ∧ t.retained = s.retained ∧ t.line = s.line ∧
      t.form = s.form ∧ t.tables = s.tables ∧ t.mgmt = s.mgmt ∧ t.faults = s.faults ∧ t.reck = s.reck ∧
      t.resv = s.resv ∧ t.bus = s.bus ∧ t.panels = s.panels ∧ t.pending = s.pending := by
  unfold execDwellEnd at h
  try dsimp only at h
  repeat' split at h
  all_goals (cases h; simp)

theorem execModeChangeNotice_frame {before : Mode} {after : Mode} (h : execModeChangeNotice before after s = .next t) :
    t.powered = s.powered ∧ t.retainedRead = s.retainedRead ∧ t.retained = s.retained ∧ t.line = s.line ∧
      t.form = s.form ∧ t.tables = s.tables ∧ t.mgmt = s.mgmt ∧ t.faults = s.faults ∧ t.reck = s.reck ∧
      t.resv = s.resv ∧ t.bus = s.bus ∧ t.panels = s.panels ∧ t.pending = s.pending := by
  unfold execModeChangeNotice at h
  try dsimp only at h
  repeat' split at h
  all_goals (cases h; simp)

theorem execReckoningAnnouncementNotice_frame {news : ReckoningNews}
    (h : execReckoningAnnouncementNotice news s = .next t) :
    t.powered = s.powered ∧ t.retainedRead = s.retainedRead ∧ t.retained = s.retained ∧ t.line = s.line ∧
      t.form = s.form ∧ t.tables = s.tables ∧ t.mgmt = s.mgmt ∧ t.faults = s.faults ∧ t.reck = s.reck ∧
      t.resv = s.resv ∧ t.bus = s.bus ∧ t.panels = s.panels ∧ t.pending = s.pending := by
  unfold execReckoningAnnouncementNotice at h
  try dsimp only at h
  repeat' split at h
  all_goals (cases h; simp)

theorem execPortionChangeNotice_frame {portion : Nat} (h : execPortionChangeNotice portion s = .next t) :
    t.powered = s.powered ∧ t.retainedRead = s.retainedRead ∧ t.retained = s.retained ∧ t.line = s.line ∧
      t.form = s.form ∧ t.tables = s.tables ∧ t.mgmt = s.mgmt ∧ t.faults = s.faults ∧ t.reck = s.reck ∧
      t.resv = s.resv ∧ t.bus = s.bus ∧ t.panels = s.panels ∧ t.pending = s.pending := by
  unfold execPortionChangeNotice at h
  try dsimp only at h
  all_goals (cases h; simp)

theorem execActivationAnnouncementNotice_frame {families : FamilySet}
    (h : execActivationAnnouncementNotice families s = .next t) :
    t.powered = s.powered ∧ t.retainedRead = s.retainedRead ∧ t.retained = s.retained ∧ t.line = s.line ∧
      t.form = s.form ∧ t.mgmt = s.mgmt ∧ t.faults = s.faults ∧ t.reck = s.reck ∧
      t.resv = s.resv ∧ t.bus = s.bus ∧ t.panels = s.panels ∧ t.pending = s.pending := by
  unfold execActivationAnnouncementNotice at h
  dsimp only at h
  cases h
  split <;> simp

theorem execCoachNumberChange_frame (h : execCoachNumberChange s = .next t) :
    t.powered = s.powered ∧ t.retainedRead = s.retainedRead ∧ t.retained = s.retained ∧ t.line = s.line ∧
      t.form = s.form ∧ t.tables = s.tables ∧ t.mgmt = s.mgmt ∧ t.faults = s.faults ∧ t.reck = s.reck ∧
      t.resv = s.resv ∧ t.bus = s.bus ∧ t.panels = s.panels ∧ t.pending = s.pending := by
  unfold execCoachNumberChange at h
  try dsimp only at h
  all_goals (cases h; simp)

theorem execReckoningAnnouncementPanel_frame {news : ReckoningNews}
    (h : execReckoningAnnouncementPanel news s = .next t) :
    t.powered = s.powered ∧ t.retainedRead = s.retainedRead ∧ t.retained = s.retained ∧ t.line = s.line ∧
      t.form = s.form ∧ t.tables = s.tables ∧ t.mgmt = s.mgmt ∧ t.faults = s.faults ∧ t.reck = s.reck ∧
      t.resv = s.resv ∧ t.bus = s.bus ∧ t.notice = s.notice ∧ t.pending = s.pending := by
  rcases withPanels_next h with ⟨_, rfl⟩ | ⟨_, rfl⟩ <;> simp

theorem execOverlayRequest_frame {id : Nat} (h : execOverlayRequest id s = .next t) :
    t.powered = s.powered ∧ t.retainedRead = s.retainedRead ∧ t.retained = s.retained ∧ t.line = s.line ∧
      t.form = s.form ∧ t.tables = s.tables ∧ t.mgmt = s.mgmt ∧ t.faults = s.faults ∧ t.reck = s.reck ∧
      t.resv = s.resv ∧ t.bus = s.bus ∧ t.notice = s.notice ∧ t.pending = s.pending := by
  rcases withPanels_next h with ⟨_, rfl⟩ | ⟨_, rfl⟩ <;> simp

theorem execOverlayEnd_frame {id : Nat} (h : execOverlayEnd id s = .next t) :
    t.powered = s.powered ∧ t.retainedRead = s.retainedRead ∧ t.retained = s.retained ∧ t.line = s.line ∧
      t.form = s.form ∧ t.tables = s.tables ∧ t.mgmt = s.mgmt ∧ t.faults = s.faults ∧ t.reck = s.reck ∧
      t.resv = s.resv ∧ t.bus = s.bus ∧ t.notice = s.notice ∧ t.pending = s.pending := by
  rcases withPanels_next h with ⟨_, rfl⟩ | ⟨_, rfl⟩ <;> simp

theorem execNoticeTextChange_frame {item : NoticeTextItem} (h : execNoticeTextChange item s = .next t) :
    t.powered = s.powered ∧ t.retainedRead = s.retainedRead ∧ t.retained = s.retained ∧ t.line = s.line ∧
      t.form = s.form ∧ t.tables = s.tables ∧ t.mgmt = s.mgmt ∧ t.faults = s.faults ∧ t.reck = s.reck ∧
      t.resv = s.resv ∧ t.bus = s.bus ∧ t.notice = s.notice ∧ t.pending = s.pending := by
  rcases withPanels_next h with ⟨_, rfl⟩ | ⟨_, rfl⟩ <;> simp

theorem execActivity_frame (h : execActivity s = .next t) :
    t.powered = s.powered ∧ t.retainedRead = s.retainedRead ∧ t.retained = s.retained ∧ t.line = s.line ∧
      t.form = s.form ∧ t.tables = s.tables ∧ t.mgmt = s.mgmt ∧ t.faults = s.faults ∧ t.reck = s.reck ∧
      t.resv = s.resv ∧ t.bus = s.bus ∧ t.notice = s.notice ∧ t.pending = s.pending := by
  rcases withPanels_next h with ⟨_, rfl⟩ | ⟨_, rfl⟩ <;> simp

theorem execModeChangePanel_frame {before : Mode} {after : Mode} (h : execModeChangePanel before after s = .next t) :
    t.powered = s.powered ∧ t.retainedRead = s.retainedRead ∧ t.retained = s.retained ∧ t.line = s.line ∧
      t.form = s.form ∧ t.tables = s.tables ∧ t.mgmt = s.mgmt ∧ t.faults = s.faults ∧ t.reck = s.reck ∧
      t.resv = s.resv ∧ t.bus = s.bus ∧ t.notice = s.notice ∧ t.pending = s.pending := by
  rcases withPanels_next h with ⟨_, rfl⟩ | ⟨_, rfl⟩ <;> simp

theorem execFormationChangePanel_frame {item : FormationItem} (h : execFormationChangePanel item s = .next t) :
    t.powered = s.powered ∧ t.retainedRead = s.retainedRead ∧ t.retained = s.retained ∧ t.line = s.line ∧
      t.form = s.form ∧ t.tables = s.tables ∧ t.mgmt = s.mgmt ∧ t.faults = s.faults ∧ t.reck = s.reck ∧
      t.resv = s.resv ∧ t.bus = s.bus ∧ t.notice = s.notice ∧ t.pending = s.pending := by
  rcases withPanels_next h with ⟨_, rfl⟩ | ⟨_, rfl⟩ <;> simp

theorem execActivationAnnouncementPanel_frame {families : FamilySet}
    (h : execActivationAnnouncementPanel families s = .next t) :
    t.powered = s.powered ∧ t.retainedRead = s.retainedRead ∧ t.retained = s.retained ∧ t.line = s.line ∧
      t.form = s.form ∧ t.tables = s.tables ∧ t.mgmt = s.mgmt ∧ t.faults = s.faults ∧ t.reck = s.reck ∧
      t.resv = s.resv ∧ t.bus = s.bus ∧ t.notice = s.notice ∧ t.pending = s.pending := by
  rcases withPanels_next h with ⟨_, rfl⟩ | ⟨_, rfl⟩ <;> simp

theorem execTravelRightChange_frame {panel : Panel} (h : execTravelRightChange panel s = .next t) :
    t.powered = s.powered ∧ t.retainedRead = s.retainedRead ∧ t.retained = s.retained ∧ t.line = s.line ∧
      t.form = s.form ∧ t.tables = s.tables ∧ t.mgmt = s.mgmt ∧ t.faults = s.faults ∧ t.reck = s.reck ∧
      t.resv = s.resv ∧ t.bus = s.bus ∧ t.notice = s.notice ∧ t.pending = s.pending := by
  rcases withPanels_next h with ⟨_, rfl⟩ | ⟨_, rfl⟩ <;> simp

theorem execClockMinuteChange_frame (h : execClockMinuteChange s = .next t) :
    t.powered = s.powered ∧ t.retainedRead = s.retainedRead ∧ t.retained = s.retained ∧ t.line = s.line ∧
      t.form = s.form ∧ t.tables = s.tables ∧ t.mgmt = s.mgmt ∧ t.faults = s.faults ∧ t.reck = s.reck ∧
      t.resv = s.resv ∧ t.bus = s.bus ∧ t.notice = s.notice ∧ t.pending = s.pending := by
  rcases withPanels_next h with ⟨_, rfl⟩ | ⟨_, rfl⟩ <;> simp

theorem execComposeSwap_frame {panel : Panel} (h : execComposeSwap panel s = .next t) :
    t.powered = s.powered ∧ t.retainedRead = s.retainedRead ∧ t.retained = s.retained ∧ t.line = s.line ∧
      t.form = s.form ∧ t.tables = s.tables ∧ t.mgmt = s.mgmt ∧ t.faults = s.faults ∧ t.reck = s.reck ∧
      t.resv = s.resv ∧ t.bus = s.bus ∧ t.notice = s.notice ∧ t.announced = s.announced ∧ t.pending = s.pending := by
  unfold execComposeSwap at h
  try dsimp only at h
  repeat' split at h
  all_goals (cases h; simp)

theorem execIdleTimerExpiry_frame (h : execIdleTimerExpiry s = .next t) :
    t.powered = s.powered ∧ t.retainedRead = s.retainedRead ∧ t.retained = s.retained ∧ t.line = s.line ∧
      t.form = s.form ∧ t.tables = s.tables ∧ t.mgmt = s.mgmt ∧ t.faults = s.faults ∧ t.reck = s.reck ∧
      t.resv = s.resv ∧ t.bus = s.bus ∧ t.notice = s.notice ∧ t.announced = s.announced ∧ t.pending = s.pending := by
  unfold execIdleTimerExpiry at h
  try dsimp only at h
  repeat' split at h
  all_goals (cases h; simp)

end Sys2Proof.Machine
end

