-- ==== Sys2Proof/Laws/Tables.lean ====
section
/-! SUPPORT. What the operations on tables do: reading after a write, the canonical form kept, and the lowest free index. -/

namespace Sys2Proof.Machine

variable {α : Type}

@[simp] theorem Table.find_nil (i : Nat) : Table.find ([] : Table α) i = none := rfl

/-- Reading after a write: the value written at its index, every other index as before. -/
theorem Table.find_set (t : Table α) (i j : Nat) (v : α) :
    Table.find (Table.set t i v) j = if i = j then some v else Table.find t j := by
  induction t with
  | nil => simp [Table.set, Table.find]
  | cons e t ih =>
    obtain ⟨k, w⟩ := e
    by_cases h1 : i < k
    · simp only [Table.set, if_pos h1, Table.find]
    · by_cases h2 : i = k
      · subst h2; simp only [Table.set, lt_irrefl, if_false, if_true, Table.find]; split_ifs <;> rfl
      · simp only [Table.set, if_neg h1, if_neg h2, Table.find, ih]; split_ifs <;> first | rfl | omega

@[simp] theorem Table.find_set_self (t : Table α) (i : Nat) (v : α) : Table.find (Table.set t i v) i = some v := by
  simp [Table.find_set]

/-- Reading after an index is made absent. -/
theorem Table.find_erase (t : Table α) (i j : Nat) :
    Table.find (Table.erase t i) j = if i = j then none else Table.find t j := by
  induction t with
  | nil => simp [Table.erase, Table.find]
  | cons e t ih =>
    obtain ⟨k, w⟩ := e
    simp only [Table.erase, List.filter_cons] at ih ⊢
    by_cases hk : k = i
    · subst hk
      simp only [bne_self_eq_false, Bool.false_eq_true, ↓reduceIte, ih, Table.find]
      split_ifs <;> rfl
    · have : (k != i) = true := by simpa using hk
      simp only [this, ↓reduceIte, Table.find, ih]
      split_ifs <;> first | rfl | omega

/-- An entry of a table after a write is the one written or an entry before it. -/
theorem Table.mem_set {t : Table α} {i : Nat} {v : α} {e : Nat × α} (h : e ∈ Table.set t i v) :
    e = (i, v) ∨ e ∈ t := by
  induction t with
  | nil => simpa [Table.set] using h
  | cons x t ih =>
    obtain ⟨k, w⟩ := x
    unfold Table.set at h
    split_ifs at h
    · simpa using h
    · simp only [List.mem_cons] at h ⊢; tauto
    · simp only [List.mem_cons] at h ⊢
      rcases h with h | h
      · tauto
      · have := ih h; tauto

/-- A write keeps the canonical form. -/
theorem Table.wf_set {t : Table α} (h : Table.wf t) (i : Nat) (v : α) : Table.wf (Table.set t i v) := by
  induction t with
  | nil => simp [Table.set, Table.wf]
  | cons x t ih =>
    obtain ⟨k, w⟩ := x
    simp only [Table.wf, List.pairwise_cons] at h ih ⊢
    unfold Table.set
    split_ifs with h1 h2
    · simp only [List.pairwise_cons, List.mem_cons, forall_eq_or_imp]
      exact ⟨⟨h1, fun e he => lt_trans h1 (h.1 e he)⟩, h.1, h.2⟩
    · subst h2; simp only [List.pairwise_cons]; exact ⟨h.1, h.2⟩
    · simp only [List.pairwise_cons]
      refine ⟨fun e he => ?_, ih h.2⟩
      rcases Table.mem_set he with rfl | he
      · simp only; omega
      · exact h.1 e he

/-- Making an index absent keeps the canonical form. -/
theorem Table.wf_erase {t : Table α} (h : Table.wf t) (i : Nat) : Table.wf (Table.erase t i) :=
  h.sublist List.filter_sublist

/-- Writing a list of records keeps the canonical form. -/
theorem Table.wf_setAll {t : Table α} (h : Table.wf t) (i : Nat) (vs : List α) : Table.wf (Table.setAll t i vs) := by
  induction vs generalizing t i with
  | nil => simpa [Table.setAll] using h
  | cons v vs ih => exact ih (Table.wf_set h i v) (i + 1)

/-- Reading after a list of records is written: the records at their indexes, every other index as before. -/
theorem Table.find_setAll (t : Table α) (i j : Nat) (vs : List α) :
    Table.find (Table.setAll t i vs) j =
      if i ≤ j ∧ j < i + vs.length then vs[j - i]? else Table.find t j := by
  induction vs generalizing t i with
  | nil => simp [Table.setAll]
  | cons v vs ih =>
    rw [Table.setAll, ih, Table.find_set]
    by_cases hij : i = j
    · subst hij; simp
    · by_cases h : i + 1 ≤ j ∧ j < i + 1 + vs.length
      · have h' : i ≤ j ∧ j < i + (v :: vs).length := by simp only [List.length_cons]; omega
        rw [if_pos h, if_pos h']
        have : j - i = (j - (i + 1)) + 1 := by omega
        rw [this, List.getElem?_cons_succ]
      · have h' : ¬(i ≤ j ∧ j < i + (v :: vs).length) := by simp only [List.length_cons]; omega
        rw [if_neg h, if_neg h', if_neg hij]

/-- An entry after a list of records is written is at one of their indexes or was there before. -/
theorem Table.mem_setAll {t : Table α} {i : Nat} {vs : List α} {e : Nat × α} (h : e ∈ Table.setAll t i vs) :
    (i ≤ e.1 ∧ e.1 < i + vs.length) ∨ e ∈ t := by
  induction vs generalizing t i with
  | nil => exact .inr (by simpa [Table.setAll] using h)
  | cons v vs ih =>
    rcases ih h with h | h
    · simp only [List.length_cons]; omega
    · rcases Table.mem_set h with rfl | h
      · simp
      · exact .inr h

/-- A listed entry of a canonical table is what stands at its index. -/
theorem Table.find_of_mem {t : Table α} (h : Table.wf t) {e : Nat × α} (he : e ∈ t) : Table.find t e.1 = some e.2 := by
  induction t with
  | nil => simp at he
  | cons x t ih =>
    obtain ⟨k, w⟩ := x
    simp only [Table.wf, List.pairwise_cons] at h
    rcases List.mem_cons.1 he with rfl | he'
    · simp [Table.find]
    · have := h.1 e he'
      simp only [Table.find]
      rw [if_neg (by omega), ih h.2 he']

/-- What stands at an index is a listed entry. -/
theorem Table.mem_of_find {t : Table α} {i : Nat} {v : α} (h : Table.find t i = some v) : (i, v) ∈ t := by
  induction t with
  | nil => simp at h
  | cons x t ih =>
    obtain ⟨k, w⟩ := x
    simp only [Table.find] at h
    split_ifs at h with hk
    · simp only [Option.some.injEq] at h; subst hk; subst h; simp
    · exact List.mem_cons_of_mem _ (ih h)

/-- An index below every listed one is the lowest free from itself on. -/
theorem Table.lowestFree_of_above {t : Table α} {i : Nat} (h : ∀ e ∈ t, i < e.1) : Table.lowestFree t i = i := by
  induction t with
  | nil => rfl
  | cons x t ih =>
    obtain ⟨k, w⟩ := x
    have hk : i < k := h (k, w) (by simp)
    simp only [Table.lowestFree, if_neg (show ¬k = i by omega)]
    exact ih (fun e he => h e (by simp [he]))

/-- The lowest free index from `i` on holds nothing, and every index from `i` up to it holds a record. -/
theorem Table.lowestFree_spec {t : Table α} (h : Table.wf t) (i : Nat) (hi : ∀ e ∈ t, i ≤ e.1) :
    i ≤ Table.lowestFree t i ∧ Table.find t (Table.lowestFree t i) = none ∧
      (∀ j, i ≤ j → j < Table.lowestFree t i → (Table.find t j).isSome = true) ∧
      Table.lowestFree t i ≤ i + t.length := by
  induction t generalizing i with
  | nil => simp [Table.lowestFree]
  | cons x t ih =>
    obtain ⟨k, w⟩ := x
    simp only [Table.wf, List.pairwise_cons] at h
    have hk : i ≤ k := hi (k, w) (by simp)
    have ht : ∀ e ∈ t, k < e.1 := fun e he => h.1 e he
    unfold Table.lowestFree
    split_ifs with hki
    · subst hki
      obtain ⟨h1, h2, h3, h4⟩ := ih h.2 (k + 1) (fun e he => ht e he)
      refine ⟨by omega, ?_, ?_, by simp only [List.length_cons]; omega⟩
      · simp only [Table.find]; rw [if_neg (by omega), h2]
      · intro j hj1 hj2
        simp only [Table.find]
        split_ifs with hjk
        · rfl
        · exact h3 j (by omega) hj2
    · have hik : i < k := by omega
      obtain ⟨h1, h2, h3, h4⟩ := ih h.2 i (fun e he => by have := ht e he; omega)
      have hfree : Table.lowestFree t i = i := Table.lowestFree_of_above (fun e he => by have := ht e he; omega)
      rw [hfree] at h1 h2 ⊢
      refine ⟨le_refl _, ?_, by intro j h5 h6; omega, by omega⟩
      simp only [Table.find]
      rw [if_neg (by omega), h2]

end Sys2Proof.Machine
end

