-- ==== Sys2Proof/Laws/Banks.lean ====
section
/-! SUPPORT. What the operations on the banks do: the records of a load, the families of a set, and the bounds kept. -/

namespace Sys2Proof.Machine

/-! ### The records of a load (R47, R48) -/

/-- Records of one size that fill the bytes: `m` of them, each of that size. -/
theorem splitFixed_spec {size m : Nat} {bs : List Byte} {rs : List (List Byte)} (h : splitFixed size m bs = some rs) :
    rs.length = m ∧ (∀ r ∈ rs, r.length = size) ∧ rs.flatten = bs := by
  induction m generalizing bs rs with
  | zero =>
    simp only [splitFixed] at h
    split at h
    · rename_i hb; cases h; simp [hb]
    · cases h
  | succ m ih =>
    simp only [splitFixed] at h
    split at h
    · cases h
    · rename_i hl
      obtain ⟨x, hx, rfl⟩ := Option.map_eq_some_iff.1 h
      obtain ⟨h1, h2, h3⟩ := ih hx
      refine ⟨by simp [h1], ?_, by simp [h3]⟩
      intro r hr
      rcases List.mem_cons.1 hr with rfl | hr
      · simp; omega
      · exact h2 r hr

/-- The records of one size that fill the bytes. -/
theorem splitFixed_iff {size m : Nat} {bs : List Byte} {rs : List (List Byte)} :
    splitFixed size m bs = some rs ↔ rs.length = m ∧ (∀ r ∈ rs, r.length = size) ∧ rs.flatten = bs := by
  refine ⟨splitFixed_spec, ?_⟩
  rintro ⟨rfl, hl, rfl⟩
  induction rs with
  | nil => rfl
  | cons r rs ih =>
    have hr : r.length = size := hl r (by simp)
    simp only [List.length_cons, splitFixed, List.flatten_cons]
    rw [if_neg (by simp [hr]), ← hr, List.drop_left, List.take_left, hr, ih (fun x hx => hl x (by simp [hx]))]
    rfl

/-- TEXT records that fill the bytes, each after its length byte (R48 test 4). -/
theorem splitText_iff {m : Nat} {bs : List Byte} {rs : List (List Byte)} :
    splitText m bs = some rs ↔
      rs.length = m ∧ (∀ r ∈ rs, r.length ≤ 255) ∧ rs.flatMap (fun r => BitVec.ofNat 8 r.length :: r) = bs := by
  constructor
  · intro h
    induction m generalizing bs rs with
    | zero =>
      simp only [splitText] at h
      split at h <;> cases h
      simp_all
    | succ m ih =>
      cases bs with
      | nil => simp [splitText] at h
      | cons n bs =>
        simp only [splitText] at h
        split at h
        · cases h
        · obtain ⟨x, hx, rfl⟩ := Option.map_eq_some_iff.1 h
          obtain ⟨h1, h2, h3⟩ := ih hx
          have hn := n.isLt
          have hlen : (bs.take n.toNat).length = n.toNat := by simp; omega
          refine ⟨by simp [h1], ?_, ?_⟩
          · intro r hr
            rcases List.mem_cons.1 hr with rfl | hr
            · omega
            · exact h2 r hr
          · rw [List.flatMap_cons, h3, hlen, BitVec.ofNat_toNat, BitVec.setWidth_eq, List.cons_append, List.take_append_drop]
  · rintro ⟨rfl, hl, rfl⟩
    induction rs with
    | nil => rfl
    | cons r rs ih =>
      have hr : r.length ≤ 255 := hl r (by simp)
      have ht : (BitVec.ofNat 8 r.length).toNat = r.length := by simp; omega
      simp only [List.length_cons, List.flatMap_cons, List.cons_append, splitText, ht]
      rw [if_neg (by simp), List.drop_left, List.take_left, ih (fun x hx => hl x (by simp [hx]))]
      rfl

/-- The records of a load are those that fill its bytes (R45, R48). -/
theorem splitRecords_iff {f : Family} {m : Nat} {bs : List Byte} {rs : List (List Byte)} :
    splitRecords f m bs = some rs ↔ fills f m bs rs := by
  cases f <;> simp [splitRecords, Family.recordSize, splitFixed_iff, splitText_iff, fills]

/-- The records of a load are as many as its count says. -/
theorem splitRecords_length {f : Family} {m : Nat} {bs : List Byte} {rs : List (List Byte)}
    (h : splitRecords f m bs = some rs) : rs.length = m := (splitRecords_iff.1 h).1

/-- What a load leaves in the staged bank: its records at their indexes, the TEXT record of id 0 without characters, and
every other index as before (R47). -/
theorem writeRecords_find (f : Family) (bank : Table (List Byte)) (i j : Nat) (rs : List (List Byte)) :
    Table.find (writeRecords f bank i rs) j =
      if i ≤ j ∧ j < i + rs.length then (if f = .text ∧ j = 0 then some [] else rs[j - i]?) else Table.find bank j := by
  unfold writeRecords
  split
  · rename_i x rest
    rw [Table.find_setAll]
    cases j with
    | zero => simp
    | succ j => simp
  · rename_i hne
    rw [Table.find_setAll]
    split
    · rename_i hj
      rw [if_neg]
      rintro ⟨rfl, rfl⟩
      obtain rfl : i = 0 := by omega
      cases rs with
      | nil => simp at hj
      | cons x xs => exact hne x xs rfl rfl rfl
    · rfl

/-! ### Bounds (R45, R46, R51) -/

theorem bankLegal_nil (f : Family) : bankLegal f [] := ⟨List.Pairwise.nil, by simp⟩

theorem bankLegal_set {f : Family} {b : Table (List Byte)} (h : bankLegal f b) {i : Nat} (hi : i < f.capacity)
    (r : List Byte) : bankLegal f (Table.set b i r) := by
  refine ⟨Table.wf_set h.1 i r, fun e he => ?_⟩
  rcases Table.mem_set he with rfl | he
  · exact hi
  · exact h.2 e he

theorem bankLegal_erase {f : Family} {b : Table (List Byte)} (h : bankLegal f b) (i : Nat) : bankLegal f (Table.erase b i) :=
  ⟨Table.wf_erase h.1 i, fun e he => h.2 e (List.mem_filter.1 he).1⟩

theorem bankLegal_setAll {f : Family} {b : Table (List Byte)} (h : bankLegal f b) {i : Nat} {rs : List (List Byte)}
    (hi : i + rs.length ≤ f.capacity) : bankLegal f (Table.setAll b i rs) := by
  refine ⟨Table.wf_setAll h.1 i rs, fun e he => ?_⟩
  rcases Table.mem_setAll he with he | he
  · omega
  · exact h.2 e he

theorem writeRecords_wf {b : Table (List Byte)} (h : Table.wf b) (f : Family) (i : Nat) (rs : List (List Byte)) :
    Table.wf (writeRecords f b i rs) := by
  unfold writeRecords
  split <;> exact Table.wf_setAll h _ _

theorem bankLegal_writeRecords {f : Family} {b : Table (List Byte)} (h : bankLegal f b) {i : Nat} {rs : List (List Byte)}
    (hi : i + rs.length ≤ f.capacity) : bankLegal f (writeRecords f b i rs) := by
  unfold writeRecords
  split
  · exact bankLegal_setAll h (by simpa using hi)
  · exact bankLegal_setAll h hi

/-- A bank in canonical form within its family's indexes holds at most as many records as it has indexes. -/
theorem bankLegal_length {f : Family} {b : Table (List Byte)} (h : bankLegal f b) : b.length ≤ f.capacity := by
  have hn : (b.map (·.1)).Nodup := by
    have : (b.map (·.1)).Pairwise (· < ·) := List.pairwise_map.2 h.1
    exact this.imp (fun h => Nat.ne_of_lt h)
  have hs : (b.map (·.1)) ⊆ List.range f.capacity := by
    intro i hi
    obtain ⟨e, he, rfl⟩ := List.mem_map.1 hi
    exact List.mem_range.2 (h.2 e he)
  simpa using (List.subperm_of_subset hn hs).length_le

/-- A family's banks keep their bounds at an activation (R56). -/
theorem FamilyBanks.activate_legal {f : Family} {b : FamilyBanks} (h : b.legal f) {tag : Nat} (ht : tag ≤ 65535) :
    (FamilyBanks.activate tag b).legal f :=
  ⟨h.2.1, bankLegal_nil f, ht, by simp only [FamilyBanks.activate]; omega, fun _ => rfl⟩

/-! ### Families (R45) -/

theorem Family.mem_all (f : Family) : f ∈ Family.all := by cases f <;> decide

theorem FamilySet.mem_list {fs : FamilySet} {f : Family} : f ∈ fs.list ↔ fs.names f = true := by
  simp [FamilySet.list, Family.mem_all]

@[simp] theorem TableStore.family_setFamily (t : TableStore) (f g : Family) (b : FamilyBanks) :
    (t.setFamily f b).family g = if g = f then b else t.family g := by
  cases f <;> cases g <;> rfl

@[simp] theorem TableStore.setFamily_cancelled (t : TableStore) (f : Family) (b : FamilyBanks) :
    (t.setFamily f b).cancelled = t.cancelled := by
  cases f <;> rfl

/-- Writing a family's banks leaves the flags and the tables not yet replaced. -/
theorem TableStore.setFamily_keepsFlags (t : TableStore) (f : Family) (b : FamilyBanks) : t.keepsFlags (t.setFamily f b) := by
  cases f <;> exact ⟨rfl, rfl, rfl⟩

theorem TableStore.mapFamilies_keepsFlags (t : TableStore) (fs : FamilySet) (g : FamilyBanks → FamilyBanks) :
    t.keepsFlags (t.mapFamilies fs g) := ⟨rfl, rfl, rfl⟩

@[simp] theorem TableStore.family_mapFamilies (t : TableStore) (fs : FamilySet) (g : FamilyBanks → FamilyBanks) (f : Family) :
    (t.mapFamilies fs g).family f = if fs.names f then g (t.family f) else t.family f := by
  cases f <;> rfl

@[simp] theorem TableStore.mapFamilies_cancelled (t : TableStore) (fs : FamilySet) (g : FamilyBanks → FamilyBanks) :
    (t.mapFamilies fs g).cancelled = t.cancelled := rfl

/-- The banks after an activation, family by family (R56). -/
@[simp] theorem State.activate_family (s : State) (c : PendingCommit) (f : Family) :
    (s.activate c).tables.family f =
      if c.families.names f then FamilyBanks.activate c.tag (s.tables.family f) else s.tables.family f := by
  cases f <;> rfl

/-- All that an activation does to the tables (R56, log 7). -/
theorem State.activate_activates (s : State) (c : PendingCommit) : activates s.tables (s.activate c).tables c.families c.tag :=
  ⟨fun g => by cases g <;> rfl, rfl, rfl, rfl⟩

/-- The banks after an accepted commit, family by family: COMMITTED, or activated at once (R54, R55, R56). -/
theorem State.accept_family (s : State) (c : PendingCommit) (f : Family) :
    (s.accept c).tables.family f =
      if c.families.names f then
        (if c.activation = .now then FamilyBanks.activate c.tag (s.tables.family f)
         else { s.tables.family f with state := .committed })
      else s.tables.family f := by
  unfold State.accept
  dsimp only
  split
  · rw [State.activate_family, TableStore.family_mapFamilies]
    split <;> rfl
  · rw [TableStore.family_mapFamilies]

/-- The Table Store's law by families: each family's own, and the TEXT totals by the TEXT banks. -/
theorem TableStore.legal_of {t : TableStore} (h : ∀ f, (t.family f).legal f)
    (ha : charTotal (t.family .text).active ≤ 12288) (hs : charTotal (t.family .text).staged ≤ 12288)
    (hc : t.cancelled.Pairwise (· < ·))
    (hr : ∀ r ∈ t.replacedRoute.toList, bankLegal .route r.entries ∧ r.cancelled.Pairwise (· < ·))
    (ht : ∀ b ∈ t.replacedText.toList, bankLegal .text b) : t.legal :=
  ⟨fun f _ => h f, ha, hs, hc, hr, ht⟩

theorem TableStore.family_legal {t : TableStore} (h : t.legal) (f : Family) : (t.family f).legal f := h.1 f (Family.mem_all f)

@[simp] theorem charTotal_nil : charTotal [] = 0 := rfl

end Sys2Proof.Machine
end

