-- ==== Sys2Proof/Laws/Draw.lean ====
section
/-! SUPPORT. What each kind of element draws at a pixel, in the words of Safety.lean (R176, R181, R182, R184). -/

namespace Sys2Proof.Machine

theorem cellWidth_pos (bigFont : Bool) : 0 < cellWidth bigFont := by cases bigFont <;> decide

/-- The pixels of a row of character cells (R181). -/
theorem cellsPixel_iff (bigFont : Bool) (cells : Text) (xs : Int) (top x0 x1 x y : Nat) :
    cellsPixel bigFont cells xs top x0 x1 x y = true ↔ cellsSet bigFont cells xs top x0 x1 x y := by
  have hw := cellWidth_pos bigFont
  unfold cellsPixel cellsSet
  dsimp only
  generalize hwe : cellWidth bigFont = w at *
  constructor
  · intro h
    split at h
    · cases h
    · rename_i hd
      simp only [not_or, Int.not_lt, Nat.not_lt] at hd
      obtain ⟨n, hn⟩ := Int.eq_ofNat_of_zero_le hd.1
      rw [hn] at h
      simp only [Int.toNat_natCast] at h
      have hdm := Nat.div_add_mod n w
      have hlt := Nat.mod_lt n hw
      rw [Nat.mul_comm] at hdm
      split at h
      · cases h
      · rename_i c hc
        simp only [glyphPixel, Bool.and_eq_true, decide_eq_true_eq, bne_iff_ne] at h
        obtain ⟨⟨h1, h2⟩, ⟨hsp, -, hh⟩, hg⟩ := h
        refine ⟨n / w, c, hc, hsp, h1, by omega, by omega, by omega, hd.2, by omega, ?_⟩
        have : ((x : Int) - (xs + ((n / w * w : Nat) : Int))).toNat = n % w := by omega
        rw [this]; exact hg
  · rintro ⟨j, c, hc, hsp, h1, h2, h3, h4, h5, h6, hg⟩
    obtain ⟨m, hm⟩ := Int.eq_ofNat_of_zero_le (by omega : 0 ≤ (x : Int) - (xs + ((j * w : Nat) : Int)))
    have hn : (x : Int) - xs = ((j * w + m : Nat) : Int) := by push_cast at hm ⊢; omega
    have hmw : m < w := by omega
    have hdiv : (j * w + m) / w = j := by
      rw [Nat.mul_comm, Nat.mul_add_div hw, Nat.div_eq_of_lt hmw, Nat.add_zero]
    have hmod : (j * w + m) % w = m := by
      rw [Nat.mul_comm, Nat.mul_add_mod, Nat.mod_eq_of_lt hmw]
    rw [if_neg (by omega), hn]
    simp only [Int.toNat_natCast, hdiv, hc, hmod]
    rw [hm] at hg
    simp only [Int.toNat_natCast] at hg
    simp only [glyphPixel, Bool.and_eq_true, decide_eq_true_eq, bne_iff_ne]
    rw [hwe]
    exact ⟨⟨h1, by omega⟩, ⟨hsp, hmw, by omega⟩, hg⟩

/-- A text element writes its colour on the pixels its cells set, and nothing elsewhere (R181, R182). -/
theorem colourAt_text (e : Element) (t : Text) (x y : Nat) :
    DrawItem.colourAt ⟨e, .text t none⟩ x y =
      if cellsPixel e.bigFont t (alignedAt e.align e.rect.x0 e.rect.w (t.length * cellWidth e.bigFont)) e.rect.y0 e.rect.x0
        (e.rect.x0 + e.rect.w - 1) x y then some e.colour else none := rfl

theorem colourAt_scrolled (e : Element) (t : Text) (offset x y : Nat) :
    DrawItem.colourAt ⟨e, .text t (some offset)⟩ x y =
      if cellsPixel e.bigFont (scrolledCells t offset (e.rect.w / cellWidth e.bigFont)) e.rect.x0 e.rect.y0 e.rect.x0
        (e.rect.x0 + e.rect.w - 1) x y then some e.colour else none := rfl

/-- The elements are drawn one over the other (R176 step 2). -/
theorem ComposeJob.pixel_append (background : Colour) (items : List DrawItem) (i : DrawItem) (x y : Nat) :
    ComposeJob.pixel ⟨background, items ++ [i]⟩ x y = i.draw x y (ComposeJob.pixel ⟨background, items⟩ x y) := by
  simp [ComposeJob.pixel, List.foldl_append]

end Sys2Proof.Machine
end

