-- ==== Sys2Proof/Laws/Line.lean ====
section
/-! SUPPORT. What the line's shared operations do: the arbiter, the offers, and that each keeps a port legal. -/

namespace Sys2Proof.Machine

theorem count16_le (n k : Nat) : count16 n k ≤ 65535 := by simp [count16, saturate]

@[simp] theorem LineInterface.port_mapPort_self (l : LineInterface) (p : Port) (g : PortState → PortState) :
    (l.mapPort p g).port p = g (l.port p) := by cases p <;> rfl

@[simp] theorem LineInterface.port_mapPort_other (l : LineInterface) (p : Port) (g : PortState → PortState) :
    (l.mapPort p g).port p.other = l.port p.other := by cases p <;> rfl

@[simp] theorem LineInterface.port_mapPort_of_other (l : LineInterface) (p : Port) (g : PortState → PortState) :
    (l.mapPort p.other g).port p = l.port p := by cases p <;> rfl

@[simp] theorem LineInterface.mapPort_relay (l : LineInterface) (p : Port) (g : PortState → PortState) :
    (l.mapPort p g).relay = l.relay := by cases p <;> rfl

@[simp] theorem LineInterface.offer_relay (l : LineInterface) (p : Port) (f : Frame) : (l.offer p f).relay = l.relay := by
  simp [LineInterface.offer]

/-- The arbiter changes nothing but the queues, the frame being sent and the run count. -/
@[simp] theorem PortState.arbitrate_link (q : PortState) : q.arbitrate.link = q.link := by
  unfold PortState.arbitrate; repeat' split
  all_goals rfl

@[simp] theorem PortState.arbitrate_counters (q : PortState) :
    q.arbitrate.badCheck = q.badCheck ∧ q.arbitrate.throughDrop = q.throughDrop ∧
      q.arbitrate.localDrop = q.localDrop ∧ q.arbitrate.linkLoss = q.linkLoss := by
  unfold PortState.arbitrate; repeat' split
  all_goals simp

/-- Everything the arbiter can do (R13). -/
theorem PortState.arbitrate_cases (q : PortState) :
    (q.sending.isSome = true ∧ q.arbitrate = q) ∨
    (q.sending = none ∧ q.own = [] ∧ q.through = [] ∧ q.arbitrate = q) ∨
    (∃ f own, q.sending = none ∧ q.own = f :: own ∧ (q.through = [] ∨ q.run = 4) ∧
      q.arbitrate = { q with own := own, sending := some f, run := 0 }) ∨
    (∃ f own g through, q.sending = none ∧ q.own = f :: own ∧ q.through = g :: through ∧ q.run ≠ 4 ∧
      q.arbitrate = { q with through := through, sending := some g, run := q.run + 1 }) ∨
    (∃ g through, q.sending = none ∧ q.own = [] ∧ q.through = g :: through ∧
      q.arbitrate = { q with through := through, sending := some g }) := by
  unfold PortState.arbitrate
  cases hs : q.sending with
  | some x => exact .inl ⟨rfl, rfl⟩
  | none =>
    cases ho : q.own with
    | nil =>
      cases ht : q.through with
      | nil => exact .inr (.inl ⟨rfl, rfl, rfl, rfl⟩)
      | cons g th => exact .inr (.inr (.inr (.inr ⟨g, th, rfl, rfl, rfl, rfl⟩)))
    | cons f own =>
      cases ht : q.through with
      | nil => exact .inr (.inr (.inl ⟨f, own, rfl, rfl, .inl rfl, rfl⟩))
      | cons g th =>
        by_cases hr : q.run = 4
        · exact .inr (.inr (.inl ⟨f, own, rfl, rfl, .inr hr, by simp [hr]⟩))
        · exact .inr (.inr (.inr (.inl ⟨f, own, g, th, rfl, rfl, rfl, hr, by simp [hr]⟩)))

/-- The arbiter leaves a port legal whose queues and counters are, and whose link is UP or transmitter busy or queues
empty. -/
theorem PortState.arbitrate_legal {q : PortState} (ht : q.through.length ≤ 8) (ho : q.own.length ≤ 4) (hr : q.run ≤ 4)
    (hc : q.badCheck ≤ 65535 ∧ q.throughDrop ≤ 65535 ∧ q.localDrop ≤ 65535 ∧ q.linkLoss ≤ 65535)
    (hl : q.link ≠ .up → q.sending = none ∧ q.through = [] ∧ q.own = []) : q.arbitrate.legal := by
  rcases q.arbitrate_cases with ⟨h1, h2⟩ | ⟨h1, h2, h3, h4⟩ | ⟨f, own, h1, h2, h3, h4⟩ | ⟨f, own, g, th, h1, h2, h3, h4, h5⟩ |
    ⟨g, th, h1, h2, h3, h4⟩
  · rw [h2]; refine ⟨ht, ho, hr, hc, ?_, fun h => (hl h).1⟩
    intro h; simp [h] at h1
  · rw [h4]; exact ⟨ht, ho, hr, hc, fun _ => ⟨h3, h2⟩, fun h => (hl h).1⟩
  · rw [h4]; refine ⟨ht, ?_, by simp, hc, by simp, ?_⟩
    · simp only [h2, List.length_cons] at ho ⊢; omega
    · intro h; have := (hl h).2.2; simp [h2] at this
  · rw [h5]; refine ⟨?_, ho, ?_, hc, by simp, ?_⟩
    · simp only [h3, List.length_cons] at ht ⊢; omega
    · simp only; omega
    · intro h; have := (hl h).2.2; simp [h2] at this
  · rw [h4]; refine ⟨?_, ho, hr, hc, by simp, ?_⟩
    · simp only [h3, List.length_cons] at ht ⊢; omega
    · intro h; have := (hl h).2.1; simp [h3] at this

/-- An offered frame of the part keeps the port legal (R11, R12). -/
theorem PortState.offerLocal_legal {q : PortState} (f : Frame) (h : q.legal) : (q.offerLocal f).legal := by
  obtain ⟨ht, ho, hr, hc, hi, hl⟩ := h
  unfold PortState.offerLocal
  split
  · exact ⟨ht, ho, hr, hc, hi, hl⟩
  · rename_i hup
    split
    · exact PortState.arbitrate_legal ht (by simp; omega) hr hc (fun h => absurd h hup)
    · exact ⟨ht, ho, hr, ⟨hc.1, hc.2.1, count16_le _ _, hc.2.2.2⟩, hi, hl⟩

@[simp] theorem PortState.offerLocal_link (q : PortState) (f : Frame) : (q.offerLocal f).link = q.link := by
  unfold PortState.offerLocal; repeat' split
  all_goals simp

/-- An offered forward copy keeps an UP port legal (R7, R12). -/
theorem PortState.offerThrough_legal {q : PortState} (f : Frame) (h : q.legal) (hup : q.link = .up) :
    (q.offerThrough f).legal := by
  obtain ⟨ht, ho, hr, hc, hi, hl⟩ := h
  unfold PortState.offerThrough
  split
  · exact PortState.arbitrate_legal (by simp; omega) ho hr hc (fun h => absurd hup h)
  · exact ⟨ht, ho, hr, ⟨hc.1, count16_le _ _, hc.2.2⟩, hi, hl⟩

@[simp] theorem PortState.offerThrough_link (q : PortState) (f : Frame) : (q.offerThrough f).link = q.link := by
  unfold PortState.offerThrough; repeat' split
  all_goals simp

/-- A change of one port that keeps it legal, and its link where the relay is CLOSED, keeps the line legal. -/
theorem LineInterface.mapPort_legal {l : LineInterface} {p : Port} {g : PortState → PortState} (h : l.legal)
    (hg : (g (l.port p)).legal) (hd : l.relay = .closed → (g (l.port p)).link = .down) : (l.mapPort p g).legal := by
  cases p
  · exact ⟨hg, h.2.1, fun hr => ⟨hd hr, (h.2.2 hr).2⟩⟩
  · exact ⟨h.1, hg, fun hr => ⟨(h.2.2 hr).1, hd hr⟩⟩

theorem LineInterface.port_legal {l : LineInterface} (h : l.legal) (p : Port) : (l.port p).legal := by
  cases p
  · exact h.1
  · exact h.2.1

theorem LineInterface.port_down {l : LineInterface} (h : l.legal) (p : Port) (hr : l.relay = .closed) :
    (l.port p).link = .down := by
  cases p
  · exact (h.2.2 hr).1
  · exact (h.2.2 hr).2

/-- A frame of the part offered to a port keeps the line legal. -/
theorem LineInterface.offer_legal {l : LineInterface} (h : l.legal) (p : Port) (f : Frame) : (l.offer p f).legal :=
  LineInterface.mapPort_legal h (PortState.offerLocal_legal f (LineInterface.port_legal h p))
    (fun hr => by simpa using LineInterface.port_down h p hr)

/-- A LINK_EVENT offered keeps the line legal. -/
theorem LineInterface.offerEvent_legal {l : LineInterface} (h : l.legal) (u : FormationUnit) (f : Frame) :
    (l.offerEvent u f).legal := by
  unfold LineInterface.offerEvent
  split
  · exact LineInterface.offer_legal h _ _
  · exact LineInterface.offer_legal (LineInterface.offer_legal h _ _) _ _

end Sys2Proof.Machine
end

