-- ==== Sys2Proof/Laws/Management.lean ====
section
/-! SUPPORT. What the Management Unit's meanings can do after the common checks: one lemma for each, refusals and all. -/

namespace Sys2Proof.Machine

variable {s : State}

/-- A load refused changes nothing but the context; a load accepted writes its records (R47 to R49). -/
theorem loadRecords_cases (s : State) (f : Family) (i m : Nat) (bytes : List Byte) :
    (∃ r, s.loadRecords f i m bytes = refuse s.noContext r) ∨
      ∃ rs, 1 ≤ m ∧ i + m ≤ f.capacity ∧ splitRecords f m bytes = some rs ∧
        (f = .text → (∀ r ∈ rs, r.length ≤ 96) ∧ charTotal (writeRecords .text s.tables.text.staged i rs) ≤ 12288) ∧
        s.loadRecords f i m bytes =
          ⟨{ s with tables := s.tables.setFamily f { s.tables.family f with
                      staged := writeRecords f (s.tables.family f).staged i rs, state := .filling },
                    mgmt := { s.mgmt with context := some (f, i + m) } }, .ok, .context f (i + m)⟩ := by
  unfold State.loadRecords
  split
  · exact .inl ⟨_, rfl⟩
  rename_i hm
  split
  · exact .inl ⟨_, rfl⟩
  rename_i rs hrs
  dsimp only
  split
  · exact .inl ⟨_, rfl⟩
  split
  · exact .inl ⟨_, rfl⟩
  rename_i h5 h6
  refine .inr ⟨rs, by omega, by omega, hrs, ?_, rfl⟩
  rintro rfl
  simp only [true_and, List.any_eq_true, decide_eq_true_eq, not_exists, not_and, Nat.not_lt] at h5 h6
  exact ⟨h5, h6⟩

/-- A COMMIT refused by its own tests changes nothing; one that passes them is accepted (R52). -/
theorem commit_cases (s : State) (args : List Byte) :
    ((s.commit args).after = s ∧ (s.commit args).result ≠ .ok) ∨
      ∃ a, activationOf (natAt args 1) (natAt args 2) = some a ∧ s.mgmt.commit = none ∧
        (FamilySet.ofByte (byteAt args 0)).isNone = false ∧ natAt args 0 ≤ 31 ∧
        (∀ f, (FamilySet.ofByte (byteAt args 0)).names f = true → (s.tables.family f).state ≠ .empty) ∧
        s.departureRefused (FamilySet.ofByte (byteAt args 0)) a = none ∧
        validate s.tables (FamilySet.ofByte (byteAt args 0)) = none ∧
        s.commit args = ⟨s.accept { families := FamilySet.ofByte (byteAt args 0), activation := a, tag := wordAt args 3 2 },
          .ok, .tag (wordAt args 3 2)⟩ := by
  unfold State.commit
  dsimp only
  split
  · left; split <;> simp
  rename_i a ha
  split
  · left; simp
  rename_i hp
  split
  · left; simp
  rename_i hf
  split
  · left; simp
  rename_i he
  split
  · rename_i r hr
    left
    refine ⟨rfl, ?_⟩
    simp only [State.departureRefused] at hr
    repeat' split at hr
    all_goals cases hr
    all_goals simp
  rename_i hr
  split
  · left; simp
  rename_i hv
  refine .inr ⟨a, ha, by simpa using hp, by simpa using fun h => hf (.inl h), by omega, ?_, hr, hv, rfl⟩
  intro f hf'
  have := List.find?_eq_none.1 he f (FamilySet.mem_list.2 hf')
  simpa using this

/-- RESV_ADD's tests passed: what they establish (R114). -/
theorem resvAddTest_passed {t : TableStore} {calling : List Nat} {u : ReservationUnit} {x : ResvRecord} {b a : Nat}
    (h : resvAddTest t calling u x = .inr (b, a)) :
    x.id ≠ 0 ∧ (∀ e ∈ t.resv.active, (resvRecord e.2).id ≠ x.id) ∧ t.resv.active.length < 512 ∧ x.slot ≤ 127 ∧
      (enabledSlot t.seat.active x.slot).isSome = true ∧ x.board ≠ x.alight ∧ onRoute t calling x = some (b, a) ∧ b ≤ a ∧
      ∀ e ∈ chainOf u.placements x.slot, spansOverlap b a e.b e.a = false := by
  unfold resvAddTest at h
  split at h
  · cases h
  rename_i h1
  split at h
  · cases h
  rename_i h2
  split at h
  · cases h
  rename_i h3
  split at h
  · cases h
  rename_i h4
  split at h
  · cases h
  rename_i h5
  split at h
  · cases h
  rename_i b' a' h6
  split at h
  · cases h
  rename_i h7
  split at h
  · cases h
  rename_i h8
  cases h
  simp only [List.any_eq_true, beq_iff_eq, not_exists, not_and] at h2
  simp only [List.any_eq_true, not_exists, not_and, Bool.not_eq_true] at h8
  simp only [not_or, Nat.not_lt, Option.isNone_iff_eq_none] at h4
  exact ⟨h1, h2, by omega, h4.1, Option.isSome_iff_ne_none.2 h4.2, h5, h6, by omega, h8⟩

/-- The ordinals of a record on the route are those of its codes, and members of C (R110, R114). -/
theorem onRoute_spec {t : TableStore} {calling : List Nat} {x : ResvRecord} {b a : Nat}
    (h : onRoute t calling x = some (b, a)) :
    t.lookup x.board = some b ∧ t.lookup x.alight = some a ∧ b ∈ calling ∧ a ∈ calling := by
  unfold onRoute at h
  split at h
  · rename_i b' a' hb ha
    split at h
    · rename_i hc; cases h; exact ⟨hb, ha, hc.1, hc.2⟩
    · cases h
  · cases h

/-- ACCEPT_INSERT refused changes nothing; one that passes its tests inserts the entry (R148). -/
theorem acceptInsert_cases (s : State) (args : List Byte) :
    (∃ r, s.acceptInsert args = refuse s r ∧ r ≠ .ok) ∨
      (natAt args 1 ≠ 0 ∧ natAt args 7 ≤ 1 ∧ s.notice.acceptance.length < 24 ∧
        (∀ y ∈ s.notice.acceptance, y.id ≠ natAt args 1) ∧
        (natAt args 0 = 0 ∨ ∃ y ∈ s.notice.acceptance, y.id = natAt args 0) ∧
        s.acceptInsert args =
          ⟨{ s with notice := { s.notice with
                acceptance := insertAfter (natAt args 0) (filterEntry args) s.notice.acceptance } }, .ok,
           .listCount (insertAfter (natAt args 0) (filterEntry args) s.notice.acceptance).length⟩) := by
  unfold State.acceptInsert
  dsimp only
  split
  · exact .inl ⟨_, rfl, by simp⟩
  rename_i h1
  split
  · exact .inl ⟨_, rfl, by simp⟩
  rename_i h2
  split
  · exact .inl ⟨_, rfl, by simp⟩
  rename_i h3
  split
  · exact .inl ⟨_, rfl, by simp⟩
  rename_i h4
  simp only [not_or, Nat.not_lt] at h1
  simp only [List.any_eq_true, beq_iff_eq, not_exists, not_and] at h3
  simp only [ne_eq, Bool.not_eq_true', List.any_eq_false, beq_iff_eq, not_and, not_forall, not_not] at h4
  refine .inr ⟨h1.1, h1.2, by omega, h3, ?_, rfl⟩
  by_cases h0 : natAt args 0 = 0
  · exact .inl h0
  · obtain ⟨y, hy, he⟩ := h4 h0
    exact .inr ⟨y, hy, by simpa using he⟩

end Sys2Proof.Machine
end

