-- ==== Sys2Proof/Laws/Notice.lean ====
section
/-! SUPPORT. What the Notice Unit's operations do to its queue and lines, and that each keeps the unit within its law. -/

namespace Sys2Proof.Machine

variable {s : State} {u : NoticeUnit}

/-! ### The queue (R150, R151) -/

theorem NoticeUnit.find_spec {id : Nat} {e : NoticeEntry} (h : u.find id = some e) : e ∈ u.queue ∧ e.id = id :=
  ⟨List.mem_of_find?_eq_some h, by simpa using List.find?_some h⟩

theorem NoticeUnit.find_none {id : Nat} (h : u.find id = none) : ∀ e ∈ u.queue, e.id ≠ id := by
  intro e he
  simpa using List.find?_eq_none.1 h e he

theorem mem_insertEntry {q : List NoticeEntry} {e x : NoticeEntry} : x ∈ insertEntry q e ↔ x = e ∨ x ∈ q := by
  induction q with
  | nil => simp [insertEntry]
  | cons y q ih =>
    unfold insertEntry
    split
    · simp
    · simp only [List.mem_cons, ih]; tauto

theorem insertEntry_perm (q : List NoticeEntry) (e : NoticeEntry) : (insertEntry q e).Perm (e :: q) := by
  induction q with
  | nil => exact List.Perm.refl _
  | cons y q ih =>
    unfold insertEntry
    split
    · exact List.Perm.refl _
    · exact (ih.cons y).trans (List.Perm.swap e y q)

/-- The queue keeps its ascending order of effective priority, a new entry at the end of its class (R151). -/
theorem insertEntry_sorted {q : List NoticeEntry} (h : q.Pairwise (fun x y => x.effective ≤ y.effective)) (e : NoticeEntry) :
    (insertEntry q e).Pairwise (fun x y => x.effective ≤ y.effective) := by
  induction q with
  | nil => simp [insertEntry]
  | cons y q ih =>
    rw [List.pairwise_cons] at h
    unfold insertEntry
    split
    · refine List.pairwise_cons.2 ⟨?_, List.pairwise_cons.2 h⟩
      intro z hz
      rcases List.mem_cons.1 hz with rfl | hz
      · omega
      · have := h.1 z hz; omega
    · refine List.pairwise_cons.2 ⟨?_, ih h.2⟩
      intro z hz
      rcases mem_insertEntry.1 hz with rfl | hz
      · omega
      · exact h.1 z hz

/-- The law of the queue. -/
abbrev queueLaw (q : List NoticeEntry) : Prop :=
  q.length ≤ 16 ∧ (q.map (·.id)).Nodup ∧ q.Pairwise (fun x y => x.effective ≤ y.effective) ∧ ∀ e ∈ q, e.legal

theorem queueLaw_unique {q : List NoticeEntry} (h : (q.map (·.id)).Nodup) {x y : NoticeEntry} (hx : x ∈ q) (hy : y ∈ q)
    (he : x.id = y.id) : x = y := List.inj_on_of_nodup_map h hx hy he

theorem queueLaw_map {q : List NoticeEntry} (h : queueLaw q) {g : NoticeEntry → NoticeEntry}
    (hg : ∀ x ∈ q, (g x).id = x.id ∧ (g x).effective = x.effective ∧ (g x).legal) :
    queueLaw (q.map g) ∧ (q.map g).map (·.id) = q.map (·.id) := by
  have hi : (q.map g).map (·.id) = q.map (·.id) := by
    rw [List.map_map]; exact List.map_congr_left (fun x hx => (hg x hx).1)
  refine ⟨⟨by simpa using h.1, by rw [hi]; exact h.2.1, ?_, ?_⟩, hi⟩
  · rw [List.pairwise_map]
    refine h.2.2.1.imp_of_mem (fun {x y} hx hy hxy => ?_)
    rw [(hg x hx).2.1, (hg y hy).2.1]; exact hxy
  · intro e he
    obtain ⟨x, hx, rfl⟩ := List.mem_map.1 he
    exact (hg x hx).2.2

/-- An entry of the queue replaced in its place by one of the same id and effective priority. -/
theorem queueLaw_replace {q : List NoticeEntry} (h : queueLaw q) {old e : NoticeEntry} (ho : old ∈ q) (hi : e.id = old.id)
    (hp : e.effective = old.effective) (he : e.legal) :
    queueLaw (replaceEntry q e) ∧ (replaceEntry q e).map (·.id) = q.map (·.id) := by
  refine queueLaw_map h (fun x hx => ?_)
  split
  · rename_i hxe
    have : x = old := queueLaw_unique h.2.1 hx ho (hxe.trans hi)
    subst this
    exact ⟨hi, hp, he⟩
  · exact ⟨rfl, rfl, h.2.2.2 x hx⟩

theorem queueLaw_filter {q : List NoticeEntry} (h : queueLaw q) (p : NoticeEntry → Bool) : queueLaw (q.filter p) :=
  ⟨(List.length_filter_le _ _).trans h.1, h.2.1.sublist (List.filter_sublist.map _), h.2.2.1.sublist List.filter_sublist,
    fun e he => h.2.2.2 e (List.mem_filter.1 he).1⟩

theorem queueLaw_insert {q : List NoticeEntry} (h : queueLaw q) {e : NoticeEntry} (hl : q.length < 16)
    (hn : ∀ x ∈ q, x.id ≠ e.id) (he : e.legal) : queueLaw (insertEntry q e) := by
  have hp := insertEntry_perm q e
  refine ⟨by rw [hp.length_eq]; simp; omega, ?_, insertEntry_sorted h.2.2.1 e, ?_⟩
  · rw [(hp.map (·.id)).nodup_iff]
    refine List.nodup_cons.2 ⟨?_, h.2.1⟩
    intro hm
    obtain ⟨x, hx, hxe⟩ := List.mem_map.1 hm
    exact hn x hx hxe
  · intro x hx
    rcases mem_insertEntry.1 hx with rfl | hx
    · exact he
    · exact h.2.2.2 x hx

/-! ### The lines (R145, R157) -/

theorem dwellOf_bounds {n : Nat} (h : n ≤ 96) : 1 ≤ dwellOf n ∧ dwellOf n ≤ 20 := by
  unfold dwellOf; split <;> omega

theorem Lines.legal_mono {ids ids' : List Nat} (h : ∀ i ∈ ids, i ∈ ids') {l : Lines} (hl : l.legal ids = true) :
    l.legal ids' = true := by
  cases l with
  | blank => rfl
  | default => rfl
  | showing id text dwell =>
    simp only [Lines.legal, Bool.and_eq_true, decide_eq_true_eq, List.contains_iff_mem] at hl ⊢
    exact ⟨h id hl.1, hl.2⟩

/-! ### The law kept -/

theorem NoticeUnit.legal_queue (h : u.legal) {q : List NoticeEntry} (hq : queueLaw q)
    (hi : q.map (·.id) = u.queue.map (·.id)) : ({ u with queue := q } : NoticeUnit).legal :=
  ⟨hq, h.2.1, by dsimp only; rw [hi]; exact h.2.2.1, h.2.2.2⟩

theorem NoticeUnit.legal_lines (h : u.legal) {l : Lines} (hl : l.legal (u.queue.map (·.id)) = true) :
    ({ u with lines := l } : NoticeUnit).legal :=
  ⟨h.1, h.2.1, hl, h.2.2.2⟩

theorem NoticeUnit.endShow_spec (u : NoticeUnit) :
    u.endShow.unit.queue = u.queue ∧ (u.legal → u.endShow.unit.legal) ∧ (∀ i, u.endShow.unit.shows i = false) ∧
      u.endShow.unit.dropped = u.dropped ∧ u.endShow.unit.acceptance = u.acceptance := by
  unfold NoticeUnit.endShow
  split
  · exact ⟨rfl, fun h => NoticeUnit.legal_lines h rfl, fun _ => rfl, rfl, rfl⟩
  · rename_i hl; exact ⟨rfl, id, fun _ => by simp [NoticeUnit.shows, Did.nothing, hl], rfl, rfl⟩
  · rename_i hl; exact ⟨rfl, id, fun _ => by simp [NoticeUnit.shows, Did.nothing, hl], rfl, rfl⟩

/-- The choice of R157 keeps the law and the queue's ids. -/
theorem NoticeUnit.settle_spec (h : u.legal) :
    (u.settle s).unit.legal ∧ (u.settle s).unit.queue.map (·.id) = u.queue.map (·.id) := by
  unfold NoticeUnit.settle
  split
  · exact ⟨h, rfl⟩
  · split
    · exact ⟨NoticeUnit.legal_lines h rfl, rfl⟩
    · split
      · rename_i e he
        have hm := List.mem_of_find?_eq_some he
        obtain ⟨e1, e2, e3, e4, e5, e6, e7⟩ := h.1.2.2.2 e hm
        have hs : e.started.legal := ⟨e1, e2, e3, e3, e5, e6, e7⟩
        obtain ⟨hq, hi⟩ := queueLaw_replace h.1 hm (e := e.started) rfl rfl hs
        refine ⟨?_, hi⟩
        have hk := NoticeUnit.legal_queue h hq hi
        refine NoticeUnit.legal_lines (u := { u with queue := replaceEntry u.queue e.started }) hk ?_
        have hmem : e.id ∈ (replaceEntry u.queue e.started).map (·.id) := by
          rw [hi]; exact List.mem_map.2 ⟨e, hm, rfl⟩
        have hlen : ((noticeText s.tables e).take 96).length ≤ 96 := by simp
        simp only [Lines.legal, Bool.and_eq_true, decide_eq_true_eq, List.contains_iff_mem]
        exact ⟨hmem, hlen, dwellOf_bounds hlen⟩
      · exact ⟨NoticeUnit.legal_lines h rfl, rfl⟩

/-- A removal leaves the queue without the entry of that id (R154). -/
theorem NoticeUnit.remove_queue (u : NoticeUnit) (id : Nat) :
    (u.remove id).unit.queue = u.queue.filter (fun x => x.id != id) := by
  unfold NoticeUnit.remove
  split
  · rename_i hn
    symm
    exact List.filter_eq_self.2 (fun x hx => by simpa using NoticeUnit.find_none hn x hx)
  · dsimp only [Did.andThen]
    split
    · exact (NoticeUnit.endShow_spec _).1
    · rfl

/-- A removal keeps the lines on their entry, or ends the show of the entry that leaves. -/
theorem NoticeUnit.remove_lines {id : Nat} (hl : u.lines.legal (u.queue.map (·.id)) = true) :
    (u.remove id).unit.lines.legal ((u.remove id).unit.queue.map (·.id)) = true := by
  rw [NoticeUnit.remove_queue]
  unfold NoticeUnit.remove
  split
  · rename_i hn
    have : u.queue.filter (fun x => x.id != id) = u.queue :=
      List.filter_eq_self.2 (fun x hx => by simpa using NoticeUnit.find_none hn x hx)
    rw [this]; exact hl
  · dsimp only [Did.andThen]
    split
    · unfold NoticeUnit.endShow
      dsimp only
      split
      · rfl
      · rename_i hb; simp [Did.nothing, hb, Lines.legal]
      · rename_i hb; simp [Did.nothing, hb, Lines.legal]
    · rename_i hs
      dsimp only [Did.nothing]
      unfold NoticeUnit.shows at hs
      split at hs
      · rename_i i text dwell hq
        rw [hq] at hl ⊢
        simp only [Lines.legal, Bool.and_eq_true, decide_eq_true_eq, List.contains_iff_mem] at hl ⊢
        refine ⟨?_, hl.2⟩
        obtain ⟨x, hx, hxi⟩ := List.mem_map.1 hl.1
        refine List.mem_map.2 ⟨x, List.mem_filter.2 ⟨hx, ?_⟩, hxi⟩
        simpa [hxi] using hs
      · rename_i hq; rw [hq]; rfl
      · rename_i hq; rw [hq]; rfl

/-- A removal changes nothing but the queue and the lines. -/
theorem NoticeUnit.remove_rest (u : NoticeUnit) (id : Nat) :
    (u.remove id).unit.acceptance = u.acceptance ∧ (u.remove id).unit.defaultText = u.defaultText ∧
      (u.remove id).unit.basis = u.basis ∧ (u.remove id).unit.rejected = u.rejected ∧
      (u.remove id).unit.dropped = u.dropped := by
  unfold NoticeUnit.remove
  split
  · exact ⟨rfl, rfl, rfl, rfl, rfl⟩
  · dsimp only [Did.andThen]
    split
    · unfold NoticeUnit.endShow
      split <;> exact ⟨rfl, rfl, rfl, rfl, rfl⟩
    · exact ⟨rfl, rfl, rfl, rfl, rfl⟩

theorem NoticeUnit.remove_legal (h : u.legal) (id : Nat) : (u.remove id).unit.legal := by
  obtain ⟨r1, r2, -, r4, r5⟩ := NoticeUnit.remove_rest u id
  refine ⟨?_, ?_, NoticeUnit.remove_lines h.2.2.1, ?_, ?_, ?_⟩
  · rw [NoticeUnit.remove_queue]; exact queueLaw_filter h.1 _
  · rw [r1]; exact h.2.1
  · rw [r2]; exact h.2.2.2.1
  · rw [r4]; exact h.2.2.2.2.1
  · rw [r5]; exact h.2.2.2.2.2

theorem NoticeUnit.removeAndSettle_spec (h : u.legal) (id : Nat) :
    (u.removeAndSettle s id).unit.legal ∧
      (u.removeAndSettle s id).unit.queue.map (·.id) = (u.queue.filter (fun x => x.id != id)).map (·.id) := by
  have := NoticeUnit.settle_spec (s := s) (NoticeUnit.remove_legal h id)
  rw [NoticeUnit.remove_queue] at this
  exact this

theorem NoticeUnit.endCounted_legal (h : u.legal) : u.endCounted.unit.legal := by
  unfold NoticeUnit.endCounted
  split
  · dsimp only [Did.andThen]
    have hk := (NoticeUnit.endShow_spec u).2.1 h
    split
    · split
      · exact NoticeUnit.remove_legal hk _
      · exact hk
    · exact hk
  · exact h
  · exact h

theorem NoticeUnit.preempt_legal (h : u.legal) : u.preempt.unit.legal := by
  unfold NoticeUnit.preempt
  split
  · split
    · split
      · exact NoticeUnit.endCounted_legal h
      · exact h
    · exact h
  · exact h
  · exact h

theorem NoticeUnit.nowDue_legal (h : u.legal) (effective : Nat) : (u.nowDue s effective).unit.legal := by
  unfold NoticeUnit.nowDue
  dsimp only [Did.andThen]
  refine (NoticeUnit.settle_spec ?_).1
  split
  · exact NoticeUnit.preempt_legal h
  · exact h

theorem NoticeUnit.admission_legal (h : u.legal) {e : NoticeEntry} (he : e.legal) (hl : u.queue.length < 16)
    (hn : ∀ x ∈ u.queue, x.id ≠ e.id) : (u.admission s e).unit.legal := by
  unfold NoticeUnit.admission
  dsimp only [Did.andThen]
  have hq := queueLaw_insert h.1 hl hn he
  refine NoticeUnit.nowDue_legal (u := { u with queue := insertEntry u.queue e }) ⟨hq, h.2.1, ?_, h.2.2.2⟩ _
  refine Lines.legal_mono (fun i hi => ?_) h.2.2.1
  obtain ⟨x, hx, rfl⟩ := List.mem_map.1 hi
  exact List.mem_map.2 ⟨x, mem_insertEntry.2 (.inr hx), rfl⟩

theorem NoticeUnit.update_legal (h : u.legal) {old e : NoticeEntry} (ho : old ∈ u.queue) (hi : old.id = e.id)
    (he : e.legal) : (u.update s old e).unit.legal := by
  obtain ⟨e1, e2, e3, -, e5, e6, e7⟩ := he
  have hnew : ({ e with repeatTimer := old.repeatTimer } : NoticeEntry).legal :=
    ⟨e1, e2, e3, (h.1.2.2.2 old ho).2.2.2.1, e5, e6, e7⟩
  have hk : ({ u with queue :=
      (if e.effective = old.effective then replaceEntry u.queue { e with repeatTimer := old.repeatTimer }
       else insertEntry (u.queue.filter (fun x => x.id != e.id)) { e with repeatTimer := old.repeatTimer }) } :
      NoticeUnit).legal := by
    split
    · rename_i hp
      obtain ⟨q1, q2⟩ := queueLaw_replace h.1 ho (e := { e with repeatTimer := old.repeatTimer }) hi.symm hp hnew
      exact NoticeUnit.legal_queue h q1 q2
    · have hlt : (u.queue.filter (fun x => x.id != e.id)).length < 16 := by
        have : (u.queue.filter (fun x => x.id != e.id)).length < u.queue.length :=
          List.length_filter_lt_length_iff_exists.2 ⟨old, ho, by simp [hi]⟩
        have := h.1.1; omega
      refine ⟨queueLaw_insert (queueLaw_filter h.1 _) hlt ?_ hnew, h.2.1, ?_, h.2.2.2⟩
      · intro x hx
        simpa using (List.mem_filter.1 hx).2
      · refine Lines.legal_mono (fun i hm => ?_) h.2.2.1
        obtain ⟨x, hx, rfl⟩ := List.mem_map.1 hm
        by_cases hxe : x.id = e.id
        · exact List.mem_map.2 ⟨{ e with repeatTimer := old.repeatTimer }, mem_insertEntry.2 (.inl rfl), hxe.symm⟩
        · exact List.mem_map.2 ⟨x, mem_insertEntry.2 (.inr (List.mem_filter.2 ⟨hx, by simpa using hxe⟩)), rfl⟩
  unfold NoticeUnit.update
  dsimp only
  split
  · exact (NoticeUnit.settle_spec ((NoticeUnit.endShow_spec _).2.1 hk)).1
  · exact NoticeUnit.nowDue_legal hk _

theorem NoticeUnit.offer_legal (h : u.legal) {e : NoticeEntry} (he : e.legal) : (u.offer s e).unit.legal := by
  have hd : ({ u with dropped := count16 u.dropped 1 } : NoticeUnit).legal :=
    ⟨h.1, h.2.1, h.2.2.1, h.2.2.2.1, h.2.2.2.2.1, by simp [count16, saturate]⟩
  unfold NoticeUnit.offer
  split
  · rename_i old ho
    obtain ⟨o1, o2⟩ := NoticeUnit.find_spec ho
    exact NoticeUnit.update_legal h o1 o2 he
  · rename_i hn
    split
    · rename_i hl; exact NoticeUnit.admission_legal h he hl (NoticeUnit.find_none hn)
    · split
      · rename_i last hlast
        split
        · obtain ⟨r1, r2⟩ := NoticeUnit.removeAndSettle_spec (s := s) hd last.id
          have hm : last ∈ u.queue := List.mem_of_getLast? hlast
          refine NoticeUnit.admission_legal r1 he ?_ ?_
          · have hlen := congrArg List.length r2
            simp only [List.length_map] at hlen
            have : (u.queue.filter (fun x => x.id != last.id)).length < u.queue.length :=
              List.length_filter_lt_length_iff_exists.2 ⟨last, hm, by simp⟩
            have := h.1.1
            omega
          · intro x hx
            have : x.id ∈ (u.queue.filter (fun x => x.id != last.id)).map (·.id) := by
              rw [← r2]; exact List.mem_map.2 ⟨x, hx, rfl⟩
            obtain ⟨y, hy, hye⟩ := List.mem_map.1 this
            exact hye ▸ NoticeUnit.find_none hn y (List.mem_filter.1 hy).1
        · exact hd
      · exact hd

theorem intervalOf_le (n : Nat) : intervalOf n ≤ 3600 := by
  unfold intervalOf clamp; split <;> omega

/-- The entry an accepted notice makes is legal (R146, R151). -/
theorem noticeEntry_legal {f : NoticeFields} {p : Nat} (hp : p ≤ 3) (hi : f.id.toNat ≠ 0) : (noticeEntry f p).legal := by
  have h1 := f.id.isLt
  have h2 := f.count.isLt
  have h3 := f.lifetime.isLt
  refine ⟨⟨by show 1 ≤ f.id.toNat; omega, by show f.id.toNat ≤ 65535; omega⟩, hp, intervalOf_le _, Nat.zero_le _,
    by show f.count.toNat ≤ 255; omega, ?_, rfl⟩
  intro n hn
  simp only [noticeEntry] at hn
  split at hn
  · simp at hn
  · simp only [Option.mem_toList, Option.some.injEq] at hn; omega

theorem localEntry_legal (t : TableStore) (r : Progress) (k : ApproachKind) : (localEntry t r k).legal := by
  cases k <;> exact ⟨by simp [localEntry, localId], by simp [localEntry], by simp [localEntry], by simp [localEntry],
    by simp [localEntry], by simp [localEntry], rfl⟩

theorem decideNotice_le {l : List FilterEntry} (h : ∀ x ∈ l, ∀ p ∈ x.override.toList, p ≤ 3) {f : NoticeFields}
    {portion p : Nat} (hd : decideNotice l f portion = some p) : p ≤ 3 := by
  unfold decideNotice at hd
  split at hd
  · rename_i x hx
    split at hd
    · cases hd
      have hm := List.mem_of_find?_eq_some hx
      cases ho : x.override with
      | none => have := f.priority.isLt; simp only [Option.getD_none]; omega
      | some q => exact h x hm q (by simp [ho])
    · cases hd
  · cases hd

theorem joinCut_length (n : Nat) (ps : List Text) : (joinCut n ps).length ≤ n := by simp [joinCut]

theorem localText_length (t : TableStore) (r : Progress) (k : ApproachKind) : (localText t r k).length ≤ 96 := by
  cases k <;> exact joinCut_length _ _

theorem defaultLine_length (t : TableStore) (n : Nat) (c : List Nat) : (defaultLine t n c).length ≤ 96 := by
  unfold defaultLine; split
  · simp
  · exact joinCut_length _ _

theorem NoticeUnit.rebuildDefault_legal (h : u.legal) : (u.rebuildDefault s).legal :=
  ⟨h.1, h.2.1, h.2.2.1, defaultLine_length _ _ _, h.2.2.2.2⟩

theorem NoticeUnit.take_legal (h : u.legal) (f : NoticeFields) : (u.take s f).unit.legal := by
  have hr : ({ u with rejected := count16 u.rejected 1 } : NoticeUnit).legal :=
    ⟨h.1, h.2.1, h.2.2.1, h.2.2.2.1, by simp [count16, saturate], h.2.2.2.2.2⟩
  unfold NoticeUnit.take
  split
  · exact hr
  · rename_i hi
    split
    · exact h
    · split
      · exact hr
      · rename_i p hp
        exact NoticeUnit.offer_legal h (noticeEntry_legal (decideNotice_le (fun x hx => (h.2.1.2.2 x hx).2) hp) (by omega))

theorem NoticeUnit.rebuildLocal_legal (h : u.legal) (k : ApproachKind) : (u.rebuildLocal s k).unit.legal := by
  unfold NoticeUnit.rebuildLocal
  split
  · exact h
  rename_i e he
  obtain ⟨hm, hi⟩ := NoticeUnit.find_spec he
  dsimp only
  split
  · exact h
  obtain ⟨e1, e2, e3, e4, e5, e6, e7⟩ := h.1.2.2.2 e hm
  obtain ⟨q1, q2⟩ := queueLaw_replace h.1 hm
    (e := { e with text := .inlined (localText s.tables s.reck.progress k) }) rfl rfl ⟨e1, e2, e3, e4, e5, e6, e7⟩
  have hk := NoticeUnit.legal_queue h q1 q2
  split
  · rename_i id text dwell hl
    split
    · refine NoticeUnit.legal_lines hk ?_
      have := h.2.2.1
      rw [hl] at this
      simp only [Lines.legal, Bool.and_eq_true, decide_eq_true_eq, List.contains_iff_mem] at this ⊢
      rw [q2]
      exact ⟨this.1, localText_length _ _ _, this.2.2⟩
    · exact hk
  · exact hk
  · exact hk

theorem NoticeUnit.rebuildLocals_legal (h : u.legal) : (u.rebuildLocals s).unit.legal :=
  NoticeUnit.rebuildLocal_legal (NoticeUnit.rebuildLocal_legal h .calling) .closedDoor

theorem NoticeUnit.reconcile_legal (h : u.legal) : (u.reconcile s).unit.legal := by
  unfold NoticeUnit.reconcile
  dsimp only
  split
  · exact NoticeUnit.rebuildLocals_legal h
  · dsimp only [Did.andThen, Did.nothing]
    have h1 : (match u.basis with
        | some a => u.removeAndSettle s (localId a.kind)
        | none => ⟨u, []⟩ : Did NoticeUnit).unit.legal := by
      split
      · exact (NoticeUnit.removeAndSettle_spec h _).1
      · exact h
    split
    · exact NoticeUnit.offer_legal h1 (localEntry_legal _ _ _)
    · exact h1

theorem Did.each_keeps {σ α : Type} {P : σ → Prop} {f : σ → α → Did σ} {l : List α}
    (hf : ∀ u x, P u → P (f u x).unit) {u : σ} (h : P u) : P (Did.each f u l).unit := by
  induction l generalizing u with
  | nil => exact h
  | cons x l ih => exact ih (hf u x h)

theorem NoticeUnit.purge_legal (h : u.legal) (portion : Nat) : (u.purge s portion).unit.legal :=
  Did.each_keeps (P := NoticeUnit.legal) (fun _ _ h => (NoticeUnit.removeAndSettle_spec h _).1) h

theorem NoticeUnit.withdraw_legal (h : u.legal) : u.withdraw.unit.legal := by
  unfold NoticeUnit.withdraw
  split
  · obtain ⟨q1, q2⟩ := queueLaw_map h.1 (g := fun e => if e.id = _ then
        { e with due := true, showsRemaining := if e.count = 0 then e.showsRemaining else e.showsRemaining + 1 } else e)
      (fun x hx => by
        obtain ⟨e1, e2, e3, e4, e5, e6, e7⟩ := h.1.2.2.2 x hx
        split
        · exact ⟨rfl, rfl, e1, e2, e3, e4, e5, e6, e7⟩
        · exact ⟨rfl, rfl, e1, e2, e3, e4, e5, e6, e7⟩)
    exact NoticeUnit.legal_lines (NoticeUnit.legal_queue h q1 q2) rfl
  · exact NoticeUnit.legal_lines h rfl
  · exact NoticeUnit.legal_lines h rfl

theorem NoticeUnit.repeatExpired_legal (h : u.legal) {e : NoticeEntry} (he : e ∈ u.queue) :
    (u.repeatExpired s e).unit.legal := by
  obtain ⟨e1, e2, e3, e4, e5, e6, e7⟩ := h.1.2.2.2 e he
  obtain ⟨q1, q2⟩ := queueLaw_replace h.1 he (e := { e with repeatTimer := 0, due := true }) rfl rfl
    ⟨e1, e2, e3, Nat.zero_le _, e5, e6, e7⟩
  have hk := NoticeUnit.legal_queue h q1 q2
  unfold NoticeUnit.repeatExpired
  dsimp only
  split
  · exact hk
  · exact NoticeUnit.nowDue_legal hk _

/-! ### The tick (R157) -/

/-- A list of removals leaves the entries of the other ids (R154). -/
theorem NoticeUnit.removeEach_spec (l : List Nat) (u : NoticeUnit) (hl : u.lines.legal (u.queue.map (·.id)) = true) :
    (Did.each NoticeUnit.remove u l).unit.queue = u.queue.filter (fun x => !l.contains x.id) ∧
      (Did.each NoticeUnit.remove u l).unit.lines.legal
        ((Did.each NoticeUnit.remove u l).unit.queue.map (·.id)) = true ∧
      (Did.each NoticeUnit.remove u l).unit.acceptance = u.acceptance ∧
      (Did.each NoticeUnit.remove u l).unit.defaultText = u.defaultText ∧
      (Did.each NoticeUnit.remove u l).unit.rejected = u.rejected ∧
      (Did.each NoticeUnit.remove u l).unit.dropped = u.dropped := by
  induction l generalizing u with
  | nil =>
    refine ⟨?_, hl, rfl, rfl, rfl, rfl⟩
    simp [Did.each, Did.nothing]
  | cons i l ih =>
    obtain ⟨k1, k2, k3, k4, k5, k6⟩ := ih (u.remove i).unit (NoticeUnit.remove_lines hl)
    obtain ⟨r1, r2, -, r4, r5⟩ := NoticeUnit.remove_rest u i
    simp only [Did.each, Did.andThen]
    refine ⟨?_, k2, k3.trans r1, k4.trans r2, k5.trans r4, k6.trans r5⟩
    rw [k1, NoticeUnit.remove_queue, List.filter_filter]
    congr 1
    funext x
    by_cases hx : x.id = i <;> simp [hx]

theorem NoticeUnit.tickLifetimes_legal (h : u.legal) : u.tickLifetimes.unit.legal := by
  unfold NoticeUnit.tickLifetimes
  dsimp only
  have hids : (u.queue.map (fun e => { e with remaining := e.remaining.map (fun n => n - 1) } : NoticeEntry → NoticeEntry)).map
      (·.id) = u.queue.map (·.id) := by rw [List.map_map]; rfl
  have hlines := h.2.2.1
  rw [← hids] at hlines
  obtain ⟨k1, k2, k3, k4, k5, k6⟩ := NoticeUnit.removeEach_spec
    (((u.queue.map (fun e => { e with remaining := e.remaining.map (fun n => n - 1) } : NoticeEntry → NoticeEntry)).filter
      (fun e => e.remaining == some 0)).map (·.id))
    { u with queue := u.queue.map (fun e => { e with remaining := e.remaining.map (fun n => n - 1) }) } hlines
  refine ⟨?_, by rw [k3]; exact h.2.1, k2, by rw [k4]; exact h.2.2.2.1, by rw [k5]; exact h.2.2.2.2.1,
    by rw [k6]; exact h.2.2.2.2.2⟩
  rw [k1]
  refine ⟨?_, ?_, ?_, ?_⟩
  · refine (List.length_filter_le _ _).trans ?_
    simpa using h.1.1
  · refine List.Nodup.sublist (List.filter_sublist.map _) ?_
    rw [hids]; exact h.1.2.1
  · refine List.Pairwise.sublist List.filter_sublist ?_
    rw [List.pairwise_map]; exact h.1.2.2.1
  · intro e he
    obtain ⟨hm, hn⟩ := List.mem_filter.1 he
    obtain ⟨x, hx, rfl⟩ := List.mem_map.1 hm
    obtain ⟨e1, e2, e3, e4, e5, e6, e7⟩ := h.1.2.2.2 x hx
    refine ⟨e1, e2, e3, e4, e5, ?_, e7⟩
    intro n hr
    simp only [Option.mem_toList, Option.map_eq_some_iff] at hr
    obtain ⟨m, hm1, rfl⟩ := hr
    have hb := e6 m (by simp [hm1])
    refine ⟨?_, by omega⟩
    by_contra hz
    have hz0 : m - 1 = 0 := by omega
    have : x.id ∈ (((u.queue.map (fun e => { e with remaining := e.remaining.map (fun n => n - 1) } :
        NoticeEntry → NoticeEntry)).filter (fun e => e.remaining == some 0)).map (·.id)) :=
      List.mem_map.2 ⟨_, List.mem_filter.2 ⟨hm, by simp [hm1, hz0]⟩, rfl⟩
    have hc := List.contains_iff_mem.2 this
    rw [hc] at hn
    simp at hn

theorem NoticeUnit.tickRepeats_legal (h : u.legal) : u.tickRepeats.unit.legal := by
  unfold NoticeUnit.tickRepeats
  dsimp only
  obtain ⟨q1, q2⟩ := queueLaw_map h.1
    (g := fun e => { e with repeatTimer := e.repeatTimer - 1, due := e.due || e.repeatTimer == 1 })
    (fun x hx => by
      obtain ⟨e1, e2, e3, e4, e5, e6, e7⟩ := h.1.2.2.2 x hx
      exact ⟨rfl, rfl, e1, e2, e3, by dsimp only; omega, e5, e6, e7⟩)
  have hk := NoticeUnit.legal_queue h q1 q2
  split
  · exact NoticeUnit.preempt_legal hk
  · exact hk

theorem NoticeUnit.tickDwell_legal (h : u.legal) : u.tickDwell.unit.legal := by
  unfold NoticeUnit.tickDwell
  split
  · rename_i id text dwell hl
    split
    · exact NoticeUnit.endCounted_legal h
    · refine NoticeUnit.legal_lines h ?_
      have := h.2.2.1
      rw [hl] at this
      simp only [Lines.legal, Bool.and_eq_true, decide_eq_true_eq] at this ⊢
      exact ⟨this.1, this.2.1, by omega, by omega⟩
  · exact h
  · exact h

theorem NoticeUnit.tick_legal (h : u.legal) : (u.tick s).unit.legal :=
  (NoticeUnit.settle_spec (NoticeUnit.tickDwell_legal (NoticeUnit.tickRepeats_legal (NoticeUnit.tickLifetimes_legal h)))).1

/-! ### The acceptance list (R148) -/

theorem mem_insertAfter {after : Nat} {x y : FilterEntry} {l : List FilterEntry} (h : y ∈ insertAfter after x l) :
    y = x ∨ y ∈ l := by
  induction l with
  | nil => unfold insertAfter at h; split at h <;> simp_all
  | cons z l ih =>
    unfold insertAfter at h
    split at h
    · simpa using h
    · split at h
      · simp only [List.mem_cons] at h ⊢; tauto
      · rcases List.mem_cons.1 h with rfl | h
        · simp
        · rcases ih h with h | h <;> simp [h]

theorem insertAfter_length_le (after : Nat) (x : FilterEntry) (l : List FilterEntry) :
    (insertAfter after x l).length ≤ l.length + 1 := by
  induction l with
  | nil => unfold insertAfter; split <;> simp
  | cons z l ih =>
    unfold insertAfter
    split
    · simp
    · split
      · simp
      · simp; omega

theorem insertAfter_nodup {after : Nat} {x : FilterEntry} {l : List FilterEntry} (h : (l.map (·.id)).Nodup)
    (hx : ∀ y ∈ l, y.id ≠ x.id) : ((insertAfter after x l).map (·.id)).Nodup := by
  induction l with
  | nil => unfold insertAfter; split <;> simp
  | cons z l ih =>
    have hz := hx z (by simp)
    have hl : ∀ y ∈ l, y.id ≠ x.id := fun y hy => hx y (by simp [hy])
    simp only [List.map_cons, List.nodup_cons, List.mem_map, not_exists, not_and] at h
    unfold insertAfter
    split
    · simp only [List.map_cons, List.nodup_cons, List.mem_cons, List.mem_map, not_or, not_exists, not_and]
      exact ⟨⟨fun e => hz e.symm, hl⟩, h⟩
    · split
      · simp only [List.map_cons, List.nodup_cons, List.mem_cons, List.mem_map, not_or, not_exists, not_and]
        exact ⟨⟨hz, h.1⟩, hl, h.2⟩
      · simp only [List.map_cons, List.nodup_cons, List.mem_map, not_exists, not_and]
        refine ⟨fun y hy => ?_, ih h.2 hl⟩
        rcases mem_insertAfter hy with rfl | hy
        · exact fun e => hz e.symm
        · exact h.1 y hy

end Sys2Proof.Machine
end

