-- ==== Sys2Proof/Laws/NoticeShows.lean ====
section
/-! SUPPORT. The ends of shows, pre-emption and the three steps of a tick at the Notice Unit, each equal to the words of
Safety.lean. -/

namespace Sys2Proof.Machine

variable {s : State} {u : NoticeUnit}

theorem NoticeUnit.find_of_mem (h : (u.queue.map (·.id)).Nodup) {x : NoticeEntry} (hx : x ∈ u.queue) : u.find x.id = some x := by
  cases hf : u.find x.id with
  | none => exact absurd rfl (NoticeUnit.find_none hf x hx)
  | some y =>
    obtain ⟨hy, hi⟩ := NoticeUnit.find_spec hf
    rw [queueLaw_unique h hy hx hi]

/-- The entry that the lines show is in the queue (R145). -/
theorem NoticeUnit.showing_mem (h : u.legal) {id : Nat} {text : Text} {dwell : Nat} (hl : u.lines = .showing id text dwell) :
    ∃ x ∈ u.queue, x.id = id := by
  have := h.2.2.1
  rw [hl] at this
  simp only [Lines.legal, Bool.and_eq_true, List.contains_iff_mem] at this
  exact List.mem_map.1 this.1

/-- The removal of an entry that is not showing (R154). -/
theorem NoticeUnit.remove_quiet (h : (u.queue.map (·.id)).Nodup) {x : NoticeEntry} (hx : x ∈ u.queue)
    (hs : u.shows x.id = false) :
    u.remove x.id = ⟨{ u with queue := u.queue.filter (fun e => e.id != x.id) },
      if x.overlayWanted then [.overlayEnd x.id] else []⟩ := by
  simp [NoticeUnit.remove, NoticeUnit.find_of_mem h hx, hs, Did.andThen, Did.nothing]

/-- The counted end of a show (R158). -/
theorem NoticeUnit.endCounted_eq (h : u.legal) {x : NoticeEntry} (hx : x ∈ u.queue) {text : Text} {dwell : Nat}
    (hl : u.lines = .showing x.id text dwell) : u.endCounted = u.countedEnd x := by
  have hf := NoticeUnit.find_of_mem (u := { u with lines := .default }) h.1.2.1 hx
  have hr := NoticeUnit.remove_quiet (u := { u with lines := .default }) h.1.2.1 hx rfl
  have he : u.endShow = ⟨{ u with lines := .default }, [.noticeTextChange .current]⟩ := by simp [NoticeUnit.endShow, hl]
  unfold NoticeUnit.endCounted NoticeUnit.countedEnd
  simp only [hl]
  rw [he]
  simp only [Did.andThen, hf, ← NoticeEntry.spent.eq_def]
  cases x.spent <;> simp [hr, Did.nothing]

/-- Pre-emption (R159). -/
theorem NoticeUnit.preempt_eq (h : u.legal) (p : Nat) :
    (if p = 0 then u.preempt else Did.nothing u) = u.preemptedBy p := by
  have hnone : (∀ i, u.shows i = false) → u.preemptedBy p = Did.nothing u := by
    intro hn
    have : u.queue.find? (fun x => u.shows x.id) = none := List.find?_eq_none.2 (fun x _ => by simp [hn])
    simp [NoticeUnit.preemptedBy, this, Did.nothing]
  cases hl : u.lines with
  | blank =>
    rw [hnone (fun i => by simp [NoticeUnit.shows, hl])]
    split <;> simp [NoticeUnit.preempt, hl]
  | default =>
    rw [hnone (fun i => by simp [NoticeUnit.shows, hl])]
    split <;> simp [NoticeUnit.preempt, hl]
  | showing id text dwell =>
    obtain ⟨x, hx, rfl⟩ := NoticeUnit.showing_mem h hl
    have hf := NoticeUnit.find_of_mem h.1.2.1 hx
    have hs : u.queue.find? (fun y => u.shows y.id) = some x := by
      rw [← hf]; unfold NoticeUnit.find; congr 1; funext y
      simp only [NoticeUnit.shows, hl]
      rw [Bool.beq_eq_decide_eq, Bool.beq_eq_decide_eq]; exact decide_eq_decide.2 eq_comm
    unfold NoticeUnit.preemptedBy NoticeUnit.preempt
    simp only [hs, hl, hf]
    by_cases hp : p = 0
    · by_cases he : x.effective = 0
      · simp [hp, he, Did.nothing]
      · simp [hp, he, Nat.one_le_iff_ne_zero.2 he, NoticeUnit.endCounted_eq h hx hl]
    · simp [hp, Did.nothing]

theorem NoticeUnit.preemptedBy_legal (h : u.legal) (p : Nat) : (u.preemptedBy p).unit.legal := by
  rw [← NoticeUnit.preempt_eq h]
  split
  · exact NoticeUnit.preempt_legal h
  · exact h

/-- What follows when an entry becomes due (R157, R159). -/
theorem NoticeUnit.nowDue_eq (h : u.legal) (p : Nat) :
    u.nowDue s p = ⟨((u.preemptedBy p).unit.settle s).unit, (u.preemptedBy p).said ++ ((u.preemptedBy p).unit.settle s).said⟩ := by
  unfold NoticeUnit.nowDue
  rw [NoticeUnit.preempt_eq h]
  rfl

@[simp] theorem NoticeUnit.shows_queue (u : NoticeUnit) (q : List NoticeEntry) (i : Nat) :
    ({ u with queue := q } : NoticeUnit).shows i = u.shows i := rfl

/-- Whether the lines show an entry, by the entry they show. -/
theorem NoticeUnit.shows_iff (id : Nat) : u.shows id = true ↔ ∃ text dwell, u.lines = .showing id text dwell := by
  unfold NoticeUnit.shows
  cases u.lines <;> simp

/-- The removal of the entry showing (R154). -/
theorem NoticeUnit.remove_showing (h : (u.queue.map (·.id)).Nodup) {x : NoticeEntry} (hx : x ∈ u.queue)
    (hs : u.shows x.id = true) :
    u.remove x.id = ⟨{ u with queue := u.queue.filter (fun e => e.id != x.id), lines := .default },
      [.noticeTextChange .current] ++ (if x.overlayWanted then [.overlayEnd x.id] else [])⟩ := by
  obtain ⟨text, dwell, hl⟩ := (NoticeUnit.shows_iff x.id).1 hs
  simp [NoticeUnit.remove, NoticeUnit.find_of_mem h hx, hs, Did.andThen, NoticeUnit.endShow, hl]

/-- The text of a local notice rebuilt (R163): in the queue, and in the lines that show it. -/
theorem NoticeUnit.rebuildLocal_queue (h : u.legal) (k : ApproachKind) :
    (u.rebuildLocal s k).unit.queue = u.queue.map (fun e => if e.id = localId k then
      { e with text := .inlined (localText s.tables s.reck.progress k) } else e) := by
  unfold NoticeUnit.rebuildLocal
  split
  · rename_i hf
    have hn := NoticeUnit.find_none hf
    symm
    exact (List.map_congr_left (fun e he => if_neg (hn e he))).trans (List.map_id _)
  · rename_i e hf
    obtain ⟨hm, hi⟩ := NoticeUnit.find_spec hf
    have hrep : ∀ x ∈ u.queue, (if x.id = localId k then
        { x with text := .inlined (localText s.tables s.reck.progress k) } else x) =
        if x.id = e.id then { e with text := .inlined (localText s.tables s.reck.progress k) } else x := by
      intro x hx
      simp only [← hi]
      split
      · rename_i hxi; rw [queueLaw_unique h.1.2.1 hx hm hxi]
      · rfl
    rw [List.map_congr_left hrep]
    dsimp only
    split
    · rename_i ht
      symm
      refine (List.map_congr_left (fun x hx => ?_)).trans (List.map_id _)
      split
      · rename_i hxe
        rw [← ht, ← queueLaw_unique h.1.2.1 hx hm hxe]; rfl
      · rfl
    · split
      · split <;> rfl
      · rfl
      · rfl

/-! ### The tick (R157) -/

/-- Entries removed one after another (R154): their ids' show ends, and each announces its overlay's end. -/
theorem NoticeUnit.removeEach_eq (l : List NoticeEntry) (h : (u.queue.map (·.id)).Nodup)
    (hl : ∀ e ∈ l, e ∈ u.queue) (hn : (l.map (·.id)).Nodup) :
    Did.each NoticeUnit.remove u (l.map (·.id)) =
      ⟨{ u with queue := u.queue.filter (fun x => !(l.map (·.id)).contains x.id)
                lines := if l.any (fun e => u.shows e.id) then .default else u.lines },
        l.flatMap (fun e => (if u.shows e.id then [.noticeTextChange .current] else []) ++
          (if e.overlayWanted then [.overlayEnd e.id] else []))⟩ := by
  induction l generalizing u with
  | nil => simp [Did.each, Did.nothing]
  | cons e l ih =>
    have he := hl e (by simp)
    rw [List.map_cons, List.nodup_cons] at hn
    have hne : ∀ x ∈ l, x.id ≠ e.id := fun x hx hxe => hn.1 (List.mem_map.2 ⟨x, hx, hxe⟩)
    have hq := NoticeUnit.remove_queue u e.id
    have hk : ((u.remove e.id).unit.queue.map (·.id)).Nodup := by
      rw [hq]; exact List.Nodup.sublist (List.filter_sublist.map _) h
    have hfilter : ∀ q : List NoticeEntry, (q.filter (fun x => x.id != e.id)).filter (fun x => !(l.map (·.id)).contains x.id) =
        q.filter (fun x => !((e :: l).map (·.id)).contains x.id) := by
      intro q; rw [List.filter_filter]; congr 1; funext x
      by_cases hx : x.id = e.id <;> simp [hx]
    have ih' := ih hk (fun x hx => by
      rw [hq]; exact List.mem_filter.2 ⟨hl x (by simp [hx]), by simpa using hne x hx⟩) hn.2
    simp only [List.map_cons, Did.each, Did.andThen] at ih' ⊢
    rw [ih', hq, hfilter]
    by_cases hs : u.shows e.id = true
    · obtain ⟨text, dwell, hshow⟩ := (NoticeUnit.shows_iff e.id).1 hs
      have hothers : ∀ x ∈ l, u.shows x.id = false := by
        intro x hx
        simp only [NoticeUnit.shows, hshow]
        exact beq_false_of_ne (fun hxe => hne x hx hxe.symm)
      have hfm : l.flatMap (fun x => (if u.shows x.id then [Instr.noticeTextChange .current] else []) ++
            (if x.overlayWanted then [Instr.overlayEnd x.id] else [])) =
          l.flatMap (fun x => if x.overlayWanted then [Instr.overlayEnd x.id] else []) :=
        List.flatMap_congr (fun x hx => by simp [hothers x hx])
      rw [NoticeUnit.remove_showing h he hs, List.flatMap_cons, hfm]
      simp [NoticeUnit.shows, hshow]
    · have hs' : u.shows e.id = false := by simpa using hs
      rw [NoticeUnit.remove_quiet h he hs', List.flatMap_cons]
      simp only [NoticeUnit.shows_queue, List.any_cons, hs', Bool.false_or]
      rfl

/-- Step 1 of a tick (R154, R157). -/
theorem NoticeUnit.tickLifetimes_eq (h : u.legal) :
    let aged : List NoticeEntry := u.queue.map (fun e => { e with remaining := e.remaining.map (fun n => n - 1) })
    u.tickLifetimes =
      ⟨{ u with
         queue := aged.filter (fun e => e.remaining != some 0)
         lines := if aged.any (fun e => e.remaining == some 0 && u.shows e.id) then .default else u.lines },
       (aged.filter (fun e => e.remaining == some 0)).flatMap (fun e =>
         (if u.shows e.id then [.noticeTextChange .current] else []) ++
           (if e.overlayWanted then [.overlayEnd e.id] else []))⟩ := by
  intro aged
  have hids : aged.map (·.id) = u.queue.map (·.id) := by simp [aged, List.map_map, Function.comp_def]
  have hn : (aged.map (·.id)).Nodup := hids ▸ h.1.2.1
  have hr := NoticeUnit.removeEach_eq (u := { u with queue := aged }) (aged.filter (fun e => e.remaining == some 0)) hn
    (fun e he => (List.mem_filter.1 he).1) (List.Nodup.sublist (List.filter_sublist.map _) hn)
  have hq : aged.filter (fun x => !((aged.filter (fun e => e.remaining == some 0)).map (·.id)).contains x.id) =
      aged.filter (fun e => e.remaining != some 0) := by
    refine List.filter_congr (fun x hx => ?_)
    have : ((aged.filter (fun e => e.remaining == some 0)).map (·.id)).contains x.id = (x.remaining == some 0) := by
      rw [Bool.eq_iff_iff, List.contains_iff_mem]
      refine ⟨fun hm => ?_, fun hz => List.mem_map.2 ⟨x, List.mem_filter.2 ⟨hx, hz⟩, rfl⟩⟩
      obtain ⟨y, hy, hyi⟩ := List.mem_map.1 hm
      obtain ⟨hy1, hy2⟩ := List.mem_filter.1 hy
      rwa [← queueLaw_unique hn hy1 hx hyi]
    rw [this]; rfl
  unfold NoticeUnit.tickLifetimes
  dsimp only at hr ⊢
  rw [hr, hq, List.any_filter]
  rfl

/-- Step 2 of a tick (R156, R157, R159). -/
theorem NoticeUnit.tickRepeats_eq (h : u.legal) :
    let timed : NoticeUnit := { u with queue := u.queue.map (fun e =>
      { e with repeatTimer := e.repeatTimer - 1, due := e.due || e.repeatTimer == 1 }) }
    timed.legal ∧ ((∃ e ∈ u.queue, e.repeatTimer = 1 ∧ e.due = false ∧ e.effective = 0) → u.tickRepeats = timed.preemptedBy 0) ∧
      (¬ (∃ e ∈ u.queue, e.repeatTimer = 1 ∧ e.due = false ∧ e.effective = 0) → u.tickRepeats = Did.nothing timed) := by
  intro timed
  obtain ⟨q1, q2⟩ := queueLaw_map h.1
    (g := fun e => { e with repeatTimer := e.repeatTimer - 1, due := e.due || e.repeatTimer == 1 })
    (fun x hx => by
      obtain ⟨e1, e2, e3, e4, e5, e6, e7⟩ := h.1.2.2.2 x hx
      exact ⟨rfl, rfl, e1, e2, e3, by dsimp only; omega, e5, e6, e7⟩)
  have hk : timed.legal := NoticeUnit.legal_queue h q1 q2
  have hany : u.queue.any (fun e => e.repeatTimer == 1 && !e.due && e.effective == 0) = true ↔
      ∃ e ∈ u.queue, e.repeatTimer = 1 ∧ e.due = false ∧ e.effective = 0 := by
    simp [List.any_eq_true, and_assoc]
  refine ⟨hk, fun hp => ?_, fun hp => ?_⟩
  · unfold NoticeUnit.tickRepeats
    rw [if_pos (hany.2 hp), ← NoticeUnit.preempt_eq hk, if_pos rfl]
  · unfold NoticeUnit.tickRepeats
    rw [if_neg (fun hc => hp (hany.1 hc))]

/-- Step 3 of a tick (R157, R158). -/
theorem NoticeUnit.tickDwell_eq (h : u.legal) {x : NoticeEntry} (hx : x ∈ u.queue) {text : Text} {dwell : Nat}
    (hl : u.lines = .showing x.id text dwell) :
    u.tickDwell = if dwell ≤ 1 then u.countedEnd x else Did.nothing { u with lines := .showing x.id text (dwell - 1) } := by
  unfold NoticeUnit.tickDwell
  simp only [hl, NoticeUnit.endCounted_eq h hx hl]

end Sys2Proof.Machine
end

