-- ==== Sys2Proof/Laws/NoticeLocals.lean ====
section
/-! SUPPORT. The Notice Unit at the announcements of other blocks: removals, the local notices and the purge, each equal to the
words of Safety.lean. -/

namespace Sys2Proof.Machine

variable {s : State} {u : NoticeUnit}

/-- A removal and the choice that follows (R154, R157). -/
theorem NoticeUnit.removeAndSettle_eq (h : u.legal) (id : Nat) : u.removeAndSettle s id = u.without s id := by
  cases hf : u.find id with
  | none =>
    have hn := NoticeUnit.find_none hf
    have hq : u.queue.filter (fun e => e.id != id) = u.queue :=
      List.filter_eq_self.2 (fun x hx => by simpa using hn x hx)
    have hs : u.shows id = false := by
      cases hl : u.shows id with
      | false => rfl
      | true =>
        obtain ⟨text, dwell, hl⟩ := (NoticeUnit.shows_iff id).1 hl
        obtain ⟨x, hx, hxi⟩ := NoticeUnit.showing_mem h hl
        exact absurd hxi (hn x hx)
    have ha : u.queue.any (fun e => e.id == id && e.overlayWanted) = false := by
      rw [List.any_eq_false]; intro x hx; simp [hn x hx]
    unfold NoticeUnit.removeAndSettle NoticeUnit.remove NoticeUnit.without
    simp [hf, hs, hq, ha, Did.andThen, Did.nothing]
  | some x =>
    obtain ⟨hx, rfl⟩ := NoticeUnit.find_spec hf
    have ha : u.queue.any (fun e => e.id == x.id && e.overlayWanted) = x.overlayWanted := by
      rw [Bool.eq_iff_iff, List.any_eq_true]
      refine ⟨?_, fun hw => ⟨x, hx, by simp [hw]⟩⟩
      rintro ⟨y, hy, hyw⟩
      simp only [Bool.and_eq_true, beq_iff_eq] at hyw
      rw [← queueLaw_unique h.1.2.1 hy hx hyw.1]; exact hyw.2
    unfold NoticeUnit.removeAndSettle NoticeUnit.without
    rw [ha]
    cases hs : u.shows x.id with
    | false => simp [NoticeUnit.remove_quiet h.1.2.1 hx hs, Did.andThen]
    | true => simp [NoticeUnit.remove_showing h.1.2.1 hx hs, Did.andThen]

theorem NoticeUnit.without_legal (h : u.legal) (id : Nat) : (u.without s id).unit.legal := by
  rw [← NoticeUnit.removeAndSettle_eq h]; exact (NoticeUnit.removeAndSettle_spec h id).1

/-- Removals one after another (R165). -/
theorem NoticeUnit.removeAll_eq (h : u.legal) (ids : List Nat) :
    Did.each (NoticeUnit.removeAndSettle s) u ids = u.withoutAll s ids := by
  induction ids generalizing u with
  | nil => rfl
  | cons id ids ih =>
    unfold NoticeUnit.withoutAll Did.each
    simp only [Did.andThen, NoticeUnit.removeAndSettle_eq h, ih (NoticeUnit.without_legal h id)]

/-- A new entry of an ordered queue stands after those of its priority and below (R151). -/
theorem insertEntry_eq {q : List NoticeEntry} (h : q.Pairwise (fun x y => x.effective ≤ y.effective)) (e : NoticeEntry) :
    insertEntry q e =
      q.filter (fun x => x.effective ≤ e.effective) ++ e :: q.filter (fun x => e.effective < x.effective) := by
  induction q with
  | nil => rfl
  | cons x q ih =>
    rw [List.pairwise_cons] at h
    unfold insertEntry
    split
    · rename_i hlt
      have h1 : q.filter (fun y => decide (y.effective ≤ e.effective)) = [] :=
        List.filter_eq_nil_iff.2 (fun y hy => by have := h.1 y hy; simp; omega)
      have h2 : q.filter (fun y => decide (e.effective < y.effective)) = q :=
        List.filter_eq_self.2 (fun y hy => by have := h.1 y hy; simp; omega)
      simp [hlt, h1, h2, show ¬ x.effective ≤ e.effective by omega]
    · rename_i hlt
      simp [ih h.2, hlt, show x.effective ≤ e.effective by omega]

/-- A local notice offered (R151 to R153, R162). -/
theorem NoticeUnit.offer_local (h : u.legal) {x : NoticeEntry} (hp : x.effective = 1) (hw : x.overlayWanted = false) :
    u.offer s x = u.offeredLocal s x := by
  have hdue : ∀ v : NoticeUnit, v.nowDue s 1 = v.settle s := fun v => by simp [NoticeUnit.nowDue, Did.andThen, Did.nothing]
  have hadm : ∀ v : NoticeUnit, v.legal → v.admission s x = NoticeUnit.settle s (NoticeUnit.mk v.portion v.acceptance
      (v.queue.filter (fun e => e.effective ≤ 1) ++ x :: v.queue.filter (fun e => 1 < e.effective)) v.lines v.defaultText
      v.basis v.rejected v.dropped) := by
    intro v hv
    unfold NoticeUnit.admission
    rw [insertEntry_eq hv.1.2.2.1]
    simp [hp, hw, hdue, Did.andThen]
  have hfull : ({ u with dropped := min 65535 (u.dropped + 1) } : NoticeUnit).legal :=
    ⟨h.1, h.2.1, h.2.2.1, h.2.2.2.1, h.2.2.2.2.1, by simp⟩
  unfold NoticeUnit.offer NoticeUnit.offeredLocal
  change (match u.find x.id with | some old => _ | none => _) = (match u.find x.id with | some old => _ | none => _)
  cases hf : u.find x.id with
  | some old =>
    have hnews : overlayNews s.tables old { x with repeatTimer := old.repeatTimer } =
        if old.overlayWanted then [.overlayEnd x.id] else [] := by
      unfold overlayNews; cases old.overlayWanted <;> simp [hw]
    have hq : (if x.effective = old.effective then replaceEntry u.queue { x with repeatTimer := old.repeatTimer }
        else insertEntry (u.queue.filter (fun e => e.id != x.id)) { x with repeatTimer := old.repeatTimer }) =
        (if old.effective = 1 then u.queue.map (fun e => if e.id = x.id then { x with repeatTimer := old.repeatTimer } else e)
         else (u.queue.filter (fun e => e.id != x.id)).filter (fun e => decide (e.effective ≤ 1)) ++
           { x with repeatTimer := old.repeatTimer } ::
           (u.queue.filter (fun e => e.id != x.id)).filter (fun e => decide (1 < e.effective))) := by
      simp only [hp]
      by_cases ho : old.effective = 1
      · rw [if_pos ho.symm, if_pos ho]; rfl
      · rw [if_neg (fun hc => ho hc.symm), if_neg ho, insertEntry_eq (queueLaw_filter h.1 _).2.2.1]
    unfold NoticeUnit.update
    dsimp only
    rw [hq, hnews]
    cases hs : u.shows x.id with
    | true =>
      obtain ⟨text, dwell, hl⟩ := (NoticeUnit.shows_iff x.id).1 hs
      simp [Did.andThen, NoticeUnit.endShow, hl]
    | false => simp [Did.andThen, hp, hdue]
  | none =>
    dsimp only
    by_cases hl : u.queue.length < 16
    · rw [if_pos hl, if_pos hl, hadm u h]; rfl
    · rw [if_neg hl, if_neg hl]
      cases hlast : u.queue.getLast? with
      | none => rfl
      | some last =>
        dsimp only
        rw [hp]
        split
        · rw [show count16 u.dropped 1 = min 65535 (u.dropped + 1) from rfl, NoticeUnit.removeAndSettle_eq hfull]
          simp only [Did.andThen]
          rw [hadm _ (NoticeUnit.without_legal hfull _)]
        · rfl

/-- The queue with the text of the local notice of a kind as it is now (R163). -/
abbrev renewed (s : State) (k : ApproachKind) (q : List NoticeEntry) : List NoticeEntry :=
  q.map (fun e => if e.id = localId k then { e with text := .inlined (localText s.tables s.reck.progress k) } else e)

/-- The text of a local notice that the lines do not show rebuilt (R163). -/
theorem NoticeUnit.rebuildLocal_quiet (h : u.legal) {k : ApproachKind} (hs : u.shows (localId k) = false) :
    u.rebuildLocal s k = ⟨{ u with queue := renewed s k u.queue }, []⟩ := by
  have hq := NoticeUnit.rebuildLocal_queue (s := s) h k
  have hl : ∀ id text dwell, u.lines = .showing id text dwell → id ≠ localId k := by
    intro id text dwell hl hid
    rw [(NoticeUnit.shows_iff (localId k)).2 ⟨text, dwell, hid ▸ hl⟩] at hs
    cases hs
  revert hq
  unfold NoticeUnit.rebuildLocal
  split
  · intro hq; rw [renewed, ← hq]; rfl
  · dsimp only
    split
    · intro hq; rw [renewed, ← hq]; rfl
    · split
      · rename_i id text dwell hlines
        rw [if_neg (hl _ _ _ hlines)]
        intro hq; rw [renewed, ← hq]; rfl
      · intro hq; rw [renewed, ← hq]; rfl
      · intro hq; rw [renewed, ← hq]; rfl

/-- The text of the local notice that the lines show rebuilt (R163). -/
theorem NoticeUnit.rebuildLocal_shown (h : u.legal) {k : ApproachKind} {x : NoticeEntry} (hx : x ∈ u.queue)
    (hk : x.id = localId k) {text : Text} {dwell : Nat} (hl : u.lines = .showing x.id text dwell) :
    let now := localText s.tables s.reck.progress k
    u.rebuildLocal s k = if x.text = .inlined now then ⟨{ u with queue := renewed s k u.queue }, []⟩
      else ⟨{ u with queue := renewed s k u.queue, lines := .showing x.id now dwell }, [.noticeTextChange .current]⟩ := by
  intro now
  have hq := NoticeUnit.rebuildLocal_queue (s := s) h k
  have hf : u.find (localId k) = some x := hk ▸ NoticeUnit.find_of_mem h.1.2.1 hx
  revert hq
  unfold NoticeUnit.rebuildLocal
  rw [hf]
  dsimp only
  by_cases ht : x.text = .inlined now
  · rw [if_pos ht, if_pos ht]; intro hq; rw [renewed, ← hq]; rfl
  · rw [if_neg ht, if_neg ht, hl]
    dsimp only
    rw [if_pos hk]
    intro hq; rw [renewed, ← hq]

/-- The texts of the local notices rebuilt (R163). -/
theorem NoticeUnit.rebuildLocals_eq (h : u.legal) : u.rebuildLocals s = u.rebuilt s := by
  have hqueue : renewed s .closedDoor (renewed s .calling u.queue) = u.queue.map (NoticeEntry.renewed s) := by
    rw [renewed, renewed, List.map_map]
    refine List.map_congr_left (fun e _ => ?_)
    simp only [Function.comp_apply, localId, NoticeEntry.renewed, localTextNow]
    by_cases h1 : e.id = 65281
    · simp [h1]
    · by_cases h2 : e.id = 65282 <;> simp [h1, h2]
  have h1 : (u.rebuildLocal s .calling).unit.legal := NoticeUnit.rebuildLocal_legal h _
  unfold NoticeUnit.rebuildLocals NoticeUnit.rebuilt
  dsimp only
  rw [← hqueue]
  have quiet : (∀ k, u.shows (localId k) = false) →
      (u.rebuildLocal s .calling).andThen (fun v => v.rebuildLocal s .closedDoor) =
        ⟨{ u with queue := renewed s .closedDoor (renewed s .calling u.queue) }, []⟩ := by
    intro hs
    rw [NoticeUnit.rebuildLocal_quiet h (hs .calling)] at h1 ⊢
    simp only [Did.andThen]
    rw [NoticeUnit.rebuildLocal_quiet h1 (hs .closedDoor)]
    rfl
  cases hl : u.lines with
  | blank => exact (quiet (fun k => by simp [NoticeUnit.shows, hl])).trans (by rw [hl])
  | default => exact (quiet (fun k => by simp [NoticeUnit.shows, hl])).trans (by rw [hl])
  | showing id text dwell =>
    obtain ⟨x, hx, rfl⟩ := NoticeUnit.showing_mem h hl
    have hsx : ∀ i, u.shows i = (x.id == i) := fun i => by simp [NoticeUnit.shows, hl]
    have hfind : u.queue.find? (fun e => u.shows e.id) = some x := by
      rw [← NoticeUnit.find_of_mem h.1.2.1 hx]
      unfold NoticeUnit.find; congr 1; funext y
      rw [hsx, Bool.beq_comm]
    rw [hfind]
    dsimp only [localTextNow]
    by_cases hc : x.id = 65281
    · have hshown := NoticeUnit.rebuildLocal_shown (s := s) h (k := .calling) hx hc hl
      rw [hshown] at h1 ⊢
      rw [if_pos hc]
      dsimp only
      by_cases ht : x.text = .inlined (localText s.tables s.reck.progress .calling)
      · rw [if_pos ht] at h1 ⊢
        rw [if_pos ht]
        simp only [Did.andThen]
        rw [NoticeUnit.rebuildLocal_quiet h1 (by simp [NoticeUnit.shows, hl, localId, hc])]
        simp [hl]
      · rw [if_neg ht] at h1 ⊢
        rw [if_neg ht]
        simp only [Did.andThen]
        rw [NoticeUnit.rebuildLocal_quiet h1 (by simp [NoticeUnit.shows, localId, hc])]
        rfl
    · rw [if_neg hc]
      rw [NoticeUnit.rebuildLocal_quiet h (by simp [hsx, localId, hc])] at h1 ⊢
      by_cases hd : x.id = 65282
      · have hxm : x ∈ renewed s .calling u.queue :=
          List.mem_map.2 ⟨x, hx, if_neg (by simp [localId, hc])⟩
        have hshown := NoticeUnit.rebuildLocal_shown (s := s) h1 (k := .closedDoor) hxm hd hl
        simp only [Did.andThen] at hshown ⊢
        rw [hshown]
        rw [if_pos hd]
        dsimp only
        split <;> simp [hl]
      · rw [if_neg hd]
        simp only [Did.andThen]
        rw [NoticeUnit.rebuildLocal_quiet h1 (by simp [NoticeUnit.shows, hl, localId, hd])]
        simp [hl]

/-- The local notices kept in step with the approach (R162). -/
theorem NoticeUnit.reconcile_eq (h : u.legal) : u.reconcile s = u.reconciled s := by
  unfold NoticeUnit.reconcile NoticeUnit.reconciled
  dsimp only
  split
  · exact NoticeUnit.rebuildLocals_eq h
  · cases u.basis with
    | none =>
      cases s.reck.progress.inForce with
      | none => rfl
      | some a =>
        simp [Did.andThen, Did.nothing, NoticeUnit.offer_local h (x := localEntry s.tables s.reck.progress a.kind) rfl rfl]
    | some b =>
      simp only [NoticeUnit.removeAndSettle_eq h]
      cases s.reck.progress.inForce with
      | none => simp [Did.andThen, Did.nothing]
      | some a =>
        simp [Did.andThen, Did.nothing, NoticeUnit.offer_local (NoticeUnit.without_legal h (localId b.kind))
          (x := localEntry s.tables s.reck.progress a.kind) rfl rfl]

end Sys2Proof.Machine
end

