-- ==== Sys2Proof/Laws/NoticeMasks.lean ====
section
/-! SUPPORT. What the Notice Unit's operations leave of the portion masks of its queue (R150): none but those of new entries
joins, and a purge keeps those of the new portion. -/

namespace Sys2Proof.Machine

variable {s : State} {u : NoticeUnit}

/-- The id and portion mask of every entry of the queue pass a test. -/
abbrev NoticeUnit.masks (P : Nat → BitVec 3 → Prop) (u : NoticeUnit) : Prop := ∀ e ∈ u.queue, P e.id e.mask

variable {P : Nat → BitVec 3 → Prop}

theorem masks_replace {q : List NoticeEntry} (h : ∀ e ∈ q, P e.id e.mask) {x : NoticeEntry} (hx : P x.id x.mask) :
    ∀ e ∈ replaceEntry q x, P e.id e.mask := by
  intro e he
  obtain ⟨y, hy, rfl⟩ := List.mem_map.1 he
  split
  · exact hx
  · exact h y hy

theorem masks_insert {q : List NoticeEntry} (h : ∀ e ∈ q, P e.id e.mask) {x : NoticeEntry} (hx : P x.id x.mask) :
    ∀ e ∈ insertEntry q x, P e.id e.mask := by
  intro e he
  rcases mem_insertEntry.1 he with rfl | he
  · exact hx
  · exact h e he

theorem NoticeUnit.settle_masks (h : u.masks P) : (u.settle s).unit.masks P := by
  unfold NoticeUnit.settle
  split
  · exact h
  · split
    · exact h
    · split
      · rename_i e he
        exact masks_replace h (h e (List.mem_of_find?_eq_some he))
      · exact h

theorem NoticeUnit.remove_masks (h : u.masks P) (id : Nat) : (u.remove id).unit.masks P := by
  unfold NoticeUnit.masks
  rw [NoticeUnit.remove_queue]
  exact fun e he => h e (List.mem_filter.1 he).1

theorem NoticeUnit.removeAndSettle_masks (h : u.masks P) (id : Nat) : (u.removeAndSettle s id).unit.masks P :=
  NoticeUnit.settle_masks (NoticeUnit.remove_masks h id)

theorem NoticeUnit.endShow_masks (h : u.masks P) : u.endShow.unit.masks P := by
  unfold NoticeUnit.masks
  rw [(NoticeUnit.endShow_spec u).1]; exact h

theorem NoticeUnit.endCounted_masks (h : u.masks P) : u.endCounted.unit.masks P := by
  unfold NoticeUnit.endCounted
  split
  · dsimp only [Did.andThen]
    split
    · split
      · exact NoticeUnit.remove_masks (NoticeUnit.endShow_masks h) _
      · exact NoticeUnit.endShow_masks h
    · exact NoticeUnit.endShow_masks h
  · exact h
  · exact h

theorem NoticeUnit.preempt_masks (h : u.masks P) : u.preempt.unit.masks P := by
  unfold NoticeUnit.preempt
  split
  · split
    · split
      · exact NoticeUnit.endCounted_masks h
      · exact h
    · exact h
  · exact h
  · exact h

theorem NoticeUnit.nowDue_masks (h : u.masks P) (p : Nat) : (u.nowDue s p).unit.masks P := by
  refine NoticeUnit.settle_masks ?_
  split
  · exact NoticeUnit.preempt_masks h
  · exact h

theorem NoticeUnit.offer_masks (h : u.masks P) {e : NoticeEntry} (he : P e.id e.mask) : (u.offer s e).unit.masks P := by
  have admits : ∀ v : NoticeUnit, v.masks P → (v.admission s e).unit.masks P := fun v hv =>
    NoticeUnit.nowDue_masks (u := { v with queue := insertEntry v.queue e }) (masks_insert hv he) _
  unfold NoticeUnit.offer
  split
  · rename_i old _
    have hq : ∀ x ∈ (if e.effective = old.effective then replaceEntry u.queue { e with repeatTimer := old.repeatTimer }
        else insertEntry (u.queue.filter (fun x => x.id != e.id)) { e with repeatTimer := old.repeatTimer }),
        P x.id x.mask := by
      split
      · exact masks_replace h he
      · exact masks_insert (fun x hx => h x (List.mem_filter.1 hx).1) he
    unfold NoticeUnit.update
    dsimp only
    split
    · exact NoticeUnit.settle_masks (NoticeUnit.endShow_masks (u := { u with queue := _ }) hq)
    · exact NoticeUnit.nowDue_masks (u := { u with queue := _ }) hq _
  · split
    · exact admits u h
    · split
      · split
        · exact admits _ (NoticeUnit.removeAndSettle_masks (u := { u with dropped := count16 u.dropped 1 }) h _)
        · exact h
      · exact h

theorem NoticeUnit.take_masks (h : u.masks P) {f : NoticeFields}
    (hf : holdsPortion f.mask u.portion = true → P f.id.toNat f.mask) :
    (u.take s f).unit.masks P := by
  unfold NoticeUnit.take
  split
  · exact h
  · split
    · exact h
    · rename_i hm
      split
      · exact h
      · exact NoticeUnit.offer_masks h (hf (by simpa using hm))

theorem NoticeUnit.map_masks (h : u.masks P) {g : NoticeEntry → NoticeEntry}
    (hg : ∀ e, (g e).id = e.id ∧ (g e).mask = e.mask) :
    ∀ e ∈ u.queue.map g, P e.id e.mask := by
  intro e he
  obtain ⟨x, hx, rfl⟩ := List.mem_map.1 he
  rw [(hg x).1, (hg x).2]; exact h x hx

theorem NoticeUnit.tick_masks (h : u.masks P) : (u.tick s).unit.masks P := by
  refine NoticeUnit.settle_masks ?_
  have h1 : u.tickLifetimes.unit.masks P :=
    Did.each_keeps (P := NoticeUnit.masks P) (fun _ _ hv => NoticeUnit.remove_masks hv _)
      (NoticeUnit.map_masks h (fun _ => ⟨rfl, rfl⟩))
  have h2 : u.tickLifetimes.unit.tickRepeats.unit.masks P := by
    unfold NoticeUnit.tickRepeats
    dsimp only
    split
    · exact NoticeUnit.preempt_masks (u := { u.tickLifetimes.unit with queue := _ })
        (NoticeUnit.map_masks h1 (fun _ => ⟨rfl, rfl⟩))
    · exact NoticeUnit.map_masks h1 (fun _ => ⟨rfl, rfl⟩)
  show u.tickLifetimes.unit.tickRepeats.unit.tickDwell.unit.masks P
  unfold NoticeUnit.tickDwell
  split
  · split
    · exact NoticeUnit.endCounted_masks h2
    · exact h2
  · exact h2
  · exact h2

theorem NoticeUnit.withdraw_masks (h : u.masks P) : u.withdraw.unit.masks P := by
  unfold NoticeUnit.withdraw
  split
  · exact NoticeUnit.map_masks h (fun e => by split <;> exact ⟨rfl, rfl⟩)
  · exact h
  · exact h

theorem NoticeUnit.rebuildLocals_masks (h : u.masks P) : (u.rebuildLocals s).unit.masks P := by
  have one : ∀ (v : NoticeUnit) (k : ApproachKind), v.masks P → (v.rebuildLocal s k).unit.masks P := by
    intro v k hv
    unfold NoticeUnit.rebuildLocal
    split
    · exact hv
    · rename_i e he
      have hq : ∀ x ∈ replaceEntry v.queue { e with text := .inlined (localText s.tables s.reck.progress k) },
          P x.id x.mask :=
        masks_replace hv (hv e (NoticeUnit.find_spec he).1)
      dsimp only
      split
      · exact hv
      · split
        · split <;> exact hq
        · exact hq
        · exact hq
  exact one _ _ (one _ _ h)

theorem NoticeUnit.reconcile_masks (h : u.masks P) (h7 : ∀ k, P (localId k) 7) : (u.reconcile s).unit.masks P := by
  unfold NoticeUnit.reconcile
  dsimp only
  split
  · exact NoticeUnit.rebuildLocals_masks h
  · dsimp only [Did.andThen, Did.nothing]
    have h1 : (match u.basis with
        | some a => u.removeAndSettle s (localId a.kind)
        | none => ⟨u, []⟩ : Did NoticeUnit).unit.masks P := by
      split
      · exact NoticeUnit.removeAndSettle_masks h _
      · exact h
    split
    · exact NoticeUnit.offer_masks h1 (h7 _)
    · exact h1

/-- A purge keeps only entries whose mask holds the new portion's bit (R165). -/
theorem NoticeUnit.purge_masks (u : NoticeUnit) (portion : Nat) :
    (u.purge s portion).unit.masks (fun _ m => holdsPortion m portion = true) := by
  -- an entry that stays has the id of one that was there, and not one of the ids removed
  have gone : ∀ (l : List Nat) (v : NoticeUnit) (Q : Nat → BitVec 3 → Prop), v.masks Q →
      (Did.each (NoticeUnit.removeAndSettle s) v l).unit.masks (fun i m => Q i m ∧ i ∉ l) := by
    intro l
    induction l with
    | nil => exact fun v Q hv e he => ⟨hv e he, by simp⟩
    | cons i l ih =>
      intro v Q hv
      have hr : (v.removeAndSettle s i).unit.masks (fun j m => Q j m ∧ j ≠ i) := by
        refine NoticeUnit.settle_masks ?_
        unfold NoticeUnit.masks
        rw [NoticeUnit.remove_queue]
        exact fun e he => ⟨hv e (List.mem_filter.1 he).1, by simpa using (List.mem_filter.1 he).2⟩
      intro e he
      obtain ⟨⟨h1, h2⟩, h3⟩ := ih _ _ hr e he
      exact ⟨h1, by simp [h2, h3]⟩
  intro e he
  obtain ⟨⟨x, hx, hxi, hxm⟩, hn⟩ := gone _ u (fun i m => ∃ x ∈ u.queue, x.id = i ∧ x.mask = m) 
    (fun e he => ⟨e, he, rfl, rfl⟩) e he
  by_contra hc
  refine hn (List.mem_map.2 ⟨x, List.mem_filter.2 ⟨hx, ?_⟩, hxi⟩)
  rw [hxm]; simpa using hc

end Sys2Proof.Machine
end

