-- ==== Sys2Proof/Laws/Panel.lean ====
section
/-! SUPPORT. What the Panel Composer's operations do to a page stack, and that each keeps the stack within its law. -/

namespace Sys2Proof.Machine

variable {s : State} {q : PanelState} {basis : Option Approach} {panel : Panel}

/-! ### Compose requests (R175, R176) -/

/-- A change of the top level that leaves its kind and dead flag keeps the stack's law. -/
theorem PanelState.mapTop_legal (h : q.legal basis) {g : Level → Level}
    (hg : ∀ l ∈ q.stack, (g l).kind = l.kind ∧ (g l).dead = l.dead ∧ (g l).offset ≤ 65535) :
    ({ q with stack := mapTop g q.stack } : PanelState).legal basis := by
  obtain ⟨h1, h2, h3, h4, h5, h6, h7⟩ := h
  cases hs : q.stack with
  | nil => rw [hs] at h1; simp at h1
  | cons l ls =>
    rw [hs] at h1 h2 h3 h4 h6 hg
    obtain ⟨g1, g2, g3⟩ := hg l (by simp)
    refine ⟨by simpa [mapTop] using h1, ?_, ?_, ?_, ?_, ?_, h7⟩
    · cases ls with
      | nil => simpa [mapTop, g1, g2] using h2
      | cons m ms => simpa [mapTop] using h2
    · cases ls with
      | nil => simp [mapTop]
      | cons m ms =>
        simp only [mapTop, List.dropLast_cons_cons, List.mem_cons, forall_eq_or_imp] at h3 ⊢
        exact ⟨by rw [g1]; exact h3.1, h3.2⟩
    · simp only [mapTop, List.filter_cons, g2] at h4 ⊢
      split <;> rename_i hd <;> simp only [hd, if_true] at h4 <;> simpa [g1] using h4
    · simp only [PanelState.liveApproaches, hs, mapTop, List.filter_cons, g1, g2] at h5 ⊢
      split <;> rename_i hd <;> simp only [hd, if_true] at h5 <;> simpa using h5
    · intro m hm
      simp only [mapTop, List.mem_cons] at hm
      rcases hm with rfl | hm
      · exact g3
      · exact h6 m (by simp [hm])

theorem PanelState.beginCompose_legal (h : q.legal basis) : (q.beginCompose s panel).legal basis := by
  unfold PanelState.beginCompose
  dsimp only
  split
  · exact h
  · exact PanelState.mapTop_legal h (fun l hl => ⟨rfl, rfl, h.2.2.2.2.2.1 l hl⟩)

theorem PanelState.request_legal (h : q.legal basis) : (q.request s panel).legal basis := by
  unfold PanelState.request
  split
  · exact h
  · exact PanelState.beginCompose_legal h

/-- A compose request leaves the stack's levels but for the top's mark of scrolling. -/
theorem PanelState.request_stack (s : State) (panel : Panel) (q : PanelState) :
    (q.request s panel).stack.map (fun l => (l.kind, l.offset, l.dead)) =
      q.stack.map (fun l => (l.kind, l.offset, l.dead)) ∧
    (q.request s panel).approachWant = q.approachWant := by
  unfold PanelState.request
  split
  · exact ⟨rfl, rfl⟩
  · unfold PanelState.beginCompose
    dsimp only
    split
    · exact ⟨rfl, rfl⟩
    · refine ⟨?_, rfl⟩
      cases q.stack <;> simp [mapTop]

theorem PanelState.swap_legal (h : q.legal basis) (j : ComposeJob) : (q.swap s panel j).legal basis := by
  unfold PanelState.swap
  generalize j.buffer = b
  have hr : ({ q with front := b, back := q.front, compose := none, again := false } : PanelState).legal basis := h
  dsimp only
  split
  · exact PanelState.beginCompose_legal hr
  · exact hr

/-! ### Pushes and pop runs (R170, R173) -/

/-- The law of a stack less the count of its live APPROACH levels. -/
abbrev stackLaw (stack : List Level) : Prop :=
  (1 ≤ stack.length ∧ stack.length ≤ 4) ∧ stack.getLast?.map (fun l => (l.kind, l.dead)) = some (.map, false) ∧
    (∀ l ∈ stack.dropLast, l.kind ≠ .map) ∧ ((stack.filter (fun l => !l.dead)).map (·.kind)).Nodup ∧
    ∀ l ∈ stack, l.offset ≤ 65535

theorem PanelState.legal_of {q : PanelState} (h : stackLaw q.stack)
    (ha : q.liveApproaches + (if q.approachWant then 1 else 0) = (if basis.isSome then 1 else 0))
    (ho : q.serviceOffset ≤ 65535) : q.legal basis :=
  ⟨h.1, h.2.1, h.2.2.1, h.2.2.2.1, ha, h.2.2.2.2, ho⟩

theorem PanelState.stackLaw_of (h : q.legal basis) : stackLaw q.stack :=
  ⟨h.1, h.2.1, h.2.2.1, h.2.2.2.1, h.2.2.2.2.2.1⟩

theorem stackLaw_push {stack : List Level} (h : stackLaw stack) {k : LevelKind} (hk : k ≠ .map) (hl : stack.length < 4)
    (hn : ∀ l ∈ stack, l.dead = false → l.kind ≠ k) : stackLaw (Level.fresh k :: stack) := by
  obtain ⟨h1, h2, h3, h4, h5⟩ := h
  cases stack with
  | nil => simp at h1
  | cons l ls =>
    refine ⟨by simp at hl ⊢; omega, by simpa using h2, ?_, ?_, ?_⟩
    · intro m hm
      rw [List.dropLast_cons_cons] at hm
      rcases List.mem_cons.1 hm with rfl | hm
      · exact hk
      · exact h3 m hm
    · rw [List.filter_cons]
      simp only [Level.fresh, Bool.not_false, if_true, List.map_cons, List.nodup_cons]
      refine ⟨?_, h4⟩
      intro hm
      obtain ⟨m, hm, he⟩ := List.mem_map.1 hm
      obtain ⟨hm1, hm2⟩ := List.mem_filter.1 hm
      exact hn m hm1 (by simpa using hm2) he
    · intro m hm
      rcases List.mem_cons.1 hm with rfl | hm
      · exact Nat.zero_le _
      · exact h5 m hm

/-- Levels removed from the top while dead leave the law, and every live level, as they were. -/
theorem stackLaw_dropDead {stack : List Level} (h : stackLaw stack) :
    stackLaw (stack.dropWhile (·.dead)) ∧
      (stack.dropWhile (·.dead)).filter (fun l => !l.dead) = stack.filter (fun l => !l.dead) := by
  have hf : ∀ st : List Level, (st.dropWhile (·.dead)).filter (fun l => !l.dead) = st.filter (fun l => !l.dead) := by
    intro st
    induction st with
    | nil => rfl
    | cons l ls ih =>
      rw [List.dropWhile_cons]
      split
      · rename_i hd; rw [ih]; simp [hd]
      · rfl
  refine ⟨?_, hf stack⟩
  induction stack with
  | nil => exact h
  | cons l ls ih =>
    rw [List.dropWhile_cons]
    split
    · rename_i hd
      apply ih
      obtain ⟨h1, h2, h3, h4, h5⟩ := h
      cases ls with
      | nil => simp [hd] at h2
      | cons m ms =>
        refine ⟨by simp at h1 ⊢; omega, by simpa using h2, ?_, ?_, fun x hx => h5 x (List.mem_cons_of_mem _ hx)⟩
        · intro x hx
          rw [List.dropLast_cons_cons] at h3
          exact h3 x (List.mem_cons_of_mem _ hx)
        · rwa [List.filter_cons, if_neg (by simpa using hd)] at h4
    · exact h

theorem PanelState.live_false {k : LevelKind} (h : q.live k = false) : ∀ l ∈ q.stack, l.dead = false → l.kind ≠ k := by
  intro l hl hd he
  have := List.any_eq_false.1 h l hl
  simp [he, hd] at this

/-- A push of an URGENT level the panel does not hold live, where there is room. -/
theorem PanelState.push_urgent_legal (h : q.legal basis) {id : Nat} (hl : q.stack.length < 4)
    (hn : q.live (.urgent id) = false) : (q.push s panel (.urgent id)).legal basis := by
  unfold PanelState.push
  refine PanelState.request_legal (PanelState.legal_of
    (stackLaw_push (PanelState.stackLaw_of h) (by simp) hl (PanelState.live_false hn)) ?_ h.2.2.2.2.2.2)
  simpa [PanelState.liveApproaches, Level.fresh] using h.2.2.2.2.1

/-- A push of an APPROACH level where none is live and none is wanted. -/
theorem PanelState.push_approach_legal {q : PanelState} (h : stackLaw q.stack) (ho : q.serviceOffset ≤ 65535)
    (hl : q.stack.length < 4) (hn : q.liveApproaches = 0) (hw : q.approachWant = false) (a : Approach) :
    (q.push s panel .approach).legal (some a) := by
  have hlive : ∀ l ∈ q.stack, l.dead = false → l.kind ≠ .approach := by
    intro l hm hd he
    have : l ∈ q.stack.filter (fun l => l.kind == .approach && !l.dead) := List.mem_filter.2 ⟨hm, by simp [he, hd]⟩
    rw [List.length_eq_zero_iff.1 hn] at this
    cases this
  unfold PanelState.push
  refine PanelState.request_legal (PanelState.legal_of (stackLaw_push h (by simp) hl hlive) ?_ ho)
  unfold PanelState.liveApproaches at hn
  simp [PanelState.liveApproaches, Level.fresh, hn, hw]

theorem PanelState.kill_stackLaw {q : PanelState} (h : stackLaw q.stack) {k : LevelKind} (hk : k ≠ .map) :
    stackLaw (q.kill k).stack := by
  obtain ⟨h1, h2, h3, h4, h5⟩ := h
  unfold PanelState.kill
  dsimp only
  refine ⟨by simpa using h1, ?_, ?_, ?_, ?_⟩
  · rw [List.getLast?_map, Option.map_map]
    obtain ⟨l, hl, he⟩ := Option.map_eq_some_iff.1 h2
    simp only [Prod.mk.injEq] at he
    rw [hl]
    have : l.kind ≠ k := by rw [he.1]; exact fun e => hk e.symm
    rw [Option.map_some, Function.comp_apply, if_neg this, he.1, he.2]
  · intro l hl
    rw [← List.map_dropLast] at hl
    obtain ⟨m, hm, rfl⟩ := List.mem_map.1 hl
    split
    · exact h3 m hm
    · exact h3 m hm
  · refine List.Nodup.sublist ?_ h4
    clear h1 h2 h3 h4 h5
    induction q.stack with
    | nil => simp
    | cons l ls ih =>
      rw [List.map_cons, List.filter_cons, List.filter_cons]
      by_cases hl : l.kind = k
      · simp only [hl, if_true, Bool.not_true, Bool.false_eq_true, if_false]
        split
        · exact ih.trans (by simp)
        · exact ih
      · simp only [hl, if_false]
        split
        · simpa using ih
        · exact ih
  · intro l hl
    obtain ⟨m, hm, rfl⟩ := List.mem_map.1 hl
    split
    · exact h5 m hm
    · exact h5 m hm

/-- Killing the APPROACH levels leaves none live; killing an URGENT level leaves the count of live APPROACH levels. -/
theorem PanelState.kill_approaches (q : PanelState) (k : LevelKind) :
    (q.kill k).liveApproaches = if k = .approach then 0 else q.liveApproaches := by
  unfold PanelState.kill PanelState.liveApproaches
  dsimp only
  induction q.stack with
  | nil => simp
  | cons l ls ih =>
    rw [List.map_cons, List.filter_cons, List.filter_cons]
    by_cases hl : l.kind = k
    · simp only [hl, if_true, Bool.not_true, Bool.and_false, Bool.false_eq_true, if_false]
      rw [ih]
      split
      · rfl
      · rename_i hk; simp [hk]
    · simp only [hl, if_false]
      by_cases ha : (l.kind == .approach && !l.dead) = true
      · have : k ≠ .approach := by
          rintro rfl
          simp at ha; exact hl ha.1
        simp only [ha, if_true, List.length_cons, ih, if_neg this]
      · simp only [ha]; exact ih

/-- A pop run keeps the law (R173). -/
theorem PanelState.popRun_legal (h : q.legal basis) : (q.popRun s panel).1.legal basis := by
  obtain ⟨k1, k2⟩ := stackLaw_dropDead (PanelState.stackLaw_of h)
  have hla : ({ q with stack := q.stack.dropWhile (·.dead) } : PanelState).liveApproaches = q.liveApproaches := by
    have hc : ∀ st : List Level, (st.filter (fun l => l.kind == .approach && !l.dead)) =
        (st.filter (fun l => !l.dead)).filter (fun l => l.kind == .approach) := by
      intro st; rw [List.filter_filter]
    unfold PanelState.liveApproaches
    dsimp only
    rw [hc, hc, k2]
  have hr : ({ q with stack := q.stack.dropWhile (·.dead) } : PanelState).legal basis :=
    PanelState.legal_of k1 (by rw [hla]; exact h.2.2.2.2.1) h.2.2.2.2.2.2
  unfold PanelState.popRun
  dsimp only
  split
  · exact h
  · split
    · exact PanelState.request_legal hr
    · rename_i hlen
      split
      · rename_i id hid
        unfold PanelState.wantedOverlay at hid
        obtain ⟨e, he, rfl⟩ := Option.map_eq_some_iff.1 hid
        have := List.find?_some he
        simp only [Bool.and_eq_true, Bool.not_eq_true'] at this
        exact PanelState.push_urgent_legal hr (by dsimp only; omega) this.2
      · split
        · rename_i hw
          have h5 := hr.2.2.2.2.1
          dsimp only at h5
          simp only [hw, if_true] at h5
          cases basis with
          | none => simp at h5
          | some a =>
            refine PanelState.push_approach_legal (q := { q with stack := q.stack.dropWhile (·.dead), approachWant := false })
              k1 h.2.2.2.2.2.2 (by dsimp only; omega) ?_ rfl a
            simp at h5
            exact h5
        · exact PanelState.request_legal hr

/-! ### Approaches and overlays (R171, R172) -/

theorem PanelState.follow_legal (h : q.legal basis) (now : Option Approach) :
    (q.follow s basis now panel).1.legal now := by
  have h5 := h.2.2.2.2.1
  unfold PanelState.follow
  split
  · exact h
  · simp only [Option.isSome_none, Bool.false_eq_true, if_false] at h5
    have hw : q.approachWant = false := by
      cases hq : q.approachWant
      · rfl
      · simp [hq] at h5
    have hn : q.liveApproaches = 0 := by simpa [hw] using h5
    split
    · rename_i a hl
      exact PanelState.push_approach_legal (PanelState.stackLaw_of h) h.2.2.2.2.2.2 hl hn hw _
    · refine PanelState.legal_of (q := { q with approachWant := true }) (PanelState.stackLaw_of (q := q) (basis := none) h) ?_
        h.2.2.2.2.2.2
      simpa [PanelState.liveApproaches] using hn
  · refine PanelState.popRun_legal (PanelState.legal_of (q := { q.kill .approach with approachWant := false })
      (PanelState.kill_stackLaw (PanelState.stackLaw_of h) (by simp)) ?_ h.2.2.2.2.2.2)
    have := PanelState.kill_approaches q .approach
    simpa [PanelState.liveApproaches] using this
  · split
    · rename_i x y hxy; subst hxy; exact h
    · rename_i x y _
      have hk : q.legal (some y) := PanelState.legal_of (PanelState.stackLaw_of h) (by simpa using h5) h.2.2.2.2.2.2
      split
      · exact PanelState.request_legal hk
      · exact hk

theorem PanelState.overlay_legal (h : q.legal basis) (id : Nat) : (q.overlay s id panel).1.legal basis := by
  unfold PanelState.overlay
  split
  · rename_i hc
    simp only [Bool.and_eq_true, Bool.not_eq_true', decide_eq_true_eq] at hc
    exact PanelState.push_urgent_legal h hc.2 hc.1.2
  · exact h

theorem PanelState.endOverlay_legal (h : q.legal basis) (id : Nat) : (q.endOverlay s id panel).1.legal basis := by
  unfold PanelState.endOverlay
  refine PanelState.popRun_legal (PanelState.legal_of (PanelState.kill_stackLaw (PanelState.stackLaw_of h) (by simp)) ?_
    h.2.2.2.2.2.2)
  rw [PanelState.kill_approaches, if_neg (by simp)]
  exact h.2.2.2.2.1

/-! ### The composer -/

theorem PanelComposer.active_panels (s : State) (u : PanelComposer) :
    (u.active s).panel1 = u.panel1 ∧ (u.active s).panel2 = u.panel2 ∧ (u.active s).basis = u.basis ∧
      ((u.active s).brightness = .low → u.brightness = .low ∧ (u.active s).idle = u.idle) := by
  unfold PanelComposer.active
  split
  · exact ⟨rfl, rfl, rfl, fun h => by cases h⟩
  · exact ⟨rfl, rfl, rfl, fun h => ⟨h, rfl⟩⟩

/-- Both panels changed together: their laws, the basis, and LOW only with the idle timer at 0. -/
theorem PanelComposer.both_spec {u : PanelComposer} (g : Panel → PanelState → PanelState × Bool) {b : Option Approach}
    (h1 : (g .panel1 u.panel1).1.legal b) (h2 : (g .panel2 u.panel2).1.legal b)
    (hb : u.brightness = .low → u.idle = some 0) :
    (u.both s g).panel1.legal b ∧ (u.both s g).panel2.legal b ∧ (u.both s g).basis = u.basis ∧
      ((u.both s g).brightness = .low → (u.both s g).idle = some 0) := by
  unfold PanelComposer.both
  dsimp only
  split
  · obtain ⟨a1, a2, a3, a4⟩ := PanelComposer.active_panels s
      { u with panel1 := (g .panel1 u.panel1).1, panel2 := (g .panel2 u.panel2).1 }
    refine ⟨by rw [a1]; exact h1, by rw [a2]; exact h2, a3, fun h => ?_⟩
    rw [(a4 h).2]; exact hb (a4 h).1
  · exact ⟨h1, h2, rfl, hb⟩

theorem PanelComposer.requestWhere_legal {u : PanelComposer} (h : u.legal) (test : Panel → PanelState → Bool) :
    (u.requestWhere s test).legal := by
  refine ⟨?_, ?_, h.2.2⟩
  · show (if test .panel1 u.panel1 then u.panel1.request s .panel1 else u.panel1).legal u.basis
    split
    · exact PanelState.request_legal h.1
    · exact h.1
  · show (if test .panel2 u.panel2 then u.panel2.request s .panel2 else u.panel2).legal u.basis
    split
    · exact PanelState.request_legal h.2.1
    · exact h.2.1

theorem PanelComposer.followApproach_legal {u : PanelComposer} (h : u.legal) : (u.followApproach s).legal := by
  obtain ⟨b1, b2, -, b4⟩ := PanelComposer.both_spec (s := s) (u := u)
    (PanelState.follow s u.basis s.reck.progress.inForce) (PanelState.follow_legal h.1 _) (PanelState.follow_legal h.2.1 _) h.2.2
  exact ⟨b1, b2, b4⟩

theorem PanelComposer.active_legal {u : PanelComposer} (h : u.legal) : (u.active s).legal := by
  obtain ⟨a1, a2, a3, a4⟩ := PanelComposer.active_panels s u
  refine ⟨by rw [a1, a3]; exact h.1, by rw [a2, a3]; exact h.2.1, fun hl => ?_⟩
  rw [(a4 hl).2]; exact h.2.2 (a4 hl).1

/-! ### The tick (R182, R185) -/

theorem PanelState.scrollTick_legal (h : q.legal basis) : (q.scrollTick s panel).legal basis := by
  unfold PanelState.scrollTick
  split
  · split
    · refine PanelState.request_legal ?_
      exact ⟨h.1, h.2.1, h.2.2.1, h.2.2.2.1, h.2.2.2.2.1, h.2.2.2.2.2.1, by dsimp only; omega⟩
    · exact h
  · split
    · exact PanelState.request_legal (PanelState.mapTop_legal h (fun l _ => ⟨rfl, rfl, by dsimp only; omega⟩))
    · exact h

theorem PanelComposer.tick_legal {u : PanelComposer} (h : u.legal) : (u.tick s).legal := by
  have hi : (u.idleTick s).legal := by
    unfold PanelComposer.idleTick
    split
    · rename_i n hm hn
      refine ⟨h.1, h.2.1, fun hb => ?_⟩
      dsimp only at hb ⊢
      split at hb
      · rename_i h0; rw [h0]
      · have := h.2.2 hb; rw [hn] at this; simp at this
    · exact h
  exact ⟨PanelState.scrollTick_legal hi.1, PanelState.scrollTick_legal hi.2.1, hi.2.2⟩

theorem Mode.dark_iff (m : Mode) : m.dark = true ↔ m ∈ [Mode.service, .restartPending] := by cases m <;> decide

/-- The scroll advance of a panel at a tick (R182). -/
theorem PanelState.scrollTick_eq (c : State) (panel : Panel) (q : PanelState) :
    (c.mgmt.mode ∈ [Mode.service, .restartPending] →
      (q.serviceScrolled = true → q.scrollTick c panel =
        PanelState.request c panel { q with serviceOffset := (q.serviceOffset + 1) % 65536 }) ∧
      (q.serviceScrolled = false → q.scrollTick c panel = q)) ∧
    (c.mgmt.mode ∈ [Mode.normal, .quiet] →
      (∀ l ls, q.stack = l :: ls → l.scrolled = true → q.scrollTick c panel =
        PanelState.request c panel { q with stack := { l with offset := (l.offset + 1) % 65536 } :: ls }) ∧
      ((∀ l ls, q.stack = l :: ls → l.scrolled = false) → q.scrollTick c panel = q)) := by
  refine ⟨fun h => ?_, fun h => ?_⟩
  · have := (Mode.dark_iff _).2 h
    exact ⟨fun hs => by simp [PanelState.scrollTick, this, hs], fun hs => by simp [PanelState.scrollTick, this, hs]⟩
  · have hd : c.mgmt.mode.dark = false := by revert h; cases c.mgmt.mode <;> decide
    refine ⟨fun l ls hs hl => ?_, fun hs => ?_⟩
    · simp [PanelState.scrollTick, hd, hs, hl, mapTop]
    · cases hq : q.stack with
      | nil => simp [PanelState.scrollTick, hd, hq]
      | cons l ls => simp [PanelState.scrollTick, hd, hq, hs l ls hq]

end Sys2Proof.Machine
end

