-- ==== Sys2Proof/Laws/PerInstr.lean ====
section
/-! SUPPORT. The per-command law of well-formed operands: one lemma for each constructor of `Instr`. -/

namespace Sys2Proof.Laws.OperandsInRange

/-- The seat slots a command carries. -/
def slots : Instr → List Nat
  | .queueRequest slot => [slot]
  | .repollDue slot => [slot]
  | .faultReport (.seatModule slot) => [slot]
  | .faultReport (.seatLamp slot) => [slot]
  | _ => []

/-- The ids of queue entries a command carries. -/
def noticeIds : Instr → List Nat
  | .lifetimeExpiry id => [id]
  | .repeatTimerExpiry id => [id]
  | .overlayRequest id => [id]
  | .overlayEnd id => [id]
  | .noticeTextChange (.entry id) => [id]
  | _ => []

/-- The numbers of bytes in the frame payloads a command carries: of a management command, its code and its arguments. -/
def payloadLengths : Instr → List Nat
  | .enumerate _ _ payload => [payload.length]
  | .time payload => [payload.length]
  | .noticeCancel payload => [payload.length]
  | .mgmtUnknownCommand _ _ payload => [payload.length]
  | .load f => [f.args.length + 1]
  | .loadNext f => [f.args.length + 1]
  | .commit f => [f.args.length + 1]
  | .discard f => [f.args.length + 1]
  | .mode f => [f.args.length + 1]
  | .param f => [f.args.length + 1]
  | .status f => [f.args.length + 1]
  | .startAck f => [f.args.length + 1]
  | .assign f => [f.args.length + 1]
  | .stopCancel f => [f.args.length + 1]
  | .resvAdd f => [f.args.length + 1]
  | .resvDrop f => [f.args.length + 1]
  | .acceptInsert f => [f.args.length + 1]
  | .acceptRemove f => [f.args.length + 1]
  | .restart f => [f.args.length + 1]
  | .faultRead f => [f.args.length + 1]
  | .faultClear f => [f.args.length + 1]
  | .ident f => [f.args.length + 1]
  | .store f => [f.args.length + 1]
  | _ => []

/-- A well-formed command carries slots of 0..127 (R105), ids of 1..65535 (R150) and payloads of at most 240 bytes (R4). -/
def Statement (i : Instr) : Prop :=
  i.wellFormed = true →
    (∀ x ∈ slots i, x < 128) ∧ (∀ x ∈ noticeIds i, 1 ≤ x ∧ x ≤ 65535) ∧ (∀ x ∈ payloadLengths i, x ≤ 240)

/-- A command that carries none of the three. -/
theorem of_none {i : Instr} (h1 : slots i = []) (h2 : noticeIds i = []) (h3 : payloadLengths i = []) : Statement i := by
  intro _; rw [h1, h2, h3]; simp

/-- A command that carries one payload. -/
theorem of_payload {i : Instr} {n : Nat} (h1 : slots i = []) (h2 : noticeIds i = []) (h3 : payloadLengths i = [n])
    (h : i.wellFormed = true → n ≤ 240) : Statement i := by
  intro hw; rw [h1, h2, h3]; simpa using h hw

/-- A command that carries one slot. -/
theorem of_slot {i : Instr} {n : Nat} (h1 : slots i = [n]) (h2 : noticeIds i = []) (h3 : payloadLengths i = [])
    (h : i.wellFormed = true → n < 128) : Statement i := by
  intro hw; rw [h1, h2, h3]; simpa using h hw

/-- A command that carries one id. -/
theorem of_id {i : Instr} {n : Nat} (h1 : slots i = []) (h2 : noticeIds i = [n]) (h3 : payloadLengths i = [])
    (h : i.wellFormed = true → 1 ≤ n ∧ n ≤ 65535) : Statement i := by
  intro hw; rw [h1, h2, h3]; simpa using h hw

theorem powerOn : Statement .powerOn := of_none rfl rfl rfl
theorem powerLoss : Statement .powerLoss := of_none rfl rfl rfl
theorem startUpComplete : Statement .startUpComplete := of_none rfl rfl rfl
theorem neighbourSignalAppears (p : Port) : Statement (.neighbourSignalAppears p) := of_none rfl rfl rfl
theorem trainingCompletes (p : Port) : Statement (.trainingCompletes p) := of_none rfl rfl rfl
theorem lossOfSignal (p : Port) : Statement (.lossOfSignal p) := of_none rfl rfl rfl
theorem linkChangeReport (p : Port) (link : LinkState) : Statement (.linkChangeReport p link) := of_none rfl rfl rfl
theorem frameArrival (p : Port) (bytes : List Byte) : Statement (.frameArrival p bytes) := of_none rfl rfl rfl
theorem transmissionEnd (p : Port) : Statement (.transmissionEnd p) := of_none rfl rfl rfl
theorem enumerate (p : Port) (seq : Byte) (payload : List Byte) : Statement (.enumerate p seq payload) := of_payload rfl rfl rfl of_decide_eq_true
theorem newInauguration : Statement .newInauguration := of_none rfl rfl rfl
theorem orientationChange : Statement .orientationChange := of_none rfl rfl rfl
theorem position (f : PositionFields) : Statement (.position f) := of_none rfl rfl rfl
theorem departureReport (d : Nat) : Statement (.departureReport d) := of_none rfl rfl rfl
theorem time (payload : List Byte) : Statement (.time payload) := of_payload rfl rfl rfl of_decide_eq_true
theorem secondsTick : Statement .secondsTick := of_none rfl rfl rfl
theorem clockSecond : Statement .clockSecond := of_none rfl rfl rfl
theorem freshnessExpiry : Statement .freshnessExpiry := of_none rfl rfl rfl
theorem mgmtUnknownCommand (p : Port) (seq : Byte) (payload : List Byte) : Statement (.mgmtUnknownCommand p seq payload) := of_payload rfl rfl rfl (fun h => of_decide_eq_true (Bool.and_elim_left h))
theorem load (f : MgmtFrame) : Statement (.load f) := of_payload rfl rfl rfl of_decide_eq_true
theorem loadNext (f : MgmtFrame) : Statement (.loadNext f) := of_payload rfl rfl rfl of_decide_eq_true
theorem commit (f : MgmtFrame) : Statement (.commit f) := of_payload rfl rfl rfl of_decide_eq_true
theorem discard (f : MgmtFrame) : Statement (.discard f) := of_payload rfl rfl rfl of_decide_eq_true
theorem mode (f : MgmtFrame) : Statement (.mode f) := of_payload rfl rfl rfl of_decide_eq_true
theorem param (f : MgmtFrame) : Statement (.param f) := of_payload rfl rfl rfl of_decide_eq_true
theorem status (f : MgmtFrame) : Statement (.status f) := of_payload rfl rfl rfl of_decide_eq_true
theorem startAck (f : MgmtFrame) : Statement (.startAck f) := of_payload rfl rfl rfl of_decide_eq_true
theorem assign (f : MgmtFrame) : Statement (.assign f) := of_payload rfl rfl rfl of_decide_eq_true
theorem stopCancel (f : MgmtFrame) : Statement (.stopCancel f) := of_payload rfl rfl rfl of_decide_eq_true
theorem resvAdd (f : MgmtFrame) : Statement (.resvAdd f) := of_payload rfl rfl rfl of_decide_eq_true
theorem resvDrop (f : MgmtFrame) : Statement (.resvDrop f) := of_payload rfl rfl rfl of_decide_eq_true
theorem acceptInsert (f : MgmtFrame) : Statement (.acceptInsert f) := of_payload rfl rfl rfl of_decide_eq_true
theorem acceptRemove (f : MgmtFrame) : Statement (.acceptRemove f) := of_payload rfl rfl rfl of_decide_eq_true
theorem restart (f : MgmtFrame) : Statement (.restart f) := of_payload rfl rfl rfl of_decide_eq_true
theorem faultRead (f : MgmtFrame) : Statement (.faultRead f) := of_payload rfl rfl rfl of_decide_eq_true
theorem faultClear (f : MgmtFrame) : Statement (.faultClear f) := of_payload rfl rfl rfl of_decide_eq_true
theorem ident (f : MgmtFrame) : Statement (.ident f) := of_payload rfl rfl rfl of_decide_eq_true
theorem store (f : MgmtFrame) : Statement (.store f) := of_payload rfl rfl rfl of_decide_eq_true
theorem storeWriteEnd (agrees : Bool) : Statement (.storeWriteEnd agrees) := of_none rfl rfl rfl
theorem restartHoldEnd : Statement .restartHoldEnd := of_none rfl rfl rfl
theorem faultReport (r : FaultReport) : Statement (.faultReport r) := by
  cases r
  case seatModule slot => exact of_slot rfl rfl rfl of_decide_eq_true
  case seatLamp slot => exact of_slot rfl rfl rfl of_decide_eq_true
  all_goals exact of_none rfl rfl rfl
theorem portionChangeReckoning (portion : Nat) : Statement (.portionChangeReckoning portion) := of_none rfl rfl rfl
theorem routeActivationReckoning (families : FamilySet) : Statement (.routeActivationReckoning families) := of_none rfl rfl rfl
theorem reckoningAnnouncementResv (news : ReckoningNews) : Statement (.reckoningAnnouncementResv news) := of_none rfl rfl rfl
theorem activationAnnouncementResv (families : FamilySet) : Statement (.activationAnnouncementResv families) := of_none rfl rfl rfl
theorem portionChangeResv : Statement .portionChangeResv := of_none rfl rfl rfl
theorem modeChangeResv : Statement .modeChangeResv := of_none rfl rfl rfl
theorem horizonChange : Statement .horizonChange := of_none rfl rfl rfl
theorem queueRequest (slot : Nat) : Statement (.queueRequest slot) := of_slot rfl rfl rfl of_decide_eq_true
theorem seatActivationEngine : Statement .seatActivationEngine := of_none rfl rfl rfl
theorem modeChangeEngine : Statement .modeChangeEngine := of_none rfl rfl rfl
theorem faultClearEngine : Statement .faultClearEngine := of_none rfl rfl rfl
theorem seatSettleEnd : Statement .seatSettleEnd := of_none rfl rfl rfl
theorem seatAnswer (address status check : Byte) : Statement (.seatAnswer address status check) := of_none rfl rfl rfl
theorem seatAnswerTimeout : Statement .seatAnswerTimeout := of_none rfl rfl rfl
theorem repollDue (slot : Nat) : Statement (.repollDue slot) := of_slot rfl rfl rfl of_decide_eq_true
theorem refreshRoundBegin : Statement .refreshRoundBegin := of_none rfl rfl rfl
theorem notice (f : NoticeFields) : Statement (.notice f) := of_none rfl rfl rfl
theorem noticeCancel (payload : List Byte) : Statement (.noticeCancel payload) := of_payload rfl rfl rfl of_decide_eq_true
theorem lifetimeExpiry (id : Nat) : Statement (.lifetimeExpiry id) := of_id rfl rfl rfl of_decide_eq_true
theorem repeatTimerExpiry (id : Nat) : Statement (.repeatTimerExpiry id) := of_id rfl rfl rfl of_decide_eq_true
theorem dwellEnd : Statement .dwellEnd := of_none rfl rfl rfl
theorem modeChangeNotice (before after : Mode) : Statement (.modeChangeNotice before after) := of_none rfl rfl rfl
theorem reckoningAnnouncementNotice (news : ReckoningNews) : Statement (.reckoningAnnouncementNotice news) := of_none rfl rfl rfl
theorem portionChangeNotice (portion : Nat) : Statement (.portionChangeNotice portion) := of_none rfl rfl rfl
theorem activationAnnouncementNotice (families : FamilySet) : Statement (.activationAnnouncementNotice families) := of_none rfl rfl rfl
theorem coachNumberChange : Statement .coachNumberChange := of_none rfl rfl rfl
theorem reckoningAnnouncementPanel (news : ReckoningNews) : Statement (.reckoningAnnouncementPanel news) := of_none rfl rfl rfl
theorem overlayRequest (id : Nat) : Statement (.overlayRequest id) := of_id rfl rfl rfl of_decide_eq_true
theorem overlayEnd (id : Nat) : Statement (.overlayEnd id) := of_id rfl rfl rfl of_decide_eq_true
theorem noticeTextChange (item : NoticeTextItem) : Statement (.noticeTextChange item) := by
  cases item
  case current => exact of_none rfl rfl rfl
  case entry id => exact of_id rfl rfl rfl of_decide_eq_true
theorem activity : Statement .activity := of_none rfl rfl rfl
theorem modeChangePanel (before after : Mode) : Statement (.modeChangePanel before after) := of_none rfl rfl rfl
theorem formationChangePanel (item : FormationItem) : Statement (.formationChangePanel item) := of_none rfl rfl rfl
theorem activationAnnouncementPanel (families : FamilySet) : Statement (.activationAnnouncementPanel families) := of_none rfl rfl rfl
theorem travelRightChange (panel : Panel) : Statement (.travelRightChange panel) := of_none rfl rfl rfl
theorem clockMinuteChange : Statement .clockMinuteChange := of_none rfl rfl rfl
theorem composeSwap (panel : Panel) : Statement (.composeSwap panel) := of_none rfl rfl rfl
theorem idleTimerExpiry : Statement .idleTimerExpiry := of_none rfl rfl rfl

end Sys2Proof.Laws.OperandsInRange
end

