-- ==== Sys2Proof/Laws/Reckoning.lean ====
section
/-! SUPPORT. What the Reckoning Unit's operations do: the ranges of what they compute, and that each keeps the record within
its law. -/

namespace Sys2Proof.Machine

/-! ### Ranges (R87, R90, R92, R93) -/

theorem etaOf_le {remaining vs e : Nat} (h : etaOf remaining vs = some e) : e ≤ 5999 := by
  unfold etaOf at h
  split at h
  · split at h <;> cases h
    omega
  · cases h; exact Nat.min_le_left _ _

theorem permilleOf_le (t : TableStore) (o : Ordinals) (d sRun : Nat) : permilleOf t o d sRun ≤ 999 := by
  unfold permilleOf
  split
  · exact Nat.min_le_left _ _
  · omega

theorem arrivalOf_le {t : TableStore} {c : Clock} {n eta : Option Nat} {delay : Int} {m : Nat}
    (h : arrivalOf t c n eta delay = some m) : m ≤ 1439 := by
  unfold arrivalOf at h
  split at h
  · cases h; omega
  · obtain ⟨x, -, rfl⟩ := Option.map_eq_some_iff.1 h
    omega

theorem smoothed_le {r : Progress} (h : ∀ v ∈ r.vs.toList, v ≤ 1000) {v : Nat} (hv : v ≤ 1000) : smoothed r v ≤ 1000 := by
  unfold smoothed
  split <;> try exact hv
  have := h _ (by rw [Option.mem_toList]; assumption)
  omega

theorem clampedFrame_legal (f : PositionFields) : (clampedFrame f).legal := by
  refine ⟨?_, ?_, ?_, ?_⟩ <;> simp only [clampedFrame] <;> omega

/-- A running train always has an approach target: the next calling stop, or the closed-door stop before it (R91). -/
theorem approachTarget_isSome {o : Ordinals} (h : o.n ≠ none) : (approachTarget o).isSome = true := by
  unfold approachTarget
  split
  · contradiction
  · split
    · split <;> rfl
    · rfl

theorem stateOf_running {o : Ordinals} (h1 : stateOf o ≠ .finished) (h2 : stateOf o ≠ .atStop) :
    stateOf o = .running ∧ o.n ≠ none ∧ o.a = none := by
  unfold stateOf at *
  split at h1 <;> simp_all

/-! ### The law kept -/

/-- The record computed from a frame (R88 to R93) is legal; its delay, speed and door release are those before. -/
theorem ReckoningUnit.compute_legal {t : TableStore} {r : ReckoningUnit} (h : r.progress.legal) {f : LastFrame}
    (hf : f.legal) (framed : Bool) : (r.compute t f framed).legal := by
  obtain ⟨h1, h2, h3, h4, h5, h6, h7, h8, h9⟩ := h
  unfold ReckoningUnit.compute
  dsimp only
  split
  · exact ⟨hf.1, h2, by simp, by simp, by simp, h6, by simp, by simp, by simp⟩
  · exact ⟨hf.1, h2, by simp, by simp, fun m hm => arrivalOf_le (by simpa using hm), h6, by simp, by simp, by simp⟩
  · rename_i h1' h2'
    obtain ⟨-, hn, -⟩ := stateOf_running (o := findOrdinals r.calling r.halting f) h1' h2'
    have ht := approachTarget_isSome hn
    refine ⟨hf.1, h2, fun e he => etaOf_le (by simpa using he), permilleOf_le _ _ _ _,
      fun m hm => arrivalOf_le (by simpa using hm), h6, ?_, by simp, ?_⟩
    · dsimp only; split <;> simp
    · dsimp only; split <;> simp [ht]

theorem ReckoningUnit.recomputeHeld_legal {t : TableStore} {r : ReckoningUnit} (h : r.progress.legal)
    (hh : r.progress.state = .hold) (f : LastFrame) : (r.recomputeHeld t f).legal := by
  obtain ⟨h1, h2, h3, h4, h5, h6, h7, h8, h9⟩ := h
  unfold ReckoningUnit.recomputeHeld
  dsimp only
  split
  · exact ⟨h1, h2, by simp, by simp, by simp, h6, by simp [hh], by simp, by simp [hh]⟩
  · exact ⟨h1, h2, by simp, by simp, fun m hm => arrivalOf_le (by simpa using hm), h6, by simp [hh], by simp, by simp [hh]⟩
  · refine ⟨h1, h2, by simp, permilleOf_le _ _ _ _, fun m hm => arrivalOf_le (by simpa using hm), h6, by simp [hh], ?_, ?_⟩
    · intro m hm
      simp only [Option.mem_toList, Option.some.injEq] at hm
      subst hm
      split <;> simp
    · split
      · rename_i hk
        simp only [Bool.and_eq_true, beq_iff_eq] at hk
        have : r.progress.approach.isSome = true := h9.2 (.inr hk.1)
        simp [this]
      · simp [hh]

theorem Progress.cleared_legal {r : Progress} (h : r.legal) {x : ProgressState} (hx : x = .noRoute ∨ x = .awaitingPosition) :
    (r.cleared x).legal := by
  obtain ⟨h1, h2, h3, h4, h5, h6, h7, h8, h9⟩ := h
  refine ⟨h1, h2, by simp [Progress.cleared], by simp [Progress.cleared], by simp [Progress.cleared], h6, ?_,
    by simp [Progress.cleared], ?_⟩ <;> rcases hx with rfl | rfl <;> simp [Progress.cleared]

theorem ReckoningUnit.recompute_legal {t : TableStore} {r : ReckoningUnit} (h : r.progress.legal)
    (hf : ∀ f ∈ r.lastFrame.toList, f.legal) : (r.recompute t).legal := by
  unfold ReckoningUnit.recompute
  split
  · exact Progress.cleared_legal h (by split <;> simp)
  · rename_i f hl
    split
    · rename_i hh; exact ReckoningUnit.recomputeHeld_legal h hh f
    · exact ReckoningUnit.compute_legal h (hf f (by rw [hl]; simp)) false

theorem ReckoningUnit.recomputeAll_legal {r : ReckoningUnit} (h : r.legal) (t : TableStore) : (r.recomputeAll t).legal := by
  obtain ⟨h1, h2, h3⟩ := h
  exact ⟨ReckoningUnit.recompute_legal (r := { r with calling := t.callingSet r.portion, halting := t.haltingSet }) h1 h2,
    h2, h3⟩

theorem ReckoningUnit.afterFrame_legal {r : ReckoningUnit} (h : r.legal) (t : TableStore) {params : Params}
    (hp : params.legal) {f : LastFrame} (hf : f.legal) : (r.afterFrame t params f).legal := by
  obtain ⟨⟨h1, h2, h3, h4, h5, h6, h7, h8, h9⟩, -, -, -, -, hc⟩ := h
  obtain ⟨-, p1, p2, p3, -⟩ := hp
  have hv : ∀ v ∈ (some (smoothed r.progress f.v)).toList, v ≤ 1000 := by
    intro v hv
    simp only [Option.mem_toList, Option.some.injEq] at hv
    exact hv ▸ smoothed_le h2 hf.2.1
  have hk := ReckoningUnit.compute_legal (t := t) (f := f)
    (r := { r with lastFrame := some f, distanceInUse := params.approachDistance, leadInUse := params.approachLead,
                   progress := { r.progress with vs := some (smoothed r.progress f.v) } })
    ⟨h1, hv, h3, h4, h5, h6, h7, h8, h9⟩ hf true
  obtain ⟨k1, k2, k3, k4, k5, -, k7, k8, k9⟩ := hk
  exact ⟨⟨k1, k2, k3, k4, k5, hf.2.2, k7, k8, k9⟩, by simpa [ReckoningUnit.afterFrame] using hf, p1, p2, p3.2, hc⟩

theorem ReckoningUnit.expire_legal {r : ReckoningUnit} (h : r.legal) (t : TableStore)
    (hc : r.progress.state.counts = true) : (r.expire t).unit.legal := by
  obtain ⟨⟨h1, h2, h3, h4, h5, h6, h7, h8, h9⟩, hl, hd, hg, -, hk⟩ := h
  refine ⟨⟨h1, h2, by simp [ReckoningUnit.expire, ReckoningUnit.held], h4, fun m hm => arrivalOf_le (Option.mem_toList.1 hm), h6,
    by simp [ReckoningUnit.expire, ReckoningUnit.held], ?_, ?_⟩, hl, hd, hg, Nat.zero_le _, hk⟩
  · intro m hm
    simp only [ReckoningUnit.expire, ReckoningUnit.held, Option.mem_toList, Option.some.injEq] at hm
    subst hm
    revert hc
    cases r.progress.state <;> simp [ProgressState.counts]
  · simp only [ReckoningUnit.expire, ReckoningUnit.held]
    rw [h9]
    have : r.progress.remembered = none := by
      have : ¬ r.progress.remembered.isSome = true := by
        rw [← h7]; intro e; rw [e] at hc; cases hc
      simpa using this
    simp [this]

/-- A parameter set stays in its ranges (R60). -/
theorem Params.set_legal {p q : Params} (h : p.legal) {number value : Nat} (hq : p.set number value = some q) : q.legal := by
  obtain ⟨h1, h2, h3, h4, h5⟩ := h
  unfold Params.set at hq
  split at hq <;> cases hq
  · exact ⟨by simp only [clamp]; omega, h2, h3, h4, h5⟩
  · exact ⟨h1, by simp only [clamp]; omega, h3, h4, h5⟩
  · exact ⟨h1, h2, by simp only [clamp]; omega, h4, h5⟩
  · exact ⟨h1, h2, h3, by simp only [clamp]; omega, h5⟩
  · exact ⟨h1, h2, h3, h4, by simp only [clamp]; omega⟩
  · exact ⟨h1, h2, h3, h4, h5⟩
  · exact ⟨h1, h2, h3, h4, h5⟩

/-- The greatest member of a list of ordinals (R88, R118). -/
theorem greatest_eq_some_iff (l : List Nat) (m : Nat) : greatest l = some m ↔ m ∈ l ∧ ∀ y ∈ l, y ≤ m := by
  have key : ∀ (l : List Nat) (o : Option Nat),
      l.foldl (fun m x => some (match m with | none => x | some y => max x y)) o = some m ↔
        ((m ∈ l ∨ o = some m) ∧ (∀ y ∈ l, y ≤ m) ∧ ∀ y, o = some y → y ≤ m) := by
    intro l
    induction l with
    | nil => intro o; simp; rintro rfl; simp
    | cons x l ih =>
      intro o
      rw [List.foldl_cons, ih]
      cases o with
      | none => simp; tauto
      | some y =>
        simp only [Option.some.injEq, List.mem_cons, forall_eq_or_imp, forall_eq']
        rcases Nat.le_total x y with h | h
        · rw [Nat.max_eq_right h]
          refine ⟨fun ⟨h1, h2, h3⟩ => ⟨by tauto, ⟨by omega, h2⟩, h3⟩, fun ⟨h1, ⟨h2, h3⟩, h4⟩ => ⟨?_, h3, h4⟩⟩
          rcases h1 with (h1 | h1) | h1
          · exact .inr (by omega)
          · exact .inl h1
          · exact .inr h1
        · rw [Nat.max_eq_left h]
          refine ⟨fun ⟨h1, h2, h3⟩ => ⟨?_, ⟨h3, h2⟩, by omega⟩, fun ⟨h1, ⟨h2, h3⟩, h4⟩ => ⟨?_, h3, h2⟩⟩
          · rcases h1 with h1 | h1
            · exact .inl (.inr h1)
            · exact .inl (.inl h1.symm)
          · rcases h1 with (h1 | h1) | h1
            · exact .inr h1.symm
            · exact .inl h1
            · exact .inr (by omega)
  unfold greatest
  exact (key l none).trans (by simp)

end Sys2Proof.Machine
end

