-- ==== Sys2Proof/Laws/Reservation.lean ====
section
/-! SUPPORT. What placement does: the members of a chain, what a placed record satisfies, and that the operations keep the
placement law. -/

namespace Sys2Proof.Machine

/-! ### Chains (R111) -/

theorem mem_chainInsert {c : List ChainEntry} {e x : ChainEntry} : x ∈ chainInsert c e ↔ x = e ∨ x ∈ c := by
  induction c with
  | nil => simp [chainInsert]
  | cons y c ih =>
    unfold chainInsert
    split
    · simp
    · simp only [List.mem_cons, ih]; tauto

/-- The members of a slot's chain: the placed records of that slot. -/
theorem mem_chainOf {ps : Table Placement} {slot : Nat} {x : ChainEntry} :
    x ∈ chainOf ps slot ↔ ∃ e ∈ ps, e.2.slot = slot ∧ e.2.outcome = .placed x.b x.a ∧ e.2.note = x.note := by
  unfold chainOf
  have key : ∀ (l : Table Placement) (c : List ChainEntry),
      x ∈ l.foldl (fun c e => match e.2.outcome with
        | .placed b a => if e.2.slot = slot then chainInsert c { b := b, a := a, note := e.2.note } else c
        | .unplaced _ => c) c ↔
      x ∈ c ∨ ∃ e ∈ l, e.2.slot = slot ∧ e.2.outcome = .placed x.b x.a ∧ e.2.note = x.note := by
    intro l
    induction l with
    | nil => intro c; simp
    | cons e l ih =>
      intro c
      rw [List.foldl_cons, ih]
      obtain ⟨k, id, sl, note, o⟩ := e
      cases o with
      | unplaced r => simp
      | placed b a =>
        dsimp only
        split
        · rename_i hs
          rw [mem_chainInsert]
          simp only [List.mem_cons, exists_eq_or_imp, hs, true_and, PlacementOutcome.placed.injEq]
          constructor
          · rintro ((rfl | h) | h)
            · exact .inr (.inl ⟨⟨rfl, rfl⟩, rfl⟩)
            · exact .inl h
            · exact .inr (.inr h)
          · rintro (h | ⟨⟨rfl, rfl⟩, rfl⟩ | h)
            · exact .inl (.inr h)
            · exact .inl (.inl rfl)
            · exact .inr h
        · rename_i hs
          simp [hs]
  exact (key ps []).trans (by simp)

/-- A chain keeps its order of boarding. -/
theorem chainInsert_sorted {c : List ChainEntry} (h : c.Pairwise (fun x y => x.b ≤ y.b)) (e : ChainEntry) :
    (chainInsert c e).Pairwise (fun x y => x.b ≤ y.b) := by
  induction c with
  | nil => simp [chainInsert]
  | cons y c ih =>
    rw [List.pairwise_cons] at h
    unfold chainInsert
    split
    · refine List.pairwise_cons.2 ⟨?_, List.pairwise_cons.2 h⟩
      intro z hz
      rcases List.mem_cons.1 hz with rfl | hz
      · omega
      · have := h.1 z hz; omega
    · refine List.pairwise_cons.2 ⟨?_, ih h.2⟩
      intro z hz
      rcases mem_chainInsert.1 hz with rfl | hz
      · omega
      · exact h.1 z hz

theorem chainOf_sorted (ps : Table Placement) (slot : Nat) : (chainOf ps slot).Pairwise (fun x y => x.b ≤ y.b) := by
  unfold chainOf
  have key : ∀ (l : Table Placement) (c : List ChainEntry), c.Pairwise (fun x y => x.b ≤ y.b) →
      (l.foldl (fun c e => match e.2.outcome with
        | .placed b a => if e.2.slot = slot then chainInsert c { b := b, a := a, note := e.2.note } else c
        | .unplaced _ => c) c).Pairwise (fun x y => x.b ≤ y.b) := by
    intro l
    induction l with
    | nil => exact fun c h => h
    | cons e l ih =>
      intro c hc
      rw [List.foldl_cons]
      refine ih _ ?_
      split
      · split
        · exact chainInsert_sorted hc _
        · exact hc
      · exact hc
  exact key ps [] List.Pairwise.nil

/-! ### Placement (R110) -/

theorem spansOverlap_comm (b a b' a' : Nat) : spansOverlap b a b' a' = spansOverlap b' a' b a := by
  simp [spansOverlap, and_comm]

theorem Placement.clear_comm (x y : Placement) : x.clear y = y.clear x := by
  unfold Placement.clear
  cases x.span <;> cases y.span <;> simp [spansOverlap_comm, bne_comm]

/-- What a record that is placed satisfies (R110). -/
theorem place_placed {t : TableStore} {calling : List Nat} {before : Table Placement} {r : ResvRecord} {b a : Nat}
    (h : place t calling before r = .placed b a) :
    (enabledSlot t.seat.active r.slot).isSome = true ∧ r.slot ≤ 127 ∧ onRoute t calling r = some (b, a) ∧ b < a ∧
      ∀ e ∈ chainOf before r.slot, spansOverlap b a e.b e.a = false := by
  unfold place at h
  split at h
  · cases h
  rename_i h1
  split at h
  · cases h
  rename_i b' a' h2
  split at h
  · cases h
  rename_i h3
  split at h
  · cases h
  rename_i h4
  cases h
  simp only [not_or, Option.isNone_iff_eq_none, Nat.not_lt] at h1
  simp only [List.any_eq_true, not_exists, not_and, Bool.not_eq_true] at h4
  exact ⟨Option.isSome_iff_ne_none.2 h1.1, h1.2, h2, by omega, h4⟩

/-- A record whose span is clear of its slot's chain is clear of every placement. -/
theorem clear_of_chain {ps : Table Placement} {p : Placement} {b a : Nat} (hp : p.span = some (b, a))
    (h : ∀ e ∈ chainOf ps p.slot, spansOverlap b a e.b e.a = false) {e : Nat × Placement} (he : e ∈ ps) :
    e.2.clear p = true := by
  unfold Placement.clear
  split
  · rename_i s t hs ht
    rw [hp] at ht
    cases ht
    by_cases hk : e.2.slot = p.slot
    · have hm : ({ b := s.1, a := s.2, note := e.2.note } : ChainEntry) ∈ chainOf ps p.slot := by
        refine mem_chainOf.2 ⟨e, he, hk, ?_, rfl⟩
        unfold Placement.span at hs
        split at hs <;> cases hs
        assumption
      have := h _ hm
      rw [spansOverlap_comm] at this
      simp [this]
    · simp [hk]
  · rfl

/-- The law of placement over a list of placements and a calling set (R110). -/
abbrev placed (calling : List Nat) (ps : Table Placement) : Prop :=
  (∀ e ∈ ps, ∀ x ∈ e.2.span.toList, x.1 < x.2 ∧ x.1 ∈ calling ∧ x.2 ∈ calling) ∧
    ps.Pairwise (fun x y => x.2.clear y.2 = true)

theorem placeAll_placed (t : TableStore) (calling : List Nat) (bank : Table (List Byte)) {before : Table Placement}
    (h : placed calling before) : placed calling (placeAll t calling before bank) := by
  induction bank generalizing before with
  | nil => exact h
  | cons e bank ih =>
    obtain ⟨i, bytes⟩ := e
    refine ih ⟨?_, ?_⟩
    · intro e he x hx
      rcases List.mem_append.1 he with he | he
      · exact h.1 e he x hx
      · simp only [List.mem_singleton] at he
        subst he
        unfold Placement.span at hx
        split at hx
        · rename_i b a ho
          simp only [Option.mem_toList, Option.some.injEq] at hx
          subst hx
          have := place_placed (show place t calling before (resvRecord bytes) = .placed b a from ho)
          have hr := onRoute_spec this.2.2.1
          exact ⟨this.2.2.2.1, hr.2.2.1, hr.2.2.2⟩
        · simp at hx
    · refine List.pairwise_append.2 ⟨h.2, by simp, ?_⟩
      intro x hx y hy
      simp only [List.mem_singleton] at hy
      subst hy
      cases ho : place t calling before (resvRecord bytes) with
      | unplaced r =>
        unfold Placement.clear
        simp [Placement.span, ResvRecord.placement]
      | placed b a =>
        exact clear_of_chain (p := (resvRecord bytes).placement (.placed b a)) rfl (place_placed ho).2.2.2.2 hx

/-- A placement run has one placement for each present record, with its id, slot and note. -/
theorem placeAll_map (t : TableStore) (calling : List Nat) (bank : Table (List Byte)) (before : Table Placement) :
    (placeAll t calling before bank).map (fun e => (e.1, e.2.id)) =
      before.map (fun e => (e.1, e.2.id)) ++ bank.map (fun e => (e.1, (resvRecord e.2).id)) := by
  induction bank generalizing before with
  | nil => simp [placeAll]
  | cons e bank ih =>
    obtain ⟨i, bytes⟩ := e
    rw [placeAll, ih]
    simp [ResvRecord.placement]

/-- A run decides each record against those it has placed before it (R110). -/
theorem placeAll_append (t : TableStore) (calling : List Nat) (pre rest : Table (List Byte)) (before : Table Placement) :
    placeAll t calling before (pre ++ rest) = placeAll t calling (placeAll t calling before pre) rest := by
  induction pre generalizing before with
  | nil => rfl
  | cons e pre ih => exact ih _

/-- The content read back: the one written, and every other as it was (R125). -/
theorem find_setContent (contents : Table SeatContent) (slot : Nat) (c : Option SeatContent) (j : Nat) :
    Table.find (setContent contents slot c) j = if j = slot then c else Table.find contents j := by
  cases c with
  | none => simp only [setContent, Table.find_erase, eq_comm]
  | some c => simp only [setContent, Table.find_set, eq_comm]

/-- The resolution of one enabled slot (R124, R125): the content, and the request where it changed. -/
theorem ReservationUnit.resolveOne_spec {s : State} {u : ReservationUnit} {slot : Nat} {seat : SeatSlot}
    (h : enabledSlot s.tables.seat.active slot = some seat) :
    (∀ j, Table.find (u.resolveOne s slot).unit.contents j =
      if j = slot then resolveSlot s u.placements slot seat else Table.find u.contents j) ∧
    (u.resolveOne s slot).unit = { u with contents := (u.resolveOne s slot).unit.contents } ∧
    (u.resolveOne s slot).said =
      if resolveSlot s u.placements slot seat = Table.find u.contents slot then [] else [.queueRequest slot] := by
  unfold ReservationUnit.resolveOne
  simp only [h]
  split
  · rename_i hc
    refine ⟨fun j => ?_, rfl, rfl⟩
    by_cases hj : j = slot
    · subst hj; simp [hc, Did.nothing]
    · simp [hj, Did.nothing]
  · exact ⟨fun j => find_setContent _ _ _ _, rfl, rfl⟩

theorem ReservationUnit.run_law (t : TableStore) (calling : List Nat) (u : ReservationUnit) :
    (u.run t calling).placementLaw :=
  placeAll_placed t calling t.resv.active (before := []) ⟨by simp, List.Pairwise.nil⟩

theorem ReservationUnit.renew_law {t : TableStore} {calling : List Nat} {u : ReservationUnit} (h : u.placementLaw) :
    (u.renew t calling).placementLaw := by
  unfold ReservationUnit.renew
  split
  · exact ReservationUnit.run_law t calling u
  · exact h

/-- After the basis is renewed it is that of the active route and calling set (R109). -/
theorem ReservationUnit.renew_basis (t : TableStore) (calling : List Nat) (u : ReservationUnit) :
    (u.renew t calling).basisCount = t.route.count ∧ (u.renew t calling).basisCalling = calling := by
  unfold ReservationUnit.renew
  split
  · exact ⟨rfl, rfl⟩
  · rename_i h
    simp only [ReservationUnit.stale, Bool.or_eq_true, bne_iff_ne, not_or, not_not] at h
    exact h

@[simp] theorem ReservationUnit.resolveAll_placements (s : State) (force : Bool) (u : ReservationUnit) :
    (u.resolveAll s force).unit.placements = u.placements := rfl

@[simp] theorem ReservationUnit.resolveAll_basisCalling (s : State) (force : Bool) (u : ReservationUnit) :
    (u.resolveAll s force).unit.basisCalling = u.basisCalling := rfl

/-- As a live edit finds the unit: the law, and the basis of the active banks and the calling set (R109, R117, log 13). -/
theorem ReservationUnit.forEdit_spec {s : State} {u : ReservationUnit} (h : u.placementLaw) :
    (u.forEdit s).unit.placementLaw ∧ (u.forEdit s).unit.outdated s.tables s.reck.calling = false ∧
      (u.forEdit s).unit.basisCalling = s.reck.calling := by
  unfold ReservationUnit.forEdit
  split
  · exact ⟨ReservationUnit.run_law s.tables s.reck.calling u,
      by simp [ReservationUnit.outdated, ReservationUnit.stale, ReservationUnit.resolveAll, ReservationUnit.run], rfl⟩
  · rename_i hn
    have hn' : u.outdated s.tables s.reck.calling = false := by simpa using hn
    refine ⟨h, hn', ?_⟩
    simp only [ReservationUnit.outdated, ReservationUnit.stale, Bool.or_eq_false_iff, bne_eq_false_iff_eq] at hn'
    exact hn'.1.1.2

/-- Writing into a table keeps a symmetric relation between its entries when the new entry has it with each. -/
theorem Table.pairwise_set {α : Type} {R : Nat × α → Nat × α → Prop} (hs : ∀ x y, R x y → R y x) {t : Table α} {i : Nat} {v : α}
    (h : t.Pairwise R) (hn : ∀ e ∈ t, R e (i, v)) : (Table.set t i v).Pairwise R := by
  induction t with
  | nil => simp [Table.set]
  | cons e t ih =>
    obtain ⟨k, w⟩ := e
    rw [List.pairwise_cons] at h
    have ht : ∀ e ∈ t, R e (i, v) := fun e he => hn e (List.mem_cons_of_mem _ he)
    unfold Table.set
    split
    · exact List.pairwise_cons.2 ⟨fun e he => hs _ _ (hn e he), List.pairwise_cons.2 h⟩
    · split
      · exact List.pairwise_cons.2 ⟨fun e he => hs _ _ (ht e he), h.2⟩
      · refine List.pairwise_cons.2 ⟨fun e he => ?_, ih h.2 ht⟩
        rcases Table.mem_set he with rfl | he
        · exact hn _ (by simp)
        · exact h.1 e he

/-- Two codes found at one ordinal of a canonical route are one code (R68). -/
theorem lookup_inj {t : TableStore} (h : Table.wf t.route.active) {x y o : Nat} (hx : t.lookup x = some o)
    (hy : t.lookup y = some o) : x = y := by
  unfold TableStore.lookup at hx hy
  obtain ⟨e, he, rfl⟩ := Option.map_eq_some_iff.1 hx
  obtain ⟨f, hf, hef⟩ := Option.map_eq_some_iff.1 hy
  have h1 := Table.find_of_mem h (List.mem_of_find?_eq_some he)
  have h2 := Table.find_of_mem h (List.mem_of_find?_eq_some hf)
  have p1 := List.find?_some he
  have p2 := List.find?_some hf
  rw [hef] at h2
  have he : e.2 = f.2 := Option.some.inj (h1.symm.trans h2)
  simp only [beq_iff_eq] at p1 p2
  rw [← p1, ← p2, hef, he]

/-! ### Resolution and live edits (R114, R116, R123 to R125) -/

/-- The contents of every enabled slot, each as its resolution gives it (R123). -/
theorem find_allContents {s : State} {ps : Table Placement} (hw : Table.wf s.tables.seat.active) :
  (∀ i x, enabledSlot s.tables.seat.active i = some x → Table.find (allContents s ps) i = resolveSlot s ps i x) ∧
  (∀ i, enabledSlot s.tables.seat.active i = none → Table.find (allContents s ps) i = none) := by
  unfold allContents enabledSlot
  revert hw
  generalize s.tables.seat.active = b
  intro hw
  induction b with
  | nil => simp
  | cons e b ih =>
    obtain ⟨k, v⟩ := e
    rw [Table.wf, List.pairwise_cons] at hw
    obtain ⟨ih1, ih2⟩ := ih hw.2
    have hnone : Table.find b k = none := by
      cases hf : Table.find b k with
      | none => rfl
      | some w => exact absurd (hw.1 _ (Table.mem_of_find hf)) (Nat.lt_irrefl _)
    have hfm : Table.find (b.filterMap (fun e =>
        if (seatSlot e.2).enabled then (resolveSlot s ps e.1 (seatSlot e.2)).map (fun c => (e.1, c)) else none)) k = none :=
      ih2 k (by simp [hnone])
    rw [List.filterMap_cons]
    refine ⟨fun i x hx => ?_, fun i hx => ?_⟩
    · by_cases hi : k = i
      · subst hi
        simp only [Table.find, if_true, Option.bind_some] at hx
        split at hx <;> simp at hx
        subst hx
        rename_i he
        simp only [he, if_true]
        cases hr : resolveSlot s ps k (seatSlot v) <;> simp [hfm, Table.find]
      · simp only [Table.find, hi, if_false] at hx
        have := ih1 i x hx
        split
        · exact this
        · rename_i c hc
          split at hc
          · obtain ⟨d, hd, rfl⟩ := Option.map_eq_some_iff.1 hc
            simp only [Table.find, hi, if_false]; exact this
          · cases hc
    · by_cases hi : k = i
      · subst hi
        simp only [Table.find, if_true, Option.bind_some] at hx
        split at hx <;> simp at hx
        rename_i he
        simp only [he]; simpa using hfm
      · simp only [Table.find, hi, if_false] at hx
        have := ih2 i hx
        split
        · exact this
        · rename_i c hc
          split at hc
          · obtain ⟨d, hd, rfl⟩ := Option.map_eq_some_iff.1 hc
            simp only [Table.find, hi, if_false]; exact this
          · cases hc

/-- Whether a span overlaps a chain, said of the placements (R110, R114). -/
theorem overlaps_chainOf_iff (ps : Table Placement) (slot b a : Nat) :
    (chainOf ps slot).any (fun e => spansOverlap b a e.b e.a) = true ↔
      ∃ e ∈ ps, e.2.slot = slot ∧ ∃ b' a', e.2.outcome = .placed b' a' ∧ b < a' ∧ b' < a := by
  rw [List.any_eq_true]
  constructor
  · rintro ⟨x, hx, ho⟩
    obtain ⟨e, he, h1, h2, -⟩ := mem_chainOf.1 hx
    simp only [spansOverlap, decide_eq_true_eq] at ho
    exact ⟨e, he, h1, _, _, h2, ho⟩
  · rintro ⟨e, he, h1, b', a', h2, ho⟩
    exact ⟨⟨b', a', e.2.note⟩, mem_chainOf.2 ⟨e, he, h1, h2, rfl⟩, by simpa [spansOverlap] using ho⟩

/-- The ordinals of a record on the route: both stops found and in the calling set (R110, R114). -/
theorem onRoute_eq_some_iff (t : TableStore) (c : List Nat) (x : ResvRecord) (b a : Nat) : onRoute t c x = some (b, a) ↔
   (t.lookup x.board = some b ∧ t.lookup x.alight = some a ∧ b ∈ c ∧ a ∈ c) := by
  unfold onRoute
  split
  · rename_i b1 a1 h1 h2
    simp only [h1, h2, Option.some.injEq]
    split
    · rename_i h; simp only [Option.some.injEq, Prod.mk.injEq]
      constructor
      · rintro ⟨rfl, rfl⟩; exact ⟨rfl, rfl, h⟩
      · rintro ⟨rfl, rfl, -⟩; exact ⟨rfl, rfl⟩
    · rename_i h; simp only [false_iff, reduceCtorEq]; rintro ⟨rfl, rfl, h'⟩; exact h h'
  · rename_i h; simp only [false_iff, reduceCtorEq]; rintro ⟨h1, h2, -⟩; exact h _ _ h1 h2

/-- The unplaced count without one of the placements (R109, R116). -/
theorem unplacedCount_erase {ps : Table Placement} (hw : Table.wf ps) (i : Nat) (p : Placement) (hf : Table.find ps i = some p) :
    unplacedCount ps = unplacedCount (Table.erase ps i) + unplacedCount [(i, p)] := by
  induction ps with
  | nil => cases hf
  | cons e ps ih =>
    obtain ⟨k, q⟩ := e
    rw [Table.wf, List.pairwise_cons] at hw
    by_cases hk : k = i
    · subst hk
      simp only [Table.find, if_true, Option.some.injEq] at hf
      subst hf
      have : Table.erase ((k, q) :: ps) k = ps := by
        unfold Table.erase
        rw [List.filter_cons_of_neg (by simp)]
        exact List.filter_eq_self.2 (fun x hx => by have := hw.1 x hx; simp; omega)
      rw [this]
      unfold unplacedCount
      rw [List.filter_cons, List.filter_cons]
      split <;> simp
    · simp only [Table.find, hk, if_false] at hf
      have := ih hw.2 hf
      have he : Table.erase ((k, q) :: ps) i = (k, q) :: Table.erase ps i := by
        unfold Table.erase
        rw [List.filter_cons_of_pos (by simpa using hk)]
      rw [he]
      unfold unplacedCount at this ⊢
      rw [List.filter_cons, List.filter_cons (xs := Table.erase ps i)]
      split <;> simp <;> omega

/-- The state after one slot is resolved: its content, its queue request, and nothing else (R124, R125). -/
theorem State.withResv_resolveOne (T : State) (V : ReservationUnit) {slot : Nat} {seat : SeatSlot}
    (h : enabledSlot T.tables.seat.active slot = some seat) :
    let t := T.withResv (V.resolveOne T slot)
    t = { T with
      resv := { V with contents := t.resv.contents }
      announced := T.announced ++
        (if Table.find t.resv.contents slot = Table.find V.contents slot then [] else [.queueRequest slot]) } ∧
    (∀ j, Table.find t.resv.contents j =
      if j = slot then resolveSlot T V.placements slot seat else Table.find V.contents j) ∧
    t.resv.placements = V.placements := by
  obtain ⟨r1, r2, r3⟩ := ReservationUnit.resolveOne_spec (u := V) h
  have r4 := r1 slot
  rw [if_pos rfl] at r4
  refine ⟨?_, r1, by rw [State.withResv_resv, r2]⟩
  have hsaid : (if Table.find (T.withResv (V.resolveOne T slot)).resv.contents slot = Table.find V.contents slot then []
      else [Instr.queueRequest slot]) = (V.resolveOne T slot).said := by
    rw [r3]; simp only [State.withResv_resv, r4]
  rw [hsaid]
  exact congrArg (fun u => ({ T with resv := u, announced := T.announced ++ (V.resolveOne T slot).said } : State)) r2

end Sys2Proof.Machine
end

