-- ==== Sys2Proof/Laws/SeatBus.lean ====
section
/-! SUPPORT. What the Seat Bus Engine's operations do: where the next work comes from, and that each operation keeps the
engine within its law. -/

namespace Sys2Proof.Machine

variable {s : State}

/-! ### Enabled slots (R105) -/

theorem enabledSlots_nodup {b : Table (List Byte)} (h : Table.wf b) : (enabledSlots b).Nodup := by
  have h1 : (b.filter (fun e => (seatSlot e.2).enabled)).Pairwise (fun x y => x.1 < y.1) := h.sublist List.filter_sublist
  exact (List.pairwise_map.2 h1).imp (fun h => Nat.ne_of_lt h)

theorem enabledSlots_lt {b : Table (List Byte)} (h : bankLegal .seat b) {i : Nat} (hi : i ∈ enabledSlots b) : i < 128 := by
  obtain ⟨e, he, rfl⟩ := List.mem_map.1 hi
  exact h.2 e (List.mem_filter.1 he).1

/-- The first slot found is in the list, passes the test and is enabled. -/
theorem firstSlot_spec {t : TableStore} {slots : List Nat} {test : Nat → Bool} {i : Nat} {x : SeatSlot}
    (h : firstSlot t slots test = some (i, x)) : i ∈ slots ∧ test i = true ∧ enabledSlot t.seat.active i = some x := by
  obtain ⟨j, hj, hx⟩ := List.exists_of_findSome?_eq_some h
  obtain ⟨y, hy, he⟩ := Option.map_eq_some_iff.1 hx
  cases he
  exact ⟨(List.mem_filter.1 hj).1, (List.mem_filter.1 hj).2, hy⟩

/-- What can be sent is the end of the dirty queue. -/
theorem sendable_suffix (t : TableStore) (u : SeatBusEngine) : u.sendable t <:+ u.dirty := List.dropWhile_suffix _

/-! ### The law kept (R128, R131) -/

theorem SeatBusEngine.begin_legal {u : SeatBusEngine} (h : u.legal) (kind : TransactionKind) (slot : Nat) (x : SeatSlot) :
    (u.begin s kind slot x).legal := by
  obtain ⟨h1, h2, h3, h4, h5, h6, -⟩ := h
  exact ⟨h1, h2, h3, h4, h5, h6, by simp [SeatBusEngine.begin]⟩

theorem SeatBusEngine.request_legal {u : SeatBusEngine} (h : u.legal) (t : TableStore) (slot : Nat) :
    (u.request t slot).legal := by
  unfold SeatBusEngine.request
  split
  · exact h
  · rename_i hn
    obtain ⟨h1, h2⟩ := h
    refine ⟨?_, h2⟩
    simp only [not_or] at hn
    exact List.nodup_append.2 ⟨h1, by simp, by rintro a ha b hb rfl; simp at hb; exact hn.1 (hb ▸ ha)⟩

theorem SeatBusEngine.choose_legal {u : SeatBusEngine} (h : u.legal) (hb : bankLegal .seat s.tables.seat.active) :
    (u.choose s).legal := by
  unfold SeatBusEngine.choose
  split
  · exact h
  split
  · unfold SeatBusEngine.chooseBlanking
    have sweep : ∀ pointer : Nat, (match firstSlot s.tables (enabledSlots s.tables.seat.active) (fun i => pointer ≤ i) with
        | some (i, seat) => { u.begin s .blanking i seat with blanking := .running (i + 1) }
        | none => { u with blanking := .done } : SeatBusEngine).legal := by
      intro pointer
      split
      · rename_i i x hf
        obtain ⟨b1, b2, b3, b4, b5, b6, b7⟩ := SeatBusEngine.begin_legal (s := s) h .blanking i x
        have := enabledSlots_lt hb (firstSlot_spec hf).1
        refine ⟨b1, b2, b3, b4, b5, ⟨b6.1, ?_⟩, b7⟩
        simp only [BlankingPass.pointer, Option.toList_some, List.mem_singleton, forall_eq]
        omega
      · obtain ⟨h1, h2, h3, h4, h5, h6, h7⟩ := h
        exact ⟨h1, h2, h3, h4, h5, ⟨h6.1, by simp [BlankingPass.pointer]⟩, h7⟩
    dsimp only
    split
    · exact sweep 0
    · exact sweep _
    · exact h
  · unfold SeatBusEngine.chooseWork
    obtain ⟨h1, h2, h3, h4, h5, h6, h7⟩ := h
    split
    · rename_i i rest hd
      have hr : rest.Nodup := by
        have := (sendable_suffix s.tables u).sublist.nodup h1
        rw [hd] at this
        exact (List.nodup_cons.1 this).2
      split
      · exact SeatBusEngine.begin_legal (u := { u with dirty := rest }) ⟨hr, h2, h3, h4, h5, h6, h7⟩ _ _ _
      · exact ⟨hr, h2, h3, h4, h5, h6, h7⟩
    · have hv : ({ u with dirty := [] } : SeatBusEngine).legal := ⟨List.nodup_nil, h2, h3, h4, h5, h6, h7⟩
      dsimp only
      split
      · exact SeatBusEngine.begin_legal hv _ _ _
      · split
        · split
          · rename_i i x hf
            obtain ⟨b1, b2, b3, b4, b5, b6, b7⟩ := SeatBusEngine.begin_legal (s := s) hv .refresh i x
            have := enabledSlots_lt hb (firstSlot_spec hf).1
            exact ⟨b1, b2, b3, b4, b5, ⟨this, b6.2⟩, b7⟩
          · exact ⟨List.nodup_nil, h2, h3, h4, h5, ⟨Nat.zero_le _, h6.2⟩, h7⟩
        · exact hv

theorem SeatBusEngine.lampFault_legal {u : SeatBusEngine} (h : u.legal) (slot : Nat) : (u.lampFault slot).unit.legal := by
  unfold SeatBusEngine.lampFault
  split
  · exact h
  · rename_i hn
    obtain ⟨h1, h2, h3⟩ := h
    refine ⟨h1, ?_, h3⟩
    exact List.nodup_append.2 ⟨h2, by simp, by rintro a ha b hb rfl; simp at hb; exact hn (hb ▸ ha)⟩

theorem SeatBusEngine.answered_legal {u : SeatBusEngine} (h : u.legal) (t : TableStore) (x : Transaction) (lamp : Bool) :
    (u.answered t x lamp).unit.legal := by
  obtain ⟨h1, h2, h3, h4, h5, h6, -⟩ := h
  have hv : ({ u with transaction := none } : SeatBusEngine).legal := ⟨h1, h2, h3, h4, h5, h6, by simp⟩
  unfold SeatBusEngine.answered
  dsimp only
  split
  · exact hv
  · have hw : (if u.isFaulted x.slot then
        SeatBusEngine.request t
          { { u with transaction := none } with faulted := Table.erase { u with transaction := none }.faulted x.slot } x.slot
        else { u with transaction := none }).legal := by
      split
      · have hz : ({ { u with transaction := none } with
            faulted := Table.erase { u with transaction := none }.faulted x.slot } : SeatBusEngine).legal :=
          ⟨h1, h2, Table.wf_erase h3 _, fun e he => h4 e (List.mem_filter.1 he).1, h5, h6, by simp⟩
        exact SeatBusEngine.request_legal hz _ _
      · exact hv
    split
    · exact SeatBusEngine.lampFault_legal hw _
    · exact hw

theorem SeatBusEngine.unanswered_legal {u : SeatBusEngine} (h : u.legal) (x : Transaction) :
    (u.unanswered x).unit.legal := by
  obtain ⟨h1, h2, h3, h4, h5, h6, -⟩ := h
  unfold SeatBusEngine.unanswered
  dsimp only
  split
  · exact ⟨h1, h2, h3, h4, h5, h6, by simp [Did.nothing]⟩
  · refine ⟨h1, h2, Table.wf_set h3 _ _, fun e he => ?_, h5, h6, by simp⟩
    rcases Table.mem_set he with rfl | he
    · exact Nat.le_refl _
    · exact h4 e he

theorem SeatBusEngine.tick_legal {u : SeatBusEngine} (h : u.legal) : u.tick.1.legal := by
  obtain ⟨h1, h2, h3, h4, h5, h6, h7⟩ := h
  have hw : Table.wf (u.faulted.map (fun e => (e.1, e.2 - 1))) := List.pairwise_map.2 h3
  have hm : ∀ e ∈ u.faulted.map (fun e => (e.1, e.2 - 1)), e.2 ≤ 30 := by
    intro e he
    obtain ⟨x, hx, rfl⟩ := List.mem_map.1 he
    have := h4 x hx
    dsimp only; omega
  unfold SeatBusEngine.tick
  dsimp only
  split
  · exact ⟨h1, h2, hw, hm, by simp, h6, h7⟩
  · exact ⟨h1, h2, hw, hm, by dsimp only; omega, h6, h7⟩

end Sys2Proof.Machine
end

