-- ==== Sys2Proof/Laws/Writes.lean ====
section
/-! SUPPORT. Which commands write a part of the state: `Instr.writes…` lists them, and every other command leaves that part
as it was. -/

namespace Sys2Proof

/-- The commands that write `powered`. -/
def Instr.writesPowered : Instr → Bool
  | .powerOn => true
  | .powerLoss => true
  | .restartHoldEnd => true
  | _ => false

/-- The commands that write `retainedRead`. -/
def Instr.writesRetainedRead : Instr → Bool
  | .powerOn => true
  | .powerLoss => true
  | .startUpComplete => true
  | .restartHoldEnd => true
  | _ => false

/-- The commands that write `retained`. -/
def Instr.writesRetained : Instr → Bool
  | .powerLoss => true
  | .storeWriteEnd _ => true
  | _ => false

/-- The commands that write `line`. -/
def Instr.writesLine : Instr → Bool
  | .powerOn => true
  | .powerLoss => true
  | .startUpComplete => true
  | .neighbourSignalAppears _ => true
  | .trainingCompletes _ => true
  | .lossOfSignal _ => true
  | .linkChangeReport _ _ => true
  | .frameArrival _ _ => true
  | .transmissionEnd _ => true
  | .enumerate _ _ _ => true
  | .mgmtUnknownCommand _ _ _ => true
  | .load _ => true
  | .loadNext _ => true
  | .commit _ => true
  | .discard _ => true
  | .mode _ => true
  | .param _ => true
  | .status _ => true
  | .startAck _ => true
  | .assign _ => true
  | .stopCancel _ => true
  | .resvAdd _ => true
  | .resvDrop _ => true
  | .acceptInsert _ => true
  | .acceptRemove _ => true
  | .restart _ => true
  | .faultRead _ => true
  | .faultClear _ => true
  | .ident _ => true
  | .store _ => true
  | .storeWriteEnd _ => true
  | .restartHoldEnd => true
  | _ => false

/-- The commands that write `form`. -/
def Instr.writesForm : Instr → Bool
  | .powerOn => true
  | .powerLoss => true
  | .startUpComplete => true
  | .linkChangeReport _ _ => true
  | .enumerate _ _ _ => true
  | .assign _ => true
  | .ident _ => true
  | .restartHoldEnd => true
  | _ => false

/-- The commands that write `tables`. -/
def Instr.writesTables : Instr → Bool
  | .powerOn => true
  | .powerLoss => true
  | .startUpComplete => true
  | .newInauguration => true
  | .departureReport _ => true
  | .load _ => true
  | .loadNext _ => true
  | .commit _ => true
  | .discard _ => true
  | .stopCancel _ => true
  | .resvAdd _ => true
  | .resvDrop _ => true
  | .restartHoldEnd => true
  | .routeActivationReckoning _ => true
  | .activationAnnouncementNotice _ => true
  | _ => false

/-- The commands that write `mgmt`. -/
def Instr.writesMgmt : Instr → Bool
  | .powerOn => true
  | .powerLoss => true
  | .startUpComplete => true
  | .newInauguration => true
  | .departureReport _ => true
  | .load _ => true
  | .loadNext _ => true
  | .commit _ => true
  | .discard _ => true
  | .mode _ => true
  | .param _ => true
  | .startAck _ => true
  | .restart _ => true
  | .store _ => true
  | .storeWriteEnd _ => true
  | .restartHoldEnd => true
  | _ => false

/-- The commands that write `faults`. -/
def Instr.writesFaults : Instr → Bool
  | .powerOn => true
  | .powerLoss => true
  | .startUpComplete => true
  | .secondsTick => true
  | .faultClear _ => true
  | .restartHoldEnd => true
  | .faultReport _ => true
  | _ => false

/-- The commands that write `reck`. -/
def Instr.writesReck : Instr → Bool
  | .powerOn => true
  | .powerLoss => true
  | .startUpComplete => true
  | .position _ => true
  | .time _ => true
  | .secondsTick => true
  | .clockSecond => true
  | .freshnessExpiry => true
  | .stopCancel _ => true
  | .restartHoldEnd => true
  | .portionChangeReckoning _ => true
  | .routeActivationReckoning _ => true
  | _ => false

/-- The commands that write `resv`. -/
def Instr.writesResv : Instr → Bool
  | .powerOn => true
  | .powerLoss => true
  | .resvAdd _ => true
  | .resvDrop _ => true
  | .restartHoldEnd => true
  | .reckoningAnnouncementResv _ => true
  | .activationAnnouncementResv _ => true
  | .portionChangeResv => true
  | .modeChangeResv => true
  | .horizonChange => true
  | _ => false

/-- The commands that write `bus`. -/
def Instr.writesBus : Instr → Bool
  | .powerOn => true
  | .powerLoss => true
  | .startUpComplete => true
  | .secondsTick => true
  | .restartHoldEnd => true
  | .queueRequest _ => true
  | .seatActivationEngine => true
  | .modeChangeEngine => true
  | .faultClearEngine => true
  | .seatSettleEnd => true
  | .seatAnswer _ _ _ => true
  | .seatAnswerTimeout => true
  | .repollDue _ => true
  | .refreshRoundBegin => true
  | _ => false

/-- The commands that write `notice`. -/
def Instr.writesNotice : Instr → Bool
  | .powerOn => true
  | .powerLoss => true
  | .startUpComplete => true
  | .secondsTick => true
  | .status _ => true
  | .acceptInsert _ => true
  | .acceptRemove _ => true
  | .restartHoldEnd => true
  | .notice _ => true
  | .noticeCancel _ => true
  | .lifetimeExpiry _ => true
  | .repeatTimerExpiry _ => true
  | .dwellEnd => true
  | .modeChangeNotice _ _ => true
  | .reckoningAnnouncementNotice _ => true
  | .portionChangeNotice _ => true
  | .activationAnnouncementNotice _ => true
  | .coachNumberChange => true
  | _ => false

/-- The commands that write `panels`. -/
def Instr.writesPanels : Instr → Bool
  | .powerOn => true
  | .powerLoss => true
  | .orientationChange => true
  | .secondsTick => true
  | .restartHoldEnd => true
  | .reckoningAnnouncementPanel _ => true
  | .overlayRequest _ => true
  | .overlayEnd _ => true
  | .noticeTextChange _ => true
  | .activity => true
  | .modeChangePanel _ _ => true
  | .formationChangePanel _ => true
  | .activationAnnouncementPanel _ => true
  | .travelRightChange _ => true
  | .clockMinuteChange => true
  | .composeSwap _ => true
  | .idleTimerExpiry => true
  | _ => false

/-- The commands that write `announced`: all but these. -/
def Instr.writesAnnounced : Instr → Bool
  | .transmissionEnd _ => false
  | .seatSettleEnd => false
  | .composeSwap _ => false
  | .idleTimerExpiry => false
  | _ => true

end Sys2Proof

namespace Sys2Proof.Machine

variable {c : Instr} {s t : State}

/-- A command that is not listed leaves `powered` as it was. -/
theorem exec_powered (h : exec c s = .next t) (hc : c.writesPowered = false) : t.powered = s.powered := by
  cases c with
  | powerOn => cases hc
  | powerLoss => cases hc
  | startUpComplete => exact (execStartUpComplete_frame h).1
  | neighbourSignalAppears _ => exact (execNeighbourSignalAppears_frame h).1
  | trainingCompletes _ => exact (execTrainingCompletes_frame h).1
  | lossOfSignal _ => exact (execLossOfSignal_frame h).1
  | linkChangeReport _ _ => exact (execLinkChangeReport_frame h).1
  | frameArrival _ _ => exact (execFrameArrival_frame h).1
  | transmissionEnd _ => exact (execTransmissionEnd_frame h).1
  | enumerate _ _ _ => exact (execEnumerate_frame h).1
  | newInauguration => exact (execNewInauguration_frame h).1
  | orientationChange => exact (execOrientationChange_frame h).1
  | position _ => exact (execPosition_frame h).1
  | departureReport _ => exact (execDepartureReport_frame h).1
  | time _ => exact (execTime_frame h).1
  | secondsTick => exact (execSecondsTick_frame h).1
  | clockSecond => exact (execClockSecond_frame h).1
  | freshnessExpiry => exact (execFreshnessExpiry_frame h).1
  | mgmtUnknownCommand _ _ _ => exact (execMgmtUnknownCommand_frame h).1
  | load _ => exact (execLoad_frame h).1
  | loadNext _ => exact (execLoadNext_frame h).1
  | commit _ => exact (execCommit_frame h).1
  | discard _ => exact (execDiscard_frame h).1
  | mode _ => exact (execMode_frame h).1
  | param _ => exact (execParam_frame h).1
  | status _ => exact (execStatus_frame h).1
  | startAck _ => exact (execStartAck_frame h).1
  | assign _ => exact (execAssign_frame h).1
  | stopCancel _ => exact (execStopCancel_frame h).1
  | resvAdd _ => exact (execResvAdd_frame h).1
  | resvDrop _ => exact (execResvDrop_frame h).1
  | acceptInsert _ => exact (execAcceptInsert_frame h).1
  | acceptRemove _ => exact (execAcceptRemove_frame h).1
  | restart _ => exact (execRestart_frame h).1
  | faultRead _ => exact (execFaultRead_frame h).1
  | faultClear _ => exact (execFaultClear_frame h).1
  | ident _ => exact (execIdent_frame h).1
  | store _ => exact (execStore_frame h).1
  | storeWriteEnd _ => exact (execStoreWriteEnd_frame h).1
  | restartHoldEnd => cases hc
  | faultReport _ => exact (execFaultReport_frame h).1
  | portionChangeReckoning _ => exact (execPortionChangeReckoning_frame h).1
  | routeActivationReckoning _ => exact (execRouteActivationReckoning_frame h).1
  | reckoningAnnouncementResv _ => exact (execReckoningAnnouncementResv_frame h).1
  | activationAnnouncementResv _ => exact (execActivationAnnouncementResv_frame h).1
  | portionChangeResv => exact (execPortionChangeResv_frame h).1
  | modeChangeResv => exact (execModeChangeResv_frame h).1
  | horizonChange => exact (execHorizonChange_frame h).1
  | queueRequest _ => exact (execQueueRequest_frame h).1
  | seatActivationEngine => exact (execSeatActivationEngine_frame h).1
  | modeChangeEngine => exact (execModeChangeEngine_frame h).1
  | faultClearEngine => exact (execFaultClearEngine_frame h).1
  | seatSettleEnd => exact (execSeatSettleEnd_frame h).1
  | seatAnswer _ _ _ => exact (execSeatAnswer_frame h).1
  | seatAnswerTimeout => exact (execSeatAnswerTimeout_frame h).1
  | repollDue _ => exact (execRepollDue_frame h).1
  | refreshRoundBegin => exact (execRefreshRoundBegin_frame h).1
  | notice _ => exact (execNotice_frame h).1
  | noticeCancel _ => exact (execNoticeCancel_frame h).1
  | lifetimeExpiry _ => exact (execLifetimeExpiry_frame h).1
  | repeatTimerExpiry _ => exact (execRepeatTimerExpiry_frame h).1
  | dwellEnd => exact (execDwellEnd_frame h).1
  | modeChangeNotice _ _ => exact (execModeChangeNotice_frame h).1
  | reckoningAnnouncementNotice _ => exact (execReckoningAnnouncementNotice_frame h).1
  | portionChangeNotice _ => exact (execPortionChangeNotice_frame h).1
  | activationAnnouncementNotice _ => exact (execActivationAnnouncementNotice_frame h).1
  | coachNumberChange => exact (execCoachNumberChange_frame h).1
  | reckoningAnnouncementPanel _ => exact (execReckoningAnnouncementPanel_frame h).1
  | overlayRequest _ => exact (execOverlayRequest_frame h).1
  | overlayEnd _ => exact (execOverlayEnd_frame h).1
  | noticeTextChange _ => exact (execNoticeTextChange_frame h).1
  | activity => exact (execActivity_frame h).1
  | modeChangePanel _ _ => exact (execModeChangePanel_frame h).1
  | formationChangePanel _ => exact (execFormationChangePanel_frame h).1
  | activationAnnouncementPanel _ => exact (execActivationAnnouncementPanel_frame h).1
  | travelRightChange _ => exact (execTravelRightChange_frame h).1
  | clockMinuteChange => exact (execClockMinuteChange_frame h).1
  | composeSwap _ => exact (execComposeSwap_frame h).1
  | idleTimerExpiry => exact (execIdleTimerExpiry_frame h).1

/-- A command that is not listed leaves `retainedRead` as it was. -/
theorem exec_retainedRead (h : exec c s = .next t) (hc : c.writesRetainedRead = false) : t.retainedRead = s.retainedRead := by
  cases c with
  | powerOn => cases hc
  | powerLoss => cases hc
  | startUpComplete => cases hc
  | neighbourSignalAppears _ => exact (execNeighbourSignalAppears_frame h).2.1
  | trainingCompletes _ => exact (execTrainingCompletes_frame h).2.1
  | lossOfSignal _ => exact (execLossOfSignal_frame h).2.1
  | linkChangeReport _ _ => exact (execLinkChangeReport_frame h).2.1
  | frameArrival _ _ => exact (execFrameArrival_frame h).2.1
  | transmissionEnd _ => exact (execTransmissionEnd_frame h).2.1
  | enumerate _ _ _ => exact (execEnumerate_frame h).2.1
  | newInauguration => exact (execNewInauguration_frame h).2.1
  | orientationChange => exact (execOrientationChange_frame h).2.1
  | position _ => exact (execPosition_frame h).2.1
  | departureReport _ => exact (execDepartureReport_frame h).2.1
  | time _ => exact (execTime_frame h).2.1
  | secondsTick => exact (execSecondsTick_frame h).2.1
  | clockSecond => exact (execClockSecond_frame h).2.1
  | freshnessExpiry => exact (execFreshnessExpiry_frame h).2.1
  | mgmtUnknownCommand _ _ _ => exact (execMgmtUnknownCommand_frame h).2.1
  | load _ => exact (execLoad_frame h).2.1
  | loadNext _ => exact (execLoadNext_frame h).2.1
  | commit _ => exact (execCommit_frame h).2.1
  | discard _ => exact (execDiscard_frame h).2.1
  | mode _ => exact (execMode_frame h).2.1
  | param _ => exact (execParam_frame h).2.1
  | status _ => exact (execStatus_frame h).2.1
  | startAck _ => exact (execStartAck_frame h).2.1
  | assign _ => exact (execAssign_frame h).2.1
  | stopCancel _ => exact (execStopCancel_frame h).2.1
  | resvAdd _ => exact (execResvAdd_frame h).2.1
  | resvDrop _ => exact (execResvDrop_frame h).2.1
  | acceptInsert _ => exact (execAcceptInsert_frame h).2.1
  | acceptRemove _ => exact (execAcceptRemove_frame h).2.1
  | restart _ => exact (execRestart_frame h).2.1
  | faultRead _ => exact (execFaultRead_frame h).2.1
  | faultClear _ => exact (execFaultClear_frame h).2.1
  | ident _ => exact (execIdent_frame h).2.1
  | store _ => exact (execStore_frame h).2.1
  | storeWriteEnd _ => exact (execStoreWriteEnd_frame h).2.1
  | restartHoldEnd => cases hc
  | faultReport _ => exact (execFaultReport_frame h).2.1
  | portionChangeReckoning _ => exact (execPortionChangeReckoning_frame h).2.1
  | routeActivationReckoning _ => exact (execRouteActivationReckoning_frame h).2.1
  | reckoningAnnouncementResv _ => exact (execReckoningAnnouncementResv_frame h).2.1
  | activationAnnouncementResv _ => exact (execActivationAnnouncementResv_frame h).2.1
  | portionChangeResv => exact (execPortionChangeResv_frame h).2.1
  | modeChangeResv => exact (execModeChangeResv_frame h).2.1
  | horizonChange => exact (execHorizonChange_frame h).2.1
  | queueRequest _ => exact (execQueueRequest_frame h).2.1
  | seatActivationEngine => exact (execSeatActivationEngine_frame h).2.1
  | modeChangeEngine => exact (execModeChangeEngine_frame h).2.1
  | faultClearEngine => exact (execFaultClearEngine_frame h).2.1
  | seatSettleEnd => exact (execSeatSettleEnd_frame h).2.1
  | seatAnswer _ _ _ => exact (execSeatAnswer_frame h).2.1
  | seatAnswerTimeout => exact (execSeatAnswerTimeout_frame h).2.1
  | repollDue _ => exact (execRepollDue_frame h).2.1
  | refreshRoundBegin => exact (execRefreshRoundBegin_frame h).2.1
  | notice _ => exact (execNotice_frame h).2.1
  | noticeCancel _ => exact (execNoticeCancel_frame h).2.1
  | lifetimeExpiry _ => exact (execLifetimeExpiry_frame h).2.1
  | repeatTimerExpiry _ => exact (execRepeatTimerExpiry_frame h).2.1
  | dwellEnd => exact (execDwellEnd_frame h).2.1
  | modeChangeNotice _ _ => exact (execModeChangeNotice_frame h).2.1
  | reckoningAnnouncementNotice _ => exact (execReckoningAnnouncementNotice_frame h).2.1
  | portionChangeNotice _ => exact (execPortionChangeNotice_frame h).2.1
  | activationAnnouncementNotice _ => exact (execActivationAnnouncementNotice_frame h).2.1
  | coachNumberChange => exact (execCoachNumberChange_frame h).2.1
  | reckoningAnnouncementPanel _ => exact (execReckoningAnnouncementPanel_frame h).2.1
  | overlayRequest _ => exact (execOverlayRequest_frame h).2.1
  | overlayEnd _ => exact (execOverlayEnd_frame h).2.1
  | noticeTextChange _ => exact (execNoticeTextChange_frame h).2.1
  | activity => exact (execActivity_frame h).2.1
  | modeChangePanel _ _ => exact (execModeChangePanel_frame h).2.1
  | formationChangePanel _ => exact (execFormationChangePanel_frame h).2.1
  | activationAnnouncementPanel _ => exact (execActivationAnnouncementPanel_frame h).2.1
  | travelRightChange _ => exact (execTravelRightChange_frame h).2.1
  | clockMinuteChange => exact (execClockMinuteChange_frame h).2.1
  | composeSwap _ => exact (execComposeSwap_frame h).2.1
  | idleTimerExpiry => exact (execIdleTimerExpiry_frame h).2.1

/-- A command that is not listed leaves `retained` as it was. -/
theorem exec_retained (h : exec c s = .next t) (hc : c.writesRetained = false) : t.retained = s.retained := by
  cases c with
  | powerOn => exact (execPowerOn_frame h).1
  | powerLoss => cases hc
  | startUpComplete => exact (execStartUpComplete_frame h).2.1
  | neighbourSignalAppears _ => exact (execNeighbourSignalAppears_frame h).2.2.1
  | trainingCompletes _ => exact (execTrainingCompletes_frame h).2.2.1
  | lossOfSignal _ => exact (execLossOfSignal_frame h).2.2.1
  | linkChangeReport _ _ => exact (execLinkChangeReport_frame h).2.2.1
  | frameArrival _ _ => exact (execFrameArrival_frame h).2.2.1
  | transmissionEnd _ => exact (execTransmissionEnd_frame h).2.2.1
  | enumerate _ _ _ => exact (execEnumerate_frame h).2.2.1
  | newInauguration => exact (execNewInauguration_frame h).2.2.1
  | orientationChange => exact (execOrientationChange_frame h).2.2.1
  | position _ => exact (execPosition_frame h).2.2.1
  | departureReport _ => exact (execDepartureReport_frame h).2.2.1
  | time _ => exact (execTime_frame h).2.2.1
  | secondsTick => exact (execSecondsTick_frame h).2.2.1
  | clockSecond => exact (execClockSecond_frame h).2.2.1
  | freshnessExpiry => exact (execFreshnessExpiry_frame h).2.2.1
  | mgmtUnknownCommand _ _ _ => exact (execMgmtUnknownCommand_frame h).2.2.1
  | load _ => exact (execLoad_frame h).2.2.1
  | loadNext _ => exact (execLoadNext_frame h).2.2.1
  | commit _ => exact (execCommit_frame h).2.2.1
  | discard _ => exact (execDiscard_frame h).2.2.1
  | mode _ => exact (execMode_frame h).2.2.1
  | param _ => exact (execParam_frame h).2.2.1
  | status _ => exact (execStatus_frame h).2.2.1
  | startAck _ => exact (execStartAck_frame h).2.2.1
  | assign _ => exact (execAssign_frame h).2.2.1
  | stopCancel _ => exact (execStopCancel_frame h).2.2.1
  | resvAdd _ => exact (execResvAdd_frame h).2.2.1
  | resvDrop _ => exact (execResvDrop_frame h).2.2.1
  | acceptInsert _ => exact (execAcceptInsert_frame h).2.2.1
  | acceptRemove _ => exact (execAcceptRemove_frame h).2.2.1
  | restart _ => exact (execRestart_frame h).2.2.1
  | faultRead _ => exact (execFaultRead_frame h).2.2.1
  | faultClear _ => exact (execFaultClear_frame h).2.2.1
  | ident _ => exact (execIdent_frame h).2.2.1
  | store _ => exact (execStore_frame h).2.2.1
  | storeWriteEnd _ => cases hc
  | restartHoldEnd => exact (execRestartHoldEnd_frame h).1
  | faultReport _ => exact (execFaultReport_frame h).2.2.1
  | portionChangeReckoning _ => exact (execPortionChangeReckoning_frame h).2.2.1
  | routeActivationReckoning _ => exact (execRouteActivationReckoning_frame h).2.2.1
  | reckoningAnnouncementResv _ => exact (execReckoningAnnouncementResv_frame h).2.2.1
  | activationAnnouncementResv _ => exact (execActivationAnnouncementResv_frame h).2.2.1
  | portionChangeResv => exact (execPortionChangeResv_frame h).2.2.1
  | modeChangeResv => exact (execModeChangeResv_frame h).2.2.1
  | horizonChange => exact (execHorizonChange_frame h).2.2.1
  | queueRequest _ => exact (execQueueRequest_frame h).2.2.1
  | seatActivationEngine => exact (execSeatActivationEngine_frame h).2.2.1
  | modeChangeEngine => exact (execModeChangeEngine_frame h).2.2.1
  | faultClearEngine => exact (execFaultClearEngine_frame h).2.2.1
  | seatSettleEnd => exact (execSeatSettleEnd_frame h).2.2.1
  | seatAnswer _ _ _ => exact (execSeatAnswer_frame h).2.2.1
  | seatAnswerTimeout => exact (execSeatAnswerTimeout_frame h).2.2.1
  | repollDue _ => exact (execRepollDue_frame h).2.2.1
  | refreshRoundBegin => exact (execRefreshRoundBegin_frame h).2.2.1
  | notice _ => exact (execNotice_frame h).2.2.1
  | noticeCancel _ => exact (execNoticeCancel_frame h).2.2.1
  | lifetimeExpiry _ => exact (execLifetimeExpiry_frame h).2.2.1
  | repeatTimerExpiry _ => exact (execRepeatTimerExpiry_frame h).2.2.1
  | dwellEnd => exact (execDwellEnd_frame h).2.2.1
  | modeChangeNotice _ _ => exact (execModeChangeNotice_frame h).2.2.1
  | reckoningAnnouncementNotice _ => exact (execReckoningAnnouncementNotice_frame h).2.2.1
  | portionChangeNotice _ => exact (execPortionChangeNotice_frame h).2.2.1
  | activationAnnouncementNotice _ => exact (execActivationAnnouncementNotice_frame h).2.2.1
  | coachNumberChange => exact (execCoachNumberChange_frame h).2.2.1
  | reckoningAnnouncementPanel _ => exact (execReckoningAnnouncementPanel_frame h).2.2.1
  | overlayRequest _ => exact (execOverlayRequest_frame h).2.2.1
  | overlayEnd _ => exact (execOverlayEnd_frame h).2.2.1
  | noticeTextChange _ => exact (execNoticeTextChange_frame h).2.2.1
  | activity => exact (execActivity_frame h).2.2.1
  | modeChangePanel _ _ => exact (execModeChangePanel_frame h).2.2.1
  | formationChangePanel _ => exact (execFormationChangePanel_frame h).2.2.1
  | activationAnnouncementPanel _ => exact (execActivationAnnouncementPanel_frame h).2.2.1
  | travelRightChange _ => exact (execTravelRightChange_frame h).2.2.1
  | clockMinuteChange => exact (execClockMinuteChange_frame h).2.2.1
  | composeSwap _ => exact (execComposeSwap_frame h).2.2.1
  | idleTimerExpiry => exact (execIdleTimerExpiry_frame h).2.2.1

/-- A command that is not listed leaves `line` as it was. -/
theorem exec_line (h : exec c s = .next t) (hc : c.writesLine = false) : t.line = s.line := by
  cases c with
  | powerOn => cases hc
  | powerLoss => cases hc
  | startUpComplete => cases hc
  | neighbourSignalAppears _ => cases hc
  | trainingCompletes _ => cases hc
  | lossOfSignal _ => cases hc
  | linkChangeReport _ _ => cases hc
  | frameArrival _ _ => cases hc
  | transmissionEnd _ => cases hc
  | enumerate _ _ _ => cases hc
  | newInauguration => exact (execNewInauguration_frame h).2.2.2.1
  | orientationChange => exact (execOrientationChange_frame h).2.2.2.1
  | position _ => exact (execPosition_frame h).2.2.2.1
  | departureReport _ => exact (execDepartureReport_frame h).2.2.2.1
  | time _ => exact (execTime_frame h).2.2.2.1
  | secondsTick => exact (execSecondsTick_frame h).2.2.2.1
  | clockSecond => exact (execClockSecond_frame h).2.2.2.1
  | freshnessExpiry => exact (execFreshnessExpiry_frame h).2.2.2.1
  | mgmtUnknownCommand _ _ _ => cases hc
  | load _ => cases hc
  | loadNext _ => cases hc
  | commit _ => cases hc
  | discard _ => cases hc
  | mode _ => cases hc
  | param _ => cases hc
  | status _ => cases hc
  | startAck _ => cases hc
  | assign _ => cases hc
  | stopCancel _ => cases hc
  | resvAdd _ => cases hc
  | resvDrop _ => cases hc
  | acceptInsert _ => cases hc
  | acceptRemove _ => cases hc
  | restart _ => cases hc
  | faultRead _ => cases hc
  | faultClear _ => cases hc
  | ident _ => cases hc
  | store _ => cases hc
  | storeWriteEnd _ => cases hc
  | restartHoldEnd => cases hc
  | faultReport _ => exact (execFaultReport_frame h).2.2.2.1
  | portionChangeReckoning _ => exact (execPortionChangeReckoning_frame h).2.2.2.1
  | routeActivationReckoning _ => exact (execRouteActivationReckoning_frame h).2.2.2.1
  | reckoningAnnouncementResv _ => exact (execReckoningAnnouncementResv_frame h).2.2.2.1
  | activationAnnouncementResv _ => exact (execActivationAnnouncementResv_frame h).2.2.2.1
  | portionChangeResv => exact (execPortionChangeResv_frame h).2.2.2.1
  | modeChangeResv => exact (execModeChangeResv_frame h).2.2.2.1
  | horizonChange => exact (execHorizonChange_frame h).2.2.2.1
  | queueRequest _ => exact (execQueueRequest_frame h).2.2.2.1
  | seatActivationEngine => exact (execSeatActivationEngine_frame h).2.2.2.1
  | modeChangeEngine => exact (execModeChangeEngine_frame h).2.2.2.1
  | faultClearEngine => exact (execFaultClearEngine_frame h).2.2.2.1
  | seatSettleEnd => exact (execSeatSettleEnd_frame h).2.2.2.1
  | seatAnswer _ _ _ => exact (execSeatAnswer_frame h).2.2.2.1
  | seatAnswerTimeout => exact (execSeatAnswerTimeout_frame h).2.2.2.1
  | repollDue _ => exact (execRepollDue_frame h).2.2.2.1
  | refreshRoundBegin => exact (execRefreshRoundBegin_frame h).2.2.2.1
  | notice _ => exact (execNotice_frame h).2.2.2.1
  | noticeCancel _ => exact (execNoticeCancel_frame h).2.2.2.1
  | lifetimeExpiry _ => exact (execLifetimeExpiry_frame h).2.2.2.1
  | repeatTimerExpiry _ => exact (execRepeatTimerExpiry_frame h).2.2.2.1
  | dwellEnd => exact (execDwellEnd_frame h).2.2.2.1
  | modeChangeNotice _ _ => exact (execModeChangeNotice_frame h).2.2.2.1
  | reckoningAnnouncementNotice _ => exact (execReckoningAnnouncementNotice_frame h).2.2.2.1
  | portionChangeNotice _ => exact (execPortionChangeNotice_frame h).2.2.2.1
  | activationAnnouncementNotice _ => exact (execActivationAnnouncementNotice_frame h).2.2.2.1
  | coachNumberChange => exact (execCoachNumberChange_frame h).2.2.2.1
  | reckoningAnnouncementPanel _ => exact (execReckoningAnnouncementPanel_frame h).2.2.2.1
  | overlayRequest _ => exact (execOverlayRequest_frame h).2.2.2.1
  | overlayEnd _ => exact (execOverlayEnd_frame h).2.2.2.1
  | noticeTextChange _ => exact (execNoticeTextChange_frame h).2.2.2.1
  | activity => exact (execActivity_frame h).2.2.2.1
  | modeChangePanel _ _ => exact (execModeChangePanel_frame h).2.2.2.1
  | formationChangePanel _ => exact (execFormationChangePanel_frame h).2.2.2.1
  | activationAnnouncementPanel _ => exact (execActivationAnnouncementPanel_frame h).2.2.2.1
  | travelRightChange _ => exact (execTravelRightChange_frame h).2.2.2.1
  | clockMinuteChange => exact (execClockMinuteChange_frame h).2.2.2.1
  | composeSwap _ => exact (execComposeSwap_frame h).2.2.2.1
  | idleTimerExpiry => exact (execIdleTimerExpiry_frame h).2.2.2.1

/-- A command that is not listed leaves `form` as it was. -/
theorem exec_form (h : exec c s = .next t) (hc : c.writesForm = false) : t.form = s.form := by
  cases c with
  | powerOn => cases hc
  | powerLoss => cases hc
  | startUpComplete => cases hc
  | neighbourSignalAppears _ => exact (execNeighbourSignalAppears_frame h).2.2.2.1
  | trainingCompletes _ => exact (execTrainingCompletes_frame h).2.2.2.1
  | lossOfSignal _ => exact (execLossOfSignal_frame h).2.2.2.1
  | linkChangeReport _ _ => cases hc
  | frameArrival _ _ => exact (execFrameArrival_frame h).2.2.2.1
  | transmissionEnd _ => exact (execTransmissionEnd_frame h).2.2.2.1
  | enumerate _ _ _ => cases hc
  | newInauguration => exact (execNewInauguration_frame h).2.2.2.2.1
  | orientationChange => exact (execOrientationChange_frame h).2.2.2.2.1
  | position _ => exact (execPosition_frame h).2.2.2.2.1
  | departureReport _ => exact (execDepartureReport_frame h).2.2.2.2.1
  | time _ => exact (execTime_frame h).2.2.2.2.1
  | secondsTick => exact (execSecondsTick_frame h).2.2.2.2.1
  | clockSecond => exact (execClockSecond_frame h).2.2.2.2.1
  | freshnessExpiry => exact (execFreshnessExpiry_frame h).2.2.2.2.1
  | mgmtUnknownCommand _ _ _ => exact (execMgmtUnknownCommand_frame h).2.2.2.1
  | load _ => exact (execLoad_frame h).2.2.2.1
  | loadNext _ => exact (execLoadNext_frame h).2.2.2.1
  | commit _ => exact (execCommit_frame h).2.2.2.1
  | discard _ => exact (execDiscard_frame h).2.2.2.1
  | mode _ => exact (execMode_frame h).2.2.2.1
  | param _ => exact (execParam_frame h).2.2.2.1
  | status _ => exact (execStatus_frame h).2.2.2.1
  | startAck _ => exact (execStartAck_frame h).2.2.2.1
  | assign _ => cases hc
  | stopCancel _ => exact (execStopCancel_frame h).2.2.2.1
  | resvAdd _ => exact (execResvAdd_frame h).2.2.2.1
  | resvDrop _ => exact (execResvDrop_frame h).2.2.2.1
  | acceptInsert _ => exact (execAcceptInsert_frame h).2.2.2.1
  | acceptRemove _ => exact (execAcceptRemove_frame h).2.2.2.1
  | restart _ => exact (execRestart_frame h).2.2.2.1
  | faultRead _ => exact (execFaultRead_frame h).2.2.2.1
  | faultClear _ => exact (execFaultClear_frame h).2.2.2.1
  | ident _ => cases hc
  | store _ => exact (execStore_frame h).2.2.2.1
  | storeWriteEnd _ => exact (execStoreWriteEnd_frame h).2.2.1
  | restartHoldEnd => cases hc
  | faultReport _ => exact (execFaultReport_frame h).2.2.2.2.1
  | portionChangeReckoning _ => exact (execPortionChangeReckoning_frame h).2.2.2.2.1
  | routeActivationReckoning _ => exact (execRouteActivationReckoning_frame h).2.2.2.2.1
  | reckoningAnnouncementResv _ => exact (execReckoningAnnouncementResv_frame h).2.2.2.2.1
  | activationAnnouncementResv _ => exact (execActivationAnnouncementResv_frame h).2.2.2.2.1
  | portionChangeResv => exact (execPortionChangeResv_frame h).2.2.2.2.1
  | modeChangeResv => exact (execModeChangeResv_frame h).2.2.2.2.1
  | horizonChange => exact (execHorizonChange_frame h).2.2.2.2.1
  | queueRequest _ => exact (execQueueRequest_frame h).2.2.2.2.1
  | seatActivationEngine => exact (execSeatActivationEngine_frame h).2.2.2.2.1
  | modeChangeEngine => exact (execModeChangeEngine_frame h).2.2.2.2.1
  | faultClearEngine => exact (execFaultClearEngine_frame h).2.2.2.2.1
  | seatSettleEnd => exact (execSeatSettleEnd_frame h).2.2.2.2.1
  | seatAnswer _ _ _ => exact (execSeatAnswer_frame h).2.2.2.2.1
  | seatAnswerTimeout => exact (execSeatAnswerTimeout_frame h).2.2.2.2.1
  | repollDue _ => exact (execRepollDue_frame h).2.2.2.2.1
  | refreshRoundBegin => exact (execRefreshRoundBegin_frame h).2.2.2.2.1
  | notice _ => exact (execNotice_frame h).2.2.2.2.1
  | noticeCancel _ => exact (execNoticeCancel_frame h).2.2.2.2.1
  | lifetimeExpiry _ => exact (execLifetimeExpiry_frame h).2.2.2.2.1
  | repeatTimerExpiry _ => exact (execRepeatTimerExpiry_frame h).2.2.2.2.1
  | dwellEnd => exact (execDwellEnd_frame h).2.2.2.2.1
  | modeChangeNotice _ _ => exact (execModeChangeNotice_frame h).2.2.2.2.1
  | reckoningAnnouncementNotice _ => exact (execReckoningAnnouncementNotice_frame h).2.2.2.2.1
  | portionChangeNotice _ => exact (execPortionChangeNotice_frame h).2.2.2.2.1
  | activationAnnouncementNotice _ => exact (execActivationAnnouncementNotice_frame h).2.2.2.2.1
  | coachNumberChange => exact (execCoachNumberChange_frame h).2.2.2.2.1
  | reckoningAnnouncementPanel _ => exact (execReckoningAnnouncementPanel_frame h).2.2.2.2.1
  | overlayRequest _ => exact (execOverlayRequest_frame h).2.2.2.2.1
  | overlayEnd _ => exact (execOverlayEnd_frame h).2.2.2.2.1
  | noticeTextChange _ => exact (execNoticeTextChange_frame h).2.2.2.2.1
  | activity => exact (execActivity_frame h).2.2.2.2.1
  | modeChangePanel _ _ => exact (execModeChangePanel_frame h).2.2.2.2.1
  | formationChangePanel _ => exact (execFormationChangePanel_frame h).2.2.2.2.1
  | activationAnnouncementPanel _ => exact (execActivationAnnouncementPanel_frame h).2.2.2.2.1
  | travelRightChange _ => exact (execTravelRightChange_frame h).2.2.2.2.1
  | clockMinuteChange => exact (execClockMinuteChange_frame h).2.2.2.2.1
  | composeSwap _ => exact (execComposeSwap_frame h).2.2.2.2.1
  | idleTimerExpiry => exact (execIdleTimerExpiry_frame h).2.2.2.2.1

/-- A command that is not listed leaves `tables` as it was. -/
theorem exec_tables (h : exec c s = .next t) (hc : c.writesTables = false) : t.tables = s.tables := by
  cases c with
  | powerOn => cases hc
  | powerLoss => cases hc
  | startUpComplete => cases hc
  | neighbourSignalAppears _ => exact (execNeighbourSignalAppears_frame h).2.2.2.2.1
  | trainingCompletes _ => exact (execTrainingCompletes_frame h).2.2.2.2.1
  | lossOfSignal _ => exact (execLossOfSignal_frame h).2.2.2.2.1
  | linkChangeReport _ _ => exact (execLinkChangeReport_frame h).2.2.2.1
  | frameArrival _ _ => exact (execFrameArrival_frame h).2.2.2.2.1
  | transmissionEnd _ => exact (execTransmissionEnd_frame h).2.2.2.2.1
  | enumerate _ _ _ => exact (execEnumerate_frame h).2.2.2.1
  | newInauguration => cases hc
  | orientationChange => exact (execOrientationChange_frame h).2.2.2.2.2.1
  | position _ => exact (execPosition_frame h).2.2.2.2.2.1
  | departureReport _ => cases hc
  | time _ => exact (execTime_frame h).2.2.2.2.2.1
  | secondsTick => exact (execSecondsTick_frame h).2.2.2.2.2.1
  | clockSecond => exact (execClockSecond_frame h).2.2.2.2.2.1
  | freshnessExpiry => exact (execFreshnessExpiry_frame h).2.2.2.2.2.1
  | mgmtUnknownCommand _ _ _ => exact (execMgmtUnknownCommand_frame h).2.2.2.2.1
  | load _ => cases hc
  | loadNext _ => cases hc
  | commit _ => cases hc
  | discard _ => cases hc
  | mode _ => exact (execMode_frame h).2.2.2.2.1
  | param _ => exact (execParam_frame h).2.2.2.2.1
  | status _ => exact (execStatus_frame h).2.2.2.2.1
  | startAck _ => exact (execStartAck_frame h).2.2.2.2.1
  | assign _ => exact (execAssign_frame h).2.2.2.1
  | stopCancel _ => cases hc
  | resvAdd _ => cases hc
  | resvDrop _ => cases hc
  | acceptInsert _ => exact (execAcceptInsert_frame h).2.2.2.2.1
  | acceptRemove _ => exact (execAcceptRemove_frame h).2.2.2.2.1
  | restart _ => exact (execRestart_frame h).2.2.2.2.1
  | faultRead _ => exact (execFaultRead_frame h).2.2.2.2.1
  | faultClear _ => exact (execFaultClear_frame h).2.2.2.2.1
  | ident _ => exact (execIdent_frame h).2.2.2.1
  | store _ => exact (execStore_frame h).2.2.2.2.1
  | storeWriteEnd _ => exact (execStoreWriteEnd_frame h).2.2.2.1
  | restartHoldEnd => cases hc
  | faultReport _ => exact (execFaultReport_frame h).2.2.2.2.2.1
  | portionChangeReckoning _ => exact (execPortionChangeReckoning_frame h).2.2.2.2.2.1
  | routeActivationReckoning _ => cases hc
  | reckoningAnnouncementResv _ => exact (execReckoningAnnouncementResv_frame h).2.2.2.2.2.1
  | activationAnnouncementResv _ => exact (execActivationAnnouncementResv_frame h).2.2.2.2.2.1
  | portionChangeResv => exact (execPortionChangeResv_frame h).2.2.2.2.2.1
  | modeChangeResv => exact (execModeChangeResv_frame h).2.2.2.2.2.1
  | horizonChange => exact (execHorizonChange_frame h).2.2.2.2.2.1
  | queueRequest _ => exact (execQueueRequest_frame h).2.2.2.2.2.1
  | seatActivationEngine => exact (execSeatActivationEngine_frame h).2.2.2.2.2.1
  | modeChangeEngine => exact (execModeChangeEngine_frame h).2.2.2.2.2.1
  | faultClearEngine => exact (execFaultClearEngine_frame h).2.2.2.2.2.1
  | seatSettleEnd => exact (execSeatSettleEnd_frame h).2.2.2.2.2.1
  | seatAnswer _ _ _ => exact (execSeatAnswer_frame h).2.2.2.2.2.1
  | seatAnswerTimeout => exact (execSeatAnswerTimeout_frame h).2.2.2.2.2.1
  | repollDue _ => exact (execRepollDue_frame h).2.2.2.2.2.1
  | refreshRoundBegin => exact (execRefreshRoundBegin_frame h).2.2.2.2.2.1
  | notice _ => exact (execNotice_frame h).2.2.2.2.2.1
  | noticeCancel _ => exact (execNoticeCancel_frame h).2.2.2.2.2.1
  | lifetimeExpiry _ => exact (execLifetimeExpiry_frame h).2.2.2.2.2.1
  | repeatTimerExpiry _ => exact (execRepeatTimerExpiry_frame h).2.2.2.2.2.1
  | dwellEnd => exact (execDwellEnd_frame h).2.2.2.2.2.1
  | modeChangeNotice _ _ => exact (execModeChangeNotice_frame h).2.2.2.2.2.1
  | reckoningAnnouncementNotice _ => exact (execReckoningAnnouncementNotice_frame h).2.2.2.2.2.1
  | portionChangeNotice _ => exact (execPortionChangeNotice_frame h).2.2.2.2.2.1
  | activationAnnouncementNotice _ => cases hc
  | coachNumberChange => exact (execCoachNumberChange_frame h).2.2.2.2.2.1
  | reckoningAnnouncementPanel _ => exact (execReckoningAnnouncementPanel_frame h).2.2.2.2.2.1
  | overlayRequest _ => exact (execOverlayRequest_frame h).2.2.2.2.2.1
  | overlayEnd _ => exact (execOverlayEnd_frame h).2.2.2.2.2.1
  | noticeTextChange _ => exact (execNoticeTextChange_frame h).2.2.2.2.2.1
  | activity => exact (execActivity_frame h).2.2.2.2.2.1
  | modeChangePanel _ _ => exact (execModeChangePanel_frame h).2.2.2.2.2.1
  | formationChangePanel _ => exact (execFormationChangePanel_frame h).2.2.2.2.2.1
  | activationAnnouncementPanel _ => exact (execActivationAnnouncementPanel_frame h).2.2.2.2.2.1
  | travelRightChange _ => exact (execTravelRightChange_frame h).2.2.2.2.2.1
  | clockMinuteChange => exact (execClockMinuteChange_frame h).2.2.2.2.2.1
  | composeSwap _ => exact (execComposeSwap_frame h).2.2.2.2.2.1
  | idleTimerExpiry => exact (execIdleTimerExpiry_frame h).2.2.2.2.2.1

/-- A command that is not listed leaves `mgmt` as it was. -/
theorem exec_mgmt (h : exec c s = .next t) (hc : c.writesMgmt = false) : t.mgmt = s.mgmt := by
  cases c with
  | powerOn => cases hc
  | powerLoss => cases hc
  | startUpComplete => cases hc
  | neighbourSignalAppears _ => exact (execNeighbourSignalAppears_frame h).2.2.2.2.2.1
  | trainingCompletes _ => exact (execTrainingCompletes_frame h).2.2.2.2.2.1
  | lossOfSignal _ => exact (execLossOfSignal_frame h).2.2.2.2.2.1
  | linkChangeReport _ _ => exact (execLinkChangeReport_frame h).2.2.2.2.1
  | frameArrival _ _ => exact (execFrameArrival_frame h).2.2.2.2.2.1
  | transmissionEnd _ => exact (execTransmissionEnd_frame h).2.2.2.2.2.1
  | enumerate _ _ _ => exact (execEnumerate_frame h).2.2.2.2.1
  | newInauguration => cases hc
  | orientationChange => exact (execOrientationChange_frame h).2.2.2.2.2.2.1
  | position _ => exact (execPosition_frame h).2.2.2.2.2.2.1
  | departureReport _ => cases hc
  | time _ => exact (execTime_frame h).2.2.2.2.2.2.1
  | secondsTick => exact (execSecondsTick_frame h).2.2.2.2.2.2.1
  | clockSecond => exact (execClockSecond_frame h).2.2.2.2.2.2.1
  | freshnessExpiry => exact (execFreshnessExpiry_frame h).2.2.2.2.2.2.1
  | mgmtUnknownCommand _ _ _ => exact (execMgmtUnknownCommand_frame h).2.2.2.2.2.1
  | load _ => cases hc
  | loadNext _ => cases hc
  | commit _ => cases hc
  | discard _ => cases hc
  | mode _ => cases hc
  | param _ => cases hc
  | status _ => exact (execStatus_frame h).2.2.2.2.2.1
  | startAck _ => cases hc
  | assign _ => exact (execAssign_frame h).2.2.2.2.1
  | stopCancel _ => exact (execStopCancel_frame h).2.2.2.2.1
  | resvAdd _ => exact (execResvAdd_frame h).2.2.2.2.1
  | resvDrop _ => exact (execResvDrop_frame h).2.2.2.2.1
  | acceptInsert _ => exact (execAcceptInsert_frame h).2.2.2.2.2.1
  | acceptRemove _ => exact (execAcceptRemove_frame h).2.2.2.2.2.1
  | restart _ => cases hc
  | faultRead _ => exact (execFaultRead_frame h).2.2.2.2.2.1
  | faultClear _ => exact (execFaultClear_frame h).2.2.2.2.2.1
  | ident _ => exact (execIdent_frame h).2.2.2.2.1
  | store _ => cases hc
  | storeWriteEnd _ => cases hc
  | restartHoldEnd => cases hc
  | faultReport _ => exact (execFaultReport_frame h).2.2.2.2.2.2.1
  | portionChangeReckoning _ => exact (execPortionChangeReckoning_frame h).2.2.2.2.2.2.1
  | routeActivationReckoning _ => exact (execRouteActivationReckoning_frame h).2.2.2.2.2.1
  | reckoningAnnouncementResv _ => exact (execReckoningAnnouncementResv_frame h).2.2.2.2.2.2.1
  | activationAnnouncementResv _ => exact (execActivationAnnouncementResv_frame h).2.2.2.2.2.2.1
  | portionChangeResv => exact (execPortionChangeResv_frame h).2.2.2.2.2.2.1
  | modeChangeResv => exact (execModeChangeResv_frame h).2.2.2.2.2.2.1
  | horizonChange => exact (execHorizonChange_frame h).2.2.2.2.2.2.1
  | queueRequest _ => exact (execQueueRequest_frame h).2.2.2.2.2.2.1
  | seatActivationEngine => exact (execSeatActivationEngine_frame h).2.2.2.2.2.2.1
  | modeChangeEngine => exact (execModeChangeEngine_frame h).2.2.2.2.2.2.1
  | faultClearEngine => exact (execFaultClearEngine_frame h).2.2.2.2.2.2.1
  | seatSettleEnd => exact (execSeatSettleEnd_frame h).2.2.2.2.2.2.1
  | seatAnswer _ _ _ => exact (execSeatAnswer_frame h).2.2.2.2.2.2.1
  | seatAnswerTimeout => exact (execSeatAnswerTimeout_frame h).2.2.2.2.2.2.1
  | repollDue _ => exact (execRepollDue_frame h).2.2.2.2.2.2.1
  | refreshRoundBegin => exact (execRefreshRoundBegin_frame h).2.2.2.2.2.2.1
  | notice _ => exact (execNotice_frame h).2.2.2.2.2.2.1
  | noticeCancel _ => exact (execNoticeCancel_frame h).2.2.2.2.2.2.1
  | lifetimeExpiry _ => exact (execLifetimeExpiry_frame h).2.2.2.2.2.2.1
  | repeatTimerExpiry _ => exact (execRepeatTimerExpiry_frame h).2.2.2.2.2.2.1
  | dwellEnd => exact (execDwellEnd_frame h).2.2.2.2.2.2.1
  | modeChangeNotice _ _ => exact (execModeChangeNotice_frame h).2.2.2.2.2.2.1
  | reckoningAnnouncementNotice _ => exact (execReckoningAnnouncementNotice_frame h).2.2.2.2.2.2.1
  | portionChangeNotice _ => exact (execPortionChangeNotice_frame h).2.2.2.2.2.2.1
  | activationAnnouncementNotice _ => exact (execActivationAnnouncementNotice_frame h).2.2.2.2.2.1
  | coachNumberChange => exact (execCoachNumberChange_frame h).2.2.2.2.2.2.1
  | reckoningAnnouncementPanel _ => exact (execReckoningAnnouncementPanel_frame h).2.2.2.2.2.2.1
  | overlayRequest _ => exact (execOverlayRequest_frame h).2.2.2.2.2.2.1
  | overlayEnd _ => exact (execOverlayEnd_frame h).2.2.2.2.2.2.1
  | noticeTextChange _ => exact (execNoticeTextChange_frame h).2.2.2.2.2.2.1
  | activity => exact (execActivity_frame h).2.2.2.2.2.2.1
  | modeChangePanel _ _ => exact (execModeChangePanel_frame h).2.2.2.2.2.2.1
  | formationChangePanel _ => exact (execFormationChangePanel_frame h).2.2.2.2.2.2.1
  | activationAnnouncementPanel _ => exact (execActivationAnnouncementPanel_frame h).2.2.2.2.2.2.1
  | travelRightChange _ => exact (execTravelRightChange_frame h).2.2.2.2.2.2.1
  | clockMinuteChange => exact (execClockMinuteChange_frame h).2.2.2.2.2.2.1
  | composeSwap _ => exact (execComposeSwap_frame h).2.2.2.2.2.2.1
  | idleTimerExpiry => exact (execIdleTimerExpiry_frame h).2.2.2.2.2.2.1

/-- A command that is not listed leaves `faults` as it was. -/
theorem exec_faults (h : exec c s = .next t) (hc : c.writesFaults = false) : t.faults = s.faults := by
  cases c with
  | powerOn => cases hc
  | powerLoss => cases hc
  | startUpComplete => cases hc
  | neighbourSignalAppears _ => exact (execNeighbourSignalAppears_frame h).2.2.2.2.2.2.1
  | trainingCompletes _ => exact (execTrainingCompletes_frame h).2.2.2.2.2.2.1
  | lossOfSignal _ => exact (execLossOfSignal_frame h).2.2.2.2.2.2.1
  | linkChangeReport _ _ => exact (execLinkChangeReport_frame h).2.2.2.2.2.1
  | frameArrival _ _ => exact (execFrameArrival_frame h).2.2.2.2.2.2.1
  | transmissionEnd _ => exact (execTransmissionEnd_frame h).2.2.2.2.2.2.1
  | enumerate _ _ _ => exact (execEnumerate_frame h).2.2.2.2.2.1
  | newInauguration => exact (execNewInauguration_frame h).2.2.2.2.2.1
  | orientationChange => exact (execOrientationChange_frame h).2.2.2.2.2.2.2.1
  | position _ => exact (execPosition_frame h).2.2.2.2.2.2.2.1
  | departureReport _ => exact (execDepartureReport_frame h).2.2.2.2.2.1
  | time _ => exact (execTime_frame h).2.2.2.2.2.2.2.1
  | secondsTick => cases hc
  | clockSecond => exact (execClockSecond_frame h).2.2.2.2.2.2.2.1
  | freshnessExpiry => exact (execFreshnessExpiry_frame h).2.2.2.2.2.2.2.1
  | mgmtUnknownCommand _ _ _ => exact (execMgmtUnknownCommand_frame h).2.2.2.2.2.2.1
  | load _ => exact (execLoad_frame h).2.2.2.2.1
  | loadNext _ => exact (execLoadNext_frame h).2.2.2.2.1
  | commit _ => exact (execCommit_frame h).2.2.2.2.1
  | discard _ => exact (execDiscard_frame h).2.2.2.2.1
  | mode _ => exact (execMode_frame h).2.2.2.2.2.1
  | param _ => exact (execParam_frame h).2.2.2.2.2.1
  | status _ => exact (execStatus_frame h).2.2.2.2.2.2.1
  | startAck _ => exact (execStartAck_frame h).2.2.2.2.2.1
  | assign _ => exact (execAssign_frame h).2.2.2.2.2.1
  | stopCancel _ => exact (execStopCancel_frame h).2.2.2.2.2.1
  | resvAdd _ => exact (execResvAdd_frame h).2.2.2.2.2.1
  | resvDrop _ => exact (execResvDrop_frame h).2.2.2.2.2.1
  | acceptInsert _ => exact (execAcceptInsert_frame h).2.2.2.2.2.2.1
  | acceptRemove _ => exact (execAcceptRemove_frame h).2.2.2.2.2.2.1
  | restart _ => exact (execRestart_frame h).2.2.2.2.2.1
  | faultRead _ => exact (execFaultRead_frame h).2.2.2.2.2.2.1
  | faultClear _ => cases hc
  | ident _ => exact (execIdent_frame h).2.2.2.2.2.1
  | store _ => exact (execStore_frame h).2.2.2.2.2.1
  | storeWriteEnd _ => exact (execStoreWriteEnd_frame h).2.2.2.2.1
  | restartHoldEnd => cases hc
  | faultReport _ => cases hc
  | portionChangeReckoning _ => exact (execPortionChangeReckoning_frame h).2.2.2.2.2.2.2.1
  | routeActivationReckoning _ => exact (execRouteActivationReckoning_frame h).2.2.2.2.2.2.1
  | reckoningAnnouncementResv _ => exact (execReckoningAnnouncementResv_frame h).2.2.2.2.2.2.2.1
  | activationAnnouncementResv _ => exact (execActivationAnnouncementResv_frame h).2.2.2.2.2.2.2.1
  | portionChangeResv => exact (execPortionChangeResv_frame h).2.2.2.2.2.2.2.1
  | modeChangeResv => exact (execModeChangeResv_frame h).2.2.2.2.2.2.2.1
  | horizonChange => exact (execHorizonChange_frame h).2.2.2.2.2.2.2.1
  | queueRequest _ => exact (execQueueRequest_frame h).2.2.2.2.2.2.2.1
  | seatActivationEngine => exact (execSeatActivationEngine_frame h).2.2.2.2.2.2.2.1
  | modeChangeEngine => exact (execModeChangeEngine_frame h).2.2.2.2.2.2.2.1
  | faultClearEngine => exact (execFaultClearEngine_frame h).2.2.2.2.2.2.2.1
  | seatSettleEnd => exact (execSeatSettleEnd_frame h).2.2.2.2.2.2.2.1
  | seatAnswer _ _ _ => exact (execSeatAnswer_frame h).2.2.2.2.2.2.2.1
  | seatAnswerTimeout => exact (execSeatAnswerTimeout_frame h).2.2.2.2.2.2.2.1
  | repollDue _ => exact (execRepollDue_frame h).2.2.2.2.2.2.2.1
  | refreshRoundBegin => exact (execRefreshRoundBegin_frame h).2.2.2.2.2.2.2.1
  | notice _ => exact (execNotice_frame h).2.2.2.2.2.2.2.1
  | noticeCancel _ => exact (execNoticeCancel_frame h).2.2.2.2.2.2.2.1
  | lifetimeExpiry _ => exact (execLifetimeExpiry_frame h).2.2.2.2.2.2.2.1
  | repeatTimerExpiry _ => exact (execRepeatTimerExpiry_frame h).2.2.2.2.2.2.2.1
  | dwellEnd => exact (execDwellEnd_frame h).2.2.2.2.2.2.2.1
  | modeChangeNotice _ _ => exact (execModeChangeNotice_frame h).2.2.2.2.2.2.2.1
  | reckoningAnnouncementNotice _ => exact (execReckoningAnnouncementNotice_frame h).2.2.2.2.2.2.2.1
  | portionChangeNotice _ => exact (execPortionChangeNotice_frame h).2.2.2.2.2.2.2.1
  | activationAnnouncementNotice _ => exact (execActivationAnnouncementNotice_frame h).2.2.2.2.2.2.1
  | coachNumberChange => exact (execCoachNumberChange_frame h).2.2.2.2.2.2.2.1
  | reckoningAnnouncementPanel _ => exact (execReckoningAnnouncementPanel_frame h).2.2.2.2.2.2.2.1
  | overlayRequest _ => exact (execOverlayRequest_frame h).2.2.2.2.2.2.2.1
  | overlayEnd _ => exact (execOverlayEnd_frame h).2.2.2.2.2.2.2.1
  | noticeTextChange _ => exact (execNoticeTextChange_frame h).2.2.2.2.2.2.2.1
  | activity => exact (execActivity_frame h).2.2.2.2.2.2.2.1
  | modeChangePanel _ _ => exact (execModeChangePanel_frame h).2.2.2.2.2.2.2.1
  | formationChangePanel _ => exact (execFormationChangePanel_frame h).2.2.2.2.2.2.2.1
  | activationAnnouncementPanel _ => exact (execActivationAnnouncementPanel_frame h).2.2.2.2.2.2.2.1
  | travelRightChange _ => exact (execTravelRightChange_frame h).2.2.2.2.2.2.2.1
  | clockMinuteChange => exact (execClockMinuteChange_frame h).2.2.2.2.2.2.2.1
  | composeSwap _ => exact (execComposeSwap_frame h).2.2.2.2.2.2.2.1
  | idleTimerExpiry => exact (execIdleTimerExpiry_frame h).2.2.2.2.2.2.2.1

/-- A command that is not listed leaves `reck` as it was. -/
theorem exec_reck (h : exec c s = .next t) (hc : c.writesReck = false) : t.reck = s.reck := by
  cases c with
  | powerOn => cases hc
  | powerLoss => cases hc
  | startUpComplete => cases hc
  | neighbourSignalAppears _ => exact (execNeighbourSignalAppears_frame h).2.2.2.2.2.2.2.1
  | trainingCompletes _ => exact (execTrainingCompletes_frame h).2.2.2.2.2.2.2.1
  | lossOfSignal _ => exact (execLossOfSignal_frame h).2.2.2.2.2.2.2.1
  | linkChangeReport _ _ => exact (execLinkChangeReport_frame h).2.2.2.2.2.2.1
  | frameArrival _ _ => exact (execFrameArrival_frame h).2.2.2.2.2.2.2.1
  | transmissionEnd _ => exact (execTransmissionEnd_frame h).2.2.2.2.2.2.2.1
  | enumerate _ _ _ => exact (execEnumerate_frame h).2.2.2.2.2.2.1
  | newInauguration => exact (execNewInauguration_frame h).2.2.2.2.2.2.1
  | orientationChange => exact (execOrientationChange_frame h).2.2.2.2.2.2.2.2.1
  | position _ => cases hc
  | departureReport _ => exact (execDepartureReport_frame h).2.2.2.2.2.2.1
  | time _ => cases hc
  | secondsTick => cases hc
  | clockSecond => cases hc
  | freshnessExpiry => cases hc
  | mgmtUnknownCommand _ _ _ => exact (execMgmtUnknownCommand_frame h).2.2.2.2.2.2.2.1
  | load _ => exact (execLoad_frame h).2.2.2.2.2.1
  | loadNext _ => exact (execLoadNext_frame h).2.2.2.2.2.1
  | commit _ => exact (execCommit_frame h).2.2.2.2.2.1
  | discard _ => exact (execDiscard_frame h).2.2.2.2.2.1
  | mode _ => exact (execMode_frame h).2.2.2.2.2.2.1
  | param _ => exact (execParam_frame h).2.2.2.2.2.2.1
  | status _ => exact (execStatus_frame h).2.2.2.2.2.2.2.1
  | startAck _ => exact (execStartAck_frame h).2.2.2.2.2.2.1
  | assign _ => exact (execAssign_frame h).2.2.2.2.2.2.1
  | stopCancel _ => cases hc
  | resvAdd _ => exact (execResvAdd_frame h).2.2.2.2.2.2.1
  | resvDrop _ => exact (execResvDrop_frame h).2.2.2.2.2.2.1
  | acceptInsert _ => exact (execAcceptInsert_frame h).2.2.2.2.2.2.2.1
  | acceptRemove _ => exact (execAcceptRemove_frame h).2.2.2.2.2.2.2.1
  | restart _ => exact (execRestart_frame h).2.2.2.2.2.2.1
  | faultRead _ => exact (execFaultRead_frame h).2.2.2.2.2.2.2.1
  | faultClear _ => exact (execFaultClear_frame h).2.2.2.2.2.2.1
  | ident _ => exact (execIdent_frame h).2.2.2.2.2.2.1
  | store _ => exact (execStore_frame h).2.2.2.2.2.2.1
  | storeWriteEnd _ => exact (execStoreWriteEnd_frame h).2.2.2.2.2.1
  | restartHoldEnd => cases hc
  | faultReport _ => exact (execFaultReport_frame h).2.2.2.2.2.2.2.1
  | portionChangeReckoning _ => cases hc
  | routeActivationReckoning _ => cases hc
  | reckoningAnnouncementResv _ => exact (execReckoningAnnouncementResv_frame h).2.2.2.2.2.2.2.2.1
  | activationAnnouncementResv _ => exact (execActivationAnnouncementResv_frame h).2.2.2.2.2.2.2.2.1
  | portionChangeResv => exact (execPortionChangeResv_frame h).2.2.2.2.2.2.2.2.1
  | modeChangeResv => exact (execModeChangeResv_frame h).2.2.2.2.2.2.2.2.1
  | horizonChange => exact (execHorizonChange_frame h).2.2.2.2.2.2.2.2.1
  | queueRequest _ => exact (execQueueRequest_frame h).2.2.2.2.2.2.2.2.1
  | seatActivationEngine => exact (execSeatActivationEngine_frame h).2.2.2.2.2.2.2.2.1
  | modeChangeEngine => exact (execModeChangeEngine_frame h).2.2.2.2.2.2.2.2.1
  | faultClearEngine => exact (execFaultClearEngine_frame h).2.2.2.2.2.2.2.2.1
  | seatSettleEnd => exact (execSeatSettleEnd_frame h).2.2.2.2.2.2.2.2.1
  | seatAnswer _ _ _ => exact (execSeatAnswer_frame h).2.2.2.2.2.2.2.2.1
  | seatAnswerTimeout => exact (execSeatAnswerTimeout_frame h).2.2.2.2.2.2.2.2.1
  | repollDue _ => exact (execRepollDue_frame h).2.2.2.2.2.2.2.2.1
  | refreshRoundBegin => exact (execRefreshRoundBegin_frame h).2.2.2.2.2.2.2.2.1
  | notice _ => exact (execNotice_frame h).2.2.2.2.2.2.2.2.1
  | noticeCancel _ => exact (execNoticeCancel_frame h).2.2.2.2.2.2.2.2.1
  | lifetimeExpiry _ => exact (execLifetimeExpiry_frame h).2.2.2.2.2.2.2.2.1
  | repeatTimerExpiry _ => exact (execRepeatTimerExpiry_frame h).2.2.2.2.2.2.2.2.1
  | dwellEnd => exact (execDwellEnd_frame h).2.2.2.2.2.2.2.2.1
  | modeChangeNotice _ _ => exact (execModeChangeNotice_frame h).2.2.2.2.2.2.2.2.1
  | reckoningAnnouncementNotice _ => exact (execReckoningAnnouncementNotice_frame h).2.2.2.2.2.2.2.2.1
  | portionChangeNotice _ => exact (execPortionChangeNotice_frame h).2.2.2.2.2.2.2.2.1
  | activationAnnouncementNotice _ => exact (execActivationAnnouncementNotice_frame h).2.2.2.2.2.2.2.1
  | coachNumberChange => exact (execCoachNumberChange_frame h).2.2.2.2.2.2.2.2.1
  | reckoningAnnouncementPanel _ => exact (execReckoningAnnouncementPanel_frame h).2.2.2.2.2.2.2.2.1
  | overlayRequest _ => exact (execOverlayRequest_frame h).2.2.2.2.2.2.2.2.1
  | overlayEnd _ => exact (execOverlayEnd_frame h).2.2.2.2.2.2.2.2.1
  | noticeTextChange _ => exact (execNoticeTextChange_frame h).2.2.2.2.2.2.2.2.1
  | activity => exact (execActivity_frame h).2.2.2.2.2.2.2.2.1
  | modeChangePanel _ _ => exact (execModeChangePanel_frame h).2.2.2.2.2.2.2.2.1
  | formationChangePanel _ => exact (execFormationChangePanel_frame h).2.2.2.2.2.2.2.2.1
  | activationAnnouncementPanel _ => exact (execActivationAnnouncementPanel_frame h).2.2.2.2.2.2.2.2.1
  | travelRightChange _ => exact (execTravelRightChange_frame h).2.2.2.2.2.2.2.2.1
  | clockMinuteChange => exact (execClockMinuteChange_frame h).2.2.2.2.2.2.2.2.1
  | composeSwap _ => exact (execComposeSwap_frame h).2.2.2.2.2.2.2.2.1
  | idleTimerExpiry => exact (execIdleTimerExpiry_frame h).2.2.2.2.2.2.2.2.1

/-- A command that is not listed leaves `resv` as it was. -/
theorem exec_resv (h : exec c s = .next t) (hc : c.writesResv = false) : t.resv = s.resv := by
  cases c with
  | powerOn => cases hc
  | powerLoss => cases hc
  | startUpComplete => exact (execStartUpComplete_frame h).2.2.1
  | neighbourSignalAppears _ => exact (execNeighbourSignalAppears_frame h).2.2.2.2.2.2.2.2.1
  | trainingCompletes _ => exact (execTrainingCompletes_frame h).2.2.2.2.2.2.2.2.1
  | lossOfSignal _ => exact (execLossOfSignal_frame h).2.2.2.2.2.2.2.2.1
  | linkChangeReport _ _ => exact (execLinkChangeReport_frame h).2.2.2.2.2.2.2.1
  | frameArrival _ _ => exact (execFrameArrival_frame h).2.2.2.2.2.2.2.2.1
  | transmissionEnd _ => exact (execTransmissionEnd_frame h).2.2.2.2.2.2.2.2.1
  | enumerate _ _ _ => exact (execEnumerate_frame h).2.2.2.2.2.2.2.1
  | newInauguration => exact (execNewInauguration_frame h).2.2.2.2.2.2.2.1
  | orientationChange => exact (execOrientationChange_frame h).2.2.2.2.2.2.2.2.2.1
  | position _ => exact (execPosition_frame h).2.2.2.2.2.2.2.2.1
  | departureReport _ => exact (execDepartureReport_frame h).2.2.2.2.2.2.2.1
  | time _ => exact (execTime_frame h).2.2.2.2.2.2.2.2.1
  | secondsTick => exact (execSecondsTick_frame h).2.2.2.2.2.2.2.1
  | clockSecond => exact (execClockSecond_frame h).2.2.2.2.2.2.2.2.1
  | freshnessExpiry => exact (execFreshnessExpiry_frame h).2.2.2.2.2.2.2.2.1
  | mgmtUnknownCommand _ _ _ => exact (execMgmtUnknownCommand_frame h).2.2.2.2.2.2.2.2.1
  | load _ => exact (execLoad_frame h).2.2.2.2.2.2.1
  | loadNext _ => exact (execLoadNext_frame h).2.2.2.2.2.2.1
  | commit _ => exact (execCommit_frame h).2.2.2.2.2.2.1
  | discard _ => exact (execDiscard_frame h).2.2.2.2.2.2.1
  | mode _ => exact (execMode_frame h).2.2.2.2.2.2.2.1
  | param _ => exact (execParam_frame h).2.2.2.2.2.2.2.1
  | status _ => exact (execStatus_frame h).2.2.2.2.2.2.2.2.1
  | startAck _ => exact (execStartAck_frame h).2.2.2.2.2.2.2.1
  | assign _ => exact (execAssign_frame h).2.2.2.2.2.2.2.1
  | stopCancel _ => exact (execStopCancel_frame h).2.2.2.2.2.2.1
  | resvAdd _ => cases hc
  | resvDrop _ => cases hc
  | acceptInsert _ => exact (execAcceptInsert_frame h).2.2.2.2.2.2.2.2.1
  | acceptRemove _ => exact (execAcceptRemove_frame h).2.2.2.2.2.2.2.2.1
  | restart _ => exact (execRestart_frame h).2.2.2.2.2.2.2.1
  | faultRead _ => exact (execFaultRead_frame h).2.2.2.2.2.2.2.2.1
  | faultClear _ => exact (execFaultClear_frame h).2.2.2.2.2.2.2.1
  | ident _ => exact (execIdent_frame h).2.2.2.2.2.2.2.1
  | store _ => exact (execStore_frame h).2.2.2.2.2.2.2.1
  | storeWriteEnd _ => exact (execStoreWriteEnd_frame h).2.2.2.2.2.2.1
  | restartHoldEnd => cases hc
  | faultReport _ => exact (execFaultReport_frame h).2.2.2.2.2.2.2.2.1
  | portionChangeReckoning _ => exact (execPortionChangeReckoning_frame h).2.2.2.2.2.2.2.2.1
  | routeActivationReckoning _ => exact (execRouteActivationReckoning_frame h).2.2.2.2.2.2.2.1
  | reckoningAnnouncementResv _ => cases hc
  | activationAnnouncementResv _ => cases hc
  | portionChangeResv => cases hc
  | modeChangeResv => cases hc
  | horizonChange => cases hc
  | queueRequest _ => exact (execQueueRequest_frame h).2.2.2.2.2.2.2.2.2.1
  | seatActivationEngine => exact (execSeatActivationEngine_frame h).2.2.2.2.2.2.2.2.2.1
  | modeChangeEngine => exact (execModeChangeEngine_frame h).2.2.2.2.2.2.2.2.2.1
  | faultClearEngine => exact (execFaultClearEngine_frame h).2.2.2.2.2.2.2.2.2.1
  | seatSettleEnd => exact (execSeatSettleEnd_frame h).2.2.2.2.2.2.2.2.2.1
  | seatAnswer _ _ _ => exact (execSeatAnswer_frame h).2.2.2.2.2.2.2.2.2.1
  | seatAnswerTimeout => exact (execSeatAnswerTimeout_frame h).2.2.2.2.2.2.2.2.2.1
  | repollDue _ => exact (execRepollDue_frame h).2.2.2.2.2.2.2.2.2.1
  | refreshRoundBegin => exact (execRefreshRoundBegin_frame h).2.2.2.2.2.2.2.2.2.1
  | notice _ => exact (execNotice_frame h).2.2.2.2.2.2.2.2.2.1
  | noticeCancel _ => exact (execNoticeCancel_frame h).2.2.2.2.2.2.2.2.2.1
  | lifetimeExpiry _ => exact (execLifetimeExpiry_frame h).2.2.2.2.2.2.2.2.2.1
  | repeatTimerExpiry _ => exact (execRepeatTimerExpiry_frame h).2.2.2.2.2.2.2.2.2.1
  | dwellEnd => exact (execDwellEnd_frame h).2.2.2.2.2.2.2.2.2.1
  | modeChangeNotice _ _ => exact (execModeChangeNotice_frame h).2.2.2.2.2.2.2.2.2.1
  | reckoningAnnouncementNotice _ => exact (execReckoningAnnouncementNotice_frame h).2.2.2.2.2.2.2.2.2.1
  | portionChangeNotice _ => exact (execPortionChangeNotice_frame h).2.2.2.2.2.2.2.2.2.1
  | activationAnnouncementNotice _ => exact (execActivationAnnouncementNotice_frame h).2.2.2.2.2.2.2.2.1
  | coachNumberChange => exact (execCoachNumberChange_frame h).2.2.2.2.2.2.2.2.2.1
  | reckoningAnnouncementPanel _ => exact (execReckoningAnnouncementPanel_frame h).2.2.2.2.2.2.2.2.2.1
  | overlayRequest _ => exact (execOverlayRequest_frame h).2.2.2.2.2.2.2.2.2.1
  | overlayEnd _ => exact (execOverlayEnd_frame h).2.2.2.2.2.2.2.2.2.1
  | noticeTextChange _ => exact (execNoticeTextChange_frame h).2.2.2.2.2.2.2.2.2.1
  | activity => exact (execActivity_frame h).2.2.2.2.2.2.2.2.2.1
  | modeChangePanel _ _ => exact (execModeChangePanel_frame h).2.2.2.2.2.2.2.2.2.1
  | formationChangePanel _ => exact (execFormationChangePanel_frame h).2.2.2.2.2.2.2.2.2.1
  | activationAnnouncementPanel _ => exact (execActivationAnnouncementPanel_frame h).2.2.2.2.2.2.2.2.2.1
  | travelRightChange _ => exact (execTravelRightChange_frame h).2.2.2.2.2.2.2.2.2.1
  | clockMinuteChange => exact (execClockMinuteChange_frame h).2.2.2.2.2.2.2.2.2.1
  | composeSwap _ => exact (execComposeSwap_frame h).2.2.2.2.2.2.2.2.2.1
  | idleTimerExpiry => exact (execIdleTimerExpiry_frame h).2.2.2.2.2.2.2.2.2.1

/-- A command that is not listed leaves `bus` as it was. -/
theorem exec_bus (h : exec c s = .next t) (hc : c.writesBus = false) : t.bus = s.bus := by
  cases c with
  | powerOn => cases hc
  | powerLoss => cases hc
  | startUpComplete => cases hc
  | neighbourSignalAppears _ => exact (execNeighbourSignalAppears_frame h).2.2.2.2.2.2.2.2.2.1
  | trainingCompletes _ => exact (execTrainingCompletes_frame h).2.2.2.2.2.2.2.2.2.1
  | lossOfSignal _ => exact (execLossOfSignal_frame h).2.2.2.2.2.2.2.2.2.1
  | linkChangeReport _ _ => exact (execLinkChangeReport_frame h).2.2.2.2.2.2.2.2.1
  | frameArrival _ _ => exact (execFrameArrival_frame h).2.2.2.2.2.2.2.2.2.1
  | transmissionEnd _ => exact (execTransmissionEnd_frame h).2.2.2.2.2.2.2.2.2.1
  | enumerate _ _ _ => exact (execEnumerate_frame h).2.2.2.2.2.2.2.2.1
  | newInauguration => exact (execNewInauguration_frame h).2.2.2.2.2.2.2.2.1
  | orientationChange => exact (execOrientationChange_frame h).2.2.2.2.2.2.2.2.2.2.1
  | position _ => exact (execPosition_frame h).2.2.2.2.2.2.2.2.2.1
  | departureReport _ => exact (execDepartureReport_frame h).2.2.2.2.2.2.2.2.1
  | time _ => exact (execTime_frame h).2.2.2.2.2.2.2.2.2.1
  | secondsTick => cases hc
  | clockSecond => exact (execClockSecond_frame h).2.2.2.2.2.2.2.2.2.1
  | freshnessExpiry => exact (execFreshnessExpiry_frame h).2.2.2.2.2.2.2.2.2.1
  | mgmtUnknownCommand _ _ _ => exact (execMgmtUnknownCommand_frame h).2.2.2.2.2.2.2.2.2.1
  | load _ => exact (execLoad_frame h).2.2.2.2.2.2.2.1
  | loadNext _ => exact (execLoadNext_frame h).2.2.2.2.2.2.2.1
  | commit _ => exact (execCommit_frame h).2.2.2.2.2.2.2.1
  | discard _ => exact (execDiscard_frame h).2.2.2.2.2.2.2.1
  | mode _ => exact (execMode_frame h).2.2.2.2.2.2.2.2.1
  | param _ => exact (execParam_frame h).2.2.2.2.2.2.2.2.1
  | status _ => exact (execStatus_frame h).2.2.2.2.2.2.2.2.2.1
  | startAck _ => exact (execStartAck_frame h).2.2.2.2.2.2.2.2.1
  | assign _ => exact (execAssign_frame h).2.2.2.2.2.2.2.2.1
  | stopCancel _ => exact (execStopCancel_frame h).2.2.2.2.2.2.2.1
  | resvAdd _ => exact (execResvAdd_frame h).2.2.2.2.2.2.2.1
  | resvDrop _ => exact (execResvDrop_frame h).2.2.2.2.2.2.2.1
  | acceptInsert _ => exact (execAcceptInsert_frame h).2.2.2.2.2.2.2.2.2.1
  | acceptRemove _ => exact (execAcceptRemove_frame h).2.2.2.2.2.2.2.2.2.1
  | restart _ => exact (execRestart_frame h).2.2.2.2.2.2.2.2.1
  | faultRead _ => exact (execFaultRead_frame h).2.2.2.2.2.2.2.2.2.1
  | faultClear _ => exact (execFaultClear_frame h).2.2.2.2.2.2.2.2.1
  | ident _ => exact (execIdent_frame h).2.2.2.2.2.2.2.2.1
  | store _ => exact (execStore_frame h).2.2.2.2.2.2.2.2.1
  | storeWriteEnd _ => exact (execStoreWriteEnd_frame h).2.2.2.2.2.2.2.1
  | restartHoldEnd => cases hc
  | faultReport _ => exact (execFaultReport_frame h).2.2.2.2.2.2.2.2.2.1
  | portionChangeReckoning _ => exact (execPortionChangeReckoning_frame h).2.2.2.2.2.2.2.2.2.1
  | routeActivationReckoning _ => exact (execRouteActivationReckoning_frame h).2.2.2.2.2.2.2.2.1
  | reckoningAnnouncementResv _ => exact (execReckoningAnnouncementResv_frame h).2.2.2.2.2.2.2.2.2.1
  | activationAnnouncementResv _ => exact (execActivationAnnouncementResv_frame h).2.2.2.2.2.2.2.2.2.1
  | portionChangeResv => exact (execPortionChangeResv_frame h).2.2.2.2.2.2.2.2.2.1
  | modeChangeResv => exact (execModeChangeResv_frame h).2.2.2.2.2.2.2.2.2.1
  | horizonChange => exact (execHorizonChange_frame h).2.2.2.2.2.2.2.2.2.1
  | queueRequest _ => cases hc
  | seatActivationEngine => cases hc
  | modeChangeEngine => cases hc
  | faultClearEngine => cases hc
  | seatSettleEnd => cases hc
  | seatAnswer _ _ _ => cases hc
  | seatAnswerTimeout => cases hc
  | repollDue _ => cases hc
  | refreshRoundBegin => cases hc
  | notice _ => exact (execNotice_frame h).2.2.2.2.2.2.2.2.2.2.1
  | noticeCancel _ => exact (execNoticeCancel_frame h).2.2.2.2.2.2.2.2.2.2.1
  | lifetimeExpiry _ => exact (execLifetimeExpiry_frame h).2.2.2.2.2.2.2.2.2.2.1
  | repeatTimerExpiry _ => exact (execRepeatTimerExpiry_frame h).2.2.2.2.2.2.2.2.2.2.1
  | dwellEnd => exact (execDwellEnd_frame h).2.2.2.2.2.2.2.2.2.2.1
  | modeChangeNotice _ _ => exact (execModeChangeNotice_frame h).2.2.2.2.2.2.2.2.2.2.1
  | reckoningAnnouncementNotice _ => exact (execReckoningAnnouncementNotice_frame h).2.2.2.2.2.2.2.2.2.2.1
  | portionChangeNotice _ => exact (execPortionChangeNotice_frame h).2.2.2.2.2.2.2.2.2.2.1
  | activationAnnouncementNotice _ => exact (execActivationAnnouncementNotice_frame h).2.2.2.2.2.2.2.2.2.1
  | coachNumberChange => exact (execCoachNumberChange_frame h).2.2.2.2.2.2.2.2.2.2.1
  | reckoningAnnouncementPanel _ => exact (execReckoningAnnouncementPanel_frame h).2.2.2.2.2.2.2.2.2.2.1
  | overlayRequest _ => exact (execOverlayRequest_frame h).2.2.2.2.2.2.2.2.2.2.1
  | overlayEnd _ => exact (execOverlayEnd_frame h).2.2.2.2.2.2.2.2.2.2.1
  | noticeTextChange _ => exact (execNoticeTextChange_frame h).2.2.2.2.2.2.2.2.2.2.1
  | activity => exact (execActivity_frame h).2.2.2.2.2.2.2.2.2.2.1
  | modeChangePanel _ _ => exact (execModeChangePanel_frame h).2.2.2.2.2.2.2.2.2.2.1
  | formationChangePanel _ => exact (execFormationChangePanel_frame h).2.2.2.2.2.2.2.2.2.2.1
  | activationAnnouncementPanel _ => exact (execActivationAnnouncementPanel_frame h).2.2.2.2.2.2.2.2.2.2.1
  | travelRightChange _ => exact (execTravelRightChange_frame h).2.2.2.2.2.2.2.2.2.2.1
  | clockMinuteChange => exact (execClockMinuteChange_frame h).2.2.2.2.2.2.2.2.2.2.1
  | composeSwap _ => exact (execComposeSwap_frame h).2.2.2.2.2.2.2.2.2.2.1
  | idleTimerExpiry => exact (execIdleTimerExpiry_frame h).2.2.2.2.2.2.2.2.2.2.1

/-- A command that is not listed leaves `notice` as it was. -/
theorem exec_notice (h : exec c s = .next t) (hc : c.writesNotice = false) : t.notice = s.notice := by
  cases c with
  | powerOn => cases hc
  | powerLoss => cases hc
  | startUpComplete => cases hc
  | neighbourSignalAppears _ => exact (execNeighbourSignalAppears_frame h).2.2.2.2.2.2.2.2.2.2.1
  | trainingCompletes _ => exact (execTrainingCompletes_frame h).2.2.2.2.2.2.2.2.2.2.1
  | lossOfSignal _ => exact (execLossOfSignal_frame h).2.2.2.2.2.2.2.2.2.2.1
  | linkChangeReport _ _ => exact (execLinkChangeReport_frame h).2.2.2.2.2.2.2.2.2.1
  | frameArrival _ _ => exact (execFrameArrival_frame h).2.2.2.2.2.2.2.2.2.2.1
  | transmissionEnd _ => exact (execTransmissionEnd_frame h).2.2.2.2.2.2.2.2.2.2.1
  | enumerate _ _ _ => exact (execEnumerate_frame h).2.2.2.2.2.2.2.2.2.1
  | newInauguration => exact (execNewInauguration_frame h).2.2.2.2.2.2.2.2.2.1
  | orientationChange => exact (execOrientationChange_frame h).2.2.2.2.2.2.2.2.2.2.2.1
  | position _ => exact (execPosition_frame h).2.2.2.2.2.2.2.2.2.2.1
  | departureReport _ => exact (execDepartureReport_frame h).2.2.2.2.2.2.2.2.2.1
  | time _ => exact (execTime_frame h).2.2.2.2.2.2.2.2.2.2.1
  | secondsTick => cases hc
  | clockSecond => exact (execClockSecond_frame h).2.2.2.2.2.2.2.2.2.2.1
  | freshnessExpiry => exact (execFreshnessExpiry_frame h).2.2.2.2.2.2.2.2.2.2.1
  | mgmtUnknownCommand _ _ _ => exact (execMgmtUnknownCommand_frame h).2.2.2.2.2.2.2.2.2.2.1
  | load _ => exact (execLoad_frame h).2.2.2.2.2.2.2.2.1
  | loadNext _ => exact (execLoadNext_frame h).2.2.2.2.2.2.2.2.1
  | commit _ => exact (execCommit_frame h).2.2.2.2.2.2.2.2.1
  | discard _ => exact (execDiscard_frame h).2.2.2.2.2.2.2.2.1
  | mode _ => exact (execMode_frame h).2.2.2.2.2.2.2.2.2.1
  | param _ => exact (execParam_frame h).2.2.2.2.2.2.2.2.2.1
  | status _ => cases hc
  | startAck _ => exact (execStartAck_frame h).2.2.2.2.2.2.2.2.2.1
  | assign _ => exact (execAssign_frame h).2.2.2.2.2.2.2.2.2.1
  | stopCancel _ => exact (execStopCancel_frame h).2.2.2.2.2.2.2.2.1
  | resvAdd _ => exact (execResvAdd_frame h).2.2.2.2.2.2.2.2.1
  | resvDrop _ => exact (execResvDrop_frame h).2.2.2.2.2.2.2.2.1
  | acceptInsert _ => cases hc
  | acceptRemove _ => cases hc
  | restart _ => exact (execRestart_frame h).2.2.2.2.2.2.2.2.2.1
  | faultRead _ => exact (execFaultRead_frame h).2.2.2.2.2.2.2.2.2.2.1
  | faultClear _ => exact (execFaultClear_frame h).2.2.2.2.2.2.2.2.2.1
  | ident _ => exact (execIdent_frame h).2.2.2.2.2.2.2.2.2.1
  | store _ => exact (execStore_frame h).2.2.2.2.2.2.2.2.2.1
  | storeWriteEnd _ => exact (execStoreWriteEnd_frame h).2.2.2.2.2.2.2.2.1
  | restartHoldEnd => cases hc
  | faultReport _ => exact (execFaultReport_frame h).2.2.2.2.2.2.2.2.2.2.1
  | portionChangeReckoning _ => exact (execPortionChangeReckoning_frame h).2.2.2.2.2.2.2.2.2.2.1
  | routeActivationReckoning _ => exact (execRouteActivationReckoning_frame h).2.2.2.2.2.2.2.2.2.1
  | reckoningAnnouncementResv _ => exact (execReckoningAnnouncementResv_frame h).2.2.2.2.2.2.2.2.2.2.1
  | activationAnnouncementResv _ => exact (execActivationAnnouncementResv_frame h).2.2.2.2.2.2.2.2.2.2.1
  | portionChangeResv => exact (execPortionChangeResv_frame h).2.2.2.2.2.2.2.2.2.2.1
  | modeChangeResv => exact (execModeChangeResv_frame h).2.2.2.2.2.2.2.2.2.2.1
  | horizonChange => exact (execHorizonChange_frame h).2.2.2.2.2.2.2.2.2.2.1
  | queueRequest _ => exact (execQueueRequest_frame h).2.2.2.2.2.2.2.2.2.2.1
  | seatActivationEngine => exact (execSeatActivationEngine_frame h).2.2.2.2.2.2.2.2.2.2.1
  | modeChangeEngine => exact (execModeChangeEngine_frame h).2.2.2.2.2.2.2.2.2.2.1
  | faultClearEngine => exact (execFaultClearEngine_frame h).2.2.2.2.2.2.2.2.2.2.1
  | seatSettleEnd => exact (execSeatSettleEnd_frame h).2.2.2.2.2.2.2.2.2.2.1
  | seatAnswer _ _ _ => exact (execSeatAnswer_frame h).2.2.2.2.2.2.2.2.2.2.1
  | seatAnswerTimeout => exact (execSeatAnswerTimeout_frame h).2.2.2.2.2.2.2.2.2.2.1
  | repollDue _ => exact (execRepollDue_frame h).2.2.2.2.2.2.2.2.2.2.1
  | refreshRoundBegin => exact (execRefreshRoundBegin_frame h).2.2.2.2.2.2.2.2.2.2.1
  | notice _ => cases hc
  | noticeCancel _ => cases hc
  | lifetimeExpiry _ => cases hc
  | repeatTimerExpiry _ => cases hc
  | dwellEnd => cases hc
  | modeChangeNotice _ _ => cases hc
  | reckoningAnnouncementNotice _ => cases hc
  | portionChangeNotice _ => cases hc
  | activationAnnouncementNotice _ => cases hc
  | coachNumberChange => cases hc
  | reckoningAnnouncementPanel _ => exact (execReckoningAnnouncementPanel_frame h).2.2.2.2.2.2.2.2.2.2.2.1
  | overlayRequest _ => exact (execOverlayRequest_frame h).2.2.2.2.2.2.2.2.2.2.2.1
  | overlayEnd _ => exact (execOverlayEnd_frame h).2.2.2.2.2.2.2.2.2.2.2.1
  | noticeTextChange _ => exact (execNoticeTextChange_frame h).2.2.2.2.2.2.2.2.2.2.2.1
  | activity => exact (execActivity_frame h).2.2.2.2.2.2.2.2.2.2.2.1
  | modeChangePanel _ _ => exact (execModeChangePanel_frame h).2.2.2.2.2.2.2.2.2.2.2.1
  | formationChangePanel _ => exact (execFormationChangePanel_frame h).2.2.2.2.2.2.2.2.2.2.2.1
  | activationAnnouncementPanel _ => exact (execActivationAnnouncementPanel_frame h).2.2.2.2.2.2.2.2.2.2.2.1
  | travelRightChange _ => exact (execTravelRightChange_frame h).2.2.2.2.2.2.2.2.2.2.2.1
  | clockMinuteChange => exact (execClockMinuteChange_frame h).2.2.2.2.2.2.2.2.2.2.2.1
  | composeSwap _ => exact (execComposeSwap_frame h).2.2.2.2.2.2.2.2.2.2.2.1
  | idleTimerExpiry => exact (execIdleTimerExpiry_frame h).2.2.2.2.2.2.2.2.2.2.2.1

/-- A command that is not listed leaves `panels` as it was. -/
theorem exec_panels (h : exec c s = .next t) (hc : c.writesPanels = false) : t.panels = s.panels := by
  cases c with
  | powerOn => cases hc
  | powerLoss => cases hc
  | startUpComplete => exact (execStartUpComplete_frame h).2.2.2.1
  | neighbourSignalAppears _ => exact (execNeighbourSignalAppears_frame h).2.2.2.2.2.2.2.2.2.2.2.1
  | trainingCompletes _ => exact (execTrainingCompletes_frame h).2.2.2.2.2.2.2.2.2.2.2.1
  | lossOfSignal _ => exact (execLossOfSignal_frame h).2.2.2.2.2.2.2.2.2.2.2.1
  | linkChangeReport _ _ => exact (execLinkChangeReport_frame h).2.2.2.2.2.2.2.2.2.2.1
  | frameArrival _ _ => exact (execFrameArrival_frame h).2.2.2.2.2.2.2.2.2.2.2.1
  | transmissionEnd _ => exact (execTransmissionEnd_frame h).2.2.2.2.2.2.2.2.2.2.2.1
  | enumerate _ _ _ => exact (execEnumerate_frame h).2.2.2.2.2.2.2.2.2.2.1
  | newInauguration => exact (execNewInauguration_frame h).2.2.2.2.2.2.2.2.2.2.1
  | orientationChange => cases hc
  | position _ => exact (execPosition_frame h).2.2.2.2.2.2.2.2.2.2.2.1
  | departureReport _ => exact (execDepartureReport_frame h).2.2.2.2.2.2.2.2.2.2.1
  | time _ => exact (execTime_frame h).2.2.2.2.2.2.2.2.2.2.2.1
  | secondsTick => cases hc
  | clockSecond => exact (execClockSecond_frame h).2.2.2.2.2.2.2.2.2.2.2.1
  | freshnessExpiry => exact (execFreshnessExpiry_frame h).2.2.2.2.2.2.2.2.2.2.2.1
  | mgmtUnknownCommand _ _ _ => exact (execMgmtUnknownCommand_frame h).2.2.2.2.2.2.2.2.2.2.2.1
  | load _ => exact (execLoad_frame h).2.2.2.2.2.2.2.2.2.1
  | loadNext _ => exact (execLoadNext_frame h).2.2.2.2.2.2.2.2.2.1
  | commit _ => exact (execCommit_frame h).2.2.2.2.2.2.2.2.2.1
  | discard _ => exact (execDiscard_frame h).2.2.2.2.2.2.2.2.2.1
  | mode _ => exact (execMode_frame h).2.2.2.2.2.2.2.2.2.2.1
  | param _ => exact (execParam_frame h).2.2.2.2.2.2.2.2.2.2.1
  | status _ => exact (execStatus_frame h).2.2.2.2.2.2.2.2.2.2.1
  | startAck _ => exact (execStartAck_frame h).2.2.2.2.2.2.2.2.2.2.1
  | assign _ => exact (execAssign_frame h).2.2.2.2.2.2.2.2.2.2.1
  | stopCancel _ => exact (execStopCancel_frame h).2.2.2.2.2.2.2.2.2.1
  | resvAdd _ => exact (execResvAdd_frame h).2.2.2.2.2.2.2.2.2.1
  | resvDrop _ => exact (execResvDrop_frame h).2.2.2.2.2.2.2.2.2.1
  | acceptInsert _ => exact (execAcceptInsert_frame h).2.2.2.2.2.2.2.2.2.2.1
  | acceptRemove _ => exact (execAcceptRemove_frame h).2.2.2.2.2.2.2.2.2.2.1
  | restart _ => exact (execRestart_frame h).2.2.2.2.2.2.2.2.2.2.1
  | faultRead _ => exact (execFaultRead_frame h).2.2.2.2.2.2.2.2.2.2.2.1
  | faultClear _ => exact (execFaultClear_frame h).2.2.2.2.2.2.2.2.2.2.1
  | ident _ => exact (execIdent_frame h).2.2.2.2.2.2.2.2.2.2.1
  | store _ => exact (execStore_frame h).2.2.2.2.2.2.2.2.2.2.1
  | storeWriteEnd _ => exact (execStoreWriteEnd_frame h).2.2.2.2.2.2.2.2.2.1
  | restartHoldEnd => cases hc
  | faultReport _ => exact (execFaultReport_frame h).2.2.2.2.2.2.2.2.2.2.2.1
  | portionChangeReckoning _ => exact (execPortionChangeReckoning_frame h).2.2.2.2.2.2.2.2.2.2.2.1
  | routeActivationReckoning _ => exact (execRouteActivationReckoning_frame h).2.2.2.2.2.2.2.2.2.2.1
  | reckoningAnnouncementResv _ => exact (execReckoningAnnouncementResv_frame h).2.2.2.2.2.2.2.2.2.2.2.1
  | activationAnnouncementResv _ => exact (execActivationAnnouncementResv_frame h).2.2.2.2.2.2.2.2.2.2.2.1
  | portionChangeResv => exact (execPortionChangeResv_frame h).2.2.2.2.2.2.2.2.2.2.2.1
  | modeChangeResv => exact (execModeChangeResv_frame h).2.2.2.2.2.2.2.2.2.2.2.1
  | horizonChange => exact (execHorizonChange_frame h).2.2.2.2.2.2.2.2.2.2.2.1
  | queueRequest _ => exact (execQueueRequest_frame h).2.2.2.2.2.2.2.2.2.2.2.1
  | seatActivationEngine => exact (execSeatActivationEngine_frame h).2.2.2.2.2.2.2.2.2.2.2.1
  | modeChangeEngine => exact (execModeChangeEngine_frame h).2.2.2.2.2.2.2.2.2.2.2.1
  | faultClearEngine => exact (execFaultClearEngine_frame h).2.2.2.2.2.2.2.2.2.2.2.1
  | seatSettleEnd => exact (execSeatSettleEnd_frame h).2.2.2.2.2.2.2.2.2.2.2.1
  | seatAnswer _ _ _ => exact (execSeatAnswer_frame h).2.2.2.2.2.2.2.2.2.2.2.1
  | seatAnswerTimeout => exact (execSeatAnswerTimeout_frame h).2.2.2.2.2.2.2.2.2.2.2.1
  | repollDue _ => exact (execRepollDue_frame h).2.2.2.2.2.2.2.2.2.2.2.1
  | refreshRoundBegin => exact (execRefreshRoundBegin_frame h).2.2.2.2.2.2.2.2.2.2.2.1
  | notice _ => exact (execNotice_frame h).2.2.2.2.2.2.2.2.2.2.2.1
  | noticeCancel _ => exact (execNoticeCancel_frame h).2.2.2.2.2.2.2.2.2.2.2.1
  | lifetimeExpiry _ => exact (execLifetimeExpiry_frame h).2.2.2.2.2.2.2.2.2.2.2.1
  | repeatTimerExpiry _ => exact (execRepeatTimerExpiry_frame h).2.2.2.2.2.2.2.2.2.2.2.1
  | dwellEnd => exact (execDwellEnd_frame h).2.2.2.2.2.2.2.2.2.2.2.1
  | modeChangeNotice _ _ => exact (execModeChangeNotice_frame h).2.2.2.2.2.2.2.2.2.2.2.1
  | reckoningAnnouncementNotice _ => exact (execReckoningAnnouncementNotice_frame h).2.2.2.2.2.2.2.2.2.2.2.1
  | portionChangeNotice _ => exact (execPortionChangeNotice_frame h).2.2.2.2.2.2.2.2.2.2.2.1
  | activationAnnouncementNotice _ => exact (execActivationAnnouncementNotice_frame h).2.2.2.2.2.2.2.2.2.2.1
  | coachNumberChange => exact (execCoachNumberChange_frame h).2.2.2.2.2.2.2.2.2.2.2.1
  | reckoningAnnouncementPanel _ => cases hc
  | overlayRequest _ => cases hc
  | overlayEnd _ => cases hc
  | noticeTextChange _ => cases hc
  | activity => cases hc
  | modeChangePanel _ _ => cases hc
  | formationChangePanel _ => cases hc
  | activationAnnouncementPanel _ => cases hc
  | travelRightChange _ => cases hc
  | clockMinuteChange => cases hc
  | composeSwap _ => cases hc
  | idleTimerExpiry => cases hc

/-- A command that is not listed leaves `announced` as it was. -/
theorem exec_announced (h : exec c s = .next t) (hc : c.writesAnnounced = false) : t.announced = s.announced := by
  cases c with
  | powerOn => cases hc
  | powerLoss => cases hc
  | startUpComplete => cases hc
  | neighbourSignalAppears _ => cases hc
  | trainingCompletes _ => cases hc
  | lossOfSignal _ => cases hc
  | linkChangeReport _ _ => cases hc
  | frameArrival _ _ => cases hc
  | transmissionEnd _ => exact (execTransmissionEnd_frame h).2.2.2.2.2.2.2.2.2.2.2.2.1
  | enumerate _ _ _ => cases hc
  | newInauguration => cases hc
  | orientationChange => cases hc
  | position _ => cases hc
  | departureReport _ => cases hc
  | time _ => cases hc
  | secondsTick => cases hc
  | clockSecond => cases hc
  | freshnessExpiry => cases hc
  | mgmtUnknownCommand _ _ _ => cases hc
  | load _ => cases hc
  | loadNext _ => cases hc
  | commit _ => cases hc
  | discard _ => cases hc
  | mode _ => cases hc
  | param _ => cases hc
  | status _ => cases hc
  | startAck _ => cases hc
  | assign _ => cases hc
  | stopCancel _ => cases hc
  | resvAdd _ => cases hc
  | resvDrop _ => cases hc
  | acceptInsert _ => cases hc
  | acceptRemove _ => cases hc
  | restart _ => cases hc
  | faultRead _ => cases hc
  | faultClear _ => cases hc
  | ident _ => cases hc
  | store _ => cases hc
  | storeWriteEnd _ => cases hc
  | restartHoldEnd => cases hc
  | faultReport _ => cases hc
  | portionChangeReckoning _ => cases hc
  | routeActivationReckoning _ => cases hc
  | reckoningAnnouncementResv _ => cases hc
  | activationAnnouncementResv _ => cases hc
  | portionChangeResv => cases hc
  | modeChangeResv => cases hc
  | horizonChange => cases hc
  | queueRequest _ => cases hc
  | seatActivationEngine => cases hc
  | modeChangeEngine => cases hc
  | faultClearEngine => cases hc
  | seatSettleEnd => exact (execSeatSettleEnd_frame h).2.2.2.2.2.2.2.2.2.2.2.2.1
  | seatAnswer _ _ _ => cases hc
  | seatAnswerTimeout => cases hc
  | repollDue _ => cases hc
  | refreshRoundBegin => cases hc
  | notice _ => cases hc
  | noticeCancel _ => cases hc
  | lifetimeExpiry _ => cases hc
  | repeatTimerExpiry _ => cases hc
  | dwellEnd => cases hc
  | modeChangeNotice _ _ => cases hc
  | reckoningAnnouncementNotice _ => cases hc
  | portionChangeNotice _ => cases hc
  | activationAnnouncementNotice _ => cases hc
  | coachNumberChange => cases hc
  | reckoningAnnouncementPanel _ => cases hc
  | overlayRequest _ => cases hc
  | overlayEnd _ => cases hc
  | noticeTextChange _ => cases hc
  | activity => cases hc
  | modeChangePanel _ _ => cases hc
  | formationChangePanel _ => cases hc
  | activationAnnouncementPanel _ => cases hc
  | travelRightChange _ => cases hc
  | clockMinuteChange => cases hc
  | composeSwap _ => exact (execComposeSwap_frame h).2.2.2.2.2.2.2.2.2.2.2.2.1
  | idleTimerExpiry => exact (execIdleTimerExpiry_frame h).2.2.2.2.2.2.2.2.2.2.2.2.1

/-- No command touches the queue of waiting commands. -/
theorem exec_pending (h : exec c s = .next t) : t.pending = s.pending := by
  cases c with
  | powerOn => exact (execPowerOn_frame h).2
  | powerLoss => exact (execPowerLoss_frame h)
  | startUpComplete => exact (execStartUpComplete_frame h).2.2.2.2
  | neighbourSignalAppears _ => exact (execNeighbourSignalAppears_frame h).2.2.2.2.2.2.2.2.2.2.2.2
  | trainingCompletes _ => exact (execTrainingCompletes_frame h).2.2.2.2.2.2.2.2.2.2.2.2
  | lossOfSignal _ => exact (execLossOfSignal_frame h).2.2.2.2.2.2.2.2.2.2.2.2
  | linkChangeReport _ _ => exact (execLinkChangeReport_frame h).2.2.2.2.2.2.2.2.2.2.2
  | frameArrival _ _ => exact (execFrameArrival_frame h).2.2.2.2.2.2.2.2.2.2.2.2
  | transmissionEnd _ => exact (execTransmissionEnd_frame h).2.2.2.2.2.2.2.2.2.2.2.2.2
  | enumerate _ _ _ => exact (execEnumerate_frame h).2.2.2.2.2.2.2.2.2.2.2
  | newInauguration => exact (execNewInauguration_frame h).2.2.2.2.2.2.2.2.2.2.2
  | orientationChange => exact (execOrientationChange_frame h).2.2.2.2.2.2.2.2.2.2.2.2
  | position _ => exact (execPosition_frame h).2.2.2.2.2.2.2.2.2.2.2.2
  | departureReport _ => exact (execDepartureReport_frame h).2.2.2.2.2.2.2.2.2.2.2
  | time _ => exact (execTime_frame h).2.2.2.2.2.2.2.2.2.2.2.2
  | secondsTick => exact (execSecondsTick_frame h).2.2.2.2.2.2.2.2
  | clockSecond => exact (execClockSecond_frame h).2.2.2.2.2.2.2.2.2.2.2.2
  | freshnessExpiry => exact (execFreshnessExpiry_frame h).2.2.2.2.2.2.2.2.2.2.2.2
  | mgmtUnknownCommand _ _ _ => exact (execMgmtUnknownCommand_frame h).2.2.2.2.2.2.2.2.2.2.2.2
  | load _ => exact (execLoad_frame h).2.2.2.2.2.2.2.2.2.2
  | loadNext _ => exact (execLoadNext_frame h).2.2.2.2.2.2.2.2.2.2
  | commit _ => exact (execCommit_frame h).2.2.2.2.2.2.2.2.2.2
  | discard _ => exact (execDiscard_frame h).2.2.2.2.2.2.2.2.2.2
  | mode _ => exact (execMode_frame h).2.2.2.2.2.2.2.2.2.2.2
  | param _ => exact (execParam_frame h).2.2.2.2.2.2.2.2.2.2.2
  | status _ => exact (execStatus_frame h).2.2.2.2.2.2.2.2.2.2.2
  | startAck _ => exact (execStartAck_frame h).2.2.2.2.2.2.2.2.2.2.2
  | assign _ => exact (execAssign_frame h).2.2.2.2.2.2.2.2.2.2.2
  | stopCancel _ => exact (execStopCancel_frame h).2.2.2.2.2.2.2.2.2.2
  | resvAdd _ => exact (execResvAdd_frame h).2.2.2.2.2.2.2.2.2.2
  | resvDrop _ => exact (execResvDrop_frame h).2.2.2.2.2.2.2.2.2.2
  | acceptInsert _ => exact (execAcceptInsert_frame h).2.2.2.2.2.2.2.2.2.2.2
  | acceptRemove _ => exact (execAcceptRemove_frame h).2.2.2.2.2.2.2.2.2.2.2
  | restart _ => exact (execRestart_frame h).2.2.2.2.2.2.2.2.2.2.2
  | faultRead _ => exact (execFaultRead_frame h).2.2.2.2.2.2.2.2.2.2.2.2
  | faultClear _ => exact (execFaultClear_frame h).2.2.2.2.2.2.2.2.2.2.2
  | ident _ => exact (execIdent_frame h).2.2.2.2.2.2.2.2.2.2.2
  | store _ => exact (execStore_frame h).2.2.2.2.2.2.2.2.2.2.2
  | storeWriteEnd _ => exact (execStoreWriteEnd_frame h).2.2.2.2.2.2.2.2.2.2
  | restartHoldEnd => exact (execRestartHoldEnd_frame h).2
  | faultReport _ => exact (execFaultReport_frame h).2.2.2.2.2.2.2.2.2.2.2.2
  | portionChangeReckoning _ => exact (execPortionChangeReckoning_frame h).2.2.2.2.2.2.2.2.2.2.2.2
  | routeActivationReckoning _ => exact (execRouteActivationReckoning_frame h).2.2.2.2.2.2.2.2.2.2.2
  | reckoningAnnouncementResv _ => exact (execReckoningAnnouncementResv_frame h).2.2.2.2.2.2.2.2.2.2.2.2
  | activationAnnouncementResv _ => exact (execActivationAnnouncementResv_frame h).2.2.2.2.2.2.2.2.2.2.2.2
  | portionChangeResv => exact (execPortionChangeResv_frame h).2.2.2.2.2.2.2.2.2.2.2.2
  | modeChangeResv => exact (execModeChangeResv_frame h).2.2.2.2.2.2.2.2.2.2.2.2
  | horizonChange => exact (execHorizonChange_frame h).2.2.2.2.2.2.2.2.2.2.2.2
  | queueRequest _ => exact (execQueueRequest_frame h).2.2.2.2.2.2.2.2.2.2.2.2
  | seatActivationEngine => exact (execSeatActivationEngine_frame h).2.2.2.2.2.2.2.2.2.2.2.2
  | modeChangeEngine => exact (execModeChangeEngine_frame h).2.2.2.2.2.2.2.2.2.2.2.2
  | faultClearEngine => exact (execFaultClearEngine_frame h).2.2.2.2.2.2.2.2.2.2.2.2
  | seatSettleEnd => exact (execSeatSettleEnd_frame h).2.2.2.2.2.2.2.2.2.2.2.2.2
  | seatAnswer _ _ _ => exact (execSeatAnswer_frame h).2.2.2.2.2.2.2.2.2.2.2.2
  | seatAnswerTimeout => exact (execSeatAnswerTimeout_frame h).2.2.2.2.2.2.2.2.2.2.2.2
  | repollDue _ => exact (execRepollDue_frame h).2.2.2.2.2.2.2.2.2.2.2.2
  | refreshRoundBegin => exact (execRefreshRoundBegin_frame h).2.2.2.2.2.2.2.2.2.2.2.2
  | notice _ => exact (execNotice_frame h).2.2.2.2.2.2.2.2.2.2.2.2
  | noticeCancel _ => exact (execNoticeCancel_frame h).2.2.2.2.2.2.2.2.2.2.2.2
  | lifetimeExpiry _ => exact (execLifetimeExpiry_frame h).2.2.2.2.2.2.2.2.2.2.2.2
  | repeatTimerExpiry _ => exact (execRepeatTimerExpiry_frame h).2.2.2.2.2.2.2.2.2.2.2.2
  | dwellEnd => exact (execDwellEnd_frame h).2.2.2.2.2.2.2.2.2.2.2.2
  | modeChangeNotice _ _ => exact (execModeChangeNotice_frame h).2.2.2.2.2.2.2.2.2.2.2.2
  | reckoningAnnouncementNotice _ => exact (execReckoningAnnouncementNotice_frame h).2.2.2.2.2.2.2.2.2.2.2.2
  | portionChangeNotice _ => exact (execPortionChangeNotice_frame h).2.2.2.2.2.2.2.2.2.2.2.2
  | activationAnnouncementNotice _ => exact (execActivationAnnouncementNotice_frame h).2.2.2.2.2.2.2.2.2.2.2
  | coachNumberChange => exact (execCoachNumberChange_frame h).2.2.2.2.2.2.2.2.2.2.2.2
  | reckoningAnnouncementPanel _ => exact (execReckoningAnnouncementPanel_frame h).2.2.2.2.2.2.2.2.2.2.2.2
  | overlayRequest _ => exact (execOverlayRequest_frame h).2.2.2.2.2.2.2.2.2.2.2.2
  | overlayEnd _ => exact (execOverlayEnd_frame h).2.2.2.2.2.2.2.2.2.2.2.2
  | noticeTextChange _ => exact (execNoticeTextChange_frame h).2.2.2.2.2.2.2.2.2.2.2.2
  | activity => exact (execActivity_frame h).2.2.2.2.2.2.2.2.2.2.2.2
  | modeChangePanel _ _ => exact (execModeChangePanel_frame h).2.2.2.2.2.2.2.2.2.2.2.2
  | formationChangePanel _ => exact (execFormationChangePanel_frame h).2.2.2.2.2.2.2.2.2.2.2.2
  | activationAnnouncementPanel _ => exact (execActivationAnnouncementPanel_frame h).2.2.2.2.2.2.2.2.2.2.2.2
  | travelRightChange _ => exact (execTravelRightChange_frame h).2.2.2.2.2.2.2.2.2.2.2.2
  | clockMinuteChange => exact (execClockMinuteChange_frame h).2.2.2.2.2.2.2.2.2.2.2.2
  | composeSwap _ => exact (execComposeSwap_frame h).2.2.2.2.2.2.2.2.2.2.2.2.2
  | idleTimerExpiry => exact (execIdleTimerExpiry_frame h).2.2.2.2.2.2.2.2.2.2.2.2.2

end Sys2Proof.Machine
end

