-- ==== Sys2Proof/Tests/Slice0.lean ====
section
/-! SUPPORT. Tests: ill-formed commands that WellFormed refuses, the spec's worked examples and boundary values, and a witness
for every statement with hypotheses. Expected values are the spec's; each test names its source. -/

namespace Sys2Proof.Tests

open Sys2Proof Sys2Proof.Machine

-- One theorem after another: each `decide +kernel` waits for the ones before it, and waiting side by side takes a thread each.
set_option Elab.async false

/-! ### Ill-formed commands, one for each check of WellFormed.lean -/

theorem test_payload_too_long : (Instr.time (List.replicate 241 0)).wellFormed = false := by decide +kernel

theorem test_arguments_too_long : (Instr.store ⟨.end1, 0, List.replicate 240 0⟩).wellFormed = false := by decide +kernel

theorem test_slot_beyond_127 : (Instr.queueRequest 128).wellFormed = false := by decide +kernel

theorem test_notice_id_zero : (Instr.overlayEnd 0).wellFormed = false := by decide +kernel

theorem test_portion_four : (Instr.portionChangeNotice 4).wellFormed = false := by decide +kernel

theorem test_named_code_is_not_unknown : (Instr.mgmtUnknownCommand .end1 0 [19]).wellFormed = false := by decide +kernel

theorem test_inline_text_of_97 :
    (Instr.notice ⟨1, 0, 0, 0, 0, false, 0, 0, 0, .inlined (List.replicate 97 0x41)⟩).wellFormed = false := by decide +kernel

theorem test_fault_of_slot_128 : (Instr.faultReport (.seatLamp 128)).wellFormed = false := by decide +kernel

theorem test_news_of_nothing :
    (Instr.reckoningAnnouncementResv (.progress ⟨false, false, false, false, false, false, false, false, false⟩)).wellFormed
      = false := by decide +kernel

theorem test_mode_change_to_itself : (Instr.modeChangePanel .quiet .quiet).wellFormed = false := by decide +kernel

theorem test_notice_text_of_entry_zero : (Instr.noticeTextChange (.entry 0)).wellFormed = false := by decide +kernel

theorem test_page_is_not_for_resv :
    (Instr.activationAnnouncementResv ⟨false, true, false, false, true⟩).wellFormed = false := by decide +kernel

theorem test_seat_is_not_for_notice :
    (Instr.activationAnnouncementNotice ⟨true, false, false, false, false⟩).wellFormed = false := by decide +kernel

theorem test_resv_is_not_for_panel :
    (Instr.activationAnnouncementPanel ⟨false, true, false, false, false⟩).wellFormed = false := by decide +kernel

theorem test_departure_of_256 : (Instr.departureReport 256).wellFormed = false := by decide +kernel

theorem test_route_step_without_route :
    (Instr.routeActivationReckoning ⟨true, false, false, true, false⟩).wellFormed = false := by decide +kernel

/-! ### States for the tests -/

/-- A coach in service: relay open, both links UP, numbered 5 with its head at End 1, portion 2. -/
def up : State :=
  { State.reset with
    retainedRead := true
    line := { relay := .opened, end1 := { PortState.start with link := .up }, end2 := { PortState.start with link := .up } }
    form := { FormationUnit.start with numbering := .numbered 5 .end1, orientation := .normal, portion := 2, identity := 4103 } }

/-- A ROUTE record of a stop code, a portion mask and a segment length, with no times. -/
def stop (code : Byte) (mask : BitVec 3) (segment : BitVec 24) : List Byte :=
  [0, code] ++ List.replicate 44 0 ++
    [segment.extractLsb' 16 8, segment.extractLsb' 8 8, segment.extractLsb' 0 8, 0xFF, 0xFF, 0xFF, 0xFF,
     ((0#3 ++ mask ++ 3#2 : BitVec 8)), 0, 0, 0, 0]

/-- The distances of the main case of chapter 5: 18,500 m from ordinal 1 to ordinal 2, 79,700 m to ordinal 3; portion 2 calls
at 0, 1 and 3. -/
def route : Table (List Byte) := [(0, stop 1 7 0), (1, stop 2 7 42000), (2, stop 3 1 18500), (3, stop 4 7 61200)]

/-- An enabled SEAT record on a string with an address. -/
def seat (string address : Byte) : List Byte := [3, string, address, 0x37, 0x41, 0, 0]

def seats : Table (List Byte) := [(0, seat 0 1), (5, seat 1 32)]

/-- A RESV record: id, slot 5, board code 2 (ordinal 1), alight code 4 (ordinal 3), note 3. -/
def resv (id : Byte) : List Byte := [0, 0, 0, id, 5, 0, 2, 0, 4, 3]

/-- The coach on the run of the main case of chapter 5, before the frame: RUNNING, v_s 600, clock 14:05:20. -/
def running : State :=
  { up with
    tables := { TableStore.start with seat := { FamilyBanks.start with active := seats, count := 1 }
                                      resv := { FamilyBanks.start with active := [(0, resv 9)], count := 1 }
                                      route := { FamilyBanks.start with active := route, count := 1 } }
    reck := { ReckoningUnit.start with
      progress := { Progress.start with state := .running, d := some 1, p := some 1, n := some 3, h := some 2, vs := some 600 }
      lastFrame := some { atPlatform := false, door := .closed, d := 1, a := 0, sRun := 11000, v := 600, delay := 3 }
      portion := 2, calling := [0, 1, 3], halting := [0, 1, 2, 3]
      clock := { seconds := 50720, phase := 0, valid := true } }
    resv := { placements := [(0, ⟨9, 5, 3, .placed 1 3⟩)], basisCount := 1, basisCalling := [0, 1, 3], basisSeat := 1,
              basisResv := 1, contents := [] } }

/-- The frame of the main case: RUNNING, d = 1, s_run as given, v = 612, delay 3. -/
def frameOf (sRun : BitVec 24) : PositionFields := ⟨7, false, .closed, 1, 0, sRun, 612, 3⟩

/-- A queued notice of an effective priority, due or not, with repeat timer 5 and a lifetime. -/
def entryOf (id effective : Nat) (due wanted : Bool) : NoticeEntry :=
  { id := id, category := 0, language := 0, priority := 1, mask := 7, overlay := wanted, interval := 20, count := 2,
    lifetime := 100, text := .pool 0, effective := effective, due := due, repeatTimer := 5, showsRemaining := 1,
    remaining := some 100, overlayWanted := wanted }

/-- Two queued notices, the second showing. -/
def noticed : NoticeUnit :=
  { NoticeUnit.start with
    queue := [entryOf 40 0 false true, entryOf 41 2 false false], lines := .showing 41 [0x41] 8, portion := 2 }

/-- `running` with the queue of `noticed`. -/
def showing : State := { running with notice := noticed }

/-- A management frame from End 1 with sequence 7. -/
def mgmt (args : List Byte) : MgmtFrame := ⟨.end1, 7, args⟩

/-- A field of the state after a command, if it answers a next state. -/
def after {α : Type} (c : Instr) (s : State) (f : State → α) : Option α :=
  match exec c s with
  | .next t => some (f t)
  | _ => none

/-! ### The line (chapter 1) -/

/-- The check value of the ASCII digits 1 to 9 under the generator and start value of R19, computed by hand from R19. -/
theorem test_check_of_nine_digits : crc16 [0x31, 0x32, 0x33, 0x34, 0x35, 0x36, 0x37, 0x38, 0x39] = 0x29B1 := by decide +kernel

/-- A TIME frame to ALL with hops 3: bytes by R19. -/
def timeFrame : List Byte :=
  let body : List Byte := [0x42, 0, 0, 0, 0, 3, 0, 9, 5, 0x00, 0xC6, 0x20, 0x01, 0xF4]
  body ++ crcBytes body

theorem test_frame_is_read : parseFrame timeFrame = some ⟨4, .all, 3, 0, 9, .bytes [0x00, 0xC6, 0x20, 0x01, 0xF4]⟩ := by decide +kernel

/-- R4, R7: the forward copy carries hops 2; R8, R9: the local copy goes on as TIME. -/
theorem test_frame_is_forwarded_and_taken :
    after (.frameArrival .end1 timeFrame) up (fun t => (t.line.end2.sending.map (·.hops), t.announced)) =
      some (some 2, [.time [0x00, 0xC6, 0x20, 0x01, 0xF4]]) := by decide +kernel

/-- R104: 50,720 s and 500 ms. -/
theorem test_time_sets_the_clock :
    after (.time [0x00, 0xC6, 0x20, 0x01, 0xF4]) up (fun t => t.reck.clock) = some ⟨50720, 500, true⟩ := by decide +kernel

/-! ### Reckoning: the main case of chapter 5 and its variant; R93's sums -/

theorem test_main_case :
    after (.position (frameOf 12000)) running (fun t => (t.reck.progress.vs, t.reck.progress.n, t.reck.progress.p)) =
      some (some 603, some 3, some 1) ∧
    after (.position (frameOf 12000)) running (fun t => (t.reck.progress.remaining, t.reck.progress.eta,
      t.reck.progress.permille, t.reck.progress.arrival, t.reck.progress.state)) =
      some (67700, some 1123, 150, some 864, .running) := by decide +kernel

theorem test_variant_enters_closed_door_approach :
    after (.position (frameOf 23400)) running (fun t => (t.reck.progress.remaining, t.reck.progress.eta,
      t.reck.progress.permille, t.reck.progress.arrival, t.reck.progress.approach)) =
      some (56300, some 934, 293, some 861, some ⟨2, .closedDoor⟩) := by decide +kernel

/-- R93: 23:58 with +5 gives 00:03, 00:10 with -15 gives 23:55. -/
theorem test_arrival_wraps :
    (((1438 : Int) + 5) % 1440).toNat = 3 ∧ (((10 : Int) + -15) % 1440).toNat = 1435 := by decide +kernel

/-- R69 to R71 with the example "One table, three portions": portion 2's calling set and the halting set. -/
theorem test_calling_and_halting_sets :
    running.tables.callingSet 2 = [0, 1, 3] ∧ running.tables.haltingSet = [0, 1, 2, 3] ∧ running.tables.callingSet 0 = [] ∧
      running.tables.distance 1 2 = 18500 ∧ running.tables.distance 1 3 = 79700 := by decide +kernel

/-! ### Seats (chapters 6 and 7) -/

/-- R119 case 1 and R22: a record that covers cur, the note as icon. -/
theorem test_covered_seat_is_red :
    (resolveSlot running running.resv.placements 5 (seatSlot (seat 1 32))).map (fun c => (c.lamp, c.icon, c.label)) =
      some (.red, 3, [0x37, 0x41]) := by decide +kernel

/-- R22: a PING to address 10 has bytes that sum to 0. -/
theorem test_ping_bytes : pingMessage 10 = [10, 3, 243] := by decide +kernel

/-- R132, R134: the head of the dirty queue is sent; its string is selected and its settle time runs first. -/
theorem test_queue_request_begins_a_transaction :
    after (.queueRequest 5) running (fun t => (t.bus.transaction.map (fun x => (x.slot, x.address, x.awaiting)), t.bus.dirty)) =
      some (some (5, 32, false), []) := by decide +kernel

/-! ### Notices (chapter 8) -/

/-- R157: a text of 96 characters dwells 20 s; "Rotation and pre-emption": 30 gives 9 s, 45 gives 12 s. -/
theorem test_dwells : dwellOf 24 = 8 ∧ dwellOf 30 = 9 ∧ dwellOf 45 = 12 ∧ dwellOf 96 = 20 := by decide +kernel

/-- R146: intervals 0, 9 and 3601 as taken. -/
theorem test_intervals : intervalOf 0 = 0 ∧ intervalOf 9 = 10 ∧ intervalOf 3601 = 3600 := by decide +kernel

/-- R160 in the example "Rotation and pre-emption": a withdrawn show is due again with its show returned. -/
theorem test_mode_withdraws_the_show :
    after (.modeChangeNotice .normal .service) showing
        (fun t => (t.notice.lines, t.notice.queue.map (fun e => (e.due, e.showsRemaining)))) =
      some (.blank, [(false, 1), (true, 2)]) := by decide +kernel

/-! ### Panels (chapter 9) -/

/-- The example "The strip on both walls": stop 0, stop 1 and the marker of permille 293, on both panels. -/
theorem test_strip_columns :
    stripX ⟨8, 0, 176, 48⟩ false (8 + 16) = 24 ∧ stripX ⟨8, 0, 176, 48⟩ true (8 + 16) = 167 ∧
      stripX ⟨8, 0, 176, 48⟩ true (8 + 16 + 32) = 135 ∧ stripX ⟨8, 0, 176, 48⟩ true (8 + 16 + 32 * 293 / 1000) = 158 := by decide +kernel

/-- An element of kind FILL. -/
def fill (rect clip : Rect) (mode : ClipMode) (colour : Colour) (protect : Option Colour) : DrawItem :=
  ⟨⟨.fill, rect, clip, mode, colour, 0, protect, false, .left, false, 0, 0, 16⟩, .fill⟩

/-- The example "Clip and protect": three pixels after both elements. -/
theorem test_clip_and_protect :
    let j : ComposeJob := ⟨1, [fill ⟨0, 0, 192, 12⟩ ⟨0, 0, 192, 48⟩ .none 4 none,
      fill ⟨0, 0, 192, 48⟩ ⟨0, 40, 192, 8⟩ .outside 9 (some 4)]⟩
    j.pixel 10 5 = 4 ∧ j.pixel 10 20 = 9 ∧ j.pixel 10 44 = 1 := by decide +kernel

/-! ### Management and faults (chapters 3 and 10) -/

/-- R60: a horizon of 200 is clamped to 15. -/
theorem test_param_is_clamped : after (.param (mgmt [0, 0, 200])) up (fun t => t.mgmt.params.horizon) = some 15 := by decide +kernel

/-- R191: hold 0 means 5, above 30 is 30. -/
theorem test_restart_holds :
    after (.restart (mgmt [0])) up (fun t => (t.mgmt.hold, t.mgmt.mode)) = some (some 5, .restartPending) ∧
      after (.restart (mgmt [31])) up (fun t => t.mgmt.hold) = some (some 30) := by decide +kernel

/-- "A run of faults and a clear": the first fault is kept, the next counted. -/
theorem test_first_fault_is_kept :
    after (.faultReport .positionStale)
        { up with faults := { record := some ⟨.linkLost .end1, some 50100, 7310⟩, count := 1, uptime := 7318 } }
        (fun t => (t.faults.record, t.faults.count)) =
      some (some ⟨.linkLost .end1, some 50100, 7310⟩, 2) := by decide +kernel

/-- R16, R194: a start without retained settings opens the relay with one fault recorded. -/
theorem test_start_up :
    after .startUpComplete State.reset (fun t => (t.line.relay, t.line.end1.link, t.faults.count, t.notice.lines)) =
      some (.opened, .training, 1, .default) := by decide +kernel

/-! ### Witnesses: concrete states and operands that meet the hypotheses of the statements, clause by clause at the bounds -/

/-- `showing` with a tick waiting. -/
def ticking : State := { showing with pending := [.secondsTick] }

/-- `up` in RESTART_PENDING with a hold of 1 s. -/
def holding : State := { up with mgmt := { ManagementUnit.start with mode := .restartPending, hold := some 1 } }

/-- `running` with SEAT and ROUTE staged. -/
def staged : State :=
  { running with tables := { running.tables with
      seat := { running.tables.seat with staged := seats, state := .filling }
      route := { running.tables.route with staged := route, state := .filling } } }

/-- The family set of SEAT alone. -/
def seatOnly : FamilySet := ⟨true, false, false, false, false⟩

/-- `staged` with a pending commit of SEAT. -/
def committed (a : Activation) : State :=
  { staged with
    tables := { staged.tables with seat := { staged.tables.seat with state := .committed } }
    mgmt := { staged.mgmt with commit := some ⟨seatOnly, a, 77⟩ } }

/-- `running` in HOLD, entered from RUNNING. -/
def held : State :=
  { running with reck := { running.reck with
      progress := { running.reck.progress with state := .hold, remembered := some .running } } }

/-- `running` with its engine awaiting the answer of a transaction for slot 5. -/
def awaiting (kind : TransactionKind) (attempt : Nat) (discard : Bool) : State :=
  { running with bus := { SeatBusEngine.start with
      dirty := [0], selected := some 1, transaction := some ⟨5, 32, kind, pingMessage 32, attempt, true, discard⟩ } }

/-- A retained set. -/
def retainedSet : RetainedSet := ⟨4103, seats, .default⟩

theorem witness_StepRunsTheCommand :
    State.reset.pending = [] ∧ State.reset.announced = [] ∧
      ({ State.reset with announced := [.activity] } : State).announced = .activity :: [] := by decide +kernel

/-- The premises of the nine statements LineLawKept to FaultAndHoldLawKept, at one state that steps. -/
theorem witness_laws_kept :
    (ticking.line.legal ∧ ticking.form.legal ∧ ticking.tablesLegal ∧ ticking.commitLegal ∧ ticking.reckoningLegal ∧
      ticking.resv.placementLaw ∧ ticking.notice.legal ∧ ticking.notice.portionLaw ∧ ticking.panels.legal ∧
      ticking.faults.legal ∧ ticking.mgmt.holdLegal ∧ (1 ≤ ticking.notice.portion ∧ ticking.notice.queue ≠ [])) ∧
      ∃ t, step ticking = .next t := by
  refine ⟨?_, _, rfl⟩
  and_intros <;> decide +kernel

theorem witness_ItemsChangedByTheirCommandsAlone :
    (∃ t, exec .secondsTick showing = .next t) ∧ (∀ f, Instr.secondsTick ≠ .assign f) ∧ isStart .secondsTick = false ∧
      (∃ t, exec .powerLoss up = .next t) ∧ up.mgmt.store = none ∧
      (∃ t, exec .clockMinuteChange holding = .next t) ∧ holding.mgmt.mode = .restartPending ∧
      ({ up with mgmt := { up.mgmt with cold := false } } : State).mgmt.cold = false :=
  ⟨⟨_, rfl⟩, by simp, rfl, ⟨_, rfl⟩, rfl, ⟨_, rfl⟩, rfl, rfl⟩

theorem witness_LinkEvents :
    (up.line.port .end1).link = .up ∧ (State.reset.line.port .end1).link = .down ∧
      (({ up with line := { up.line with end2 := { up.line.end2 with link := .training } } } : State).line.port .end2).link
        = .training := by decide +kernel

/-- A port with frames in its queues and its transmitter idle, at the bounds of R13 and R12. -/
def portOf (through own run : Nat) : PortState :=
  let f : Frame := ⟨4, .all, 3, 0, 9, .bytes []⟩
  { PortState.start with link := .up, through := List.replicate through f, own := List.replicate own f, run := run }

theorem witness_TransmitQueues :
    ((portOf 0 1 0).sending = none ∧ (portOf 0 1 0).own ≠ [] ∧ (portOf 0 1 0).through = []) ∧
      ((portOf 1 1 4).own ≠ [] ∧ (portOf 1 1 4).run = 4) ∧ ((portOf 1 1 3).through ≠ [] ∧ (portOf 1 1 3).run ≠ 4) ∧
      ((portOf 1 0 4).through ≠ [] ∧ (portOf 1 0 4).own = []) ∧ ((portOf 0 0 0).own = [] ∧ (portOf 0 0 0).through = []) ∧
      ((portOf 7 3 0).own.length < 4 ∧ (portOf 7 3 0).through.length < 8) ∧
      (4 ≤ (portOf 8 4 0).own.length ∧ 8 ≤ (portOf 8 4 0).through.length) ∧ State.reset.line.end1.link ≠ .up ∧
      (({ up with line := { up.line with end1 := { up.line.end1 with sending := some ⟨4, .all, 3, 0, 9, .bytes []⟩ } } }
        : State).line.port .end1).sending ≠ none := by decide +kernel

theorem witness_FrameArrivals :
    (up.line.port .end1).link = .up ∧ malformed (timeFrame ++ [0]) ∧ malformed [] ∧ ¬ malformed timeFrame ∧
      (parseFrame timeFrame).isSome = true := by decide +kernel

theorem witness_TargetTable :
    up.form.legal ∧ (0 : Byte).toNat < 1 ∧ 32 < (33 : Byte).toNat ∧ up.form.concerns (.coach 5) = true := by decide +kernel

theorem witness_DispatchTable :
    (2 : BitVec 4).toNat ∉ [1, 3, 4, 5, 6, 7] ∧ (1 ≤ (1 : Byte).toNat ∧ (19 : Byte).toNat ≤ 19) ∧ (0 : Byte).toNat = 0 ∧
      20 ≤ (20 : Byte).toNat := by decide +kernel

theorem witness_FrameReadsBack :
    let f : Frame := ⟨15, .ident 0xFFFFFFFF, 63, 255, 255, .bytes (List.replicate 240 0xFF)⟩
    f.payload = .bytes (List.replicate 240 0xFF) ∧ (List.replicate 240 (0xFF : Byte)).length ≤ 240 := by
  exact ⟨rfl, by decide +kernel⟩

theorem witness_Enumeration :
    (31 : Byte).toNat + 1 ≤ 32 ∧ 32 < (32 : Byte).toNat + 1 ∧ ([1] : List Byte).length < 2 := by decide +kernel

theorem witness_RepliesAndUnknownCommands :
    State.reset.form.numbering = .unnumbered ∧ up.form.numbering = .numbered 5 .end1 := by decide +kernel

theorem witness_CommonChecks :
    namedCommand (.load (mgmt [])) = some (1, mgmt []) ∧ holding.mgmt.mode = .restartPending ∧ (1 : Nat) ≠ 7 ∧
      up.mgmt.mode ≠ .restartPending ∧ (mgmt [0, 0, 0]).args.length < 4 ∧ namedCommand (.loadNext (mgmt [])) = some (2, mgmt []) ∧
      (mgmt []).args.length < 1 ∧ namedCommand (.status (mgmt [0, 0])) = some (7, mgmt [0, 0]) ∧ (7, 1) ∈ argumentBytes ∧
      (mgmt [0, 0]).args.length ≠ 1 := by decide +kernel

/-- A LOAD of two strings at TEXT id 0. -/
def textLoad : MgmtFrame := mgmt [3, 0, 0, 2, 1, 0x41, 2, 0x42, 0x43]

theorem witness_LoadsTaken :
    (up.mgmt.mode ≠ .restartPending ∧ 4 ≤ textLoad.args.length ∧ Family.ofCode (natAt textLoad.args 0) = some .text ∧
      up.mgmt.locks .text = false ∧
      loadable up .text (wordAt textLoad.args 1 2) (natAt textLoad.args 3) (textLoad.args.drop 4) [[0x41], [0x42, 0x43]]) ∧
    (let s : State := { up with mgmt := { up.mgmt with context := some (.text, 255) } }
     s.mgmt.context = some (.text, 255) ∧ loadable s .text 255 (natAt [1, 0] 0) (([1, 0] : List Byte).drop 1) [[]]) ∧
    (∃ t, exec (.load textLoad) up = .next t) ∧ ∃ t, exec (.loadNext textLoad) up = .next t :=
  ⟨by decide +kernel, by decide +kernel, ⟨_, rfl⟩, ⟨_, rfl⟩⟩

/-- Bytes that no records fill, by the split that reads them. -/
theorem unfilled {fam : Family} {m : Nat} {bs : List Byte} (h : splitRecords fam m bs = none) (rs : List (List Byte)) :
    ¬ fills fam m bs rs := fun hf => by simp [splitRecords_iff.2 hf] at h

/-- The refusals of LoadsTaken at their bounds: family code 5, a locked family, no records, a record beyond the last index, bytes
of another length, a string of 97 characters, one character beyond the capacity, and a context that is absent or at the end. -/
theorem witness_LoadRefusals :
    (4 < natAt [5, 0, 0, 1] 0 ∧ (committed .atInauguration).mgmt.locks .seat = true ∧ staged.mgmt.locks .seat = false ∧
      up.mgmt.context = none ∧ Family.ofCode (natAt [0, 0, 127, 2] 0) = some .seat ∧
      Family.seat.capacity < wordAt [0, 0, 127, 2] 1 2 + natAt [0, 0, 127, 2] 3 ∧
      wordAt [0, 0, 127, 1] 1 2 + natAt [0, 0, 127, 1] 3 = Family.seat.capacity ∧
      (let s : State := { up with mgmt := { up.mgmt with context := some (.text, 255) } }
       s.mgmt.context = some (.text, 255) ∧ Family.text.capacity < 255 + natAt [2, 0, 0] 0)) ∧
    ((∀ rs, ¬ fills .seat 1 [1, 0, 1] rs) ∧ (∀ rs, ¬ fills .text 2 [1, 0x41] rs) ∧ ∀ rs, ¬ fills .text 1 [1, 0x41, 0x42] rs) ∧
    fills .text 1 (97 :: List.replicate 97 0x41) [List.replicate 97 0x41] ∧
    (let bank : Table (List Byte) := (List.range 128).map (fun i => (i + 1, List.replicate 96 0x41))
     fills .text 1 [1, 0x42] [[0x42]] ∧ charTotal bank = 12288 ∧ 12288 < charTotal (writeRecords .text bank 200 [[0x42]]) ∧
       charTotal (writeRecords .text bank 0 [[0x42]]) = 12288) :=
  ⟨by decide +kernel,
    ⟨unfilled (by decide +kernel), unfilled (by decide +kernel), unfilled (by decide +kernel)⟩,
    splitRecords_iff.1 (by decide +kernel), splitRecords_iff.1 (by decide +kernel), by decide +kernel⟩

/-- COMMIT of ROUTE and SEAT, or of a given set, with a kind, an ordinal and tag 77. -/
def commitOf (set kind k : Byte) : MgmtFrame := mgmt [set, kind, k, 0, 77]

/-- `staged` with two enabled staged slots of one string and address. -/
def clashing : State :=
  { staged with tables := { staged.tables with
      seat := { staged.tables.seat with staged := [(0, seat 0 1), (1, seat 0 1)] } } }

theorem witness_CommitRefusals :
    (∀ g, (FamilySet.ofByte 0).names g = false) ∧
    staged.mgmt.mode ≠ .restartPending ∧ (commitOf 5 1 4).args.length = 5 ∧ (committed .atInauguration).mgmt.commit ≠ none ∧
      (31 < natAt (commitOf 32 0 0).args 0 ∧ 2 < natAt (commitOf 1 3 0).args 1) ∧
      (FamilySet.ofByte 2).list.find? (fun g => (staged.tables.family g).state == .empty) = some .resv ∧
      (∀ g ∈ Family.all, (FamilySet.ofByte 5).names g = true → (staged.tables.family g).state ≠ .empty) ∧
      (staged.tables.after (FamilySet.ofByte 5) .route).length ≤ natAt (commitOf 5 1 4).args 2 ∧
      (natAt (commitOf 5 1 3).args 2 < (staged.tables.after (FamilySet.ofByte 5) .route).length) ∧
      (∃ d ∈ staged.reck.progress.d.toList, natAt (commitOf 5 1 1).args 2 ≤ d) ∧
      validate clashing.tables (FamilySet.ofByte 1) = some (.family .seat (some 1)) :=
  ⟨fun g => by cases g <;> rfl, by decide +kernel⟩

theorem witness_CommitAccepted :
    staged.mgmt.mode ≠ .restartPending ∧ staged.mgmt.commit = none ∧ (commitOf 5 1 2).args.length = 5 ∧
      natAt (commitOf 31 0 0).args 0 ≤ 31 ∧ (FamilySet.ofByte 5).names .seat = true ∧
      (∀ g ∈ Family.all, (FamilySet.ofByte 5).names g = true → (staged.tables.family g).state ≠ .empty) ∧
      (natAt (commitOf 5 1 2).args 2 < (staged.tables.after (FamilySet.ofByte 5) .route).length ∧
        ∀ d ∈ staged.reck.progress.d.toList, d < natAt (commitOf 5 1 2).args 2) ∧
      validate staged.tables (FamilySet.ofByte 5) = none := by decide +kernel

theorem witness_CommitActivation :
    ((committed (.atDeparture 3)).mgmt.commit.map (·.activation) = some (.atDeparture 3) ∧ 3 ≤ 3 ∧ 2 < 3) ∧
      (committed .atInauguration).mgmt.commit.map (·.activation) = some .atInauguration ∧ up.mgmt.commit = none ∧
      (FamilySet.ofByte 4).route = true ∧ (FamilySet.ofByte 1).route = false := by decide +kernel

/-- `staged` with a staged ROUTE bank. -/
def routed (bank : Table (List Byte)) : State :=
  { staged with tables := { staged.tables with route := { staged.tables.route with staged := bank } } }

/-- ROUTE banks that break a condition first at index 1: by a gap, a repeated code and a segment out of range; one entry; SEAT's
second slot of one address, the first sound; and ROUTE the first named family that is not valid. -/
theorem witness_ValidationConditions :
    (Table.wf staged.tables.route.staged ∧ 2 ≤ staged.tables.route.staged.length) ∧
    (∀ bank ∈ [[(0, stop 1 7 0), (2, stop 1 1 0)], [(0, stop 1 7 0), (1, stop 1 7 42000)],
        [(0, stop 1 7 0), (1, stop 2 7 1000001), (2, stop 3 7 0)]],
      Table.wf bank ∧ 2 ≤ bank.length ∧ (∃ e ∈ bank, 1 ≤ e.1) ∧
        validateFamily (routed bank).tables (FamilySet.ofByte 4) .route = some (.family .route (some 1))) ∧
    (routed [(0, stop 1 7 0)]).tables.route.staged.length < 2 ∧
    (clashing.tables.seat.staged = [(0, seat 0 1)] ++ (1, seat 0 1) :: [] ∧ (seatSlot (seat 0 1)).enabled = true ∧
      (0, seat 0 1) ∈ clashing.tables.seat.staged ∧ (seatSlot (seat 0 1)).address.toNat = 1) ∧
    ([Family.seat, .resv, .route, .text, .page] = [.seat, .resv] ++ .route :: [.text, .page] ∧
      (FamilySet.ofByte 5).names .seat = true ∧ (FamilySet.ofByte 5).names .resv = false ∧
      (FamilySet.ofByte 5).names .route = true ∧
      validateFamily (routed []).tables (FamilySet.ofByte 5) .seat = none ∧
      validateFamily (routed []).tables (FamilySet.ofByte 5) .route = some (.family .route none)) := by decide +kernel

theorem witness_DiscardTaken :
    staged.mgmt.mode ≠ .restartPending ∧ (mgmt [31]).args.length = 1 ∧ natAt (mgmt [31]).args 0 ≤ 31 ∧
      31 < natAt (mgmt [32]).args 0 ∧ (committed .atInauguration).mgmt.cancels (FamilySet.ofByte 1) = true ∧
      (committed .atInauguration).mgmt.cancels (FamilySet.ofByte 2) = false := by decide +kernel

theorem witness_ModeAndParam :
    up.mgmt.mode ≠ .restartPending ∧ (natAt (mgmt [2]).args 0, Mode.service) ∈ [(0, Mode.normal), (1, .quiet), (2, .service)] ∧
      up.mgmt.mode = .normal ∧ 2 < natAt (mgmt [3]).args 0 ∧ (mgmt [6, 0, 1]).args.length = 3 ∧
      natAt (mgmt [6, 0, 1]).args 0 = 6 ∧ 6 < natAt (mgmt [7, 0, 1]).args 0 := by decide +kernel

theorem witness_StatusTaken :
    (mgmt [0]).args.length = 1 ∧ natAt (mgmt [0]).args 0 = 0 ∧ natAt (mgmt [1]).args 0 ≠ 0 := by decide +kernel

theorem witness_StartAck :
    up.mgmt.mode ≠ .restartPending ∧ (mgmt []).args.length = 0 ∧ ∃ t, exec .powerOn up = .next t :=
  ⟨by decide, by decide, _, rfl⟩

theorem witness_AssignAndIdent :
    up.mgmt.mode ≠ .restartPending ∧ (mgmt [3, 99, 2]).args.length = 3 ∧ (mgmt [0, 0, 0, 1]).args.length = 4 := by decide +kernel

theorem witness_CallingAndHaltingSets :
    Table.wf running.tables.route.active ∧ bankLegal .route running.tables.route.active := by decide +kernel

/-- `running` after the activation of a ROUTE table of two entries that the Reckoning Unit has not taken. -/
def swapped : State :=
  { running with tables := { running.tables with
      route := { running.tables.route with active := route.take 2, count := 2 }, replacedRoute := some ⟨route, [2]⟩ } }

theorem witness_StopCancelTaken :
    running.mgmt.mode ≠ .restartPending ∧ (mgmt [3, 1]).args.length = 2 ∧ running.tables.replacedRoute = none ∧
      running.tables.asReckoned.route.active.length ≤ natAt (mgmt [4, 1]).args 0 ∧
      natAt (mgmt [3, 1]).args 0 < running.tables.asReckoned.route.active.length ∧
      running.tables.asReckoned.cancelled.contains 3 = false ∧
      swapped.tables.replacedRoute = some ⟨route, [2]⟩ ∧ swapped.tables.asReckoned.cancelled.contains 2 = true ∧
      swapped.tables.route.active.length ≤ natAt (mgmt [2, 0]).args 0 ∧
      natAt (mgmt [2, 0]).args 0 < swapped.tables.asReckoned.route.active.length := by decide +kernel

theorem witness_PositionTaken :
    accepts running.tables.asReckoned running.reck (frameOf 12000) = true ∧
      accepts running.tables.asReckoned { running.reck with portion := 0 } (frameOf 12000) = false ∧
      (let beyond : PositionFields := { frameOf 12000 with d := 3 }
       accepts swapped.tables.asReckoned swapped.reck beyond = true ∧ ¬ beyond.d.toNat < swapped.tables.route.active.length) ∧
      running.reck.progress.vs = some 600 ∧ running.reck.progress.state = .running ∧ held.reck.progress.state = .hold := by
  decide +kernel

theorem witness_RecordOrdinals :
    (let f : LastFrame := ⟨true, .closed, 0, 1, 0, 0, 0⟩
     f.atPlatform = true ∧ f.a ∈ running.reck.calling ∧ (running.reck.compute running.tables f true).n ≠ none) ∧
    (let f : LastFrame := ⟨true, .closed, 0, 3, 0, 0, 0⟩
     f.a ∈ running.reck.calling ∧ (running.reck.compute running.tables f true).n = none) ∧
    (let f : LastFrame := ⟨true, .closed, 1, 2, 0, 0, 0⟩
     f.a ∉ running.reck.calling ∧ (running.reck.compute running.tables f true).n ≠ none) := by decide +kernel

theorem witness_RemainingEtaApproach :
    running.reck.progress.vs = some 600 ∧
      (running.reck.compute running.tables ⟨true, .closed, 0, 1, 0, 0, 0⟩ true).state = .atStop ∧
      (running.reck.compute running.tables ⟨false, .closed, 3, 0, 0, 0, 0⟩ true).state = .finished ∧
      (running.reck.compute running.tables ⟨false, .closed, 1, 0, 0, 0, 0⟩ true).state = .running ∧
      (running.reck.compute running.tables ⟨false, .closed, 1, 0, 23400, 0, 0⟩ true).state = .approaching := by decide +kernel

theorem witness_PermilleAndArrival :
    (1 : Nat) ≤ 1 ∧ running.reck.clock.valid = true ∧
      (running.reck.compute running.tables ⟨false, .closed, 1, 0, 0, 0, 0⟩ true).eta ≠ none ∧
      (running.reck.compute running.tables ⟨false, .closed, 1, 0, 0, 0, 0⟩ true).p = some 1 ∧
      (running.reck.compute running.tables ⟨true, .closed, 0, 1, 0, 0, 0⟩ true).eta = none ∧
      (running.tables.entry 3).isSome = true := by decide +kernel

theorem witness_Recomputations :
    State.reset.reck.lastFrame = none ∧ running.reck.lastFrame.isSome = true ∧ running.reck.progress.state ≠ .hold ∧
      held.reck.progress.state = .hold ∧
      (let last (r : ReckoningUnit) (d a : Nat) (atPlatform : Bool) : Ordinals :=
         findOrdinals r.calling r.halting ⟨atPlatform, .closed, d, a, 0, 0, 0⟩
       (last held.reck 3 0 false).n = none ∧ (last held.reck 0 0 false).p = some 0 ∧
       ((last held.reck 0 1 true).n = some 3 ∧ (last held.reck 0 1 true).a = some 1) ∧
       ((last held.reck 1 0 false).n = some 3 ∧ (last held.reck 1 0 false).a = none)) ∧
      (held.tables.asReckoned.entry 3).isSome = true ∧ (swapped.tables.asReckoned.entry 3).isSome = true ∧
      (swapped.tables.entry 3).isSome = false := by decide +kernel

theorem witness_HoldAndClock :
    running.reck.progress.state ∈ [ProgressState.atStop, .running, .approaching] ∧ running.reck.lastFrame.isSome = true ∧
      held.reck.progress.state ∉ [ProgressState.atStop, .running, .approaching] ∧
      (wordAt [1, 0x51, 0x7F, 3, 231] 0 3 ≤ 86399 ∧ wordAt [1, 0x51, 0x7F, 3, 231] 3 2 ≤ 999) ∧
      86399 < wordAt [1, 0x51, 0x80, 0, 0] 0 3 ∧ 999 < wordAt [0, 0, 0, 3, 232] 3 2 ∧ running.powered = true ∧
      running.reck.clock.seconds ≤ 86399 := by decide +kernel

/-- `showing` a second before everything: freshness, re-poll, refresh, lifetime, repeat timer and dwell at 1. -/
def brink : State :=
  { showing with
    reck := { showing.reck with freshness := 1 }
    bus := { SeatBusEngine.start with faulted := [(0, 1)], refreshTimer := 1 }
    notice := { noticed with
      queue := [{ entryOf 40 0 false true with repeatTimer := 1 }, { entryOf 41 2 false false with remaining := some 1 },
                entryOf 42 2 false false]
      lines := .showing 42 [0x41] 1 } }

/-- `running` with both panels' MAP level marked as scrolling, in a mode. -/
def scrolling (mode : Mode) : State :=
  let q : PanelState := { PanelState.start with stack := [{ Level.fresh .map with scrolled := true }], serviceScrolled := true }
  { running with mgmt := { running.mgmt with mode := mode }, panels := { running.panels with panel1 := q, panel2 := q } }

theorem witness_SecondsTickTaken :
    (running.line.relay = .opened ∧ State.reset.line.relay = .closed ∧ running.reck.progress.state ∈ [ProgressState.atStop, .running, .approaching] ∧
      2 ≤ running.reck.freshness ∧ brink.reck.freshness ≤ 1 ∧
      held.reck.progress.state ∉ [ProgressState.atStop, .running, .approaching]) ∧
    ((brink.bus.refreshTimer ≤ 1 ∨ ∃ e ∈ brink.bus.faulted, e.2 = 1) ∧
      ¬ (running.bus.refreshTimer ≤ 1 ∨ ∃ e ∈ running.bus.faulted, e.2 = 1)) ∧
    (brink.notice.legal ∧ brink.notice.lines = .showing (entryOf 42 2 false false).id [0x41] 1 ∧
      (∃ e ∈ brink.notice.queue, e.remaining = some 1 ∧ e.effective = 2) ∧
      (∃ e ∈ brink.notice.queue, e.repeatTimer = 1 ∧ e.due = false ∧ e.effective = 0) ∧
      showing.notice.legal ∧ showing.notice.lines = .showing (entryOf 41 2 false false).id [0x41] 8 ∧
      (∀ e ∈ showing.notice.queue, ¬ (e.repeatTimer = 1 ∧ e.due = false ∧ e.effective = 0))) ∧
    (let s : State := { running with mgmt := { running.mgmt with mode := .quiet }, panels := { running.panels with idle := some 1 } }
     s.mgmt.mode = .quiet ∧ s.panels.idle = some (0 + 1)) ∧ running.panels.idle = none ∧
    ((scrolling .service).panels.panel1.serviceScrolled = true ∧ running.panels.panel1.serviceScrolled = false ∧
      ((scrolling .normal).panels.panel2.stack.head?.map (·.scrolled)) = some true ∧
      (running.panels.panel2.stack.head?.map (·.scrolled)) = some false) := by
  and_intros <;> decide +kernel

theorem witness_SeatResolution :
    (Table.wf running.tables.seat.active ∧ (enabledSlot running.tables.seat.active 5).isSome = true ∧
      enabledSlot running.tables.seat.active 4 = none ∧ (127 : Nat) < 128) ∧
    (let t := running.tables
     let c := running.reck.calling
     ((∃ b ∈ (t.lookup 2).toList, b ∈ c ∧ ∃ a ∈ (t.lookup 4).toList, a ∈ c ∧ b < a) ∧ t.lookup 9 = none ∧
       (∀ b ∈ (t.lookup 3).toList, b ∉ c)) ∧
     (placeAll t c [] [(0, resv 9)]).map (·.2.outcome) = [.placed 1 3] ∧
     (∃ e ∈ placeAll t c [] [(0, resv 9)], e.2.slot = 5 ∧ e.2.outcome = .placed 1 3)) ∧
    (∃ fs, Instr.activationAnnouncementResv seatOnly = .activationAnnouncementResv fs ∧
      true = (fs.seat || fs.resv || fs.route) ∧ true = (fs.seat || fs.text)) :=
  ⟨by decide +kernel, by decide +kernel, seatOnly, rfl, rfl, rfl⟩

/-- `running` between two stops, with an approach in force. -/
def located (p n : Nat) (approach : Option Approach) : State :=
  { running with reck := { running.reck with progress := { running.reck.progress with
      state := .approaching, p := some p, n := some n, approach := approach } } }

theorem witness_SeatLamps :
    (resolveSlot running running.resv.placements 5 (seatSlot (seat 1 32))).map (·.lamp) = some .red ∧
      (resolveSlot running running.resv.placements 0 (seatSlot (seat 0 1))).map (·.lamp) = some .green ∧
      chainOf running.resv.placements 5 = [⟨1, 3, 3⟩] ∧
      (resolveSlot (located 0 1 none) running.resv.placements 5 (seatSlot (seat 1 32))).map (·.lamp) = some .amber ∧
      (let near (horizon : Nat) : State := { located 0 0 none with mgmt := { running.mgmt with params :=
           { running.mgmt.params with horizon := horizon } } }
       let far : Table Placement := [(0, ⟨9, 5, 3, .placed 3 4⟩)]
       ((resolveSlot (near 1) far 5 (seatSlot (seat 1 32))).map (·.lamp) = some .green) ∧
         (resolveSlot (near 2) far 5 (seatSlot (seat 1 32))).map (·.lamp) = some .amber) ∧
      (let s := located 1 3 (some ⟨3, .calling⟩)
       s.reck.progress.inForce.map (·.kind) = some .calling ∧ s.reck.progress.n = some 3 ∧
         (resolveSlot s running.resv.placements 5 (seatSlot (seat 1 32))).map (·.lamp) = some .amber ∧
         (resolveSlot s (running.resv.placements ++ [(1, ⟨8, 5, 0, .placed 3 4⟩)]) 5 (seatSlot (seat 1 32))).map (·.lamp)
           = some .red) := by decide +kernel

/-- A RESV record: id, slot, board code and alight code, no note. -/
def recordOf (id slot board alight : Byte) : List Byte := [0, 0, 0, id, slot, 0, board, 0, alight, 0]

/-- The seven refusals of LiveEdits, in their order: which of them hold. -/
def refusals (s : State) (args : List Byte) : List Bool :=
  let x := resvRecord args
  let ordinals : Option (Nat × Nat) := match s.tables.lookup x.board, s.tables.lookup x.alight with
    | some b, some a => if b ∈ s.reck.calling ∧ a ∈ s.reck.calling then some (b, a) else none
    | _, _ => none
  [decide (x.id = 0), decide (∃ e ∈ s.tables.resv.active, (resvRecord e.2).id = x.id),
   decide (512 ≤ s.tables.resv.active.length), decide (127 < x.slot ∨ enabledSlot s.tables.seat.active x.slot = none),
   decide (x.board = x.alight), decide (¬ ∃ o ∈ ordinals.toList, o.1 ≤ o.2),
   decide (∃ o ∈ ordinals.toList, ∃ e ∈ (s.resv.forEdit s).unit.placements, e.2.slot = x.slot ∧
     ∃ c ∈ chainOf [e] x.slot, o.1 < c.a ∧ c.b < o.2)]

/-- `running` with 512 active RESV records, none of them of an id below 256. -/
def filled : State :=
  { running with tables := { running.tables with resv := { running.tables.resv with
      active := (List.range 512).map (fun i => (i, [0, 1, BitVec.ofNat 8 (i / 256), BitVec.ofNat 8 i, 5, 0, 2, 0, 4, 0])) } } }

/-- `running` with its one record unplaced. -/
def unplaced : State :=
  { running with resv := { running.resv with placements := [(0, ⟨9, 5, 3, .unplaced .order⟩)] } }

theorem witness_LiveEdits :
    (running.mgmt.mode ≠ .restartPending ∧ (recordOf 8 0 2 4).length = 10 ∧
      (running.resv.basisCount = running.tables.route.count ∧ running.resv.basisCalling = running.reck.calling ∧
        running.resv.basisSeat = running.tables.seat.count ∧ running.resv.basisResv = running.tables.resv.count) ∧
      (∀ s ∈ [committed .atInauguration, swapped, { running with resv := { running.resv with basisSeat := 0 } },
          { running with resv := { running.resv with basisResv := 0 } }, located 1 3 none], Table.wf s.tables.seat.active) ∧
      swapped.resv.basisCount ≠ swapped.tables.route.count ∧ (0 : Nat) ≠ running.tables.seat.count ∧
      (0 : Nat) ≠ running.tables.resv.count) ∧
    (refusals running (recordOf 0 128 2 2) = [true, false, false, true, true, false, false] ∧
      refusals running (recordOf 9 5 2 4) = [false, true, false, false, false, false, true] ∧
      refusals filled (recordOf 8 0 2 4) = [false, false, true, false, false, false, false] ∧
      refusals running (recordOf 8 128 2 4) = [false, false, false, true, false, false, false] ∧
      refusals running (recordOf 8 4 2 4) = [false, false, false, true, false, false, false] ∧
      refusals running (recordOf 8 0 2 2) = [false, false, false, false, true, false, false] ∧
      refusals running (recordOf 8 0 4 2) = [false, false, false, false, false, true, false] ∧
      refusals running (recordOf 8 0 2 3) = [false, false, false, false, false, true, false] ∧
      refusals running (recordOf 8 5 1 4) = [false, false, false, false, false, false, true]) ∧
    (refusals running (recordOf 8 0 2 4) = List.replicate 7 false ∧
      refusals running (recordOf 8 5 1 2) = List.replicate 7 false ∧ Table.wf running.tables.resv.active ∧
      running.tables.lookup 2 = some 1 ∧ running.tables.lookup 4 = some 3 ∧ 1 ∈ running.reck.calling ∧ 3 ∈ running.reck.calling) ∧
    ((∀ e ∈ running.tables.resv.active, (resvRecord e.2).id ≠ wordAt [0, 0, 0, 8] 0 4) ∧
      running.tables.resv.active = [] ++ (0, resv 9) :: [] ∧ (resvRecord (resv 9)).id = wordAt [0, 0, 0, 9] 0 4 ∧
      (Table.find (running.resv.forEdit running).unit.placements 0).map Placement.outcome = some (.placed 1 3) ∧
      (Table.find (unplaced.resv.forEdit unplaced).unit.placements 0).map Placement.outcome = some (.unplaced .order) ∧
      Table.wf (unplaced.resv.forEdit unplaced).unit.placements) := by decide +kernel

theorem witness_SeatRequests :
    (∃ x, ({ awaiting .dirty 1 false with bus := { SeatBusEngine.start with
        transaction := some ⟨5, 32, .dirty, [], 1, false, false⟩ } } : State).bus.transaction = some x ∧ x.awaiting = false) ∧
      (∀ x ∈ (awaiting .dirty 1 false).bus.transaction.toList, x.awaiting = true) :=
  ⟨⟨_, rfl, rfl⟩, by decide⟩

theorem witness_SeatTransactions :
    (∃ x, (awaiting .dirty 1 false).bus.transaction = some x ∧ x.awaiting = true ∧ x.discard = false ∧
      ((32 : Byte).toNat + (1 : Byte).toNat + (223 : Byte).toNat) % 256 = 0 ∧ (32 : Byte) = x.address ∧ (1 : Byte).toNat ≤ 1 ∧
      x.kind ≠ .repoll ∧ x.attempt < 3) ∧
    (∃ x, (awaiting .dirty 3 true).bus.transaction = some x ∧ x.awaiting = true ∧ 3 ≤ x.attempt ∧ x.discard = true) ∧
    (∃ x, (awaiting .repoll 1 false).bus.transaction = some x ∧ x.awaiting = true ∧ x.kind = .repoll ∧ x.discard = false) ∧
    running.bus.transaction = none :=
  ⟨⟨_, rfl, by decide⟩, ⟨_, rfl, by decide⟩, ⟨_, rfl, by decide⟩, rfl⟩

theorem witness_SeatChoices :
    (let s := running
     let u : SeatBusEngine := { s.bus with dirty := [4, 5], faulted := [(0, 0)], refreshActive := true }
     Table.find u.faulted 0 = some 0 ∧ s.line.relay = .opened ∧ u.transaction = none ∧ Table.wf s.tables.seat.active ∧
       s.mgmt.mode ≠ .restartPending ∧ u.dirty = [4] ++ 5 :: [] ∧ enabledSlot s.tables.seat.active 4 = none ∧
       enabledSlot s.tables.seat.active 5 ≠ none ∧ Table.find u.faulted 5 = none ∧ enabledSlot s.tables.seat.active 0 ≠ none) ∧
    (awaiting .dirty 1 false).bus.transaction ≠ none ∧ State.reset.line.relay = .closed ∧
    holding.mgmt.mode = .restartPending ∧ holding.line.relay = .opened ∧ holding.bus.blanking = .none := by decide +kernel

/-- A list of two filter entries, and an insertion after the first. -/
def filtering : State :=
  { up with notice := { NoticeUnit.start with
      acceptance := [⟨1, 0, 0, 0, 0, 7, true, none⟩, ⟨2, 0, 0, 0, 0, 7, false, some 0⟩] } }

theorem witness_AcceptanceList :
    holding.mgmt.mode = .restartPending ∧ filtering.mgmt.mode ≠ .restartPending ∧
      (mgmt [1, 3, 0, 0, 0, 0, 7, 1, 4]).args.length = 9 ∧ natAt (mgmt [1, 3, 0, 0, 0, 0, 7, 1, 4]).args 7 ≤ 1 ∧
      1 < natAt (mgmt [1, 3, 0, 0, 0, 0, 7, 2, 4]).args 7 ∧ filtering.notice.acceptance.length < 24 ∧
      24 ≤ (List.replicate 24 (⟨1, 0, 0, 0, 0, 7, true, none⟩ : FilterEntry)).length ∧
      (∃ y ∈ filtering.notice.acceptance, y.id = 2) ∧ (∀ y ∈ filtering.notice.acceptance, y.id ≠ 3) ∧
      (filtering.notice.acceptance = [] ++ ⟨1, 0, 0, 0, 0, 7, true, none⟩ :: [⟨2, 0, 0, 0, 0, 7, false, some 0⟩] ∧
        ∀ x ∈ ([] ++ [⟨2, 0, 0, 0, 0, 7, false, some 0⟩] : List FilterEntry), x.id ≠ 1) := by decide +kernel

theorem witness_AcceptanceAndShows :
    (∃ id text dwell, noticed.lines = .showing id text dwell) ∧ noticed.legal ∧
      (NoticeUnit.start.legal ∧ ∀ e ∈ NoticeUnit.start.queue, e.due = false) ∧
      (let u : NoticeUnit := { NoticeUnit.start with queue := [entryOf 40 0 false true, entryOf 41 2 true false] }
       u.legal ∧ u.queue = [entryOf 40 0 false true] ++ entryOf 41 2 true false :: [] ∧ (entryOf 41 2 true false).due = true) ∧
      holding.mgmt.mode ∈ [Mode.service, .restartPending] ∧ up.mgmt.mode ∈ [Mode.normal, .quiet] ∧
      (decideNotice filtering.notice.acceptance ⟨9, 0, 0, 2, 7, false, 0, 0, 0, .pool 0⟩ 2 = some 2 ∧
        decideNotice [] ⟨9, 0, 0, 2, 7, false, 0, 0, 0, .pool 0⟩ 2 = none) :=
  ⟨⟨41, [0x41], 8, rfl⟩, by and_intros <;> decide +kernel⟩

/-- A queue of 16 entries, of ids 100 to 115 and priority 3, in a unit that shows the first. -/
def full : NoticeUnit :=
  { NoticeUnit.start with
    queue := (List.range 16).map (fun i => entryOf (100 + i) 3 false false), lines := .showing 100 [] 8, portion := 2 }

/-- `showing` with the acceptance list of `filtering`. -/
def sifting : State := { showing with notice := { noticed with acceptance := filtering.notice.acceptance } }

theorem witness_NoticeTaken :
    -- one state and one notice that meet all the premises together: held, admitted by the list, the law
    (let f : NoticeFields := ⟨9, 0, 0, 2, 7, false, 0, 0, 0, .pool 0⟩
     sifting.notice.legal ∧ (1 ≤ f.id.toNat ∧ f.id.toNat ≤ 65279) ∧
       (sifting.notice.portion ≠ 0 ∧ f.mask.getLsbD (sifting.notice.portion - 1) = true) ∧
       decideNotice sifting.notice.acceptance f sifting.notice.portion = some 2 ∧
       (∀ e ∈ sifting.notice.queue, e.id ≠ f.id.toNat) ∧ sifting.notice.queue.length < 16) ∧
    (noticed.portion ≠ 0 ∧ (7 : BitVec 3).getLsbD (noticed.portion - 1) = true ∧ NoticeUnit.start.portion = 0) ∧
      (65279 < (65280 : BitVec 16).toNat ∧ (65279 : BitVec 16).toNat ≤ 65279 ∧ 1 ≤ (1 : BitVec 16).toNat) ∧
      (decideNotice filtering.notice.acceptance ⟨9, 0, 0, 2, 7, false, 0, 0, 0, .pool 0⟩ noticed.portion = some 2 ∧
        decideNotice noticed.acceptance ⟨9, 0, 0, 2, 7, false, 0, 0, 0, .pool 0⟩ noticed.portion = none) ∧
      (noticed.legal ∧ (∀ e ∈ noticed.queue, e.id ≠ 9) ∧ noticed.queue.length < 16 ∧
        noticed.queue = [entryOf 40 0 false true, entryOf 41 2 false false] ++ [] ∧
        (∀ x ∈ [entryOf 40 0 false true, entryOf 41 2 false false], x.effective ≤ 2)) ∧
      (full.legal ∧ full.queue.length = 16 ∧ full.queue = full.queue.dropLast ++ [entryOf 115 3 false false] ∧
        (entryOf 115 3 false false).effective ≤ 3 ∧ 2 < (entryOf 115 3 false false).effective ∧
        full.queue.dropLast = [] ++ full.queue.dropLast ∧ ∀ x ∈ full.queue.dropLast, 2 < x.effective) ∧
      -- updates of entry 41, shown, and of entry 40, not shown: of equal priority, and of another
      (noticed.queue = [entryOf 40 0 false true] ++ entryOf 41 2 false false :: [] ∧
        noticed.lines = .showing (entryOf 41 2 false false).id [0x41] 8 ∧
        noticed.queue = [] ++ entryOf 40 0 false true :: [entryOf 41 2 false false] ∧
        (([] : List NoticeEntry) ++ [entryOf 41 2 false false] = [entryOf 41 2 false false] ++ [] ∧
          (∀ x ∈ [entryOf 41 2 false false], x.effective ≤ 3) ∧ 3 ≠ (entryOf 40 0 false true).effective)) ∧
      -- a priority-0 entry that becomes due pre-empts the show of entry 41
      ((noticed.preemptedBy 0).unit.lines = .default ∧ (noticed.preemptedBy 1).unit.lines = noticed.lines) := by
  and_intros <;> decide +kernel

theorem witness_NoticeEnds :
    showing.notice.legal ∧ entryOf 40 0 false true ∈ showing.notice.queue ∧ (entryOf 40 0 false true).remaining ≠ none ∧
      showing.notice.lines = .showing (entryOf 41 2 false false).id [0x41] 8 ∧ (entryOf 41 2 false false).id ≠ 40 ∧
      wordAt [0, 41] 0 2 = 41 ∧ 65280 ≤ wordAt [0xFF, 0] 0 2 ∧ wordAt [0xFE, 0xFF] 0 2 < 65280 ∧
      (∀ e ∈ showing.notice.queue, e.id = 42 → e.remaining = none) ∧
      (∀ e ∈ showing.notice.queue, e.id = 42 → e.repeatTimer = 0) ∧
      (showing.notice.queue = [entryOf 40 0 false true] ++ entryOf 41 2 false false :: [] ∧
        1 ≤ (entryOf 41 2 false false).repeatTimer ∧ (entryOf 41 2 false false).effective ≠ 0) ∧
      -- entry 40 is of priority 0: not due, its expiry pre-empts; due already, it does nothing
      (showing.notice.queue = [] ++ entryOf 40 0 false true :: [entryOf 41 2 false false] ∧
        (entryOf 40 0 false true).due = false ∧ (entryOf 40 0 true true).due = true ∧ 1 ≤ (entryOf 40 0 true true).repeatTimer) ∧
      -- the lines in DEFAULT
      (let u : NoticeUnit := { noticed with lines := .default }
       u.legal ∧ u.lines = .default ∧ entryOf 40 0 false true ∈ u.queue) := by
  and_intros <;> decide +kernel

/-- `showing` a local notice of the approach in force, whose text is not that of the record as it stands. -/
def shownLocal : State :=
  let local_ : NoticeEntry := { entryOf 65281 1 false false with text := .inlined [0x41], overlayWanted := false }
  { located 1 3 (some ⟨3, .calling⟩) with
    tables := { running.tables with text := { running.tables.text with active := [(4, [0x42])] } }
    notice := { noticed with queue := [entryOf 40 0 false true, local_], lines := .showing 65281 [0x41] 8
                             basis := some ⟨3, .calling⟩ } }

theorem witness_NoticeAnnouncements :
    showing.notice.legal ∧ showing.notice.queue = [entryOf 40 0 false true] ++ entryOf 41 2 false false :: [] ∧
      showing.notice.lines = .showing (entryOf 41 2 false false).id [0x41] 8 ∧ showing.reck.progress.inForce = none ∧
      (let s := located 1 3 (some ⟨2, .closedDoor⟩)
       s.reck.progress.inForce = some ⟨2, .closedDoor⟩ ∧ s.notice.basis ≠ s.reck.progress.inForce ∧
         s.notice.queue.length < 16) ∧
      showing.notice.queue.length < 16 ∧ (1 ≤ 1 ∧ 3 ≤ 3) ∧
      (shownLocal.notice.legal ∧ shownLocal.reck.progress.inForce = shownLocal.notice.basis ∧
        (∃ e ∈ shownLocal.notice.queue, e.id = 65281 ∧ shownLocal.notice.lines = .showing e.id [0x41] 8 ∧
          .inlined (localText shownLocal.tables shownLocal.reck.progress .calling) ≠ e.text)) ∧
      (let u : NoticeUnit := { noticed with lines := .default }
       u.legal ∧ u.lines = .default) ∧
      -- a portion that no entry of the queue lacks, one that entry 40 alone lacks, its overlay with it, and portion 0
      ((showing.notice.queue.filter (fun e => (1 : Nat) == 0 || !e.mask.getLsbD (1 - 1))).map (·.id) = [] ∧
        (let q := [{ entryOf 40 0 false true with mask := 2 }, entryOf 41 2 false false]
         (q.filter (fun e => (1 : Nat) == 0 || !e.mask.getLsbD (1 - 1))).map (·.id) = [40]) ∧
        (showing.notice.queue.filter (fun e => (0 : Nat) == 0 || !e.mask.getLsbD (0 - 1))).map (·.id) = [40, 41]) ∧
      -- the approach of the record of another kind than that of the basis
      (let s : State := { shownLocal with reck := (located 1 3 (some ⟨2, .closedDoor⟩)).reck }
       s.notice.legal ∧ s.notice.basis = some ⟨3, .calling⟩ ∧ s.reck.progress.inForce = some ⟨2, .closedDoor⟩ ∧
         Approach.kind ⟨3, .calling⟩ ≠ Approach.kind ⟨2, .closedDoor⟩) ∧
      (1439 < 1440 ∧ 999 < 1000) ∧
      seatOnly.route = false ∧ (FamilySet.ofByte 8).text = true ∧ (FamilySet.ofByte 8).route = false ∧
      (FamilySet.ofByte 4).route = true := by
  and_intros <;> decide +kernel

/-- A panel with MAP, a dead APPROACH level and a dead URGENT level of id 40. -/
def layered : PanelState :=
  { PanelState.start with stack := [{ Level.fresh (.urgent 40) with dead := true },
                                    { Level.fresh .approach with dead := true }, Level.fresh .map] }

theorem witness_PageStacks :
    (∃ e ∈ showing.notice.queue, e.id = 40 ∧ e.overlayWanted = true) ∧
      (PanelState.start.stack = Level.fresh .map :: [] ∧ (Level.fresh .map).dead = false) ∧
      (layered.stack.head?.map (·.dead) = some true ∧ (layered.stack.dropWhile (·.dead)).length < 4) ∧
      layered.stack.length < 4 ∧ 4 ≤ (Level.fresh (.urgent 41) :: layered.stack).length ∧ showing.line.relay = .opened ∧
      ((∀ l ∈ showing.panels.panel1.stack, l.kind = .urgent 40 → l.dead = true) ∧ showing.panels.panel1.stack.length < 4) ∧
      (⟨2, .closedDoor⟩ : Approach) ≠ ⟨3, .calling⟩ ∧
      -- in QUIET, an approach that ends and an overlay that ends, each with a pop run that pushes the URGENT level of entry 40
      (let s : State := { showing with mgmt := { showing.mgmt with mode := .quiet } }
       let q : PanelState := { PanelState.start with stack := [Level.fresh .approach, Level.fresh .map] }
       let o : PanelState := { PanelState.start with stack := [{ Level.fresh (.urgent 39) with dead := true }, Level.fresh .map] }
       s.mgmt.mode = .quiet ∧ s.reck.progress.inForce = none ∧
         (q.follow s (some ⟨3, .calling⟩) none .panel1).2 = true ∧ (o.popRun s .panel1).2 = true ∧
         (PanelState.start.popRun s .panel2).2 = false) := by decide +kernel

/-- `up` with an active PAGE bank: template 3 is the MAP page of panel 1, with one STRIP element. -/
def templated : State :=
  { up with tables := { up.tables with page := { FamilyBanks.start with
      active := [(75, [0, 1, 5] ++ List.replicate 13 0), (77, [2, 0, 0, 96, 48, 0, 0, 96, 48] ++ List.replicate 7 0)] } } }

theorem witness_ComposeRequests :
    up.line.relay = .opened ∧ (FamilySet.ofByte 4).route = true ∧ (FamilySet.ofByte 16).route = false ∧
      (up.mgmt.mode ∈ [Mode.normal, .quiet] ∧ holding.mgmt.mode ∈ [Mode.service, .restartPending] ∧
        PanelState.start.stack = Level.fresh .map :: [] ∧ (Level.fresh (.urgent 40)).kind = .urgent 40) ∧
      (let serves (k : Nat) (p : Byte) : Bool := (Table.find templated.tables.page.active (25 * k)).any
         (fun r => natAt r 0 = 0 ∧ (natAt r 1 = 3 ∨ byteAt r 1 = p))
       (3 < 12 ∧ serves 3 1 = true ∧ ∀ j ∈ List.range 3, serves j 1 = false) ∧ ∀ k ∈ List.range 12, serves k 2 = false) ∧
      (pageElements templated.tables .panel1 .map).map (·.kind) = [.strip] := by decide +kernel

theorem witness_ComposesAndBrightness :
    PanelState.start.compose = none ∧ ({ PanelState.start with compose := some ⟨1, []⟩ } : PanelState).compose.isSome = true ∧
      up.line.relay = .opened ∧ up.mgmt.mode ≠ .quiet ∧ (1 : Nat) ≤ 192 ∧
      (let s : State := { up with mgmt := { up.mgmt with mode := .quiet }, panels := { up.panels with idle := some 1 } }
       s.mgmt.mode = .quiet ∧ s.panels.idle = some (0 + 1)) ∧
      -- what a compose reads: page and offset, an element of each kind, sources 7 and 9, the premises of the strip and of the clock
      ((layered.stack = { Level.fresh (.urgent 40) with dead := true } :: layered.stack.tail) ∧
        (let e (kind : ElementKind) (source : Nat) : Element :=
           ⟨kind, ⟨0, 0, 96, 48⟩, ⟨0, 0, 96, 48⟩, .none, 4, 9, none, false, .left, true, source, 0, 32⟩
         [ElementKind.fill, .text, .clock, .strip].map (fun k => (e k 9).kind) = [.fill, .text, .clock, .strip] ∧
           (8 < (e .text 9).source ∧ (e .text 7).scroll = true) ∧ 96 < 17 * 6 ∧
           showing.notice.queue = [entryOf 40 0 false true] ++ entryOf 41 2 false false :: [] ∧
           showing.reck.calling ≠ [] ∧ State.reset.reck.calling = [] ∧
           (3 ∈ showing.reck.calling ∧ ∀ y ∈ showing.reck.calling, y ≤ 3) ∧
           (0 : Int) < { showing.reck.progress with delay := 3 }.delay ∧ State.reset.reck.progress.delay ≤ 0 ∧
           shownLocal.reck.progress.inForce = some ⟨3, .calling⟩ ∧ showing.reck.progress.inForce = none ∧
           shownLocal.reck.progress.p = some 1 ∧ State.reset.reck.progress.p = none)) ∧
      up.panels.panel1.compose = none ∧ State.reset.panels.idle = none ∧ up.mgmt.mode ≠ .quiet ∧
      -- the pixels of a strip of three stops, pitch 32, in a rectangle at column 8: at its marker, a stop mark, the track, none
      (let item : DrawItem := ⟨⟨.strip, ⟨8, 0, 176, 48⟩, ⟨8, 0, 176, 48⟩, .none, 4, 9, none, false, .left, false, 0, 0, 32⟩,
         .strip [[], [], []] 293 false⟩
       item.colourAt 33 11 = some 9 ∧ item.colourAt 24 8 = some 4 ∧ item.colourAt 60 5 = some 4 ∧ item.colourAt 91 5 = none ∧
         item.draw 33 11 0 = 9) ∧
      -- a pixel outside every cell of a text
      ¬ cellsSet false [0x41] 8 0 8 183 14 0 := by
  refine ⟨by decide, by decide +kernel, rfl, by decide +kernel, by decide, by decide, by decide +kernel, rfl, rfl,
    by decide +kernel, ?_, ?_⟩
  · and_intros <;> decide +kernel
  · rintro ⟨j, c, hj, -, -, -, -, h, -⟩
    have hj0 : j = 0 := by
      by_contra hn
      rw [List.getElem?_eq_none (by simp; omega)] at hj
      cases hj
    simp [hj0, cellWidth] at h

theorem witness_FaultCommands :
    up.faults.record = none ∧ up.faults.legal ∧ (mgmt []).args.length = 0 ∧ up.mgmt.mode ≠ .restartPending ∧
      holding.mgmt.mode = .restartPending ∧
      ({ up.faults with record := some ⟨.positionStale, none, 0⟩, count := 1 } : FaultStore).record ≠ none := by decide +kernel

theorem witness_RestartAndStore :
    up.mgmt.mode ≠ .restartPending ∧ (mgmt [30]).args.length = 1 ∧ (mgmt []).args.length = 0 ∧ up.mgmt.store = none ∧
      ({ up.mgmt with store := some ⟨retainedSet, .end1, 7⟩ } : ManagementUnit).store = some ⟨retainedSet, .end1, 7⟩ := by
  decide +kernel

theorem witness_Starts :
    (holding.mgmt.hold = some 1 ∧ holding.mgmt.store = none) ∧ holding.faults.legal ∧ holding.announced = [] ∧
      -- two fault reports on their way at the end of a hold, with and without a fault recorded
      (let s : State := { holding with announced := [.activity, .faultReport .positionStale, .faultReport (.seatLamp 5)] }
       s.faults.legal ∧ s.faults.record = none ∧ s.announced.filterMap (fun c => match c with
         | .faultReport r => some r
         | _ => none) = [.positionStale, .seatLamp 5] ∧ s.mgmt.hold = some 1 ∧ s.mgmt.store = none) ∧
      (let s : State := { holding with
         announced := [.faultReport .positionStale], faults := { record := some ⟨.linkLost .end1, none, 9⟩, count := 255, uptime := 9 } }
       s.faults.legal ∧ s.faults.record = some ⟨.linkLost .end1, none, 9⟩ ∧ s.mgmt.hold = some 1) ∧
      (up.mgmt.hold = none ∧ ({ holding with mgmt := { holding.mgmt with store := some ⟨retainedSet, .end1, 7⟩ } } : State).mgmt.store ≠ none) ∧
      (({ up with powered := false } : State).powered = false ∧ up.line.relay = .opened) ∧
      holding.retained = none ∧ ({ holding with retained := some retainedSet } : State).retained ≠ none ∧
      State.reset.powered = true ∧ State.reset.line.relay = .closed ∧ State.reset.retainedRead = false ∧
      ({ State.reset with retainedRead := true } : State).retainedRead = true ∧
      (State.reset.notice.queue = [] ∧ State.reset.notice.lines = .blank ∧ State.reset.mgmt.mode = .normal) :=
  by and_intros <;> decide +kernel

end Sys2Proof.Tests
end

section
/-! PROOF. The passenger information line (chapter 1): which targets concern the coach (R6), the reading of a received
sequence of bytes (R5), and what the arrival of a frame does (R5, R7, R8). -/

namespace Sys2Proof.Machine

/-! ### Targets (R6) -/

/-- Bit 0 of a portion mask is portion 1, and portion 0 has no bit (R69). -/
theorem holdsPortion_eq_true_iff (mask : BitVec 3) (portion : Nat) :
    holdsPortion mask portion = true ↔ portion ≠ 0 ∧ mask.getLsbD (portion - 1) = true := by
  rw [holdsPortion, Bool.and_eq_true, bne_iff_ne]

/-- An unnumbered coach has no position that a target could name. -/
theorem FormationUnit.concerns_coach_iff (u : FormationUnit) (p : Byte) :
    u.concerns (.coach p) = true ↔ u.isNumbered = true ∧ p.toNat = u.position := by
  cases h : u.numbering with
  | unnumbered => simp [concerns, isNumbered, headPort, h]
  | numbered position head => simp [concerns, isNumbered, headPort, FormationUnit.position, h]

/-- Identity 0 is no identity: no target names it. -/
theorem FormationUnit.concerns_ident_iff (u : FormationUnit) (i : BitVec 32) :
    u.concerns (.ident i) = true ↔ i = u.identity ∧ u.identity ≠ 0 := by
  rw [concerns, Bool.and_eq_true, beq_iff_eq, bne_iff_ne]

theorem FormationUnit.concerns_portion_iff (u : FormationUnit) (m : BitVec 3) :
    u.concerns (.portion m) = true ↔ u.portion ≠ 0 ∧ m.getLsbD (u.portion - 1) = true :=
  holdsPortion_eq_true_iff m u.portion

/-- A lawful position is one of 1 to 32, so a COACH target outside them names no coach. -/
theorem FormationUnit.concerns_coach_of_out_of_range {u : FormationUnit} (hu : u.legal) {p : Byte}
    (hp : p.toNat < 1 ∨ 32 < p.toNat) : u.concerns (.coach p) = false := by
  obtain ⟨hrange, -⟩ := hu
  rw [Bool.eq_false_iff]
  intro hc
  obtain ⟨hnum, hpos⟩ := (u.concerns_coach_iff p).1 hc
  have := hrange hnum
  omega

/-- Settles O17: one clause for each row of R6's table, the consumed targets being those that name one coach. -/
theorem targetTable : Obligations.TargetTable := by
  intro u
  exact ⟨fun p => ⟨u.concerns_coach_iff p, rfl⟩,
    fun hu _ hp => FormationUnit.concerns_coach_of_out_of_range hu hp,
    fun i => ⟨u.concerns_ident_iff i, rfl⟩, ⟨rfl, rfl⟩, ⟨rfl, rfl⟩,
    fun m => ⟨u.concerns_portion_iff m, rfl⟩⟩

/-! ### Reading the bytes of a frame (R5, R19) -/

/-- The target kind codes of a header are 0 to 4. -/
theorem Target.ofHeader_eq_none_iff (bs : List Byte) :
    Target.ofHeader bs = none ↔ 4 < ((byteAt bs 0).extractLsb' 0 4).toNat := by
  unfold Target.ofHeader
  generalize ((byteAt bs 0).extractLsb' 0 4).toNat = code
  rcases code with _ | _ | _ | _ | _ | code <;> simp

/-- The length tests of R5, as `parseFrame` makes them. -/
abbrev lengthsDisagree (bs : List Byte) : Prop :=
  bs.length < 11 ∨ 251 < bs.length ∨ 240 < natAt bs 8 ∨ natAt bs 8 + 11 ≠ bs.length

/-- The frame that the header of R19 and the payload after it make, its target read already. -/
abbrev frameWithTarget (bs : List Byte) (target : Target) : Frame :=
  { kind := (byteAt bs 0).extractLsb' 4 4, target := target, hops := (byteAt bs 5).extractLsb' 0 6,
    origin := byteAt bs 6, seq := byteAt bs 7, payload := .bytes ((bs.drop 9).take (natAt bs 8)) }

theorem malformed_of_lengthsDisagree {bs : List Byte} (h : lengthsDisagree bs) : malformed bs := by
  by_cases hlen : bs.length < 11 ∨ 251 < bs.length
  · exact .inl hlen
  · by_cases hmax : 240 < natAt bs 8
    · exact .inr (.inl hmax)
    · exact .inr (.inr (.inl (by omega)))

/-- Where the lengths agree, the two tests left are those of the target kind code and of the check. -/
theorem malformed_iff_of_lengths {bs : List Byte} (h : ¬ lengthsDisagree bs) :
    malformed bs ↔ Target.ofHeader bs = none ∨ bs.drop (bs.length - 2) ≠ crcBytes (bs.take (bs.length - 2)) := by
  have hlen : ¬ (bs.length < 11 ∨ 251 < bs.length) := by omega
  have hmax : ¬ 240 < natAt bs 8 := by omega
  have hfield : ¬ (natAt bs 8 : Int) ≠ (bs.length : Int) - 11 := by omega
  rw [Target.ofHeader_eq_none_iff, malformed, or_iff_right hlen, or_iff_right hmax, or_iff_right hfield]

theorem parseFrame_of_lengthsDisagree {bs : List Byte} (h : lengthsDisagree bs) : parseFrame bs = none :=
  if_pos h

/-- Where the lengths agree, the check is the last two bytes, and it covers all the bytes before them. -/
theorem parseFrame_of_lengths {bs : List Byte} (h : ¬ lengthsDisagree bs) :
    parseFrame bs = if bs.drop (bs.length - 2) ≠ crcBytes (bs.take (bs.length - 2)) then none
      else (Target.ofHeader bs).map (frameWithTarget bs) := by
  have hcut : 9 + natAt bs 8 = bs.length - 2 := by omega
  rw [parseFrame, if_neg h, hcut]
  cases Target.ofHeader bs <;> rfl

/-- A malformed sequence of bytes is no frame (R5). -/
theorem parseFrame_of_malformed {bs : List Byte} (h : malformed bs) : parseFrame bs = none := by
  by_cases hlen : lengthsDisagree bs
  · exact parseFrame_of_lengthsDisagree hlen
  · rw [parseFrame_of_lengths hlen]
    rcases (malformed_iff_of_lengths hlen).1 h with htarget | hcheck
    · rw [htarget, Option.map_none, ite_self]
    · rw [if_pos hcheck]

/-- Every sequence of bytes that passes the tests of R5 is a frame. -/
theorem parseFrame_of_not_malformed {bs : List Byte} (h : ¬ malformed bs) :
    ∃ target, Target.ofHeader bs = some target ∧ parseFrame bs = some (frameWithTarget bs target) := by
  have hlen : ¬ lengthsDisagree bs := fun hl => h (malformed_of_lengthsDisagree hl)
  obtain ⟨hkind, hcheck⟩ := not_or.1 (fun hm => h ((malformed_iff_of_lengths hlen).2 hm))
  obtain ⟨target, ht⟩ := Option.ne_none_iff_exists'.1 hkind
  exact ⟨target, ht, by rw [parseFrame_of_lengths hlen, if_neg hcheck, ht, Option.map_some]⟩

/-! ### The arrival of a frame (R5, R7, R8) -/

/-- The four conditions of R7 for the forward copy. -/
theorem State.forwards_eq_true_iff (s : State) (p : Port) (f : Frame) :
    s.forwards p f = true ↔
      0 < f.hops.toNat ∧ s.form.consumes f.target = false ∧ f.kind ≠ 1 ∧ (s.line.port p.other).link = .up := by
  simp only [forwards, Bool.and_eq_true, Bool.not_eq_true', bne_iff_ne, decide_eq_true_eq, and_assoc]

theorem exec_frameArrival (p : Port) (bs : List Byte) (s : State) :
    exec (.frameArrival p bs) s = execFrameArrival p bs s := rfl

/-- Where no frame can be read, the arrival adds one to the bad-check counter of its port, and no more. -/
theorem exec_frameArrival_of_unread {p : Port} {bs : List Byte} {s : State} (hup : (s.line.port p).link = .up)
    (hread : parseFrame bs = none) :
    exec (.frameArrival p bs) s = .next
      { s with line := s.line.mapPort p (fun q => { q with badCheck := count16 q.badCheck 1 }) } := by
  rw [exec_frameArrival, execFrameArrival, if_neg (not_not.2 hup), hread]

/-- A good frame meets two decisions: the forward copy at the other port, and the local copy at the dispatcher. -/
theorem exec_frameArrival_of_read {p : Port} {bs : List Byte} {s : State} {f : Frame}
    (hup : (s.line.port p).link = .up) (hread : parseFrame bs = some f) :
    exec (.frameArrival p bs) s = .next
      { s with
        line := if s.forwards p f then s.line.mapPort p.other (PortState.offerThrough f.forwardCopy) else s.line
        announced := s.announced ++ s.localCopy p f } := by
  rw [exec_frameArrival, execFrameArrival, if_neg (not_not.2 hup), hread]

/-- Settles O16: the bytes either fail a test of R5 and are counted, or are read as a frame; the frame read has its
forward copy by R7's conditions and its local copy by R6's table. -/
theorem frameArrivals : Obligations.FrameArrivals := by
  refine ⟨fun p bs s hup => ⟨fun hbad => ?_, parseFrame_of_not_malformed⟩, fun p bs s f hup hread => ?_⟩
  · exact exec_frameArrival_of_unread hup (parseFrame_of_malformed hbad)
  · simp only [exec_frameArrival_of_read hup hread, State.forwards_eq_true_iff]
    rfl

end Sys2Proof.Machine
end

section
/-! PROOF. Management frames (chapter 3): a command that passes the common checks (R42), the six tests of COMMIT (R52),
STATUS with its clear option (R63, R64), and the cold flag (R62). -/

namespace Sys2Proof.Machine

/-! ### A command that passes the common checks (R42) -/

theorem commonCheck_of_fixedLength {code n : Nat} {args : List Byte} {mode : Mode}
    (hmode : mode = .restartPending → code = 7 ∨ code = 16) (hn : fixedLength code = some n) (hlen : args.length = n) :
    commonCheck code args mode = none := by
  have hbusy : ¬ (mode = .restartPending ∧ code ≠ 7 ∧ code ≠ 16) := fun ⟨hm, h7, h16⟩ => (hmode hm).elim h7 h16
  rw [commonCheck, if_neg hbusy, hn]
  exact if_neg (not_not.2 hlen)

/-- A command of its fixed length is executed and answered, unless a restart is pending; STATUS and FAULT_READ are
executed then too. -/
theorem State.command_of_fixedLength {s : State} {code n : Nat} {f : MgmtFrame} (body : Answer)
    (hmode : s.mgmt.mode = .restartPending → code = 7 ∨ code = 16) (hn : fixedLength code = some n)
    (hlen : f.args.length = n) : s.command code f body = body.send code f := by
  rw [State.command, runCommand, commonCheck_of_fixedLength hmode hn hlen]

/-! ### What a COMMIT names (R45, R52) -/

theorem FamilySet.isNone_iff (fs : FamilySet) : fs.isNone = true ↔ ∀ g, fs.names g = false := by
  simp only [FamilySet.isNone, Bool.not_eq_true', Bool.or_eq_false_iff]
  constructor
  · rintro ⟨⟨⟨⟨hseat, hresv⟩, hroute⟩, htext⟩, hpage⟩ g
    cases g <;> assumption
  · intro h
    exact ⟨⟨⟨⟨h .seat, h .resv⟩, h .route⟩, h .text⟩, h .page⟩

theorem FamilySet.find?_list_eq_none {fs : FamilySet} {t : TableStore}
    (h : ∀ g, fs.names g = true → (t.family g).state ≠ .empty) :
    fs.list.find? (fun g => (t.family g).state == .empty) = none := by
  refine List.find?_eq_none.2 fun g hg => ?_
  simpa using h g (FamilySet.mem_list.1 hg)

/-- The activation kinds are 0 to 2. -/
theorem activationOf_eq_none_iff (kind k : Nat) : activationOf kind k = none ↔ 2 < kind := by
  rcases kind with _ | _ | _ | kind <;> simp [activationOf]

/-- Only kind 1 names a departure, and it reads the ordinal. -/
theorem activationOf_eq_atDeparture_iff (kind k j : Nat) :
    activationOf kind k = some (.atDeparture j) ↔ kind = 1 ∧ k = j := by
  rcases kind with _ | _ | _ | kind <;> simp [activationOf]

/-! ### The tests of a COMMIT, the first that holds deciding (R52) -/

/-- Test 4 of R52: the ordinal of a departure is not one of the ROUTE bank after the activation. -/
abbrev State.departureOffRoute (s : State) (fs : FamilySet) (kind k : Nat) : Prop :=
  kind = 1 ∧ (48 ≤ k ∨ (s.tables.after fs .route).length ≤ k)

/-- Test 5 of R52: the coach has departed from the ordinal. -/
abbrev State.departurePassed (s : State) (kind k : Nat) : Prop :=
  kind = 1 ∧ ∃ d, s.reck.progress.d = some d ∧ k ≤ d

section Departure

variable {s : State} {fs : FamilySet} {kind k : Nat} {a : Activation}

theorem State.departureRefused_of_offRoute (ha : activationOf kind k = some a) (h : s.departureOffRoute fs kind k) :
    s.departureRefused fs a = some .range := by
  obtain ⟨rfl, hoff⟩ := h
  obtain rfl : Activation.atDeparture k = a := Option.some.inj ha
  exact if_pos hoff

theorem State.departureRefused_of_passed (ha : activationOf kind k = some a) (h4 : ¬ s.departureOffRoute fs kind k)
    (h5 : s.departurePassed kind k) : s.departureRefused fs a = some .passed := by
  obtain ⟨rfl, d, hd, hk⟩ := h5
  obtain rfl : Activation.atDeparture k = a := Option.some.inj ha
  rw [departureRefused, if_neg fun hoff => h4 ⟨rfl, hoff⟩, hd]
  exact if_pos hk

/-- Only AT_DEPARTURE can fail tests 4 and 5. -/
theorem State.departureRefused_of_ahead (ha : activationOf kind k = some a) (h4 : ¬ s.departureOffRoute fs kind k)
    (h5 : ¬ s.departurePassed kind k) : s.departureRefused fs a = none := by
  cases a with
  | now => rfl
  | atInauguration => rfl
  | atDeparture j =>
    obtain ⟨rfl, rfl⟩ := (activationOf_eq_atDeparture_iff kind k j).1 ha
    rw [departureRefused, if_neg fun hoff => h4 ⟨rfl, hoff⟩]
    cases hd : s.reck.progress.d with
    | none => rfl
    | some d => exact if_neg fun hk => h5 ⟨rfl, d, hd, hk⟩

end Departure

section CommitTests

variable {s : State} {args : List Byte}

/-- Test 1 of R52. -/
theorem State.commit_of_pending (h : s.mgmt.commit ≠ none) : s.commit args = refuse s .pending := by
  have hp : s.mgmt.commit.isSome = true := Option.isSome_iff_ne_none.2 h
  rw [commit]
  cases activationOf (natAt args 1) (natAt args 2) <;> exact if_pos hp

/-- Test 2 of R52: no family named, a bit of no family set, or an activation kind of none. -/
theorem State.commit_of_unknown (hp : s.mgmt.commit = none)
    (h : (∀ g, (FamilySet.ofByte (byteAt args 0)).names g = false) ∨ 31 < natAt args 0 ∨ 2 < natAt args 1) :
    s.commit args = ⟨s, .invalid, .detail .noFamily⟩ := by
  have hfree : ¬ s.mgmt.commit.isSome = true := by simp [hp]
  rw [commit]
  cases ha : activationOf (natAt args 1) (natAt args 2) with
  | none => exact if_neg hfree
  | some a =>
    have hkind : ¬ 2 < natAt args 1 := fun hk => by simp [(activationOf_eq_none_iff _ _).2 hk] at ha
    have hset : (FamilySet.ofByte (byteAt args 0)).isNone = true ∨ 31 < natAt args 0 := by
      rcases h with hnone | hbits | hk
      · exact .inl ((FamilySet.isNone_iff _).2 hnone)
      · exact .inr hbits
      · exact absurd hk hkind
    exact (if_neg hfree).trans (if_pos hset)

/-- A COMMIT past tests 1 and 2 of R52: none pending, a family set of known families, and an activation. -/
structure State.commitReaches (s : State) (args : List Byte) (a : Activation) : Prop where
  unlocked   : s.mgmt.commit = none
  named      : (FamilySet.ofByte (byteAt args 0)).isNone = false
  known      : natAt args 0 ≤ 31
  activation : activationOf (natAt args 1) (natAt args 2) = some a

theorem State.exists_commitReaches (hp : s.mgmt.commit = none)
    (h : ¬ ((∀ g, (FamilySet.ofByte (byteAt args 0)).names g = false) ∨ 31 < natAt args 0 ∨ 2 < natAt args 1)) :
    ∃ a, s.commitReaches args a := by
  obtain ⟨hnamed, hbits, hkind⟩ : _ ∧ ¬ 31 < natAt args 0 ∧ ¬ 2 < natAt args 1 := by simpa only [not_or] using h
  obtain ⟨a, ha⟩ := Option.ne_none_iff_exists'.1 (mt (activationOf_eq_none_iff (natAt args 1) (natAt args 2)).1 hkind)
  exact ⟨a, hp, Bool.eq_false_iff.2 (mt (FamilySet.isNone_iff _).1 hnamed), not_lt.1 hbits, ha⟩

variable {a : Activation}

/-- Test 3 of R52. -/
theorem State.commit_of_empty (h : s.commitReaches args a) {g : Family}
    (hg : (FamilySet.ofByte (byteAt args 0)).list.find? (fun g => (s.tables.family g).state == .empty) = some g) :
    s.commit args = ⟨s, .invalid, .detail (.family g none)⟩ := by
  obtain ⟨hp, hn, hk, ha⟩ := h
  simp [commit, ha, hp, hn, not_lt.2 hk, hg]

/-- Tests 4 and 5 of R52. -/
theorem State.commit_of_departureRefused (h : s.commitReaches args a)
    (h3 : ∀ g, (FamilySet.ofByte (byteAt args 0)).names g = true → (s.tables.family g).state ≠ .empty) {r : Result}
    (hr : s.departureRefused (FamilySet.ofByte (byteAt args 0)) a = some r) : s.commit args = refuse s r := by
  obtain ⟨hp, hn, hk, ha⟩ := h
  simp [commit, ha, hp, hn, not_lt.2 hk, FamilySet.find?_list_eq_none h3, hr]

/-- Test 6 of R52. -/
theorem State.commit_of_invalid (h : s.commitReaches args a)
    (h3 : ∀ g, (FamilySet.ofByte (byteAt args 0)).names g = true → (s.tables.family g).state ≠ .empty)
    (hr : s.departureRefused (FamilySet.ofByte (byteAt args 0)) a = none) {d : CommitDetail}
    (hd : validate s.tables (FamilySet.ofByte (byteAt args 0)) = some d) :
    s.commit args = ⟨s, .invalid, .detail d⟩ := by
  obtain ⟨hp, hn, hk, ha⟩ := h
  simp [commit, ha, hp, hn, not_lt.2 hk, FamilySet.find?_list_eq_none h3, hr, hd]

end CommitTests

/-- The state in which the tests of a COMMIT are made: the command taken, the load context cleared (R50). -/
abbrev State.commitTaken (s : State) (f : MgmtFrame) : State := (s.taken (.commit f)).noContext

theorem exec_commit_of_length {f : MgmtFrame} {s : State} (hmode : s.mgmt.mode ≠ .restartPending)
    (hlen : f.args.length = 5) : exec (.commit f) s = ((s.commitTaken f).commit f.args).send 3 f :=
  State.command_of_fixedLength _ (fun h => absurd h hmode) rfl hlen

/-- Settles O25: the tests are followed in their order. Each refuses from `commitTaken`, which differs from the state before
in the load context and in the announcement struck, so nothing else changes. -/
theorem commitRefusals : Obligations.CommitRefusals := by
  intro f s hmode hlen
  dsimp only
  rw [exec_commit_of_length hmode hlen]
  -- the tests read items that neither the taking nor the load context changes
  have hcommit : (s.commitTaken f).mgmt.commit = s.mgmt.commit := rfl
  refine ⟨fun h1 => ?pending, fun h1 h2 => ?unknown, fun h1 h2 => ?_⟩
  case pending => rw [State.commit_of_pending (hcommit ▸ h1)]; rfl
  case unknown => rw [State.commit_of_unknown (hcommit ▸ not_not.1 h1) h2]; rfl
  obtain ⟨a, ha⟩ := State.exists_commitReaches (s := s.commitTaken f) (hcommit ▸ not_not.1 h1) h2
  refine ⟨fun g hg => ?empty, fun h3 => ⟨fun h4 => ?offRoute, fun h4 h5 => ?passed, fun h4 h5 d hd => ?invalid⟩⟩
  case empty => rw [State.commit_of_empty ha hg]; rfl
  case offRoute =>
    rw [State.commit_of_departureRefused ha h3 (State.departureRefused_of_offRoute ha.activation h4)]; rfl
  case passed =>
    rw [State.commit_of_departureRefused ha h3 (State.departureRefused_of_passed ha.activation h4 h5)]; rfl
  case invalid =>
    rw [State.commit_of_invalid ha h3 (State.departureRefused_of_ahead ha.activation h4 h5) hd]; rfl

/-! ### STATUS and START_ACK (R62 to R64) -/

theorem natAt_eq_zero_iff (bs : List Byte) (i : Nat) : natAt bs i = 0 ↔ byteAt bs i = 0 :=
  BitVec.toNat_eq (y := 0) |>.symm

/-- STATUS is executed in every mode; the record is the one before the counters are cleared. -/
theorem exec_status_of_length {f : MgmtFrame} {s : State} (hlen : f.args.length = 1) :
    exec (.status f) s = .next
      ((if natAt f.args 0 = 0 then s.taken (.status f) else (s.taken (.status f)).clearCounters).reply f.port f.seq 7 .ok
        (.status s.statusRecord)) := by
  simp only [natAt_eq_zero_iff]
  exact State.command_of_fixedLength _ (fun _ => .inl rfl) rfl hlen

/-- Settles O31: the clear option alone decides whether the ten counters are set to 0. -/
theorem statusTaken : Obligations.StatusTaken := by
  intro f s hlen
  dsimp only
  rw [exec_status_of_length hlen]
  refine ⟨fun hno => ?_, fun hyes => ?_⟩
  · rw [if_pos hno]; rfl
  · rw [if_neg hyes]; rfl

theorem exec_startAck_of_length {f : MgmtFrame} {s : State} (hmode : s.mgmt.mode ≠ .restartPending)
    (hlen : f.args.length = 0) :
    exec (.startAck f) s = .next
      (State.reply { s.taken (.startAck f) with mgmt := { s.mgmt with cold := false } } f.port f.seq 8 .ok .none) :=
  State.command_of_fixedLength _ (fun h => absurd h hmode) rfl hlen

/-- After power-on the cold flag stands at its reset value. -/
theorem exec_powerOn_cold {s t : State} (h : exec .powerOn s = .next t) : t.mgmt.cold = true := by
  obtain rfl : { State.reset with retained := s.retained, pending := s.pending } = t := by injection h
  rfl

/-- Settles O32: START_ACK clears the flag, power-on sets it, and the status record holds it as it stands. -/
theorem startAck : Obligations.StartAck :=
  fun _ _ => ⟨exec_startAck_of_length, fun _ => exec_powerOn_cold, rfl⟩

end Sys2Proof.Machine
end

section
/-! PROOF. Position reckoning (chapter 5): the progress computation on the last frame outside HOLD, that is the ordinals and
the state (R88), the remaining distance (R89), the ETA (R90) and the approach test (R91). -/

namespace Sys2Proof.Machine

/-! ### Members of a set next to an ordinal (R70) -/

/-- `least` folds as the library's minimum does. -/
theorem least_eq_min? (l : List Nat) : least l = l.min? := by
  cases l with
  | nil => rfl
  | cons x xs =>
    induction xs generalizing x with
    | nil => rfl
    | cons y ys ih =>
      calc least (x :: y :: ys) = least (min y x :: ys) := rfl
        _ = (min y x :: ys).min? := ih (min y x)
        _ = (x :: y :: ys).min? := by rw [Nat.min_comm]; rfl

theorem memberAbove_eq_some_iff (c : List Nat) (x n : Nat) :
    memberAbove c x = some n ↔ n ∈ c ∧ x < n ∧ ∀ m ∈ c, x < m → n ≤ m := by
  simp [memberAbove, least_eq_min?, List.min?_eq_some_iff, and_assoc]

theorem memberAtOrBelow_eq_some_iff (c : List Nat) (x n : Nat) :
    memberAtOrBelow c x = some n ↔ n ∈ c ∧ n ≤ x ∧ ∀ m ∈ c, m ≤ x → m ≤ n := by
  simp [memberAtOrBelow, greatest_eq_some_iff, and_assoc]

/-! ### The ordinals and the state they give (R88) -/

section FindOrdinals

variable {calling halting : List Nat} {f : LastFrame}

theorem findOrdinals_of_atStop (h : f.atPlatform = true ∧ f.a ∈ calling) :
    findOrdinals calling halting f = ⟨some f.a, some f.a, memberAbove calling f.a, none⟩ :=
  if_pos h

theorem findOrdinals_of_not_atStop (h : ¬ (f.atPlatform = true ∧ f.a ∈ calling)) :
    findOrdinals calling halting f = ⟨none, memberAtOrBelow calling f.d, memberAbove calling f.d,
      if (memberAbove calling f.d).isSome then memberAbove halting f.d else none⟩ :=
  if_neg h

/-- The closed-door stop ahead is found for a running train only. -/
theorem findOrdinals_h_eq_none
    (h : (findOrdinals calling halting f).a ≠ none ∨ (findOrdinals calling halting f).n = none) :
    (findOrdinals calling halting f).h = none := by
  by_cases hstop : f.atPlatform = true ∧ f.a ∈ calling
  · rw [findOrdinals_of_atStop hstop]
  · rw [findOrdinals_of_not_atStop hstop] at h ⊢
    have hn : memberAbove calling f.d = none := h.resolve_left (not_not.2 rfl)
    simp [hn]

end FindOrdinals

theorem stateOf_eq_finished_iff (o : Ordinals) : stateOf o = .finished ↔ o.n = none := by
  rcases o with ⟨_ | _, p, _ | _, h⟩ <;> simp [stateOf]

theorem stateOf_eq_atStop_iff (o : Ordinals) : stateOf o = .atStop ↔ o.n ≠ none ∧ o.a ≠ none := by
  rcases o with ⟨_ | _, p, _ | _, h⟩ <;> simp [stateOf]

theorem stateOf_eq_running_iff (o : Ordinals) : stateOf o = .running ↔ o.n ≠ none ∧ o.a = none := by
  rcases o with ⟨_ | _, p, _ | _, h⟩ <;> simp [stateOf]

/-- R88 finds one of three states before the approach test. -/
theorem stateOf_cases (o : Ordinals) : stateOf o = .finished ∨ stateOf o = .atStop ∨ stateOf o = .running := by
  rcases o with ⟨_ | _, p, _ | _, h⟩ <;> simp [stateOf]

/-! ### The remaining distance, the ETA and the approach test (R89 to R91) -/

/-- A difference of naturals is 0 where it would be negative. -/
theorem lessRun_eq_toNat (distance sRun : Nat) : lessRun distance sRun = (max 0 ((distance : Int) - sRun)).toNat := by
  unfold lessRun
  omega

theorem etaOf_eq_ite (remaining vs : Nat) :
    etaOf remaining vs =
      if vs < 20 then (if 0 < remaining then none else some 0)
      else some (min 5999 ((remaining * 10 + vs - 1) / vs)) := by
  unfold etaOf
  rcases Nat.eq_zero_or_pos remaining with rfl | hpos
  · rfl
  · rw [if_neg hpos.ne', if_pos hpos]

theorem within_eq_true_iff (r : ReckoningUnit) (remaining vs : Nat) :
    within r remaining vs = true ↔
      remaining ≤ r.distanceInUse ∨ ∃ e, etaOf remaining vs = some e ∧ e ≤ r.leadInUse := by
  unfold within
  cases etaOf remaining vs <;> simp

/-- A running train's target is the closed-door stop before its next calling stop, or that calling stop. -/
theorem approachTarget_of_next {o : Ordinals} {n : Nat} (hn : o.n = some n) :
    ∃ g, approachTarget o = some g ∧
      ((∃ h, o.h = some h ∧ h < n ∧ g = ⟨h, .closedDoor⟩) ∨ ((∀ h, o.h = some h → n ≤ h) ∧ g = ⟨n, .calling⟩)) := by
  obtain ⟨a, p, _, h⟩ := o
  obtain rfl := hn
  cases h with
  | none => exact ⟨_, rfl, .inr ⟨nofun, rfl⟩⟩
  | some h =>
    by_cases hlt : h < n
    · exact ⟨_, if_pos hlt, .inl ⟨h, rfl, hlt, rfl⟩⟩
    · exact ⟨_, if_neg hlt, .inr ⟨fun k hk => Option.some.inj hk ▸ not_lt.1 hlt, rfl⟩⟩

/-- The decision of R91 for a target: the approach in force before was toward it, or it is within distance or lead. -/
theorem ReckoningUnit.approaches_eq_true_iff (t : TableStore) (r : ReckoningUnit) (f : LastFrame) (framed : Bool) (vs : Nat)
    (g : Approach) :
    r.approaches t f framed vs (some g) = true ↔
      (r.progress.approach = some g ∧ (r.progress.state = .approaching ∨
        (framed = true ∧ r.progress.state = .hold ∧ r.progress.remembered = some .approaching))) ∨
      lessRun (t.distance f.d g.target) f.sRun ≤ r.distanceInUse ∨
      ∃ e, etaOf (lessRun (t.distance f.d g.target) f.sRun) vs = some e ∧ e ≤ r.leadInUse := by
  rw [approaches, Bool.or_eq_true, within_eq_true_iff]
  simp only [Bool.and_eq_true, Bool.or_eq_true, beq_iff_eq, and_assoc, and_comm]

/-! ### The progress computation, by the state R88 finds -/

section Compute

variable {t : TableStore} {r : ReckoningUnit} {f : LastFrame} {framed : Bool}

theorem ReckoningUnit.compute_of_finished (h : stateOf (findOrdinals r.calling r.halting f) = .finished) :
    (r.compute t f framed).state = .finished ∧ (r.compute t f framed).remaining = 0 ∧
      (r.compute t f framed).eta = none ∧ (r.compute t f framed).approach = none := by
  simp [compute, h]

theorem ReckoningUnit.compute_of_atStop (h : stateOf (findOrdinals r.calling r.halting f) = .atStop) :
    (r.compute t f framed).state = .atStop ∧
      (r.compute t f framed).remaining = t.distance f.a ((findOrdinals r.calling r.halting f).n.getD 0) ∧
      (r.compute t f framed).eta = none ∧ (r.compute t f framed).approach = none := by
  simp [compute, h]

/-- The approach test that the computation makes for a running train, with the smoothed speed of the record. -/
def ReckoningUnit.nears (t : TableStore) (r : ReckoningUnit) (f : LastFrame) (framed : Bool) : Bool :=
  r.approaches t f framed (r.progress.vs.getD 0) (approachTarget (findOrdinals r.calling r.halting f))

theorem ReckoningUnit.compute_of_running (h : stateOf (findOrdinals r.calling r.halting f) = .running) :
    let remaining := lessRun (t.distance f.d ((findOrdinals r.calling r.halting f).n.getD 0)) f.sRun
    (r.compute t f framed).state = (if r.nears t f framed then .approaching else .running) ∧
      (r.compute t f framed).remaining = remaining ∧
      (r.compute t f framed).eta = etaOf remaining (r.progress.vs.getD 0) ∧
      (r.compute t f framed).approach =
        if r.nears t f framed then approachTarget (findOrdinals r.calling r.halting f) else none := by
  rw [compute, h]
  exact ⟨rfl, rfl, rfl, rfl⟩

/-- The record holds the ordinals that R88 finds, whatever the state. -/
theorem ReckoningUnit.compute_ordinals (t : TableStore) (r : ReckoningUnit) (f : LastFrame) (framed : Bool) :
    (r.compute t f framed).a = (findOrdinals r.calling r.halting f).a ∧
      (r.compute t f framed).p = (findOrdinals r.calling r.halting f).p ∧
      (r.compute t f framed).n = (findOrdinals r.calling r.halting f).n ∧
      (r.compute t f framed).h = (findOrdinals r.calling r.halting f).h := by
  rcases stateOf_cases (findOrdinals r.calling r.halting f) with hs | hs | hs
  · have hn := (stateOf_eq_finished_iff _).1 hs
    simp [compute, hs, hn, findOrdinals_h_eq_none (.inr hn)]
  · have ha := ((stateOf_eq_atStop_iff _).1 hs).2
    simp [compute, hs, findOrdinals_h_eq_none (.inl ha)]
  · have ha := ((stateOf_eq_running_iff _).1 hs).2
    simp [compute, hs, ha]

/-- What the computation takes from the frame itself; it leaves HOLD, so nothing is remembered (R98). -/
theorem ReckoningUnit.compute_frame (t : TableStore) (r : ReckoningUnit) (f : LastFrame) (framed : Bool) :
    (r.compute t f framed).d = some f.d ∧ (r.compute t f framed).sRun = f.sRun ∧
      (r.compute t f framed).remembered = none := by
  rw [compute]
  split <;> exact ⟨rfl, rfl, rfl⟩

/-- The approach test decides between RUNNING and APPROACHING, and nothing else of the state. -/
theorem ReckoningUnit.compute_state_cases (t : TableStore) (r : ReckoningUnit) (f : LastFrame) (framed : Bool) :
    (stateOf (findOrdinals r.calling r.halting f) = .finished ∧ (r.compute t f framed).state = .finished) ∨
      (stateOf (findOrdinals r.calling r.halting f) = .atStop ∧ (r.compute t f framed).state = .atStop) ∨
      (stateOf (findOrdinals r.calling r.halting f) = .running ∧
        ((r.compute t f framed).state = .running ∨ (r.compute t f framed).state = .approaching)) := by
  rcases stateOf_cases (findOrdinals r.calling r.halting f) with hs | hs | hs
  · exact .inl ⟨hs, (compute_of_finished hs).1⟩
  · exact .inr (.inl ⟨hs, (compute_of_atStop hs).1⟩)
  · refine .inr (.inr ⟨hs, ?_⟩)
    rw [(compute_of_running hs).1]
    split
    · exact .inr rfl
    · exact .inl rfl

theorem ReckoningUnit.compute_state_eq_finished_iff :
    (r.compute t f framed).state = .finished ↔ stateOf (findOrdinals r.calling r.halting f) = .finished := by
  rcases compute_state_cases t r f framed with ⟨hs, hq⟩ | ⟨hs, hq⟩ | ⟨hs, hq | hq⟩ <;> simp [hs, hq]

theorem ReckoningUnit.compute_state_eq_atStop_iff :
    (r.compute t f framed).state = .atStop ↔ stateOf (findOrdinals r.calling r.halting f) = .atStop := by
  rcases compute_state_cases t r f framed with ⟨hs, hq⟩ | ⟨hs, hq⟩ | ⟨hs, hq | hq⟩ <;> simp [hs, hq]

theorem ReckoningUnit.compute_state_running_iff :
    ((r.compute t f framed).state = .running ∨ (r.compute t f framed).state = .approaching) ↔
      stateOf (findOrdinals r.calling r.halting f) = .running := by
  rcases compute_state_cases t r f framed with ⟨hs, hq⟩ | ⟨hs, hq⟩ | ⟨hs, hq | hq⟩ <;> simp [hs, hq]

theorem ReckoningUnit.compute_state_eq_approaching_iff (h : stateOf (findOrdinals r.calling r.halting f) = .running) :
    (r.compute t f framed).state = .approaching ↔ r.nears t f framed = true := by
  rw [(compute_of_running h).1]
  cases r.nears t f framed <;> simp

end Compute

/-- Settles O37: the record holds the ordinals of R88's two cases, and its state follows from whether `a` and `n` are there. -/
theorem recordOrdinals : Obligations.RecordOrdinals := by
  intro t r f framed
  obtain ⟨ha, hp, hn, hh⟩ := r.compute_ordinals t f framed
  dsimp only
  rw [ReckoningUnit.compute_state_running_iff, ReckoningUnit.compute_state_eq_finished_iff,
    ReckoningUnit.compute_state_eq_atStop_iff, stateOf_eq_running_iff, stateOf_eq_finished_iff, stateOf_eq_atStop_iff,
    ha, hp, hn, hh]
  refine ⟨fun hstop => ?atStop, fun hrun => ?running, r.compute_frame t f framed⟩
  case atStop =>
    rw [findOrdinals_of_atStop hstop]
    exact ⟨rfl, rfl, memberAbove_eq_some_iff _ _, rfl, fun hn => ⟨hn, nofun⟩, id⟩
  case running =>
    rw [findOrdinals_of_not_atStop hrun]
    refine ⟨rfl, memberAbove_eq_some_iff _ _, memberAtOrBelow_eq_some_iff _ _, fun hn => ?ahead, fun hn => ?last,
      fun hn => ⟨hn, rfl⟩, id⟩
    case ahead =>
      rw [if_pos (Option.isSome_iff_ne_none.2 hn)]
      exact memberAbove_eq_some_iff _ _
    case last => exact if_neg (mt Option.isSome_iff_ne_none.1 (not_not.2 hn))

/-- Settles O38: outside the running case the fields are fixed; there the one target found is tested, at its own remaining
distance. -/
theorem remainingEtaApproach : Obligations.RemainingEtaApproach := by
  intro t r f framed vs hvs
  obtain ⟨-, -, hn, hh⟩ := r.compute_ordinals t f framed
  dsimp only
  simp only [ReckoningUnit.compute_state_running_iff, ReckoningUnit.compute_state_eq_finished_iff,
    ReckoningUnit.compute_state_eq_atStop_iff, ← lessRun_eq_toNat, ← etaOf_eq_ite, hn, hh]
  refine ⟨fun hs => ?atStop, fun hs => (ReckoningUnit.compute_of_finished hs).2, fun hs => ?running⟩
  case atStop =>
    obtain ⟨n, ho⟩ := Option.ne_none_iff_exists'.1 ((stateOf_eq_atStop_iff _).1 hs).1
    obtain ⟨-, hrem, heta, happr⟩ := ReckoningUnit.compute_of_atStop (t := t) (framed := framed) hs
    exact ⟨⟨n, ho, by rw [hrem, ho, Option.getD_some]⟩, heta, happr⟩
  case running =>
    obtain ⟨n, ho⟩ := Option.ne_none_iff_exists'.1 ((stateOf_eq_running_iff _).1 hs).1
    obtain ⟨g, htarget, hkind⟩ := approachTarget_of_next ho
    obtain ⟨-, hrem, heta, happr⟩ := ReckoningUnit.compute_of_running (t := t) (framed := framed) hs
    have hnear := ReckoningUnit.approaches_eq_true_iff t r f framed vs g
    simp only [ReckoningUnit.compute_state_eq_approaching_iff hs, happr, ReckoningUnit.nears, htarget, hvs,
      Option.getD_some]
    rw [ho, Option.getD_some] at hrem heta
    rw [hvs, Option.getD_some] at heta
    exact ⟨n, g, ho, hrem, heta, hkind, hnear, rfl⟩

end Sys2Proof.Machine
end

section
/-! PROOF. Notices (chapter 8): the edits of the acceptance list, that is the tests of ACCEPT_INSERT in their order with the
place of the new entry (R148), and the removal of an entry (R149). -/

namespace Sys2Proof.Machine

/-! ### A command while a restart is pending (R42) -/

theorem commonCheck_of_restartPending {code : Nat} {args : List Byte} {mode : Mode} (hmode : mode = .restartPending)
    (hcode : code ≠ 7 ∧ code ≠ 16) : commonCheck code args mode = some .busy :=
  if_pos ⟨hmode, hcode⟩

/-- While a restart is pending, every command but STATUS and FAULT_READ is answered BUSY, whatever its arguments. -/
theorem State.command_of_restartPending {s : State} {code : Nat} {f : MgmtFrame} (body : Answer)
    (hmode : s.mgmt.mode = .restartPending) (hcode : code ≠ 7 ∧ code ≠ 16) :
    s.command code f body = (refuse s .busy).send code f := by
  rw [State.command, runCommand, commonCheck_of_restartPending hmode hcode]

/-! ### Entries of a list by their id, and the place of a new one (R148, R149) -/

section Entries

variable {l pre post : List FilterEntry} {x y : FilterEntry} {id after : Nat}

theorem any_id_beq_eq_true_iff : l.any (fun y => y.id == id) = true ↔ ∃ y ∈ l, y.id = id := by
  simp only [List.any_eq_true, beq_iff_eq]

theorem any_id_beq_eq_false_iff : l.any (fun y => y.id == id) = false ↔ ∀ y ∈ l, y.id ≠ id := by
  simp only [List.any_eq_false, beq_iff_eq, ne_eq]

theorem insertAfter_zero (x : FilterEntry) (l : List FilterEntry) : insertAfter 0 x l = x :: l := by
  cases l <;> rfl

/-- The new entry goes directly after the first entry of the id named. -/
theorem insertAfter_of_split (h0 : after ≠ 0) (hy : y.id = after) (hpre : ∀ z ∈ pre, z.id ≠ after) :
    insertAfter after x (pre ++ y :: post) = pre ++ y :: x :: post := by
  induction pre with
  | nil => rw [List.nil_append, insertAfter, if_neg h0, if_pos hy]; rfl
  | cons z pre ih =>
    obtain ⟨hz, hrest⟩ := List.forall_mem_cons.1 hpre
    rw [List.cons_append, insertAfter, if_neg h0, if_neg hz, ih hrest, List.cons_append]

/-- An entry that alone has its id leaves the list; the entries behind it close up. -/
theorem filter_id_of_split (hy : y.id = id) (hrest : ∀ z ∈ pre ++ post, z.id ≠ id) :
    (pre ++ y :: post).filter (fun z => z.id != id) = pre ++ post := by
  have hkeep : (pre ++ post).filter (fun z => z.id != id) = pre ++ post :=
    List.filter_eq_self.2 fun z hz => bne_iff_ne.2 (hrest z hz)
  rw [List.filter_append] at hkeep ⊢
  rw [List.filter_cons_of_neg (by simp [hy]), hkeep]

end Entries

/-- The entry read from the arguments: portions from the low three bits, and action 1 for ACCEPT. -/
theorem filterEntry_eq (args : List Byte) :
    filterEntry args =
      { id := natAt args 1, categoryValue := byteAt args 2, categoryMask := byteAt args 3, languageValue := byteAt args 4,
        languageMask := byteAt args 5, portions := (byteAt args 6).setWidth 3, accept := natAt args 7 == 1,
        override := if natAt args 8 ≤ 3 then some (natAt args 8) else none } := by
  have haccept : (byteAt args 7 == 1) = (natAt args 7 == 1) :=
    Bool.eq_iff_iff.2 (by rw [beq_iff_eq, beq_iff_eq, BitVec.toNat_eq]; rfl)
  rw [filterEntry, haccept, BitVec.setWidth_eq_extractLsb' (by decide)]

/-! ### The tests of an ACCEPT_INSERT, the first that holds deciding (R148) -/

/-- The state with its acceptance list replaced, and nothing else changed. -/
abbrev State.withAcceptance (s : State) (l : List FilterEntry) : State :=
  { s with notice := { s.notice with acceptance := l } }

/-- Test 1 of R148: no id, or an action above 1. -/
abbrev insertUnsound (args : List Byte) : Prop := natAt args 1 = 0 ∨ 1 < natAt args 7

section InsertTests

variable {s : State} {args : List Byte}

theorem State.acceptInsert_of_unsound (h : insertUnsound args) : s.acceptInsert args = refuse s .invalid := if_pos h

theorem State.acceptInsert_of_full (h1 : ¬ insertUnsound args) (h2 : 24 ≤ s.notice.acceptance.length) :
    s.acceptInsert args = refuse s .full :=
  (if_neg h1).trans (if_pos h2)

theorem State.acceptInsert_of_duplicate (h1 : ¬ insertUnsound args) (h2 : s.notice.acceptance.length < 24)
    (h3 : ∃ y ∈ s.notice.acceptance, y.id = natAt args 1) : s.acceptInsert args = refuse s .duplicate := by
  rw [acceptInsert, if_neg h1, if_neg (not_le.2 h2), if_pos (any_id_beq_eq_true_iff.2 h3)]

/-- An ACCEPT_INSERT past tests 1 to 3 of R148: sound, with room in the list, and of an id that is new to it. -/
structure State.insertReaches (s : State) (args : List Byte) : Prop where
  sound : ¬ insertUnsound args
  room  : s.notice.acceptance.length < 24
  fresh : ∀ y ∈ s.notice.acceptance, y.id ≠ natAt args 1

/-- Past tests 1 to 3, test 4 alone decides. -/
theorem State.acceptInsert_of_reaches (h : s.insertReaches args) :
    s.acceptInsert args =
      if natAt args 0 ≠ 0 ∧ !s.notice.acceptance.any (fun y => y.id == natAt args 0) then refuse s .notFound
      else
        let new := insertAfter (natAt args 0) (filterEntry args) s.notice.acceptance
        ⟨s.withAcceptance new, .ok, .listCount new.length⟩ := by
  obtain ⟨hsound, hroom, hfresh⟩ := h
  rw [acceptInsert, if_neg hsound, if_neg (not_le.2 hroom),
    if_neg (Bool.eq_false_iff.1 (any_id_beq_eq_false_iff.2 hfresh))]

theorem State.acceptInsert_of_notFound (h : s.insertReaches args) (h0 : natAt args 0 ≠ 0)
    (h4 : ∀ y ∈ s.notice.acceptance, y.id ≠ natAt args 0) : s.acceptInsert args = refuse s .notFound := by
  rw [acceptInsert_of_reaches h, any_id_beq_eq_false_iff.2 h4]
  exact if_pos ⟨h0, rfl⟩

/-- With after entry id 0 the new entry is the first. -/
theorem State.acceptInsert_front (h : s.insertReaches args) (h0 : natAt args 0 = 0) :
    s.acceptInsert args =
      ⟨s.withAcceptance (filterEntry args :: s.notice.acceptance), .ok, .listCount (s.notice.acceptance.length + 1)⟩ := by
  rw [acceptInsert_of_reaches h, if_neg fun h4 => h4.1 h0, h0, insertAfter_zero]
  rfl

/-- With the id of an entry of the list, the new entry stands directly behind that entry. -/
theorem State.acceptInsert_behind (h : s.insertReaches args) (h0 : natAt args 0 ≠ 0) {pre post : List FilterEntry}
    {y : FilterEntry} (hl : s.notice.acceptance = pre ++ y :: post) (hy : y.id = natAt args 0)
    (hpre : ∀ z ∈ pre, z.id ≠ natAt args 0) :
    s.acceptInsert args =
      ⟨s.withAcceptance (pre ++ y :: filterEntry args :: post), .ok, .listCount (s.notice.acceptance.length + 1)⟩ := by
  have hfound : s.notice.acceptance.any (fun z => z.id == natAt args 0) = true :=
    any_id_beq_eq_true_iff.2 ⟨y, by simp [hl], hy⟩
  have hcount : (pre ++ y :: filterEntry args :: post).length = s.notice.acceptance.length + 1 := by
    simp [hl, Nat.add_assoc]
  rw [acceptInsert_of_reaches h, hfound, if_neg (by simp), ← hcount, hl, insertAfter_of_split h0 hy hpre]

end InsertTests

/-! ### The two commands (R148, R149) -/

section Commands

variable {f : MgmtFrame} {s : State}

theorem exec_acceptInsert_of_restartPending (hmode : s.mgmt.mode = .restartPending) :
    exec (.acceptInsert f) s = (refuse (s.taken (.acceptInsert f)) .busy).send 13 f :=
  State.command_of_restartPending _ hmode (by decide)

theorem exec_acceptRemove_of_restartPending (hmode : s.mgmt.mode = .restartPending) :
    exec (.acceptRemove f) s = (refuse (s.taken (.acceptRemove f)) .busy).send 14 f :=
  State.command_of_restartPending _ hmode (by decide)

theorem exec_acceptInsert_of_length (hmode : s.mgmt.mode ≠ .restartPending) (hlen : f.args.length = 9) :
    exec (.acceptInsert f) s = ((s.taken (.acceptInsert f)).acceptInsert f.args).send 13 f :=
  State.command_of_fixedLength _ (fun h => absurd h hmode) rfl hlen

theorem exec_acceptRemove_of_length (hmode : s.mgmt.mode ≠ .restartPending) (hlen : f.args.length = 1) :
    exec (.acceptRemove f) s =
      (if !s.notice.acceptance.any (fun y => y.id == natAt f.args 0) then refuse (s.taken (.acceptRemove f)) .notFound
       else
         let new := s.notice.acceptance.filter (fun y => y.id != natAt f.args 0)
         ⟨(s.taken (.acceptRemove f)).withAcceptance new, .ok, .listCount new.length⟩ : Answer).send 14 f :=
  State.command_of_fixedLength _ (fun h => absurd h hmode) rfl hlen

theorem exec_acceptRemove_of_notFound (hmode : s.mgmt.mode ≠ .restartPending) (hlen : f.args.length = 1)
    (h : ∀ y ∈ s.notice.acceptance, y.id ≠ natAt f.args 0) :
    exec (.acceptRemove f) s = (refuse (s.taken (.acceptRemove f)) .notFound).send 14 f := by
  rw [exec_acceptRemove_of_length hmode hlen, any_id_beq_eq_false_iff.2 h]
  rfl

theorem exec_acceptRemove_of_split (hmode : s.mgmt.mode ≠ .restartPending) (hlen : f.args.length = 1)
    {pre post : List FilterEntry} {y : FilterEntry} (hl : s.notice.acceptance = pre ++ y :: post)
    (hy : y.id = natAt f.args 0) (hrest : ∀ z ∈ pre ++ post, z.id ≠ natAt f.args 0) :
    exec (.acceptRemove f) s =
      (⟨(s.taken (.acceptRemove f)).withAcceptance (pre ++ post), .ok, .listCount (pre ++ post).length⟩ : Answer).send 14 f := by
  have hfound : s.notice.acceptance.any (fun z => z.id == natAt f.args 0) = true :=
    any_id_beq_eq_true_iff.2 ⟨y, by simp [hl], hy⟩
  rw [exec_acceptRemove_of_length hmode hlen, hfound, if_neg (by decide), hl, filter_id_of_split hy hrest]

end Commands

/-- Settles O50: the tests of R148 are followed in their order to the place of the new entry; a removal is decided by
whether an entry has the id. Each answer is from the command taken, with at most its list replaced. -/
theorem acceptanceList : Obligations.AcceptanceList := by
  intro f s
  dsimp only
  refine ⟨fun hmode => ⟨?insertBusy, ?removeBusy⟩, fun hmode hlen => ⟨fun h1 => ?unsound, fun hid haction => ?_⟩,
    fun hmode hlen => ⟨fun hnone => ?removeNotFound, fun pre y post hl hy hrest => ?removed⟩⟩
  case insertBusy => rw [exec_acceptInsert_of_restartPending hmode]; rfl
  case removeBusy => rw [exec_acceptRemove_of_restartPending hmode]; rfl
  case removeNotFound => rw [exec_acceptRemove_of_notFound hmode hlen hnone]; rfl
  case removed => rw [exec_acceptRemove_of_split hmode hlen hl hy hrest]; rfl
  all_goals rw [exec_acceptInsert_of_length hmode hlen]
  case unsound => rw [State.acceptInsert_of_unsound h1]; rfl
  have hsound : ¬ insertUnsound f.args := not_or.2 ⟨hid, not_lt.2 haction⟩
  refine ⟨fun hfull => ?full, fun hroom => ⟨fun hdup => ?duplicate, fun hfresh => ?_⟩⟩
  case full => rw [State.acceptInsert_of_full (s := s.taken (.acceptInsert f)) hsound hfull]; rfl
  case duplicate => rw [State.acceptInsert_of_duplicate (s := s.taken (.acceptInsert f)) hsound hroom hdup]; rfl
  have hreach : (s.taken (.acceptInsert f)).insertReaches f.args := ⟨hsound, hroom, hfresh⟩
  rw [← filterEntry_eq]
  refine ⟨fun h0 hnone => ?notFound, fun h0 => ?front, fun pre y post h0 hl hy hpre => ?behind⟩
  case notFound => rw [State.acceptInsert_of_notFound hreach h0 hnone]; rfl
  case front => rw [State.acceptInsert_front hreach h0]; rfl
  case behind => rw [State.acceptInsert_behind hreach h0 hl hy hpre]; rfl

end Sys2Proof.Machine
end

section
/-! PROOF. Faults (chapter 10): the fault record on a report (R189), FAULT_READ and FAULT_CLEAR (R190), and the clear at the
Seat Bus Engine (R138). -/

namespace Sys2Proof.Machine

/-! ### The fault record (R188, R189) -/

section FaultRecord

variable {u : FaultStore}

/-- The first fault becomes the record. -/
theorem FaultStore.take_of_empty (h : u.record = none) (clock : Option Nat) (r : FaultReport) :
    u.take clock r = { u with record := some { fault := r, clock := clock, uptime := u.uptime }, count := 1 } := by
  rw [take, h]

/-- A later fault is counted alone, up to 255. -/
theorem FaultStore.take_of_recorded (h : u.record ≠ none) (clock : Option Nat) (r : FaultReport) :
    u.take clock r = { u with count := min 255 (u.count + 1) } := by
  obtain ⟨x, hx⟩ := Option.ne_none_iff_exists'.1 h
  rw [take, hx]
  rfl

theorem FaultStore.count_eq_zero_of_empty (hu : u.legal) (h : u.record = none) : u.count = 0 := by
  obtain ⟨hpresent, -⟩ := hu
  have hnone : ¬ 1 ≤ u.count := fun hcount => by simpa [h] using hpresent.2 hcount
  omega

end FaultRecord

theorem exec_faultReport (r : FaultReport) (s : State) :
    exec (.faultReport r) s = .next { s.taken (.faultReport r) with faults := s.faults.take s.reck.clock.stamp r } :=
  rfl

/-! ### The two commands (R190) -/

section FaultCommands

variable {f : MgmtFrame} {s : State}

/-- FAULT_READ is executed in every mode, and shows the record as it stands. -/
theorem exec_faultRead_of_length (hlen : f.args.length = 0) :
    exec (.faultRead f) s = .next
      ((s.taken (.faultRead f)).reply f.port f.seq 16 .ok (.faults s.faults.record s.faults.count)) :=
  State.command_of_fixedLength _ (fun _ => .inr rfl) rfl hlen

/-- FAULT_CLEAR answers the count that it discards. -/
theorem exec_faultClear_of_length (hmode : s.mgmt.mode ≠ .restartPending) (hlen : f.args.length = 0) :
    exec (.faultClear f) s = .next
      (State.reply { s.taken (.faultClear f) with
        announced := (s.taken (.faultClear f)).announced ++ [.faultClearEngine]
        faults := { s.faults with record := none, count := 0 } } f.port f.seq 17 .ok (.faultCount s.faults.count)) :=
  State.command_of_fixedLength _ (fun h => absurd h hmode) rfl hlen

theorem exec_faultClear_of_restartPending (hmode : s.mgmt.mode = .restartPending) :
    exec (.faultClear f) s = .next ((s.taken (.faultClear f)).reply f.port f.seq 17 .busy .none) :=
  State.command_of_restartPending _ hmode (by decide)

end FaultCommands

theorem exec_faultClearEngine (s : State) :
    exec .faultClearEngine s = .next { s.taken .faultClearEngine with bus := { s.bus with lampReported := [] } } :=
  rfl

/-- Settles O58: a report is decided by whether the record is empty, FAULT_CLEAR by whether a restart is pending; FAULT_READ
and the engine's clear have one outcome each. -/
theorem faultCommands : Obligations.FaultCommands := by
  refine ⟨fun r s => ⟨fun hempty => ?first, fun hrecorded => ?later⟩,
    fun f s hlen => ⟨exec_faultRead_of_length hlen, FaultStore.count_eq_zero_of_empty,
      fun hmode => exec_faultClear_of_length hmode hlen, exec_faultClear_of_restartPending⟩,
    exec_faultClearEngine⟩
  case first => rw [exec_faultReport, FaultStore.take_of_empty hempty]; rfl
  case later => rw [exec_faultReport, FaultStore.take_of_recorded hrecorded]; rfl

end Sys2Proof.Machine
end

section
/-! PROOF. The laws that every step keeps, and the rules over all commands: the line. -/

namespace Sys2Proof.Machine

/-! ### A step is a command (logs 4, 5) -/

/-- What every command keeps every step keeps, where the commands that wait have no part in it. -/
theorem step_keeps {P : State → Prop} (hpending : ∀ s cs, P s → P { s with pending := cs })
    (hexec : ∀ {c : Instr} {s t : State}, exec c s = .next t → P s → P t) {s t : State} (hs : P s)
    (h : step s = .next t) : P t := by
  unfold step at h
  split at h
  · exact hexec h (hpending _ _ hs)
  · split at h
    · exact hexec h hs
    · cases h; exact hs

/-! ### The line (R1, R12, R15, R16) -/

section Line

variable {c : Instr} {s t : State}

theorem PortState.start_legal : PortState.start.legal := by decide

theorem LineInterface.start_legal : ({ relay := .closed, end1 := .start, end2 := .start } : LineInterface).legal := by
  decide

/-- A management command offers its one reply to the line that its meaning leaves. -/
theorem runCommand_line_legal {code : Nat} {f : MgmtFrame} {onRefuse : Result → Answer} {body : Answer} {mode : Mode}
    (h : runCommand code f onRefuse body mode = .next t) (hbody : body.after.line.legal)
    (hrefuse : ∀ r, (onRefuse r).after.line.legal) : t.line.legal :=
  runCommand_keeps (P := fun s => s.line.legal) h (fun _ _ _ _ _ _ hl => LineInterface.offer_legal hl _ _) hbody hrefuse


/-- The outcomes of a load leave the line alone. -/
@[simp] theorem State.loadRecords_line (s : State) (f : Family) (i m : Nat) (bytes : List Byte) :
    (s.loadRecords f i m bytes).after.line = s.line := by
  rcases loadRecords_cases s f i m bytes with ⟨r, h⟩ | ⟨rs, -, -, -, -, h⟩
  · rw [h]; rfl
  · rw [h]

@[simp] theorem State.load_line (s : State) (args : List Byte) : (s.load args).after.line = s.line := by
  unfold State.load
  split
  · rfl
  · split
    · rfl
    · exact s.loadRecords_line _ _ _ _

@[simp] theorem State.loadNext_line (s : State) (args : List Byte) : (s.loadNext args).after.line = s.line := by
  unfold State.loadNext
  split
  · rfl
  · exact s.loadRecords_line _ _ _ _

@[simp] theorem State.commit_line (s : State) (args : List Byte) : (s.commit args).after.line = s.line := by
  rcases commit_cases s args with ⟨h, -⟩ | ⟨a, -, -, -, -, -, -, -, h⟩ <;> rw [h]
  exact s.accept_line _

@[simp] theorem State.discard_line (s : State) (args : List Byte) : (s.discard args).after.line = s.line := by
  unfold State.discard
  dsimp only
  split <;> rfl

@[simp] theorem State.resvAdd_line (s : State) (args : List Byte) : (s.resvAdd args).after.line = s.line := by
  unfold State.resvAdd
  dsimp only
  split <;> rfl

@[simp] theorem State.resvDrop_line (s : State) (args : List Byte) : (s.resvDrop args).after.line = s.line := by
  unfold State.resvDrop
  dsimp only
  split
  · rfl
  · split <;> rfl

@[simp] theorem State.acceptInsert_line (s : State) (args : List Byte) : (s.acceptInsert args).after.line = s.line := by
  rcases acceptInsert_cases s args with ⟨r, h, -⟩ | ⟨-, -, -, -, -, h⟩
  · rw [h]; rfl
  · rw [h]

theorem PortState.cleared_legal {q : PortState} (h : q.legal) : q.cleared.legal := by
  obtain ⟨hthrough, hown, hrun, -, hidle, hdown⟩ := h
  exact ⟨hthrough, hown, hrun, by simp [PortState.cleared], hidle, hdown⟩

theorem State.clearCounters_line_legal (hl : s.line.legal) : s.clearCounters.line.legal := by
  obtain ⟨h1, h2, hrelay⟩ := hl
  exact ⟨PortState.cleared_legal h1, PortState.cleared_legal h2, hrelay⟩

/-- A port that loses its frames and its link stays within the law, whatever its counters count. -/
theorem PortState.emptied_legal {q : PortState} (h : q.legal) {n : Nat} (hn : n ≤ 65535) :
    ({ q.emptied with linkLoss := n } : PortState).legal := by
  obtain ⟨-, -, -, ⟨hbad, hthrough, hlocal, -⟩, -, -⟩ := h
  exact ⟨Nat.zero_le _, Nat.zero_le _, Nat.zero_le _, ⟨hbad, hthrough, hlocal, hn⟩, fun _ => ⟨rfl, rfl⟩, fun _ => rfl⟩

/-- A link that trains, or comes up from TRAINING, has no frame held. -/
theorem PortState.link_legal {q : PortState} (h : q.legal) (hq : q.link ≠ .up) (link : LinkState) :
    ({ q with link := link } : PortState).legal := by
  obtain ⟨hthrough, hown, hrun, hcounters, hidle, hdown⟩ := h
  exact ⟨hthrough, hown, hrun, hcounters, hidle, fun _ => hdown hq⟩

theorem execNeighbourSignalAppears_line_legal {p : Port} (h : execNeighbourSignalAppears p s = .next t)
    (hl : s.line.legal) : t.line.legal := by
  unfold execNeighbourSignalAppears at h
  split at h
  · next hp =>
    obtain ⟨hopen, hdown⟩ := hp
    cases h
    exact LineInterface.mapPort_legal hl (PortState.link_legal (LineInterface.port_legal hl p) (by simp [hdown]) _)
      (by simp [hopen])
  · cases h; exact hl

theorem execTrainingCompletes_line_legal {p : Port} (h : execTrainingCompletes p s = .next t)
    (hl : s.line.legal) : t.line.legal := by
  unfold execTrainingCompletes at h
  split at h
  · next hp =>
    cases h
    refine LineInterface.mapPort_legal hl (PortState.link_legal (LineInterface.port_legal hl p) (by simp [hp]) _) fun hr => ?_
    exact absurd (LineInterface.port_down hl p hr) (by simp [hp])
  · cases h; exact hl

theorem execLossOfSignal_line_legal {p : Port} (h : execLossOfSignal p s = .next t)
    (hl : s.line.legal) : t.line.legal := by
  unfold execLossOfSignal at h
  split at h
  · cases h; exact hl
  · next hp =>
    cases h
    exact LineInterface.mapPort_legal hl (PortState.link_legal (LineInterface.port_legal hl p) (by simp [hp]) _) fun _ => rfl
  · cases h
    exact LineInterface.mapPort_legal hl (PortState.emptied_legal (LineInterface.port_legal hl p) (count16_le _ _)) fun _ => rfl

theorem execFrameArrival_line_legal {p : Port} {bytes : List Byte} (h : execFrameArrival p bytes s = .next t)
    (hl : s.line.legal) : t.line.legal := by
  unfold execFrameArrival at h
  split at h
  · cases h; exact hl
  · split at h
    · cases h
      obtain ⟨hthrough, hown, hrun, ⟨-, hcounters⟩, hidle, hdown⟩ := LineInterface.port_legal hl p
      exact LineInterface.mapPort_legal hl ⟨hthrough, hown, hrun, ⟨count16_le _ _, hcounters⟩, hidle, hdown⟩
        (LineInterface.port_down hl p)
    · next f _ =>
      cases h
      dsimp only
      split
      · next hf =>
        obtain ⟨-, -, -, hup⟩ := (s.forwards_eq_true_iff p f).1 hf
        exact LineInterface.mapPort_legal hl (PortState.offerThrough_legal _ (LineInterface.port_legal hl _) hup)
          fun hr => by rw [PortState.offerThrough_link]; exact LineInterface.port_down hl _ hr
      · exact hl

theorem execTransmissionEnd_line_legal {p : Port} (h : execTransmissionEnd p s = .next t)
    (hl : s.line.legal) : t.line.legal := by
  unfold execTransmissionEnd at h
  split at h
  · next hp =>
    cases h
    obtain ⟨hthrough, hown, hrun, hcounters, -, hdown⟩ := LineInterface.port_legal hl p
    have hup : (s.line.port p).link = .up := by
      by_contra hne
      simp [hdown hne] at hp
    refine LineInterface.mapPort_legal hl (PortState.arbitrate_legal hthrough hown hrun hcounters ?_) fun hr => ?_
    · exact fun hne => absurd hup hne
    · exact absurd (LineInterface.port_down hl p hr) (by simp [hup])
  · cases h; exact hl

theorem State.numberCoach_line_legal (hl : s.line.legal) (p : Port) (seq n : Byte) (k : Nat) :
    (s.numberCoach p seq n k).line.legal := by
  unfold State.numberCoach
  dsimp only
  split <;> exact LineInterface.offer_legal hl _ _

theorem execEnumerate_line_legal {p : Port} {seq : Byte} {payload : List Byte} (h : execEnumerate p seq payload s = .next t)
    (hl : s.line.legal) : t.line.legal := by
  unfold execEnumerate at h
  dsimp only at h
  split at h
  · split at h
    · cases h; exact State.numberCoach_line_legal (s := s.taken _) hl _ _ _ _
    · cases h; exact LineInterface.offer_legal (l := (s.taken _).line) hl _ _
  · cases h; exact hl

/-- Start-up opens the relay and sets both links training, from links that are DOWN. -/
theorem execStartUpComplete_line_legal (h : execStartUpComplete s = .next t) (hl : s.line.legal) : t.line.legal := by
  unfold execStartUpComplete at h
  split at h
  · next hp =>
    obtain ⟨-, hclosed⟩ := hp
    obtain ⟨h1, h2, hdown⟩ := hl
    obtain ⟨hd1, hd2⟩ := hdown hclosed
    cases h
    have hread : (if s.retainedRead = true then s else s.readRetained).line = s.line := by split <;> simp
    simp only [hread]
    exact ⟨PortState.link_legal h1 (by simp [hd1]) _, PortState.link_legal h2 (by simp [hd2]) _, nofun⟩
  · cases h; exact hl

theorem execRestartHoldEnd_line_legal (h : execRestartHoldEnd s = .next t) (hl : s.line.legal) : t.line.legal := by
  unfold execRestartHoldEnd at h
  split at h
  · cases h
    rw [State.readRetained_line, State.restarted_line]
    exact LineInterface.start_legal
  · cases h; exact hl

theorem execStore_line_legal {f : MgmtFrame} (h : execStore f s = .next t) (hl : s.line.legal) : t.line.legal := by
  unfold execStore at h
  dsimp only at h
  split at h
  · cases h; exact LineInterface.offer_legal hl _ _
  · split at h
    · cases h; exact LineInterface.offer_legal hl _ _
    · cases h; exact hl

theorem execStoreWriteEnd_line_legal {agrees : Bool} (h : execStoreWriteEnd agrees s = .next t) (hl : s.line.legal) :
    t.line.legal := by
  unfold execStoreWriteEnd at h
  split at h
  · cases h; exact hl
  · dsimp only at h
    split at h <;> cases h <;> exact LineInterface.offer_legal (l := s.line) hl _ _

theorem execMgmtUnknownCommand_line_legal {p : Port} {seq : Byte} {payload : List Byte}
    (h : execMgmtUnknownCommand p seq payload s = .next t) (hl : s.line.legal) : t.line.legal := by
  unfold execMgmtUnknownCommand at h
  dsimp only at h
  split at h <;> cases h <;> exact LineInterface.offer_legal (l := s.line) hl _ _

/-- Every command keeps the line's law: a management command by its one offered reply, the line's own events each by its
lemma, every other command by leaving the line alone. -/
theorem exec_line_legal (h : exec c s = .next t) (hl : s.line.legal) : t.line.legal := by
  have unwritten (hw : c.writesLine = false) : t.line.legal := by rw [exec_line h hw]; exact hl
  cases c with
  | powerOn => cases h; exact LineInterface.start_legal
  | powerLoss => cases h; exact LineInterface.start_legal
  | startUpComplete => exact execStartUpComplete_line_legal h hl
  | neighbourSignalAppears _ => exact execNeighbourSignalAppears_line_legal h hl
  | trainingCompletes _ => exact execTrainingCompletes_line_legal h hl
  | lossOfSignal _ => exact execLossOfSignal_line_legal h hl
  | linkChangeReport _ _ => cases h; exact LineInterface.offerEvent_legal hl _ _
  | frameArrival _ _ => exact execFrameArrival_line_legal h hl
  | transmissionEnd _ => exact execTransmissionEnd_line_legal h hl
  | enumerate _ _ _ => exact execEnumerate_line_legal h hl
  | mgmtUnknownCommand _ _ _ => exact execMgmtUnknownCommand_line_legal h hl
  | load _ => exact runCommand_line_legal h (by simpa using hl) fun _ => hl
  | loadNext _ => exact runCommand_line_legal h (by simpa using hl) fun _ => hl
  | commit _ => exact runCommand_line_legal h (by simpa using hl) fun _ => hl
  | discard _ => exact runCommand_line_legal h (by simpa using hl) fun _ => hl
  | mode _ => exact runCommand_line_legal h (by split <;> simpa using hl) fun _ => hl
  | param _ => exact runCommand_line_legal h (by split <;> exact hl) fun _ => hl
  | status _ =>
    refine runCommand_line_legal h ?_ fun _ => hl
    dsimp only
    split
    · exact hl
    · exact State.clearCounters_line_legal (s := s.taken _) hl
  | startAck _ => exact runCommand_line_legal h hl fun _ => hl
  | assign _ => exact runCommand_line_legal h hl fun _ => hl
  | stopCancel _ =>
    refine runCommand_line_legal h ?_ fun _ => hl
    split
    · exact hl
    · dsimp only
      split <;> simpa using hl
  | resvAdd _ => exact runCommand_line_legal h (by simpa using hl) fun _ => hl
  | resvDrop _ => exact runCommand_line_legal h (by simpa using hl) fun _ => hl
  | acceptInsert _ => exact runCommand_line_legal h (by simpa using hl) fun _ => hl
  | acceptRemove _ => exact runCommand_line_legal h (by split <;> exact hl) fun _ => hl
  | restart _ => exact runCommand_line_legal h (by simpa using hl) fun _ => hl
  | faultRead _ => exact runCommand_line_legal h hl fun _ => hl
  | faultClear _ => exact runCommand_line_legal h hl fun _ => hl
  | ident _ => exact runCommand_line_legal h (by split <;> exact hl) fun _ => hl
  | store _ => exact execStore_line_legal h hl
  | storeWriteEnd _ => exact execStoreWriteEnd_line_legal h hl
  | restartHoldEnd => exact execRestartHoldEnd_line_legal h hl
  | _ => exact unwritten rfl

end Line

/-- Settles O4. -/
theorem lineLawKept : Obligations.LineLawKept :=
  fun _ _ => step_keeps (P := fun s => s.line.legal) (fun _ _ hl => hl) exec_line_legal

end Sys2Proof.Machine
end

section
/-! PROOF. The laws that every step keeps (2): the formation (R23, R27, R35, R37), and the fault record with the restart hold
(R188, R189, R191). -/

namespace Sys2Proof.Machine

/-! ### The formation -/

section Formation

variable {c : Instr} {s t : State}

theorem FormationUnit.start_legal : FormationUnit.start.legal := by decide

/-- The law says nothing of the identity. -/
theorem FormationUnit.legal_identity {u : FormationUnit} (h : u.legal) (i : BitVec 32) :
    ({ u with identity := i } : FormationUnit).legal := h

theorem FormationUnit.legal_unnumbered {u : FormationUnit} (h : u.legal) :
    ({ u with numbering := .unnumbered } : FormationUnit).legal := by
  obtain ⟨-, -, hrest⟩ := h
  exact ⟨nofun, nofun, hrest⟩

theorem FormationUnit.afterReport_legal {u : FormationUnit} (h : u.legal) (p : Port) (link : LinkState) :
    (u.afterReport p link).legal := by
  unfold FormationUnit.afterReport
  split
  · exact FormationUnit.legal_unnumbered h
  · exact h

theorem FormationUnit.numbered_legal {u : FormationUnit} (h : u.legal) (p : Port) {position : Nat} (h1 : 1 ≤ position)
    (h32 : position ≤ 32) : (u.numbered p position).legal := by
  obtain ⟨-, -, hrest⟩ := h
  refine ⟨fun _ => ⟨h1, h32⟩, fun x hx => ?_, hrest⟩
  obtain rfl : x = p := List.mem_singleton.1 hx
  rfl

theorem execLinkChangeReport_form_legal {p : Port} {link : LinkState} (h : execLinkChangeReport p link s = .next t)
    (hl : s.form.legal) : t.form.legal := by
  obtain ⟨hposition, hhead, hportion, hnumber, hlast, -⟩ := FormationUnit.afterReport_legal hl p link
  cases h
  exact ⟨hposition, hhead, hportion, hnumber, hlast, Nat.le_of_lt_succ (Nat.mod_lt _ (by decide))⟩

theorem execEnumerate_form_legal {p : Port} {seq : Byte} {payload : List Byte} (h : execEnumerate p seq payload s = .next t)
    (hl : s.form.legal) : t.form.legal := by
  unfold execEnumerate at h
  dsimp only at h
  split at h
  · next inauguration count _ =>
    split at h
    · next hcount =>
      obtain ⟨hposition, hhead, hportion, hnumber, -, hannounced⟩ :=
        FormationUnit.numbered_legal hl p (Nat.succ_pos count.toNat) hcount
      cases h
      refine ⟨hposition, hhead, hportion, hnumber, fun n hn => ?_, hannounced⟩
      obtain rfl : n = inauguration.toNat := List.mem_singleton.1 hn
      exact Nat.le_of_lt_succ inauguration.isLt
    · cases h; exact FormationUnit.legal_unnumbered hl
  · cases h; exact hl

theorem execAssign_form_legal {f : MgmtFrame} (h : execAssign f s = .next t) (hl : s.form.legal) : t.form.legal := by
  refine runCommand_keeps (P := fun s => s.form.legal) h (fun _ _ _ _ _ _ h => h) ?_ fun _ => hl
  obtain ⟨hposition, hhead, -, -, hrest⟩ := hl
  exact ⟨hposition, hhead, Nat.min_le_left _ _, Nat.min_le_left _ _, hrest⟩

theorem execIdent_form_legal {f : MgmtFrame} (h : execIdent f s = .next t) (hl : s.form.legal) : t.form.legal := by
  refine runCommand_keeps (P := fun s => s.form.legal) h (fun _ _ _ _ _ _ h => h) ?_ fun _ => hl
  split
  · exact hl
  · exact FormationUnit.legal_identity hl _

/-- The retained settings hold one item of the formation, the identity (R194). -/
theorem State.readRetained_form_legal (hl : s.form.legal) : s.readRetained.form.legal := by
  unfold State.readRetained
  split <;> exact FormationUnit.legal_identity hl _

theorem execStartUpComplete_form_legal (h : execStartUpComplete s = .next t) (hl : s.form.legal) : t.form.legal := by
  unfold execStartUpComplete at h
  split at h
  · cases h
    dsimp only
    split
    · exact hl
    · exact State.readRetained_form_legal hl
  · cases h; exact hl

theorem execRestartHoldEnd_form_legal (h : execRestartHoldEnd s = .next t) (hl : s.form.legal) : t.form.legal := by
  unfold execRestartHoldEnd at h
  split at h
  · cases h; exact State.readRetained_form_legal FormationUnit.start_legal
  · cases h; exact hl

theorem exec_form_legal (h : exec c s = .next t) (hl : s.form.legal) : t.form.legal := by
  have unwritten (hw : c.writesForm = false) : t.form.legal := by rw [exec_form h hw]; exact hl
  cases c with
  | powerOn => cases h; exact FormationUnit.start_legal
  | powerLoss => cases h; exact FormationUnit.start_legal
  | startUpComplete => exact execStartUpComplete_form_legal h hl
  | restartHoldEnd => exact execRestartHoldEnd_form_legal h hl
  | linkChangeReport _ _ => exact execLinkChangeReport_form_legal h hl
  | enumerate _ _ _ => exact execEnumerate_form_legal h hl
  | assign _ => exact execAssign_form_legal h hl
  | ident _ => exact execIdent_form_legal h hl
  | _ => exact unwritten rfl

/-- What each command writes of the formation, beside ASSIGN's three items. -/
theorem execLinkChangeReport_form {p : Port} {link : LinkState} (h : execLinkChangeReport p link s = .next t) :
    ∃ n a, t.form = { s.form with numbering := n, announcements := a } := by
  cases h
  dsimp only [FormationUnit.afterReport]
  split <;> exact ⟨_, _, rfl⟩

theorem execEnumerate_form {p : Port} {seq : Byte} {payload : List Byte} (h : execEnumerate p seq payload s = .next t) :
    ∃ n o l, t.form = { s.form with numbering := n, orientation := o, lastInauguration := l } := by
  unfold execEnumerate at h
  dsimp only at h
  repeat' split at h
  all_goals cases h; exact ⟨_, _, _, rfl⟩

theorem execAssign_form {f : MgmtFrame} (h : execAssign f s = .next t) :
    ∃ p n k, t.form = { s.form with portion := p, coachNumber := n, coachClass := k } :=
  runCommand_keeps (P := fun t => ∃ p n k, t.form = { s.form with portion := p, coachNumber := n, coachClass := k }) h
    (fun _ _ _ _ _ _ h => h) ⟨_, _, _, rfl⟩ fun _ => ⟨_, _, _, rfl⟩

theorem execIdent_form {f : MgmtFrame} (h : execIdent f s = .next t) : ∃ i, t.form = { s.form with identity := i } := by
  refine runCommand_keeps (P := fun t => ∃ i, t.form = { s.form with identity := i }) h (fun _ _ _ _ _ _ h => h) ?_
    fun _ => ⟨_, rfl⟩
  split <;> exact ⟨_, rfl⟩

theorem execStartUpComplete_form (h : execStartUpComplete s = .next t) : ∃ i, t.form = { s.form with identity := i } := by
  unfold execStartUpComplete at h
  split at h
  · cases h
    dsimp only [State.readRetained]
    repeat' split
    all_goals exact ⟨_, rfl⟩
  · cases h; exact ⟨_, rfl⟩

end Formation

/-- Settles O5. -/
theorem formationLawKept : Obligations.FormationLawKept :=
  fun _ _ => step_keeps (P := fun s => s.form.legal) (fun _ _ hl => hl) exec_form_legal

/-! ### What each command leaves of the Management Unit -/

section Management

variable {c : Instr} {s t : State}

/-- The load context and the pending commit, the items of table loading, may differ; no other item of the unit does. -/
abbrev ManagementUnit.loadsOnly (old new : ManagementUnit) : Prop :=
  new = { old with context := new.context, commit := new.commit }

/-- A load writes the context alone. -/
theorem State.loadRecords_mgmt (s : State) (f : Family) (i m : Nat) (bytes : List Byte) :
    s.mgmt.loadsOnly (s.loadRecords f i m bytes).after.mgmt := by
  rcases loadRecords_cases s f i m bytes with ⟨r, h⟩ | ⟨rs, -, -, -, -, h⟩ <;> rw [h]
  rfl

theorem State.load_mgmt (s : State) (args : List Byte) : s.mgmt.loadsOnly (s.load args).after.mgmt := by
  unfold State.load
  split
  · rfl
  · split
    · rfl
    · exact s.loadRecords_mgmt _ _ _ _

theorem State.loadNext_mgmt (s : State) (args : List Byte) : s.mgmt.loadsOnly (s.loadNext args).after.mgmt := by
  unfold State.loadNext
  split
  · rfl
  · exact s.loadRecords_mgmt _ _ _ _

theorem State.accept_mgmt_loadsOnly (s : State) (x : PendingCommit) : s.mgmt.loadsOnly (s.accept x).mgmt := by
  unfold State.accept
  dsimp only
  split <;> rfl

theorem State.commit_mgmt (s : State) (args : List Byte) : s.mgmt.loadsOnly (s.commit args).after.mgmt := by
  rcases commit_cases s args with ⟨h, -⟩ | ⟨a, -, -, -, -, -, -, -, h⟩ <;> rw [h]
  exact s.accept_mgmt_loadsOnly _

theorem State.discard_mgmt (s : State) (args : List Byte) : s.mgmt.loadsOnly (s.discard args).after.mgmt := by
  unfold State.discard
  dsimp only
  split <;> rfl

theorem execDepartureReport_mgmt {d : Nat} (h : execDepartureReport d s = .next t) : s.mgmt.loadsOnly t.mgmt := by
  unfold execDepartureReport at h
  dsimp only at h
  repeat' split at h
  all_goals cases h; rfl

theorem execNewInauguration_mgmt (h : execNewInauguration s = .next t) : s.mgmt.loadsOnly t.mgmt := by
  unfold execNewInauguration at h
  dsimp only at h
  repeat' split at h
  all_goals cases h; rfl

/-- A management command is refused from the state before it, or its checks have passed (R42). -/
theorem runCommand_cases {code : Nat} {f : MgmtFrame} {onRefuse : Result → Answer} {body : Answer} {mode : Mode}
    (h : runCommand code f onRefuse body mode = .next t) :
    (∃ r, t.mgmt = (onRefuse r).after.mgmt) ∨ (commonCheck code f.args mode = none ∧ t.mgmt = body.after.mgmt) := by
  unfold runCommand at h
  split at h
  · cases h; exact .inl ⟨_, rfl⟩
  · next hc => cases h; exact .inr ⟨hc, rfl⟩

/-- While a restart is pending only STATUS and FAULT_READ pass the checks. -/
theorem mode_ne_of_commonCheck {code : Nat} {args : List Byte} {mode : Mode} (h : commonCheck code args mode = none)
    (hcode : code ≠ 7 ∧ code ≠ 16) : mode ≠ .restartPending := by
  rintro rfl
  rw [commonCheck_of_restartPending rfl hcode] at h
  cases h

/-- What a command other than a start can make of the Management Unit. -/
inductive State.mgmtBecomes (s : State) : ManagementUnit → Prop
  | loads {u : ManagementUnit} : s.mgmt.loadsOnly u → s.mgmtBecomes u
  | mode (m : Mode) : s.mgmt.mode ≠ .restartPending → m ≠ .restartPending → s.mgmtBecomes { s.mgmt with mode := m }
  | restart (n : Nat) : s.mgmt.mode ≠ .restartPending →
    s.mgmtBecomes { s.mgmt with mode := .restartPending, hold := some (holdOf n) }
  | params {number value : Nat} {p : Params} : s.mgmt.params.set number value = some p →
    s.mgmtBecomes { s.mgmt with params := p }
  | settings (r : RetainedSet) : r ∈ s.retained.toList ∨ r = .defaults → s.mgmtBecomes { s.mgmt with params := r.params }
  | acknowledged : s.mgmtBecomes { s.mgmt with cold := false }
  | writes (w : StoreWrite) : w.copy = s.settings → s.mgmtBecomes { s.mgmt with store := some w }
  | written : s.mgmtBecomes { s.mgmt with store := none }

theorem State.mgmtBecomes_self : s.mgmtBecomes s.mgmt := .loads rfl

/-- A command whose refusal keeps the unit becomes what its meaning makes of it. -/
theorem runCommand_mgmtBecomes {code : Nat} {f : MgmtFrame} {onRefuse : Result → Answer} {body : Answer} {mode : Mode}
    (h : runCommand code f onRefuse body mode = .next t) (hrefuse : ∀ r, s.mgmtBecomes (onRefuse r).after.mgmt)
    (hbody : commonCheck code f.args mode = none → s.mgmtBecomes body.after.mgmt) : s.mgmtBecomes t.mgmt := by
  rcases runCommand_cases h with ⟨r, ht⟩ | ⟨hcheck, ht⟩ <;> rw [ht]
  · exact hrefuse r
  · exact hbody hcheck

/-- RESTART_PENDING is no mode of a MODE command (R59). -/
theorem modeOf_ne {n : Nat} {m : Mode} (h : modeOf n = some m) : m ≠ .restartPending := by
  unfold modeOf at h
  split at h <;> cases h <;> decide

theorem State.setMode_mgmt (s : State) (m : Mode) : (s.setMode m).mgmt = { s.mgmt with mode := m } := by
  unfold State.setMode
  split
  · next hm => rw [← hm]
  · rfl

theorem execMode_mgmtBecomes {f : MgmtFrame} (h : execMode f s = .next t) : s.mgmtBecomes t.mgmt := by
  refine runCommand_mgmtBecomes h (fun _ => s.mgmtBecomes_self) fun hcheck => ?_
  split
  · next m hm =>
    rw [State.setMode_mgmt]
    exact .mode m (mode_ne_of_commonCheck hcheck (by decide)) (modeOf_ne hm)
  · exact s.mgmtBecomes_self

theorem execRestart_mgmtBecomes {f : MgmtFrame} (h : execRestart f s = .next t) : s.mgmtBecomes t.mgmt := by
  refine runCommand_mgmtBecomes h (fun _ => s.mgmtBecomes_self) fun hcheck => ?_
  rw [State.setMode_mgmt]
  exact .restart _ (mode_ne_of_commonCheck hcheck (by decide))

theorem execParam_mgmtBecomes {f : MgmtFrame} (h : execParam f s = .next t) : s.mgmtBecomes t.mgmt := by
  refine runCommand_mgmtBecomes h (fun _ => s.mgmtBecomes_self) fun _ => ?_
  split
  · next hp => exact .params hp
  · exact s.mgmtBecomes_self

theorem execStore_mgmtBecomes {f : MgmtFrame} (h : execStore f s = .next t) : s.mgmtBecomes t.mgmt := by
  unfold execStore at h
  dsimp only at h
  split at h
  · cases h; exact s.mgmtBecomes_self
  · split at h
    · cases h; exact s.mgmtBecomes_self
    · cases h; exact .writes _ rfl

theorem execStoreWriteEnd_mgmtBecomes {agrees : Bool} (h : execStoreWriteEnd agrees s = .next t) :
    s.mgmtBecomes t.mgmt := by
  unfold execStoreWriteEnd at h
  split at h
  · cases h; exact s.mgmtBecomes_self
  · dsimp only at h
    split at h <;> cases h <;> exact .written

theorem State.readRetained_mgmtBecomes (s : State) : s.mgmtBecomes s.readRetained.mgmt := by
  unfold State.readRetained
  split
  · next r hr => exact .settings r (.inl (by simp [hr]))
  · exact .settings _ (.inr rfl)

theorem execStartUpComplete_mgmtBecomes (h : execStartUpComplete s = .next t) : s.mgmtBecomes t.mgmt := by
  unfold execStartUpComplete at h
  split at h
  · cases h
    dsimp only
    split
    · exact s.mgmtBecomes_self
    · exact s.readRetained_mgmtBecomes
  · cases h; exact s.mgmtBecomes_self

theorem exec_mgmtBecomes (h : exec c s = .next t) (hc : isStart c = false) : s.mgmtBecomes t.mgmt := by
  have unwritten (hw : c.writesMgmt = false) : s.mgmtBecomes t.mgmt := by
    rw [exec_mgmt h hw]; exact s.mgmtBecomes_self
  cases c with
  | powerOn => cases hc
  | powerLoss => cases hc
  | restartHoldEnd => cases hc
  | startUpComplete => exact execStartUpComplete_mgmtBecomes h
  | newInauguration => exact .loads (execNewInauguration_mgmt h)
  | departureReport _ => exact .loads (execDepartureReport_mgmt h)
  | load _ => exact runCommand_mgmtBecomes h (fun _ => .loads rfl) fun _ => .loads (State.load_mgmt (s.taken _) _)
  | loadNext _ =>
    exact runCommand_mgmtBecomes h (fun _ => .loads rfl) fun _ => .loads (State.loadNext_mgmt (s.taken _) _)
  | commit _ =>
    exact runCommand_mgmtBecomes h (fun _ => .loads rfl) fun _ => .loads (State.commit_mgmt (s.taken _).noContext _)
  | discard _ =>
    exact runCommand_mgmtBecomes h (fun _ => .loads rfl) fun _ => .loads (State.discard_mgmt (s.taken _).noContext _)
  | mode _ => exact execMode_mgmtBecomes h
  | param _ => exact execParam_mgmtBecomes h
  | startAck _ => exact runCommand_mgmtBecomes h (fun _ => s.mgmtBecomes_self) fun _ => .acknowledged
  | restart _ => exact execRestart_mgmtBecomes h
  | store _ => exact execStore_mgmtBecomes h
  | storeWriteEnd _ => exact execStoreWriteEnd_mgmtBecomes h
  | _ => exact unwritten rfl

end Management

/-! ### The fault record and the restart hold -/

section Faults

variable {c : Instr} {s t : State}

theorem FaultStore.start_legal : FaultStore.start.legal := by decide

theorem FaultStore.take_legal {u : FaultStore} (h : u.legal) (clock : Option Nat) (r : FaultReport) :
    (u.take clock r).legal := by
  obtain ⟨-, -, huptime⟩ := h
  by_cases hr : u.record = none
  · rw [FaultStore.take_of_empty hr]
    exact ⟨by simp, Nat.le_add_left 1 254, huptime⟩
  · rw [FaultStore.take_of_recorded hr]
    exact ⟨iff_of_true (Option.isSome_iff_ne_none.2 hr) (le_min (by decide) (Nat.le_add_left 1 _)), Nat.min_le_left _ _, huptime⟩

theorem State.settledFaults_legal (hl : s.faults.legal) : s.settledFaults.legal := by
  unfold State.settledFaults
  generalize outstandingFaults s.announced = rs
  generalize s.faults = u at hl ⊢
  induction rs generalizing u with
  | nil => exact hl
  | cons r rs ih => exact ih _ (FaultStore.take_legal hl _ r)

theorem State.readRetained_faults_legal (hl : s.faults.legal) : s.readRetained.faults.legal := by
  unfold State.readRetained
  split
  · exact hl
  · exact FaultStore.take_legal hl _ _

theorem execStartUpComplete_faults_legal (h : execStartUpComplete s = .next t) (hl : s.faults.legal) : t.faults.legal := by
  unfold execStartUpComplete at h
  split at h
  · cases h
    dsimp only
    split
    · exact hl
    · exact State.readRetained_faults_legal hl
  · cases h; exact hl

theorem execRestartHoldEnd_faults_legal (h : execRestartHoldEnd s = .next t) (hl : s.faults.legal) : t.faults.legal := by
  unfold execRestartHoldEnd at h
  split at h
  · cases h
    obtain ⟨hpresent, hcount, -⟩ := State.settledFaults_legal hl
    exact State.readRetained_faults_legal (s := s.restarted) ⟨hpresent, hcount, Nat.zero_le _⟩
  · cases h; exact hl

theorem execSecondsTick_faults_legal (h : execSecondsTick s = .next t) (hl : s.faults.legal) : t.faults.legal := by
  unfold execSecondsTick at h
  split at h
  · cases h
    obtain ⟨hpresent, hcount, -⟩ := hl
    exact ⟨hpresent, hcount, Nat.min_le_left _ _⟩
  · cases h; exact hl

theorem exec_faults_legal (h : exec c s = .next t) (hl : s.faults.legal) : t.faults.legal := by
  have unwritten (hw : c.writesFaults = false) : t.faults.legal := by rw [exec_faults h hw]; exact hl
  cases c with
  | powerOn => cases h; exact FaultStore.start_legal
  | powerLoss => cases h; exact FaultStore.start_legal
  | startUpComplete => exact execStartUpComplete_faults_legal h hl
  | restartHoldEnd => exact execRestartHoldEnd_faults_legal h hl
  | secondsTick => exact execSecondsTick_faults_legal h hl
  | faultClear _ =>
    refine runCommand_keeps (P := fun s => s.faults.legal) h (fun _ _ _ _ _ _ h => h) ?_ fun _ => hl
    obtain ⟨-, -, huptime⟩ := hl
    exact ⟨by simp, Nat.zero_le _, huptime⟩
  | faultReport _ => cases h; exact FaultStore.take_legal hl _ _
  | _ => exact unwritten rfl

theorem ManagementUnit.start_holdLegal : ManagementUnit.start.holdLegal := by
  refine ⟨by decide, nofun⟩

theorem holdOf_bounds (n : Nat) : 1 ≤ holdOf n ∧ holdOf n ≤ 30 := by
  unfold holdOf
  split <;> omega

/-- The hold law reads the mode and the hold, which a restart sets together and no other command parts. -/
theorem State.mgmtBecomes_holdLegal {u : ManagementUnit} (h : s.mgmtBecomes u) (hl : s.mgmt.holdLegal) : u.holdLegal := by
  cases h with
  | loads hu => rw [hu]; exact hl
  | mode m hs hm =>
    obtain ⟨hmode, hhold⟩ := hl
    exact ⟨iff_of_false hm (mt hmode.2 hs), hhold⟩
  | restart n hs =>
    refine ⟨by simp, fun k hk => ?_⟩
    obtain rfl : k = holdOf n := List.mem_singleton.1 hk
    exact holdOf_bounds n
  | params _ => exact hl
  | settings _ _ => exact hl
  | acknowledged => exact hl
  | writes _ _ => exact hl
  | written => exact hl

theorem execRestartHoldEnd_holdLegal (h : execRestartHoldEnd s = .next t) (hl : s.mgmt.holdLegal) : t.mgmt.holdLegal := by
  unfold execRestartHoldEnd at h
  split at h
  · cases h
    exact State.mgmtBecomes_holdLegal s.restarted.readRetained_mgmtBecomes ManagementUnit.start_holdLegal
  · cases h; exact hl

theorem exec_holdLegal (h : exec c s = .next t) (hl : s.mgmt.holdLegal) : t.mgmt.holdLegal := by
  have started (hc : isStart c = false) : t.mgmt.holdLegal := State.mgmtBecomes_holdLegal (exec_mgmtBecomes h hc) hl
  cases c with
  | powerOn => cases h; exact ManagementUnit.start_holdLegal
  | powerLoss => cases h; exact ManagementUnit.start_holdLegal
  | restartHoldEnd => exact execRestartHoldEnd_holdLegal h hl
  | _ => exact started rfl

end Faults

/-- Settles O12. -/
theorem faultAndHoldLawKept : Obligations.FaultAndHoldLawKept :=
  fun _ _ => step_keeps (P := fun s => s.faults.legal ∧ s.mgmt.holdLegal) (fun _ _ hl => hl)
    fun h ⟨hfaults, hhold⟩ => ⟨exec_faults_legal h hfaults, exec_holdLegal h hhold⟩

/-! ### Which commands change an item (O13) -/

section Items

variable {c : Instr} {s t : State}

/-- Every command but ASSIGN and the starts keeps the portion, the coach number and the class. -/
theorem exec_assigned (h : exec c s = .next t) (hassign : ∀ f, c ≠ .assign f) (hc : isStart c = false) :
    t.form.portion = s.form.portion ∧ t.form.coachNumber = s.form.coachNumber ∧ t.form.coachClass = s.form.coachClass := by
  have unwritten (hw : c.writesForm = false) : t.form.portion = s.form.portion ∧
      t.form.coachNumber = s.form.coachNumber ∧ t.form.coachClass = s.form.coachClass := by
    rw [exec_form h hw]; exact ⟨rfl, rfl, rfl⟩
  cases c with
  | powerOn => cases hc
  | powerLoss => cases hc
  | restartHoldEnd => cases hc
  | assign f => exact absurd rfl (hassign f)
  | startUpComplete =>
    obtain ⟨i, hi⟩ := execStartUpComplete_form h
    rw [hi]; exact ⟨rfl, rfl, rfl⟩
  | linkChangeReport _ _ =>
    obtain ⟨n, a, hu⟩ := execLinkChangeReport_form h
    rw [hu]; exact ⟨rfl, rfl, rfl⟩
  | enumerate _ _ _ =>
    obtain ⟨n, o, l, hu⟩ := execEnumerate_form h
    rw [hu]; exact ⟨rfl, rfl, rfl⟩
  | ident _ =>
    obtain ⟨i, hi⟩ := execIdent_form h
    rw [hi]; exact ⟨rfl, rfl, rfl⟩
  | _ => exact unwritten rfl

/-- Every command but IDENT, the start-up and the starts keeps the identity. -/
theorem exec_identity (h : exec c s = .next t) (hident : ∀ f, c ≠ .ident f) (hup : c ≠ .startUpComplete)
    (hc : isStart c = false) : t.form.identity = s.form.identity := by
  have unwritten (hw : c.writesForm = false) : t.form.identity = s.form.identity := by rw [exec_form h hw]
  cases c with
  | powerOn => cases hc
  | powerLoss => cases hc
  | restartHoldEnd => cases hc
  | ident f => exact absurd rfl (hident f)
  | startUpComplete => exact absurd rfl hup
  | linkChangeReport _ _ =>
    obtain ⟨n, a, hu⟩ := execLinkChangeReport_form h
    rw [hu]
  | enumerate _ _ _ =>
    obtain ⟨n, o, l, hu⟩ := execEnumerate_form h
    rw [hu]
  | assign _ =>
    obtain ⟨p, n, k, hu⟩ := execAssign_form h
    rw [hu]
  | _ => exact unwritten rfl

/-- The retained memory is written by the end of a STORE write, and cut off by a loss of power during one. -/
theorem exec_retained_kept (h : exec c s = .next t) (hstore : ∀ b, c ≠ .storeWriteEnd b)
    (hloss : c = .powerLoss → s.mgmt.store = none) : t.retained = s.retained := by
  have unwritten (hw : c.writesRetained = false) : t.retained = s.retained := exec_retained h hw
  cases c with
  | storeWriteEnd b => exact absurd rfl (hstore b)
  | powerLoss => cases h; simp [hloss rfl]
  | _ => exact unwritten rfl

/-- The tag and the activation count of every family as they were. -/
abbrev TableStore.keepsTags (old new : TableStore) : Prop :=
  ∀ f, (new.family f).tag = (old.family f).tag ∧ (new.family f).count = (old.family f).count

theorem TableStore.keepsTags_self (t : TableStore) : t.keepsTags t := fun _ => ⟨rfl, rfl⟩

theorem TableStore.setFamily_keepsTags (t : TableStore) {f : Family} {b : FamilyBanks} (htag : b.tag = (t.family f).tag)
    (hcount : b.count = (t.family f).count) : t.keepsTags (t.setFamily f b) := by
  intro g
  rw [TableStore.family_setFamily]
  split
  · next hg => rw [hg]; exact ⟨htag, hcount⟩
  · exact ⟨rfl, rfl⟩

theorem TableStore.mapFamilies_keepsTags (t : TableStore) (fs : FamilySet) {g : FamilyBanks → FamilyBanks}
    (hg : ∀ b, (g b).tag = b.tag ∧ (g b).count = b.count) : t.keepsTags (t.mapFamilies fs g) := by
  intro f
  rw [TableStore.family_mapFamilies]
  split
  · exact hg _
  · exact ⟨rfl, rfl⟩

theorem State.loadRecords_keepsTags (s : State) (f : Family) (i m : Nat) (bytes : List Byte) :
    s.tables.keepsTags (s.loadRecords f i m bytes).after.tables := by
  rcases loadRecords_cases s f i m bytes with ⟨r, h⟩ | ⟨rs, -, -, -, -, h⟩ <;> rw [h]
  · exact s.tables.keepsTags_self
  · exact s.tables.setFamily_keepsTags rfl rfl

theorem State.load_keepsTags (s : State) (args : List Byte) : s.tables.keepsTags (s.load args).after.tables := by
  unfold State.load
  split
  · exact s.tables.keepsTags_self
  · split
    · exact s.tables.keepsTags_self
    · exact s.loadRecords_keepsTags _ _ _ _

theorem State.loadNext_keepsTags (s : State) (args : List Byte) : s.tables.keepsTags (s.loadNext args).after.tables := by
  unfold State.loadNext
  split
  · exact s.tables.keepsTags_self
  · exact s.loadRecords_keepsTags _ _ _ _

theorem State.freedTables_keepsTags (s : State) : s.tables.keepsTags s.freedTables := by
  unfold State.freedTables
  split
  · exact s.tables.mapFamilies_keepsTags _ fun _ => ⟨rfl, rfl⟩
  · exact s.tables.keepsTags_self

theorem State.discard_keepsTags (s : State) (args : List Byte) : s.tables.keepsTags (s.discard args).after.tables := by
  have emptied (t : TableStore) (fs : FamilySet) :
      t.keepsTags (t.mapFamilies fs (fun b => { b with staged := [], state := .empty })) :=
    t.mapFamilies_keepsTags fs fun _ => ⟨rfl, rfl⟩
  unfold State.discard
  dsimp only
  split
  · exact s.tables.keepsTags_self
  · split
    · exact fun f => ⟨(emptied _ _ f).1.trans (s.freedTables_keepsTags f).1,
        (emptied _ _ f).2.trans (s.freedTables_keepsTags f).2⟩
    · exact emptied _ _

theorem State.cancelStop_keepsTags (s : State) (ordinal : Nat) (flag : Bool) :
    s.tables.keepsTags (s.cancelStop ordinal flag).tables := by
  intro f
  unfold State.cancelStop TableStore.setCancelled
  dsimp only
  split <;> cases f <;> exact ⟨rfl, rfl⟩

theorem State.resvAdd_keepsTags (s : State) (args : List Byte) : s.tables.keepsTags (s.resvAdd args).after.tables := by
  unfold State.resvAdd
  dsimp only
  split
  · exact s.tables.keepsTags_self
  · intro f; cases f <;> exact ⟨rfl, rfl⟩

theorem State.resvDrop_keepsTags (s : State) (args : List Byte) : s.tables.keepsTags (s.resvDrop args).after.tables := by
  unfold State.resvDrop
  dsimp only
  split
  · exact s.tables.keepsTags_self
  · split <;> intro f <;> cases f <;> exact ⟨rfl, rfl⟩

/-- What a management command keeps of the tables: what its meaning keeps, a refusal changing none. -/
theorem runCommand_keepsTags {code : Nat} {f : MgmtFrame} {onRefuse : Result → Answer} {body : Answer} {mode : Mode}
    (h : runCommand code f onRefuse body mode = .next t) (hrefuse : ∀ r, (onRefuse r).after.tables = s.tables)
    (hbody : s.tables.keepsTags body.after.tables) : s.tables.keepsTags t.tables :=
  runCommand_keeps (P := fun t => s.tables.keepsTags t.tables) h (fun _ _ _ _ _ _ h => h) hbody
    fun r => by rw [hrefuse r]; exact s.tables.keepsTags_self

/-- Every command but the three that can activate a commit, the start-up and the starts keeps the tags and counts. -/
theorem exec_keepsTags (h : exec c s = .next t) (hcommit : ∀ f, c ≠ .commit f) (hdeparture : ∀ d, c ≠ .departureReport d)
    (hinauguration : c ≠ .newInauguration) (hup : c ≠ .startUpComplete) (hc : isStart c = false) :
    s.tables.keepsTags t.tables := by
  have unwritten (hw : c.writesTables = false) : s.tables.keepsTags t.tables := by
    rw [exec_tables h hw]; exact s.tables.keepsTags_self
  cases c with
  | powerOn => cases hc
  | powerLoss => cases hc
  | restartHoldEnd => cases hc
  | startUpComplete => exact absurd rfl hup
  | commit f => exact absurd rfl (hcommit f)
  | departureReport d => exact absurd rfl (hdeparture d)
  | newInauguration => exact absurd rfl hinauguration
  | load _ => exact runCommand_keepsTags h (fun _ => rfl) (State.load_keepsTags (s.taken _) _)
  | loadNext _ => exact runCommand_keepsTags h (fun _ => rfl) (State.loadNext_keepsTags (s.taken _) _)
  | discard _ => exact runCommand_keepsTags h (fun _ => rfl) (State.discard_keepsTags (s.taken _).noContext _)
  | stopCancel _ =>
    refine runCommand_keepsTags h (fun _ => rfl) ?_
    split
    · exact s.tables.keepsTags_self
    · dsimp only
      split
      · exact s.tables.keepsTags_self
      · exact State.cancelStop_keepsTags (s.taken _) _ _
  | resvAdd _ => exact runCommand_keepsTags h (fun _ => rfl) (State.resvAdd_keepsTags (s.taken _) _)
  | resvDrop _ => exact runCommand_keepsTags h (fun _ => rfl) (State.resvDrop_keepsTags (s.taken _) _)
  | routeActivationReckoning _ => cases h; intro f; cases f <;> exact ⟨rfl, rfl⟩
  | activationAnnouncementNotice _ =>
    cases h
    split
    · intro f; cases f <;> exact ⟨rfl, rfl⟩
    · exact s.tables.keepsTags_self
  | _ => exact unwritten rfl

/-- Nothing but a start with the power sets the cold flag. -/
theorem exec_cold_cleared (h : exec c s = .next t) (hcold : s.mgmt.cold = false) (hon : c ≠ .powerOn)
    (hloss : c ≠ .powerLoss) : t.mgmt.cold = false := by
  have kept {s : State} {u : ManagementUnit} (hu : s.mgmtBecomes u) (hcold : s.mgmt.cold = false) : u.cold = false := by
    cases hu with
    | loads hu => rw [hu]; exact hcold
    | acknowledged => rfl
    | _ => exact hcold
  have started (hc : isStart c = false) : t.mgmt.cold = false := kept (exec_mgmtBecomes h hc) hcold
  cases c with
  | powerOn => exact absurd rfl hon
  | powerLoss => exact absurd rfl hloss
  | restartHoldEnd =>
    change execRestartHoldEnd s = .next t at h
    unfold execRestartHoldEnd at h
    split at h
    · cases h; exact kept s.restarted.readRetained_mgmtBecomes hcold
    · cases h; exact hcold
  | _ => exact started rfl

/-- A pending restart is ended by a start alone. -/
theorem exec_restartPending (h : exec c s = .next t) (hmode : s.mgmt.mode = .restartPending) (hc : isStart c = false) :
    t.mgmt.mode = .restartPending := by
  generalize hu : t.mgmt = u
  have hbecomes : s.mgmtBecomes u := hu ▸ exec_mgmtBecomes h hc
  cases hbecomes with
  | loads hu => rw [hu]; exact hmode
  | mode m hs _ => exact absurd hmode hs
  | restart n hs => exact absurd hmode hs
  | _ => exact hmode

end Items

/-- Settles O13. -/
theorem itemsChangedByTheirCommandsAlone : Obligations.ItemsChangedByTheirCommandsAlone :=
  ⟨fun _ _ _ => exec_assigned, fun _ _ _ => exec_identity, fun _ _ _ => exec_retained_kept,
    fun _ _ _ => exec_keepsTags, fun _ _ _ => exec_cold_cleared, fun _ _ _ => exec_restartPending⟩

end Sys2Proof.Machine
end

section
/-! PROOF. The laws that every step keeps (3): the banks with the engine that serves them (R45, R51, R56, R128, R131), and
the pending commit (R46, R49, R54). -/

namespace Sys2Proof

/-- The commands that write the load context, the pending commit or the state of a staged bank. -/
def Instr.writesLoading : Instr → Bool
  | .powerOn => true
  | .powerLoss => true
  | .restartHoldEnd => true
  | .newInauguration => true
  | .departureReport _ => true
  | .load _ => true
  | .loadNext _ => true
  | .commit _ => true
  | .discard _ => true
  | _ => false

end Sys2Proof

namespace Sys2Proof.Machine

/-! ### The banks -/

section Banks

variable {s : State} {t : TableStore}

theorem bigEndian_lt (bs : List Byte) : bigEndian bs < 256 ^ bs.length := by
  induction bs using List.reverseRecOn with
  | nil => decide
  | append_singleton bs b ih =>
    have hb : b.toNat < 256 := b.isLt
    have hstep : bigEndian (bs ++ [b]) = bigEndian bs * 256 + b.toNat := by simp [bigEndian]
    rw [hstep, List.length_append, List.length_singleton, pow_succ]
    omega

/-- A big-endian number of `n` bytes. -/
theorem wordAt_lt (bs : List Byte) (i n : Nat) : wordAt bs i n < 256 ^ n := by
  have h := bigEndian_lt ((List.range n).map (fun k => byteAt bs (i + k)))
  rwa [List.length_map, List.length_range] at h

/-- What the law says of a store besides its families. -/
theorem TableStore.legal_iff : t.legal ↔ (∀ f, (t.family f).legal f) ∧ charTotal (t.family .text).active ≤ 12288 ∧
    charTotal (t.family .text).staged ≤ 12288 ∧ t.cancelled.Pairwise (· < ·) ∧
    (∀ r ∈ t.replacedRoute.toList, bankLegal .route r.entries ∧ r.cancelled.Pairwise (· < ·)) ∧
    (∀ b ∈ t.replacedText.toList, bankLegal .text b) :=
  ⟨fun h => ⟨TableStore.family_legal h, h.2⟩, fun ⟨hf, ha, hs, hc, hr, ht⟩ => TableStore.legal_of hf ha hs hc hr ht⟩

theorem TableStore.start_legal : TableStore.start.legal :=
  TableStore.legal_of (fun f => by cases f <;> exact ⟨bankLegal_nil _, bankLegal_nil _, by decide, by decide, fun _ => rfl⟩)
    (by decide) (by decide) List.Pairwise.nil (by nofun) (by nofun)

/-- A map of the banks that keeps each family's law, and the characters of TEXT within their number, keeps the store's. -/
theorem TableStore.mapFamilies_legal (h : t.legal) (fs : FamilySet) {g : FamilyBanks → FamilyBanks}
    (hg : ∀ f b, b.legal f → (g b).legal f)
    (hc : ∀ b, charTotal b.active ≤ 12288 → charTotal b.staged ≤ 12288 →
      charTotal (g b).active ≤ 12288 ∧ charTotal (g b).staged ≤ 12288) : (t.mapFamilies fs g).legal := by
  obtain ⟨hf, ha, hs, hrest⟩ := TableStore.legal_iff.1 h
  have hchars : charTotal ((t.mapFamilies fs g).family .text).active ≤ 12288 ∧
      charTotal ((t.mapFamilies fs g).family .text).staged ≤ 12288 := by
    rw [TableStore.family_mapFamilies]
    split
    · exact hc _ ha hs
    · exact ⟨ha, hs⟩
  refine TableStore.legal_iff.2 ⟨fun f => ?_, hchars.1, hchars.2, hrest⟩
  rw [TableStore.family_mapFamilies]
  split
  · exact hg f _ (hf f)
  · exact hf f

/-- A bank set to a state that is not EMPTY keeps its law. -/
theorem TableStore.mapState_legal (h : t.legal) (fs : FamilySet) {x : BankState} (hx : x ≠ .empty) :
    (t.mapFamilies fs (fun b => { b with state := x })).legal :=
  TableStore.mapFamilies_legal h fs (fun _ _ ⟨ha, hs, ht, hc, _⟩ => ⟨ha, hs, ht, hc, fun he => absurd he hx⟩)
    fun _ ha hs => ⟨ha, hs⟩

theorem TableStore.mapEmptied_legal (h : t.legal) (fs : FamilySet) :
    (t.mapFamilies fs (fun b => { b with staged := [], state := .empty })).legal :=
  TableStore.mapFamilies_legal h fs (fun _ _ ⟨ha, _, ht, hc, _⟩ => ⟨ha, bankLegal_nil _, ht, hc, fun _ => rfl⟩)
    fun _ ha _ => ⟨ha, Nat.zero_le _⟩

theorem TableStore.mapActivate_legal (h : t.legal) (fs : FamilySet) {tag : Nat} (ht : tag ≤ 65535) :
    (t.mapFamilies fs (FamilyBanks.activate tag)).legal :=
  TableStore.mapFamilies_legal h fs (fun _ _ hb => FamilyBanks.activate_legal hb ht) fun _ _ hs => ⟨hs, Nat.zero_le _⟩

/-- The tables that an activation leaves behind are those that were active (log 7). -/
theorem State.activate_tables_legal (h : s.tables.legal) {x : PendingCommit} (hx : x.tag ≤ 65535) :
    (s.activate x).tables.legal := by
  obtain ⟨hf, -, -, hcancelled, hroute, htext⟩ := TableStore.legal_iff.1 h
  obtain ⟨hmf, hma, hms, -⟩ := TableStore.legal_iff.1 (TableStore.mapActivate_legal h x.families hx)
  refine TableStore.legal_of (fun f => ?_) ?_ ?_ ?_ ?_ ?_
  · cases f <;> exact hmf _
  · exact hma
  · exact hms
  · change List.Pairwise _ (if x.families.route then [] else s.tables.cancelled)
    split
    · exact List.Pairwise.nil
    · exact hcancelled
  · change ∀ r ∈ (s.tables.routeToReplace x.families).toList, _
    unfold TableStore.routeToReplace
    split
    · intro r hr
      obtain rfl := List.mem_singleton.1 hr
      cases hold : s.tables.replacedRoute with
      | none => exact ⟨(hf .route).1, hcancelled⟩
      | some r => exact hroute r (by simp [hold])
    · exact hroute
  · change ∀ b ∈ (s.tables.textToReplace x.families).toList, _
    unfold TableStore.textToReplace
    split
    · intro b hb
      obtain rfl := List.mem_singleton.1 hb
      cases hold : s.tables.replacedText with
      | none => exact (hf .text).1
      | some b => exact htext b (by simp [hold])
    · exact htext

theorem State.accept_tables_legal (h : s.tables.legal) {x : PendingCommit} (hx : x.tag ≤ 65535) :
    (s.accept x).tables.legal := by
  have hcommitted := TableStore.mapState_legal h x.families (x := .committed) (by decide)
  unfold State.accept
  dsimp only
  split
  · exact State.activate_tables_legal (s := { s with
      tables := s.tables.mapFamilies x.families (fun b => { b with state := .committed })
      mgmt := { s.mgmt with commit := some x } }) hcommitted hx
  · exact hcommitted

theorem TableStore.setFamily_legal (h : t.legal) {f : Family} {b : FamilyBanks} (hb : b.legal f)
    (hc : f = .text → charTotal b.active ≤ 12288 ∧ charTotal b.staged ≤ 12288) : (t.setFamily f b).legal := by
  obtain ⟨hf, ha, hs, hrest⟩ := TableStore.legal_iff.1 h
  have hchars : charTotal ((t.setFamily f b).family .text).active ≤ 12288 ∧
      charTotal ((t.setFamily f b).family .text).staged ≤ 12288 := by
    rw [TableStore.family_setFamily]
    split
    · next hfam => exact hc hfam.symm
    · exact ⟨ha, hs⟩
  refine TableStore.legal_of (fun g => ?_) hchars.1 hchars.2 ?_ ?_ ?_
  · rw [TableStore.family_setFamily]
    split
    · next hg => exact hg ▸ hb
    · exact hf g
  all_goals obtain ⟨hflags, hroute, htext⟩ := t.setFamily_keepsFlags f b
  · rw [hflags]; exact hrest.1
  · rw [hroute]; exact hrest.2.1
  · rw [htext]; exact hrest.2.2

theorem State.loadRecords_tables_legal (h : s.tables.legal) (f : Family) (i m : Nat) (bytes : List Byte) :
    (s.loadRecords f i m bytes).after.tables.legal := by
  rcases loadRecords_cases s f i m bytes with ⟨r, hr⟩ | ⟨rs, -, hcapacity, hsplit, htext, hr⟩ <;> rw [hr]
  · exact h
  obtain ⟨hactive, hstaged, htag, hcount, -⟩ := TableStore.family_legal h f
  have hlen := splitRecords_length hsplit
  refine TableStore.setFamily_legal h
    ⟨hactive, bankLegal_writeRecords hstaged (by omega), htag, hcount, nofun⟩ fun hf => ?_
  subst hf
  exact ⟨h.2.1, (htext rfl).2⟩

theorem State.load_tables_legal (h : s.tables.legal) (args : List Byte) : (s.load args).after.tables.legal := by
  unfold State.load
  split
  · exact h
  · split
    · exact h
    · exact State.loadRecords_tables_legal h _ _ _ _

theorem State.loadNext_tables_legal (h : s.tables.legal) (args : List Byte) : (s.loadNext args).after.tables.legal := by
  unfold State.loadNext
  split
  · exact h
  · exact State.loadRecords_tables_legal h _ _ _ _

theorem State.commit_tables_legal (h : s.tables.legal) (args : List Byte) : (s.commit args).after.tables.legal := by
  rcases commit_cases s args with ⟨hr, -⟩ | ⟨a, -, -, -, -, -, -, -, hr⟩ <;> rw [hr]
  · exact h
  · exact State.accept_tables_legal h (Nat.le_of_lt_succ (wordAt_lt args 3 2))

theorem State.freedTables_legal (h : s.tables.legal) : s.freedTables.legal := by
  unfold State.freedTables
  split
  · exact TableStore.mapState_legal h _ (by decide)
  · exact h

theorem State.discard_tables_legal (h : s.tables.legal) (args : List Byte) : (s.discard args).after.tables.legal := by
  unfold State.discard
  dsimp only
  split
  · exact h
  · split
    · exact TableStore.mapEmptied_legal (State.freedTables_legal h) _
    · exact TableStore.mapEmptied_legal h _

theorem setFlag_sorted {l : List Nat} (h : l.Pairwise (· < ·)) (ordinal : Nat) (flag : Bool) :
    (setFlag l ordinal flag).Pairwise (· < ·) := by
  have hrest := h.filter (fun i => i != ordinal)
  unfold setFlag
  dsimp only
  split
  · rw [List.append_assoc, List.pairwise_append, List.singleton_append, List.pairwise_cons]
    refine ⟨hrest.filter _, ⟨fun x hx => ?_, hrest.filter _⟩, fun x hx y hy => ?_⟩
    · simpa using List.of_mem_filter hx
    · have hlt : x < ordinal := by simpa using List.of_mem_filter hx
      rcases List.mem_cons.1 hy with rfl | hy
      · exact hlt
      · exact hlt.trans (by simpa using List.of_mem_filter hy)
  · exact hrest

theorem TableStore.asReckoned_cancelled_sorted (h : t.legal) : t.asReckoned.cancelled.Pairwise (· < ·) := by
  obtain ⟨-, -, -, hcancelled, hroute, -⟩ := h
  rw [TableStore.asReckoned_cancelled]
  cases hr : t.replacedRoute with
  | none => exact hcancelled
  | some r => exact (hroute r (by simp [hr])).2

theorem TableStore.setCancelled_legal (h : t.legal) {flags : List Nat} (hf : flags.Pairwise (· < ·)) :
    (t.setCancelled flags).legal := by
  obtain ⟨hfamilies, ha, hs, hcancelled, hroute, htext⟩ := TableStore.legal_iff.1 h
  unfold TableStore.setCancelled
  split
  · refine TableStore.legal_of (fun f => ?_) ha hs hf hroute htext
    cases f <;> exact hfamilies _
  · next r hr =>
    refine TableStore.legal_of (fun f => ?_) ha hs hcancelled (fun x hx => ?_) htext
    · cases f <;> exact hfamilies _
    · obtain rfl := List.mem_singleton.1 hx
      exact ⟨(hroute r (by simp [hr])).1, hf⟩

theorem State.cancelStop_tables_legal (h : s.tables.legal) (ordinal : Nat) (flag : Bool) :
    (s.cancelStop ordinal flag).tables.legal :=
  TableStore.setCancelled_legal h (setFlag_sorted (TableStore.asReckoned_cancelled_sorted h) _ _)

/-- The active RESV bank replaced by another within the law. -/
theorem TableStore.withResvActive_legal (h : t.legal) {b : Table (List Byte)} (hb : bankLegal .resv b) :
    ({ t with resv := { t.resv with active := b } } : TableStore).legal := by
  obtain ⟨-, hrest⟩ := TableStore.family_legal h .resv
  exact TableStore.setFamily_legal (f := .resv) h (b := { t.resv with active := b }) ⟨hb, hrest⟩ nofun

theorem State.resvAdd_tables_legal (h : s.tables.legal) (args : List Byte) : (s.resvAdd args).after.tables.legal := by
  have hbank : bankLegal .resv s.tables.resv.active := (TableStore.family_legal h .resv).1
  unfold State.resvAdd
  dsimp only
  split
  · exact h
  · next b a htest =>
    obtain ⟨-, -, hroom, -⟩ := resvAddTest_passed htest
    obtain ⟨-, -, -, hfree⟩ := Table.lowestFree_spec hbank.1 0 fun _ _ => Nat.zero_le _
    exact TableStore.withResvActive_legal h (bankLegal_set hbank (i := Table.lowestFree s.tables.resv.active 0)
      (by change _ < 512; omega) args)

theorem State.resvDrop_tables_legal (h : s.tables.legal) (args : List Byte) : (s.resvDrop args).after.tables.legal := by
  have hbank : bankLegal .resv s.tables.resv.active := (TableStore.family_legal h .resv).1
  unfold State.resvDrop
  dsimp only
  split
  · exact h
  · split <;> exact TableStore.withResvActive_legal h (bankLegal_erase hbank _)

/-- The retained SEAT table becomes the active one, with tag and count 0 (R194). -/
theorem State.withSettings_tables_legal (h : s.tables.legal) {r : RetainedSet} (hr : bankLegal .seat r.seats) :
    (s.withSettings r).tables.legal := by
  obtain ⟨-, hstaged, -, -, hempty⟩ := TableStore.family_legal h .seat
  exact TableStore.setFamily_legal (f := .seat) h (b := { s.tables.seat with active := r.seats, tag := 0, count := 0 })
    ⟨hr, hstaged, Nat.zero_le _, Nat.zero_le _, hempty⟩ nofun

theorem State.readRetained_tables_legal (h : s.tables.legal) (hr : s.retainedLegal) : s.readRetained.tables.legal := by
  unfold State.readRetained
  split
  · next r hret => exact State.withSettings_tables_legal h (hr.1 r (by simp [hret]))
  · exact State.withSettings_tables_legal h (bankLegal_nil _)

end Banks

section Tables

variable {c : Instr} {s t : State}

theorem execStartUpComplete_tables_legal (h : execStartUpComplete s = .next t) (hl : s.tables.legal)
    (hr : s.retainedLegal) : t.tables.legal := by
  unfold execStartUpComplete at h
  split at h
  · cases h
    dsimp only
    split
    · exact hl
    · exact State.readRetained_tables_legal hl hr
  · cases h; exact hl

theorem execRestartHoldEnd_tables_legal (h : execRestartHoldEnd s = .next t) (hl : s.tables.legal)
    (hr : s.retainedLegal) : t.tables.legal := by
  unfold execRestartHoldEnd at h
  split at h
  · cases h
    exact State.readRetained_tables_legal (s := s.restarted) TableStore.start_legal ⟨hr.1, nofun⟩
  · cases h; exact hl

/-- What a management command does to the law of the tables: what its meaning does, a refusal changing none. -/
theorem runCommand_tables_legal {code : Nat} {f : MgmtFrame} {onRefuse : Result → Answer} {body : Answer} {mode : Mode}
    (h : runCommand code f onRefuse body mode = .next t) (hrefuse : ∀ r, (onRefuse r).after.tables.legal)
    (hbody : body.after.tables.legal) : t.tables.legal :=
  runCommand_keeps (P := fun t => t.tables.legal) h (fun _ _ _ _ _ _ h => h) hbody hrefuse

theorem exec_tables_legal (h : exec c s = .next t) (hl : s.tables.legal) (hr : s.retainedLegal)
    (hc : ∀ x ∈ s.mgmt.commit.toList, x.tag ≤ 65535) : t.tables.legal := by
  have unwritten (hw : c.writesTables = false) : t.tables.legal := by rw [exec_tables h hw]; exact hl
  cases c with
  | powerOn => cases h; exact TableStore.start_legal
  | powerLoss => cases h; exact TableStore.start_legal
  | startUpComplete => exact execStartUpComplete_tables_legal h hl hr
  | restartHoldEnd => exact execRestartHoldEnd_tables_legal h hl hr
  | newInauguration =>
    change execNewInauguration s = .next t at h
    unfold execNewInauguration at h
    dsimp only at h
    split at h
    · next x hx =>
      split at h <;> cases h
      · exact State.activate_tables_legal (s := (s.taken _).noContext) hl (hc x (by simp [hx]))
      · exact hl
    · cases h; exact hl
  | departureReport d =>
    change execDepartureReport d s = .next t at h
    unfold execDepartureReport at h
    dsimp only at h
    split at h
    · next x hx =>
      have hactivate := State.activate_tables_legal (s := s.taken (.departureReport d)) hl (hc x (by simp [hx]))
      repeat' split at h
      all_goals cases h
      · exact hactivate
      all_goals exact hl
    · cases h; exact hl
  | load _ => exact runCommand_tables_legal h (fun _ => hl) (State.load_tables_legal (s := s.taken _) hl _)
  | loadNext _ => exact runCommand_tables_legal h (fun _ => hl) (State.loadNext_tables_legal (s := s.taken _) hl _)
  | commit _ => exact runCommand_tables_legal h (fun _ => hl) (State.commit_tables_legal (s := (s.taken _).noContext) hl _)
  | discard _ => exact runCommand_tables_legal h (fun _ => hl) (State.discard_tables_legal (s := (s.taken _).noContext) hl _)
  | stopCancel _ =>
    refine runCommand_tables_legal h (fun _ => hl) ?_
    split
    · exact hl
    · dsimp only
      split
      · exact hl
      · exact State.cancelStop_tables_legal (s := s.taken _) hl _ _
  | resvAdd _ => exact runCommand_tables_legal h (fun _ => hl) (State.resvAdd_tables_legal (s := s.taken _) hl _)
  | resvDrop _ => exact runCommand_tables_legal h (fun _ => hl) (State.resvDrop_tables_legal (s := s.taken _) hl _)
  | routeActivationReckoning _ =>
    cases h
    obtain ⟨hf, ha, hs, hcancelled, -, htext⟩ := TableStore.legal_iff.1 hl
    exact TableStore.legal_of (fun f => by cases f <;> exact hf _) ha hs hcancelled nofun htext
  | activationAnnouncementNotice _ =>
    cases h
    split
    · obtain ⟨hf, ha, hs, hcancelled, hroute, -⟩ := TableStore.legal_iff.1 hl
      exact TableStore.legal_of (fun f => by cases f <;> exact hf _) ha hs hcancelled hroute nofun
    · exact hl
  | _ => exact unwritten rfl

/-- A retained table comes from the copy of a write, and that copy from the active SEAT table. -/
theorem exec_retainedLegal (h : exec c s = .next t) (hl : s.tables.legal) (hr : s.retainedLegal) : t.retainedLegal := by
  obtain ⟨hretained, hstore⟩ := hr
  have hseat : bankLegal .seat s.tables.seat.active := (TableStore.family_legal hl .seat).1
  have copied (hc : isStart c = false) : ∀ w ∈ t.mgmt.store.toList, bankLegal .seat w.copy.seats := by
    generalize hu : t.mgmt = u
    have hbecomes : s.mgmtBecomes u := hu ▸ exec_mgmtBecomes h hc
    cases hbecomes with
    | loads hu => rw [hu]; exact hstore
    | writes w hw =>
      intro x hx
      obtain rfl := List.mem_singleton.1 hx
      rw [hw]; exact hseat
    | written => nofun
    | _ => exact hstore
  have unwritten (hw : c.writesRetained = false) (hc : isStart c = false) : t.retainedLegal :=
    ⟨by rw [exec_retained h hw]; exact hretained, copied hc⟩
  cases c with
  | powerOn => cases h; exact ⟨hretained, nofun⟩
  | powerLoss =>
    cases h
    refine ⟨?_, nofun⟩
    dsimp only
    split
    · nofun
    · exact hretained
  | restartHoldEnd =>
    change execRestartHoldEnd s = .next t at h
    refine ⟨by rw [(execRestartHoldEnd_frame h).1]; exact hretained, ?_⟩
    unfold execRestartHoldEnd at h
    split at h
    · cases h
      unfold State.readRetained
      split <;> nofun
    · cases h; exact hstore
  | storeWriteEnd b =>
    refine ⟨?_, copied rfl⟩
    change execStoreWriteEnd b s = .next t at h
    unfold execStoreWriteEnd at h
    split at h
    · cases h; exact hretained
    · next w hw =>
      dsimp only at h
      split at h <;> cases h
      · intro r hx
        obtain rfl := List.mem_singleton.1 hx
        exact hstore w (by simp [hw])
      · nofun
  | _ => exact unwritten rfl rfl

end Tables

/-! ### The Seat Bus Engine -/

section Bus

variable {c : Instr} {s t : State}

theorem SeatBusEngine.start_legal : SeatBusEngine.start.legal :=
  ⟨List.nodup_nil, List.nodup_nil, List.Pairwise.nil, nofun, by decide, ⟨by decide, nofun⟩, nofun⟩

/-- The engine makes its choice from a legal state (R132). -/
theorem State.withBus_legal (hb : bankLegal .seat s.tables.seat.active) {d : Did SeatBusEngine} (hd : d.unit.legal) :
    (s.withBus d).bus.legal :=
  SeatBusEngine.choose_legal hd hb

/-- The dirty queue replaced by the enabled slots of a table. -/
theorem SeatBusEngine.withDirty_legal {u : SeatBusEngine} (h : u.legal) {b : Table (List Byte)} (hb : Table.wf b) :
    ({ u with dirty := enabledSlots b } : SeatBusEngine).legal :=
  ⟨enabledSlots_nodup hb, h.2⟩

theorem SeatBusEngine.withTransaction_legal {u : SeatBusEngine} (h : u.legal) {x : Transaction}
    (hx : 1 ≤ x.attempt ∧ x.attempt ≤ 3) : ({ u with transaction := some x } : SeatBusEngine).legal := by
  obtain ⟨hdirty, hlamps, hfaulted, htimers, hrefresh, hpointers, -⟩ := h
  refine ⟨hdirty, hlamps, hfaulted, htimers, hrefresh, hpointers, fun y hy => ?_⟩
  obtain rfl := List.mem_singleton.1 hy
  exact hx

theorem SeatBusEngine.attempt_bounds {u : SeatBusEngine} (h : u.legal) {x : Transaction} (hx : u.transaction = some x) :
    1 ≤ x.attempt ∧ x.attempt ≤ 3 := by
  obtain ⟨-, -, -, -, -, -, hattempts⟩ := h
  exact hattempts x (by simp [hx])

theorem SeatBusEngine.withTimer_legal {u : SeatBusEngine} (h : u.legal) (slot : Nat) {n : Nat} (hn : n ≤ 30) :
    ({ u with faulted := Table.set u.faulted slot n } : SeatBusEngine).legal := by
  obtain ⟨hdirty, hlamps, hfaulted, htimers, hrest⟩ := h
  refine ⟨hdirty, hlamps, Table.wf_set hfaulted _ _, fun e he => ?_, hrest⟩
  rcases Table.mem_set he with rfl | he
  · exact hn
  · exact htimers e he

theorem SeatBusEngine.refreshed_legal {u : SeatBusEngine} (h : u.legal) :
    ({ u with refreshTimer := 20, refreshActive := true } : SeatBusEngine).legal := by
  obtain ⟨hdirty, hlamps, hfaulted, htimers, -, hrest⟩ := h
  exact ⟨hdirty, hlamps, hfaulted, htimers, ⟨Nat.le_add_left 1 19, le_rfl⟩, hrest⟩

theorem SeatBusEngine.noLamps_legal {u : SeatBusEngine} (h : u.legal) :
    ({ u with lampReported := [] } : SeatBusEngine).legal := by
  obtain ⟨hdirty, -, hrest⟩ := h
  exact ⟨hdirty, List.nodup_nil, hrest⟩

theorem execSeatActivationEngine_bus_legal (h : execSeatActivationEngine s = .next t) (hl : s.bus.legal)
    (hb : bankLegal .seat s.tables.seat.active) : t.bus.legal := by
  cases h
  refine State.withBus_legal (s := s.taken _) hb ?_
  have hattempt {x : Transaction} := SeatBusEngine.attempt_bounds (x := x) hl
  obtain ⟨-, -, -, -, hrefresh, -, -⟩ := hl
  refine ⟨enabledSlots_nodup hb.1, List.nodup_nil, List.Pairwise.nil, nofun, hrefresh, ⟨Nat.zero_le _, ?_⟩, ?_⟩
  · dsimp only
    cases s.bus.blanking <;> simp [Did.nothing, BlankingPass.pointer]
  · intro y hy
    cases hx : s.bus.transaction with
    | none => simp [Did.nothing, hx] at hy
    | some x =>
      obtain rfl : y = { x with discard := true } := by simpa [Did.nothing, hx] using hy
      exact hattempt (x := x) hx

theorem execSeatSettleEnd_bus_legal (h : execSeatSettleEnd s = .next t) (hl : s.bus.legal) : t.bus.legal := by
  unfold execSeatSettleEnd at h
  split at h
  · next x hx =>
    split at h <;> cases h
    · exact hl
    · exact SeatBusEngine.withTransaction_legal hl (SeatBusEngine.attempt_bounds (x := x) hl hx)
  · cases h; exact hl

theorem execSeatAnswer_bus_legal {address status check : Byte} (h : execSeatAnswer address status check s = .next t)
    (hl : s.bus.legal) (hb : bankLegal .seat s.tables.seat.active) : t.bus.legal := by
  unfold execSeatAnswer at h
  split at h
  · split at h <;> cases h
    · exact State.withBus_legal hb (SeatBusEngine.answered_legal hl _ _ _)
    · exact hl
  · cases h; exact hl

theorem execSeatAnswerTimeout_bus_legal (h : execSeatAnswerTimeout s = .next t) (hl : s.bus.legal)
    (hb : bankLegal .seat s.tables.seat.active) : t.bus.legal := by
  unfold execSeatAnswerTimeout at h
  split at h
  · next x hx =>
    split at h
    · cases h; exact hl
    · split at h
      · next hagain =>
        cases h
        exact SeatBusEngine.withTransaction_legal hl ⟨Nat.le_add_left _ _, hagain.2⟩
      · cases h; exact State.withBus_legal hb (SeatBusEngine.unanswered_legal hl _)
  · cases h; exact hl

theorem execRepollDue_bus_legal {slot : Nat} (h : execRepollDue slot s = .next t) (hl : s.bus.legal)
    (hb : bankLegal .seat s.tables.seat.active) : t.bus.legal := by
  unfold execRepollDue at h
  split at h <;> cases h
  · exact State.withBus_legal hb (SeatBusEngine.withTimer_legal hl _ (Nat.zero_le _))
  · exact hl

theorem execRefreshRoundBegin_bus_legal (h : execRefreshRoundBegin s = .next t) (hl : s.bus.legal)
    (hb : bankLegal .seat s.tables.seat.active) : t.bus.legal := by
  unfold execRefreshRoundBegin at h
  split at h <;> cases h
  · exact State.withBus_legal hb (SeatBusEngine.refreshed_legal hl)
  · exact hl

theorem State.tickBus_legal (hl : s.bus.legal) (hb : bankLegal .seat s.tables.seat.active) : s.tickBus.bus.legal := by
  unfold State.tickBus
  dsimp only
  split
  · exact SeatBusEngine.choose_legal (SeatBusEngine.tick_legal hl) hb
  · exact SeatBusEngine.tick_legal hl

theorem execSecondsTick_bus_legal (h : execSecondsTick s = .next t) (hl : s.bus.legal)
    (hb : bankLegal .seat s.tables.seat.active) : t.bus.legal := by
  unfold execSecondsTick at h
  split at h <;> cases h
  · exact State.tickBus_legal (s := s.tickClockwork) hl hb
  · exact hl

theorem State.readRetained_bus_legal (hl : s.bus.legal) (hr : s.retainedLegal) : s.readRetained.bus.legal := by
  unfold State.readRetained
  split
  · next r hret => exact SeatBusEngine.withDirty_legal hl (hr.1 r (by simp [hret])).1
  · exact SeatBusEngine.withDirty_legal hl (b := []) List.Pairwise.nil

theorem execStartUpComplete_bus_legal (h : execStartUpComplete s = .next t) (hl : s.bus.legal) (ht : s.tables.legal)
    (hr : s.retainedLegal) : t.bus.legal := by
  unfold execStartUpComplete at h
  split at h
  · cases h
    dsimp only
    split
    · exact SeatBusEngine.choose_legal hl (TableStore.family_legal ht .seat).1
    · exact SeatBusEngine.choose_legal (State.readRetained_bus_legal hl hr)
        (TableStore.family_legal (State.readRetained_tables_legal ht hr) .seat).1
  · cases h; exact hl

theorem execRestartHoldEnd_bus_legal (h : execRestartHoldEnd s = .next t) (hl : s.bus.legal) (hr : s.retainedLegal) :
    t.bus.legal := by
  unfold execRestartHoldEnd at h
  split at h
  · cases h
    exact State.readRetained_bus_legal (s := s.restarted) SeatBusEngine.start_legal ⟨hr.1, nofun⟩
  · cases h; exact hl

theorem exec_bus_legal (h : exec c s = .next t) (hl : s.bus.legal) (ht : s.tables.legal) (hr : s.retainedLegal) :
    t.bus.legal := by
  have hb : bankLegal .seat s.tables.seat.active := (TableStore.family_legal ht .seat).1
  have unwritten (hw : c.writesBus = false) : t.bus.legal := by rw [exec_bus h hw]; exact hl
  cases c with
  | powerOn => cases h; exact SeatBusEngine.start_legal
  | powerLoss => cases h; exact SeatBusEngine.start_legal
  | startUpComplete => exact execStartUpComplete_bus_legal h hl ht hr
  | secondsTick => exact execSecondsTick_bus_legal h hl hb
  | restartHoldEnd => exact execRestartHoldEnd_bus_legal h hl hr
  | queueRequest _ =>
    cases h
    exact State.withBus_legal (s := s.taken _) hb (SeatBusEngine.request_legal hl s.tables _)
  | seatActivationEngine => exact execSeatActivationEngine_bus_legal h hl hb
  | modeChangeEngine => cases h; exact State.withBus_legal (s := s.taken _) hb hl
  | faultClearEngine => cases h; exact SeatBusEngine.noLamps_legal hl
  | seatSettleEnd => exact execSeatSettleEnd_bus_legal h hl
  | seatAnswer _ _ _ => exact execSeatAnswer_bus_legal h hl hb
  | seatAnswerTimeout => exact execSeatAnswerTimeout_bus_legal h hl hb
  | repollDue _ => exact execRepollDue_bus_legal h hl hb
  | refreshRoundBegin => exact execRefreshRoundBegin_bus_legal h hl hb
  | _ => exact unwritten rfl

end Bus

/-! ### The pending commit -/

section Commit

variable {c : Instr} {s t : State}

/-- The load context, the pending commit and the states of the staged banks as they were. -/
structure State.keepsLoading (old new : State) : Prop where
  context : new.mgmt.context = old.mgmt.context
  commit  : new.mgmt.commit = old.mgmt.commit
  states  : ∀ f, (new.tables.family f).state = (old.tables.family f).state

theorem State.keepsLoading_self (s : State) : s.keepsLoading s := ⟨rfl, rfl, fun _ => rfl⟩

/-- What a management command keeps of table loading: what its meaning keeps, a refusal changing nothing. -/
theorem runCommand_keepsLoading {code : Nat} {f : MgmtFrame} {onRefuse : Result → Answer} {body : Answer} {mode : Mode}
    (h : runCommand code f onRefuse body mode = .next t) (hrefuse : ∀ r, s.keepsLoading (onRefuse r).after)
    (hbody : s.keepsLoading body.after) : s.keepsLoading t :=
  runCommand_keeps (P := fun t => s.keepsLoading t) h
    (fun _ _ _ _ _ _ ⟨hcontext, hcommit, hstates⟩ => ⟨hcontext, hcommit, hstates⟩) hbody hrefuse

theorem State.readRetained_keepsLoading (s : State) : s.keepsLoading s.readRetained := by
  unfold State.readRetained
  split <;> exact ⟨rfl, rfl, fun f => by cases f <;> rfl⟩

theorem execStartUpComplete_keepsLoading (h : execStartUpComplete s = .next t) : s.keepsLoading t := by
  unfold execStartUpComplete at h
  split at h
  · cases h
    obtain ⟨hcontext, hcommit, hstates⟩ := s.readRetained_keepsLoading
    by_cases hread : s.retainedRead = true
    · simp only [hread, if_true]; exact ⟨rfl, rfl, fun _ => rfl⟩
    · simp only [hread]; exact ⟨hcontext, hcommit, hstates⟩
  · cases h; exact s.keepsLoading_self

theorem exec_keepsLoading (h : exec c s = .next t) (hc : c.writesLoading = false) : s.keepsLoading t := by
  have unwritten (hm : c.writesMgmt = false) (ht : c.writesTables = false) : s.keepsLoading t :=
    ⟨by rw [exec_mgmt h hm], by rw [exec_mgmt h hm], fun f => by rw [exec_tables h ht]⟩
  have kept (r : Result) (x : Instr) : s.keepsLoading (refuse (s.taken x) r).after := ⟨rfl, rfl, fun _ => rfl⟩
  cases c with
  | powerOn => cases hc
  | powerLoss => cases hc
  | restartHoldEnd => cases hc
  | newInauguration => cases hc
  | departureReport _ => cases hc
  | load _ => cases hc
  | loadNext _ => cases hc
  | commit _ => cases hc
  | discard _ => cases hc
  | startUpComplete => exact execStartUpComplete_keepsLoading h
  | mode _ =>
    refine runCommand_keepsLoading h (fun r => kept r _) ?_
    split
    · exact ⟨by rw [State.setMode_mgmt]; rfl, by rw [State.setMode_mgmt]; rfl, fun f => by rw [State.setMode_tables]; rfl⟩
    · exact kept _ _
  | param _ =>
    refine runCommand_keepsLoading h (fun r => kept r _) ?_
    split
    · exact ⟨rfl, rfl, fun _ => rfl⟩
    · exact kept _ _
  | startAck _ => exact runCommand_keepsLoading h (fun r => kept r _) ⟨rfl, rfl, fun _ => rfl⟩
  | restart _ =>
    refine runCommand_keepsLoading h (fun r => kept r _) ?_
    exact ⟨by rw [State.setMode_mgmt]; rfl, by rw [State.setMode_mgmt]; rfl, fun f => by rw [State.setMode_tables]; rfl⟩
  | store _ =>
    change execStore _ s = .next t at h
    unfold execStore at h
    dsimp only at h
    repeat' split at h
    all_goals cases h; exact ⟨rfl, rfl, fun _ => rfl⟩
  | storeWriteEnd _ =>
    change execStoreWriteEnd _ s = .next t at h
    unfold execStoreWriteEnd at h
    dsimp only at h
    repeat' split at h
    all_goals cases h; exact ⟨rfl, rfl, fun _ => rfl⟩
  | stopCancel _ =>
    refine runCommand_keepsLoading h (fun r => kept r _) ?_
    split
    · exact kept _ _
    · dsimp only
      split
      · exact ⟨rfl, rfl, fun _ => rfl⟩
      · refine ⟨rfl, rfl, fun f => ?_⟩
        dsimp only [State.cancelStop, TableStore.setCancelled]
        split <;> cases f <;> rfl
  | resvAdd _ =>
    refine runCommand_keepsLoading h (fun r => kept r _) ?_
    dsimp only [State.resvAdd]
    split <;> exact ⟨rfl, rfl, fun f => by cases f <;> rfl⟩
  | resvDrop _ =>
    refine runCommand_keepsLoading h (fun r => kept r _) ?_
    dsimp only [State.resvDrop]
    repeat' split
    all_goals exact ⟨rfl, rfl, fun f => by cases f <;> rfl⟩
  | routeActivationReckoning _ => cases h; exact ⟨rfl, rfl, fun f => by cases f <;> rfl⟩
  | activationAnnouncementNotice _ =>
    cases h
    split <;> exact ⟨rfl, rfl, fun f => by cases f <;> rfl⟩
  | _ => exact unwritten rfl rfl

/-- The three ways to a state without a pending commit, or with the one there was. -/
theorem State.commitLegal_of {s : State} (hstates : ∀ f, (s.tables.family f).state = .committed ↔ s.mgmt.locks f = true)
    (hcontext : ∀ x ∈ s.mgmt.context.toList, s.mgmt.locks x.1 = false ∧ x.2 ≤ x.1.capacity)
    (hnow : ∀ c ∈ s.mgmt.commit.toList, c.activation ≠ .now) : s.commitLegal :=
  ⟨fun f _ => hstates f, hcontext, hnow⟩

theorem State.committed_iff (hl : s.commitLegal) (f : Family) :
    (s.tables.family f).state = .committed ↔ s.mgmt.locks f = true := hl.1 f (Family.mem_all f)

theorem ManagementUnit.locks_of_none {u : ManagementUnit} (h : u.commit = none) (f : Family) : u.locks f = false := by
  rw [ManagementUnit.locks, h]

theorem ManagementUnit.locks_of_some {u : ManagementUnit} {x : PendingCommit} (h : u.commit = some x) (f : Family) :
    u.locks f = x.families.names f := by
  rw [ManagementUnit.locks, h]

theorem ManagementUnit.locks_congr {u v : ManagementUnit} (h : u.commit = v.commit) (f : Family) :
    u.locks f = v.locks f := by
  rw [ManagementUnit.locks, ManagementUnit.locks, h]

theorem State.keepsLoading_commitLegal (h : s.keepsLoading t) (hl : s.commitLegal) : t.commitLegal := by
  obtain ⟨hcontext, hcommit, hstates⟩ := h
  obtain ⟨-, hc, hnow⟩ := id hl
  refine State.commitLegal_of (fun f => ?_) (fun x hx => ?_) (hcommit ▸ hnow)
  · rw [hstates, ManagementUnit.locks_congr hcommit, State.committed_iff hl]
  · rw [ManagementUnit.locks_congr hcommit]
    exact hc x (hcontext ▸ hx)

/-- With the load context none the law asks nothing of it. -/
theorem State.noContext_commitLegal (hl : s.commitLegal) : s.noContext.commitLegal :=
  ⟨hl.1, nofun, hl.2.2⟩

/-- With no commit pending, no bank may be COMMITTED. -/
theorem State.commitLegal_of_none (hcommit : s.mgmt.commit = none) (hstates : ∀ f, (s.tables.family f).state ≠ .committed)
    (hcontext : ∀ x ∈ s.mgmt.context.toList, x.2 ≤ x.1.capacity) : s.commitLegal :=
  State.commitLegal_of (fun f => iff_of_false (hstates f) (by rw [ManagementUnit.locks_of_none hcommit]; decide))
    (fun x hx => ⟨ManagementUnit.locks_of_none hcommit _, hcontext x hx⟩) (by rw [hcommit]; nofun)

/-- An activation empties exactly the COMMITTED banks. -/
theorem State.activate_commitLegal (hl : s.commitLegal) {x : PendingCommit} (hx : s.mgmt.commit = some x) :
    (s.activate x).commitLegal := by
  refine State.commitLegal_of_none rfl (fun f => ?_) fun y hy => (hl.2.1 y hy).2
  rw [State.activate_family]
  split
  · exact nofun
  · next hf => rwa [ne_eq, State.committed_iff hl, ManagementUnit.locks_of_some hx]

/-- A commit accepted with none pending: activated at once, or its families' banks COMMITTED. -/
theorem State.accept_commitLegal (hl : s.commitLegal) (hnone : s.mgmt.commit = none) (hcontext : s.mgmt.context = none)
    (x : PendingCommit) : (s.accept x).commitLegal := by
  have hfree (f : Family) : (s.tables.family f).state ≠ .committed := by
    rw [ne_eq, State.committed_iff hl, ManagementUnit.locks_of_none hnone]
    decide
  by_cases hnow : x.activation = .now
  · refine State.commitLegal_of_none (by simp [State.accept, hnow]) (fun f => ?_)
      (by simp [State.accept, State.activate, hnow, hcontext])
    rw [State.accept_family, if_pos hnow]
    split
    · exact nofun
    · exact hfree f
  · have hcommit : (s.accept x).mgmt.commit = some x := by simp [State.accept, hnow]
    refine State.commitLegal_of (fun f => ?_) (by simp [State.accept, hnow, hcontext]) fun y hy => ?_
    · rw [State.accept_family, if_neg hnow, ManagementUnit.locks_of_some hcommit]
      split
      · next hf => exact iff_of_true rfl hf
      · next hf => exact iff_of_false (hfree f) hf
    · obtain rfl : y = x := by simpa [hcommit] using hy
      exact hnow

theorem State.commit_commitLegal (hl : s.commitLegal) (hcontext : s.mgmt.context = none) (args : List Byte) :
    (s.commit args).after.commitLegal := by
  rcases commit_cases s args with ⟨h, -⟩ | ⟨a, -, hnone, -, -, -, -, -, h⟩ <;> rw [h]
  · exact hl
  · exact State.accept_commitLegal hl hnone hcontext _

/-- A load into a family of no pending commit leaves its bank FILLING and the context in it. -/
theorem State.loadRecords_commitLegal (hl : s.commitLegal) {f : Family} (hf : s.mgmt.locks f = false) (i m : Nat)
    (bytes : List Byte) : (s.loadRecords f i m bytes).after.commitLegal := by
  rcases loadRecords_cases s f i m bytes with ⟨r, h⟩ | ⟨rs, -, hcapacity, -, -, h⟩ <;> rw [h]
  · exact State.noContext_commitLegal hl
  refine State.commitLegal_of (fun g => ?_) (fun x hx => ?_) hl.2.2
  · change _ ↔ s.mgmt.locks g = true
    dsimp only
    rw [TableStore.family_setFamily]
    split
    · next hg => rw [hg, hf]; exact iff_of_false nofun nofun
    · exact State.committed_iff hl g
  · obtain rfl := List.mem_singleton.1 hx
    exact ⟨hf, hcapacity⟩

theorem State.load_commitLegal (hl : s.commitLegal) (args : List Byte) : (s.load args).after.commitLegal := by
  unfold State.load
  split
  · exact State.noContext_commitLegal hl
  · split
    · exact State.noContext_commitLegal hl
    · next hf => exact State.loadRecords_commitLegal hl (Bool.eq_false_iff.2 hf) _ _ _

theorem State.loadNext_commitLegal (hl : s.commitLegal) (args : List Byte) : (s.loadNext args).after.commitLegal := by
  unfold State.loadNext
  split
  · exact State.noContext_commitLegal hl
  · next f i hcontext => exact State.loadRecords_commitLegal hl (hl.2.1 (f, i) (by simp [hcontext])).1 _ _ _

theorem FamilySet.meets_iff (x y : FamilySet) : x.meets y = true ↔ ∃ f, x.names f = true ∧ y.names f = true := by
  constructor
  · intro h
    simp only [FamilySet.meets, Bool.or_eq_true, Bool.and_eq_true] at h
    rcases h with (((h | h) | h) | h) | h
    exacts [⟨.seat, h⟩, ⟨.resv, h⟩, ⟨.route, h⟩, ⟨.text, h⟩, ⟨.page, h⟩]
  · rintro ⟨f, hx, hy⟩
    cases f <;> simp_all [FamilySet.meets, FamilySet.names]

theorem ManagementUnit.cancels_iff (u : ManagementUnit) (fs : FamilySet) :
    u.cancels fs = true ↔ ∃ g, u.locks g = true ∧ fs.names g = true := by
  unfold ManagementUnit.cancels ManagementUnit.locks
  cases u.commit with
  | none => simp
  | some x => exact FamilySet.meets_iff _ _

/-- The banks of a cancelled commit are FILLING again. -/
theorem State.freedTables_family (s : State) (f : Family) :
    s.freedTables.family f =
      if s.mgmt.locks f then { s.tables.family f with state := .filling } else s.tables.family f := by
  unfold State.freedTables ManagementUnit.locks
  cases s.mgmt.commit with
  | none => rfl
  | some x => exact TableStore.family_mapFamilies _ _ _ _

theorem State.discard_commitLegal (hl : s.commitLegal) (hcontext : s.mgmt.context = none) (args : List Byte) :
    (s.discard args).after.commitLegal := by
  unfold State.discard
  dsimp only
  split
  · exact hl
  generalize FamilySet.ofByte (byteAt args 0) = fs
  by_cases hcancels : s.mgmt.cancels fs = true
  · simp only [hcancels, if_true]
    refine State.commitLegal_of_none rfl (fun f => ?_) (by simp [hcontext])
    dsimp only
    rw [TableStore.family_mapFamilies, State.freedTables_family]
    split
    · exact nofun
    · split
      · exact nofun
      · next hf => rwa [ne_eq, State.committed_iff hl]
  · simp only [hcancels]
    refine State.commitLegal_of (fun f => ?_) (by simp [hcontext]) hl.2.2
    have hlocks := State.committed_iff hl f
    have hdisjoint : fs.names f = true → s.mgmt.locks f = false := fun hf =>
      Bool.eq_false_iff.2 fun hlock => hcancels ((s.mgmt.cancels_iff fs).2 ⟨f, hlock, hf⟩)
    change _ ↔ s.mgmt.locks f = true
    dsimp only
    rw [if_neg (by decide), TableStore.family_mapFamilies]
    split
    · next hf => rw [hdisjoint hf]; exact iff_of_false nofun nofun
    · exact hlocks

theorem State.start_commitLegal (hcommit : s.mgmt.commit = none) (hcontext : s.mgmt.context = none)
    (hstates : ∀ f, (s.tables.family f).state = .empty) : s.commitLegal :=
  State.commitLegal_of_none hcommit (fun f => by rw [hstates]; decide) (by rw [hcontext]; nofun)

theorem execRestartHoldEnd_commitLegal (h : execRestartHoldEnd s = .next t) (hl : s.commitLegal) : t.commitLegal := by
  unfold execRestartHoldEnd at h
  split at h
  · cases h
    exact State.keepsLoading_commitLegal s.restarted.readRetained_keepsLoading
      (State.start_commitLegal rfl rfl fun f => by cases f <;> rfl)
  · cases h; exact hl

theorem execNewInauguration_commitLegal (h : execNewInauguration s = .next t) (hl : s.commitLegal) : t.commitLegal := by
  have htaken : (s.taken .newInauguration).noContext.commitLegal := State.noContext_commitLegal (s := s.taken _) hl
  unfold execNewInauguration at h
  dsimp only at h
  split at h
  · next x hx =>
    split at h <;> cases h
    · exact State.activate_commitLegal htaken hx
    · exact htaken
  · cases h; exact htaken

theorem execDepartureReport_commitLegal {d : Nat} (h : execDepartureReport d s = .next t) (hl : s.commitLegal) :
    t.commitLegal := by
  unfold execDepartureReport at h
  dsimp only at h
  split at h
  · next x hx =>
    have hactivate := State.activate_commitLegal (s := s.taken (.departureReport d)) hl hx
    repeat' split at h
    all_goals cases h
    · exact hactivate
    all_goals exact hl
  · cases h; exact hl

theorem exec_commitLegal (h : exec c s = .next t) (hl : s.commitLegal) : t.commitLegal := by
  have unwritten (hc : c.writesLoading = false) : t.commitLegal :=
    State.keepsLoading_commitLegal (exec_keepsLoading h hc) hl
  have command {code : Nat} {f : MgmtFrame} {onRefuse : Result → Answer} {body : Answer} {mode : Mode}
      (h : runCommand code f onRefuse body mode = .next t) (hrefuse : ∀ r, (onRefuse r).after.commitLegal)
      (hbody : body.after.commitLegal) : t.commitLegal :=
    runCommand_keeps (P := fun t => t.commitLegal) h (fun _ _ _ _ _ _ h => h) hbody hrefuse
  have hnone (x : Instr) : (s.taken x).noContext.commitLegal := State.noContext_commitLegal (s := s.taken x) hl
  cases c with
  | powerOn => cases h; exact State.start_commitLegal rfl rfl fun f => by cases f <;> rfl
  | powerLoss => cases h; exact State.start_commitLegal rfl rfl fun f => by cases f <;> rfl
  | restartHoldEnd => exact execRestartHoldEnd_commitLegal h hl
  | newInauguration => exact execNewInauguration_commitLegal h hl
  | departureReport _ => exact execDepartureReport_commitLegal h hl
  | load _ => exact command h (fun _ => hnone _) (State.load_commitLegal (s := s.taken _) hl _)
  | loadNext _ => exact command h (fun _ => hnone _) (State.loadNext_commitLegal (s := s.taken _) hl _)
  | commit _ => exact command h (fun _ => hl) (State.commit_commitLegal (hnone _) rfl _)
  | discard _ => exact command h (fun _ => hl) (State.discard_commitLegal (hnone _) rfl _)
  | _ => exact unwritten rfl

/-- The tag of a pending commit is a word of two bytes (R52). -/
theorem exec_commit_tag (h : exec c s = .next t) (hl : ∀ x ∈ s.mgmt.commit.toList, x.tag ≤ 65535) :
    ∀ x ∈ t.mgmt.commit.toList, x.tag ≤ 65535 := by
  have unwritten (hc : c.writesLoading = false) : ∀ x ∈ t.mgmt.commit.toList, x.tag ≤ 65535 := by
    rw [(exec_keepsLoading h hc).commit]; exact hl
  have command {code : Nat} {f : MgmtFrame} {onRefuse : Result → Answer} {body : Answer} {mode : Mode}
      (h : runCommand code f onRefuse body mode = .next t)
      (hrefuse : ∀ r, ∀ x ∈ (onRefuse r).after.mgmt.commit.toList, x.tag ≤ 65535)
      (hbody : ∀ x ∈ body.after.mgmt.commit.toList, x.tag ≤ 65535) : ∀ x ∈ t.mgmt.commit.toList, x.tag ≤ 65535 :=
    runCommand_keeps (P := fun t => ∀ x ∈ t.mgmt.commit.toList, x.tag ≤ 65535) h (fun _ _ _ _ _ _ h => h) hbody hrefuse
  have loaded (s : State) (hl : ∀ x ∈ s.mgmt.commit.toList, x.tag ≤ 65535) (f : Family) (i m : Nat) (bytes : List Byte) :
      ∀ x ∈ (s.loadRecords f i m bytes).after.mgmt.commit.toList, x.tag ≤ 65535 := by
    rcases loadRecords_cases s f i m bytes with ⟨r, h⟩ | ⟨rs, -, -, -, -, h⟩ <;> rw [h] <;> exact hl
  cases c with
  | powerOn => cases h; nofun
  | powerLoss => cases h; nofun
  | restartHoldEnd =>
    change execRestartHoldEnd s = .next t at h
    unfold execRestartHoldEnd at h
    split at h <;> cases h
    · rw [s.restarted.readRetained_keepsLoading.commit]; nofun
    · exact hl
  | newInauguration =>
    change execNewInauguration s = .next t at h
    unfold execNewInauguration at h
    dsimp only at h
    repeat' split at h
    all_goals cases h
    · nofun
    all_goals exact hl
  | departureReport _ =>
    change execDepartureReport _ s = .next t at h
    unfold execDepartureReport at h
    dsimp only at h
    repeat' split at h
    all_goals cases h
    · nofun
    all_goals exact hl
  | load _ =>
    refine command h (fun _ => hl) ?_
    unfold State.load
    split
    · exact hl
    · split
      · exact hl
      · exact loaded (s.taken _) hl _ _ _ _
  | loadNext _ =>
    refine command h (fun _ => hl) ?_
    unfold State.loadNext
    split
    · exact hl
    · exact loaded (s.taken _) hl _ _ _ _
  | commit f =>
    refine command h (fun _ => hl) ?_
    rcases commit_cases (s.taken (.commit f)).noContext f.args with ⟨h, -⟩ | ⟨a, -, -, -, -, -, -, -, h⟩ <;> rw [h]
    · exact hl
    · intro x hx
      dsimp only [State.accept] at hx
      split at hx
      · nomatch hx
      · obtain rfl := List.mem_singleton.1 hx
        exact Nat.le_of_lt_succ (wordAt_lt f.args 3 2)
  | discard _ =>
    refine command h (fun _ => hl) ?_
    unfold State.discard
    dsimp only
    split
    · exact hl
    · dsimp only
      split
      · nofun
      · exact hl
  | _ => exact unwritten rfl

end Commit

/-- Settles O6. The active SEAT bank serves the engine's pointers and the copy of a STORE, the retained set the bank of a
start, and the tag of a pending commit that of an activation: so the four laws are kept together. -/
theorem tablesLawKept : Obligations.TablesLawKept :=
  fun _ _ => step_keeps (P := fun s => s.tablesLegal) (fun _ _ hl => hl) fun h ⟨htables, hretained, hbus, hcommit⟩ =>
    ⟨exec_tables_legal h htables hretained hcommit, exec_retainedLegal h htables hretained,
      exec_bus_legal h hbus htables hretained, exec_commit_tag h hcommit⟩

/-- Settles O7. -/
theorem commitLawKept : Obligations.CommitLawKept :=
  fun _ _ => step_keeps (P := fun s => s.commitLegal) (fun _ _ hl => hl) exec_commitLegal

end Sys2Proof.Machine
end

section
/-! PROOF. The laws that every step keeps (4): the progress record, the clock and the parameters (R60, R82, R83, R85, R102). -/

namespace Sys2Proof.Machine

variable {c : Instr} {s t : State}

/-! ### The parameters, wherever they are held -/

theorem Params.default_legal : Params.default.legal := by decide

/-- The parameters in force, those retained, and those of a copy being written, all in their ranges (R60). -/
abbrev State.paramsLegal (s : State) : Prop :=
  s.mgmt.params.legal ∧ (∀ r ∈ s.retained.toList, r.params.legal) ∧ ∀ w ∈ s.mgmt.store.toList, w.copy.params.legal

theorem State.paramsLegal_of_defaults (hretained : ∀ r ∈ t.retained.toList, r.params.legal)
    (hparams : t.mgmt.params = .default) (hstore : t.mgmt.store = none) : t.paramsLegal := by
  refine ⟨hparams ▸ Params.default_legal, hretained, ?_⟩
  rw [hstore]
  nofun

theorem State.withSettings_paramsLegal {r : RetainedSet} (h : s.paramsLegal) (hr : r.params.legal) :
    (s.withSettings r).paramsLegal := ⟨hr, h.2⟩

theorem State.readRetained_paramsLegal (h : s.paramsLegal) : s.readRetained.paramsLegal := by
  unfold State.readRetained
  split
  · next r hr => exact State.withSettings_paramsLegal h (h.2.1 r (by simp [hr]))
  · exact State.withSettings_paramsLegal h Params.default_legal

/-- What a command makes of the Management Unit has its parameters within their ranges, those of a copy too (R60, R196). -/
theorem State.mgmtBecomes_params_legal {u : ManagementUnit} (h : s.mgmtBecomes u) (hl : s.paramsLegal) :
    u.params.legal ∧ ∀ w ∈ u.store.toList, w.copy.params.legal := by
  obtain ⟨hparams, hretained, hstore⟩ := hl
  cases h with
  | loads hu => rw [hu]; exact ⟨hparams, hstore⟩
  | params hp => exact ⟨Params.set_legal hparams hp, hstore⟩
  | settings r hr =>
    refine ⟨?_, hstore⟩
    rcases hr with hr | rfl
    · exact hretained r hr
    · exact Params.default_legal
  | writes w hw =>
    refine ⟨hparams, fun x hx => ?_⟩
    obtain rfl := List.mem_singleton.1 hx
    rw [hw]
    exact hparams
  | written => exact ⟨hparams, nofun⟩
  | _ => exact ⟨hparams, hstore⟩

theorem execStoreWriteEnd_retained_params_legal {agrees : Bool} (h : execStoreWriteEnd agrees s = .next t)
    (hl : s.paramsLegal) : ∀ r ∈ t.retained.toList, r.params.legal := by
  obtain ⟨-, hretained, hstore⟩ := hl
  unfold execStoreWriteEnd at h
  split at h
  · cases h; exact hretained
  · next w hw =>
    dsimp only at h
    split at h <;> cases h
    · intro r hr
      obtain rfl := List.mem_singleton.1 hr
      exact hstore w (by simp [hw])
    · nofun

theorem exec_paramsLegal (h : exec c s = .next t) (hl : s.paramsLegal) : t.paramsLegal := by
  have becomes (hc : isStart c = false) (hretained : ∀ r ∈ t.retained.toList, r.params.legal) : t.paramsLegal := by
    obtain ⟨hparams, hstore⟩ := State.mgmtBecomes_params_legal (exec_mgmtBecomes h hc) hl
    exact ⟨hparams, hretained, hstore⟩
  have unwritten (hw : c.writesRetained = false) (hc : isStart c = false) : t.paramsLegal :=
    becomes hc (by rw [exec_retained h hw]; exact hl.2.1)
  cases c with
  | powerOn => cases h; exact State.paramsLegal_of_defaults hl.2.1 rfl rfl
  | powerLoss =>
    cases h
    refine State.paramsLegal_of_defaults ?_ rfl rfl
    dsimp only
    split
    · nofun
    · exact hl.2.1
  | restartHoldEnd =>
    change execRestartHoldEnd s = .next t at h
    unfold execRestartHoldEnd at h
    split at h <;> cases h
    · exact State.readRetained_paramsLegal (State.paramsLegal_of_defaults (t := s.restarted) hl.2.1 rfl rfl)
    · exact hl
  | storeWriteEnd _ => exact becomes rfl (execStoreWriteEnd_retained_params_legal h hl)
  | _ => exact unwritten rfl rfl

/-! ### The Reckoning Unit -/

theorem ReckoningUnit.start_legal : ReckoningUnit.start.legal := by
  refine ⟨⟨?_, ?_, ?_, ?_, ?_, ?_, ?_, ?_, ?_⟩, ?_, ?_, ?_, ?_, ?_, ?_⟩ <;> decide

theorem ReckoningUnit.portion_legal {r : ReckoningUnit} (h : r.legal) (portion : Nat) :
    ({ r with portion := portion } : ReckoningUnit).legal := h

/-- The settings read at a start bring their approach parameters and their freshness (R194). -/
theorem State.withSettings_reck_legal {r : RetainedSet} (hl : s.reck.legal) (hr : r.params.legal) :
    (s.withSettings r).reck.legal := by
  obtain ⟨hprogress, hframe, -, -, -, hclock⟩ := hl
  obtain ⟨-, hdistance, hlead, ⟨-, hfreshness⟩, -⟩ := hr
  exact ⟨hprogress, hframe, hdistance, hlead, hfreshness, hclock⟩

theorem State.readRetained_reck_legal (hl : s.reck.legal) (hr : ∀ r ∈ s.retained.toList, r.params.legal) :
    s.readRetained.reck.legal := by
  unfold State.readRetained
  split
  · next r hret => exact State.withSettings_reck_legal hl (hr r (by simp [hret]))
  · exact State.withSettings_reck_legal hl Params.default_legal

theorem State.setClock_reck_legal (hl : s.reck.legal) {k : Clock} (hseconds : k.seconds ≤ 86399) (hphase : k.phase ≤ 999) :
    (s.setClock k).reck.legal := by
  obtain ⟨hprogress, hframe, hdistance, hlead, hfreshness, -⟩ := hl
  exact ⟨hprogress, hframe, hdistance, hlead, hfreshness, hseconds, hphase⟩

theorem ReckoningUnit.tick_legal {r : ReckoningUnit} (hl : r.legal) (x : TableStore) : (r.tick x).unit.legal := by
  unfold ReckoningUnit.tick
  split
  · next hcounts =>
    split
    · exact ReckoningUnit.expire_legal hl x hcounts
    · obtain ⟨hprogress, hframe, hdistance, hlead, hfreshness, hclock⟩ := hl
      exact ⟨hprogress, hframe, hdistance, hlead, (Nat.sub_le _ _).trans hfreshness, hclock⟩
  · exact hl

/-- The record at the start of a journey, with no frame taken (R99). -/
theorem execRouteActivationReckoning_reck_legal {fs : FamilySet} (h : execRouteActivationReckoning fs s = .next t)
    (hl : s.reck.legal) : t.reck.legal := by
  cases h
  obtain ⟨hprogress, -, hrest⟩ := hl
  exact ⟨Progress.cleared_legal hprogress (.inr rfl), nofun, hrest⟩

theorem execStartUpComplete_reck_legal (h : execStartUpComplete s = .next t) (hl : s.reck.legal)
    (hr : ∀ r ∈ s.retained.toList, r.params.legal) : t.reck.legal := by
  unfold execStartUpComplete at h
  split at h
  · cases h
    dsimp only
    split
    · exact hl
    · exact State.readRetained_reck_legal hl hr
  · cases h; exact hl

theorem execPosition_reck_legal {f : PositionFields} (h : execPosition f s = .next t) (hl : s.reck.legal)
    (hp : s.mgmt.params.legal) : t.reck.legal := by
  unfold execPosition at h
  dsimp only at h
  split at h <;> cases h
  · exact ReckoningUnit.afterFrame_legal hl _ hp (clampedFrame_legal f)
  · exact hl

theorem execTime_reck_legal {payload : List Byte} (h : execTime payload s = .next t) (hl : s.reck.legal) :
    t.reck.legal := by
  unfold execTime at h
  dsimp only at h
  split at h <;> cases h
  · exact hl
  · next hbounds =>
    simp only [not_or, not_lt] at hbounds
    obtain ⟨-, hseconds, hms⟩ := hbounds
    exact State.setClock_reck_legal (s := s.taken _) hl hseconds hms

theorem execClockSecond_reck_legal (h : execClockSecond s = .next t) (hl : s.reck.legal) : t.reck.legal := by
  unfold execClockSecond at h
  split at h <;> cases h
  · exact State.setClock_reck_legal hl (Nat.lt_succ_iff.1 (Nat.mod_lt _ (by decide))) (Nat.zero_le _)
  · exact hl

theorem execFreshnessExpiry_reck_legal (h : execFreshnessExpiry s = .next t) (hl : s.reck.legal) : t.reck.legal := by
  unfold execFreshnessExpiry at h
  split at h <;> cases h
  · next hcounts => exact ReckoningUnit.expire_legal hl _ hcounts
  · exact hl

theorem execSecondsTick_reck_legal (h : execSecondsTick s = .next t) (hl : s.reck.legal) : t.reck.legal := by
  unfold execSecondsTick at h
  dsimp only at h
  split at h <;> cases h
  · exact ReckoningUnit.tick_legal hl _
  · exact hl

theorem execRestartHoldEnd_reck_legal (h : execRestartHoldEnd s = .next t) (hl : s.reck.legal)
    (hr : ∀ r ∈ s.retained.toList, r.params.legal) : t.reck.legal := by
  unfold execRestartHoldEnd at h
  split at h <;> cases h
  · exact State.readRetained_reck_legal (s := s.restarted) ReckoningUnit.start_legal hr
  · exact hl

theorem execStopCancel_reck_legal {f : MgmtFrame} (h : execStopCancel f s = .next t) (hl : s.reck.legal) :
    t.reck.legal := by
  refine runCommand_keeps (P := fun s => s.reck.legal) h (fun _ _ _ _ _ _ hl => hl) ?_ fun _ => hl
  split
  · exact hl
  · dsimp only
    split
    · exact hl
    · exact ReckoningUnit.recomputeAll_legal hl _

theorem exec_reck_legal (h : exec c s = .next t) (hl : s.reck.legal) (hp : s.paramsLegal) : t.reck.legal := by
  have unwritten (hw : c.writesReck = false) : t.reck.legal := by rw [exec_reck h hw]; exact hl
  obtain ⟨hparams, hretained, -⟩ := hp
  cases c with
  | powerOn => cases h; exact ReckoningUnit.start_legal
  | powerLoss => cases h; exact ReckoningUnit.start_legal
  | startUpComplete => exact execStartUpComplete_reck_legal h hl hretained
  | position _ => exact execPosition_reck_legal h hl hparams
  | time _ => exact execTime_reck_legal h hl
  | secondsTick => exact execSecondsTick_reck_legal h hl
  | clockSecond => exact execClockSecond_reck_legal h hl
  | freshnessExpiry => exact execFreshnessExpiry_reck_legal h hl
  | stopCancel _ => exact execStopCancel_reck_legal h hl
  | restartHoldEnd => exact execRestartHoldEnd_reck_legal h hl hretained
  | portionChangeReckoning p => cases h; exact ReckoningUnit.recomputeAll_legal (ReckoningUnit.portion_legal hl p) _
  | routeActivationReckoning _ => exact execRouteActivationReckoning_reck_legal h hl
  | _ => exact unwritten rfl

/-- Settles O8. -/
theorem reckoningLawKept : Obligations.ReckoningLawKept :=
  fun _ _ => step_keeps (P := fun s => s.reckoningLegal) (fun _ _ hl => hl) fun h ⟨hreck, hparams⟩ =>
    ⟨exec_reck_legal h hreck hparams, exec_paramsLegal h hparams⟩

end Sys2Proof.Machine
end

section
/-! PROOF. The laws that every step keeps (5): placement (R110). -/

namespace Sys2Proof.Machine

variable {c : Instr} {s t : State} {u : ReservationUnit}

theorem ReservationUnit.start_law : ReservationUnit.start.placementLaw := ⟨nofun, List.Pairwise.nil⟩

/-- The law is one of the placements and of the basis' calling set. -/
theorem ReservationUnit.law_of_eq {v : ReservationUnit} (h : u.placementLaw) (hp : v.placements = u.placements)
    (hc : v.basisCalling = u.basisCalling) : v.placementLaw := by
  obtain ⟨hspans, hclear⟩ := h
  exact ⟨hp ▸ hc ▸ hspans, hp ▸ hclear⟩

theorem ReservationUnit.resolveAll_law (h : u.placementLaw) (s : State) (force : Bool) :
    (u.resolveAll s force).unit.placementLaw := h

theorem ReservationUnit.resolveOne_placements (s : State) (u : ReservationUnit) (slot : Nat) :
    (u.resolveOne s slot).unit.placements = u.placements ∧ (u.resolveOne s slot).unit.basisCalling = u.basisCalling := by
  unfold ReservationUnit.resolveOne
  split
  · exact ⟨rfl, rfl⟩
  · dsimp only
    split <;> exact ⟨rfl, rfl⟩

theorem ReservationUnit.resolveOne_law (h : u.placementLaw) (s : State) (slot : Nat) :
    (u.resolveOne s slot).unit.placementLaw :=
  have ⟨hp, hc⟩ := ReservationUnit.resolveOne_placements s u slot
  ReservationUnit.law_of_eq h hp hc

theorem State.resolveSeats_law (h : s.resv.placementLaw) (run force : Bool) :
    (s.resolveSeats run force).resv.placementLaw := by
  cases run with
  | true => exact ReservationUnit.resolveAll_law (ReservationUnit.run_law _ _ _) _ force
  | false => exact ReservationUnit.resolveAll_law (ReservationUnit.renew_law h) _ force

/-- A record whose stops differ, both in the calling set and in order, placed clear of its slot's chain (R115). -/
theorem ReservationUnit.setPlaced_law (h : u.placementLaw) {b a : Nat} {p : Placement} (hp : p.outcome = .placed b a)
    (hba : b < a) (hb : b ∈ u.basisCalling) (ha : a ∈ u.basisCalling)
    (hclear : ∀ e ∈ chainOf u.placements p.slot, spansOverlap b a e.b e.a = false) (i : Nat) :
    ({ u with placements := Table.set u.placements i p } : ReservationUnit).placementLaw := by
  obtain ⟨hspans, hpairs⟩ := h
  have hspan : p.span = some (b, a) := by simp [Placement.span, hp]
  refine ⟨fun e he x hx => ?_, Table.pairwise_set (fun x y hxy => ?_) hpairs fun e he => ?_⟩
  · rcases Table.mem_set he with rfl | he
    · obtain rfl : x = (b, a) := by simpa [hspan, eq_comm] using hx
      exact ⟨hba, hb, ha⟩
    · exact hspans e he x hx
  · rw [Placement.clear_comm]; exact hxy
  · exact clear_of_chain hspan hclear he

theorem ReservationUnit.erase_law (h : u.placementLaw) (i : Nat) :
    ({ u with placements := Table.erase u.placements i } : ReservationUnit).placementLaw := by
  obtain ⟨hspans, hpairs⟩ := h
  exact ⟨fun e he => hspans e (List.mem_of_mem_filter he), hpairs.filter _⟩

/-- The two stops of a record taken lie at two ordinals, for the route holds no ordinal twice (R68, R114). -/
theorem State.resvAdd_law (h : s.resv.placementLaw) (hroute : Table.wf s.tables.route.active) (args : List Byte) :
    (s.resvAdd args).after.resv.placementLaw := by
  obtain ⟨hlaw, -, hbasis⟩ := ReservationUnit.forEdit_spec (s := s) h
  unfold State.resvAdd
  dsimp only
  split
  · exact hlaw
  · next b a htest =>
    obtain ⟨-, -, -, -, -, hstops, hon, hle, hclear⟩ := resvAddTest_passed htest
    obtain ⟨hboard, halight, hb, ha⟩ := onRoute_spec hon
    have hba : b < a := lt_of_le_of_ne hle fun heq => hstops (lookup_inj hroute hboard (heq ▸ halight))
    exact ReservationUnit.resolveOne_law
      (ReservationUnit.setPlaced_law (p := (resvRecord args).placement (.placed b a)) hlaw rfl hba (hbasis ▸ hb) (hbasis ▸ ha)
        hclear _) _ _

theorem State.resvDrop_law (h : s.resv.placementLaw) (args : List Byte) : (s.resvDrop args).after.resv.placementLaw := by
  obtain ⟨hlaw, -, -⟩ := ReservationUnit.forEdit_spec (s := s) h
  unfold State.resvDrop
  dsimp only
  split
  · exact hlaw
  · split
    · exact ReservationUnit.erase_law hlaw _
    · exact ReservationUnit.resolveOne_law (ReservationUnit.erase_law hlaw _) _ _

theorem runCommand_resv_law {code : Nat} {f : MgmtFrame} {onRefuse : Result → Answer} {body : Answer} {mode : Mode}
    (h : runCommand code f onRefuse body mode = .next t) (hrefuse : ∀ r, (onRefuse r).after.resv.placementLaw)
    (hbody : body.after.resv.placementLaw) : t.resv.placementLaw :=
  runCommand_keeps (P := fun t => t.resv.placementLaw) h (fun _ _ _ _ _ _ h => h) hbody hrefuse

theorem execReckoningAnnouncementResv_law {news : ReckoningNews} (h : execReckoningAnnouncementResv news s = .next t)
    (hl : s.resv.placementLaw) : t.resv.placementLaw := by
  unfold execReckoningAnnouncementResv at h
  dsimp only at h
  split at h
  · cases h; exact State.resolveSeats_law (s := s.taken _) hl _ _
  · split at h <;> cases h
    · exact State.resolveSeats_law (s := s.taken _) hl _ _
    · exact hl

theorem execRestartHoldEnd_law (h : execRestartHoldEnd s = .next t) (hl : s.resv.placementLaw) : t.resv.placementLaw := by
  unfold execRestartHoldEnd at h
  split at h <;> cases h
  · rw [State.readRetained_resv]; exact ReservationUnit.start_law
  · exact hl

theorem exec_resv_law (h : exec c s = .next t) (hl : s.resv.placementLaw) (hroute : Table.wf s.tables.route.active) :
    t.resv.placementLaw := by
  have unwritten (hw : c.writesResv = false) : t.resv.placementLaw := by rw [exec_resv h hw]; exact hl
  cases c with
  | powerOn => cases h; exact ReservationUnit.start_law
  | powerLoss => cases h; exact ReservationUnit.start_law
  | restartHoldEnd => exact execRestartHoldEnd_law h hl
  | resvAdd _ => exact runCommand_resv_law h (fun _ => hl) (State.resvAdd_law (s := s.taken _) hl hroute _)
  | resvDrop _ => exact runCommand_resv_law h (fun _ => hl) (State.resvDrop_law (s := s.taken _) hl _)
  | reckoningAnnouncementResv _ => exact execReckoningAnnouncementResv_law h hl
  | activationAnnouncementResv _ => cases h; exact State.resolveSeats_law (s := s.taken _) hl _ _
  | portionChangeResv => cases h; exact State.resolveSeats_law (s := s.taken _) hl _ _
  | modeChangeResv => cases h; exact State.resolveSeats_law (s := s.taken _) hl _ _
  | horizonChange => cases h; exact State.resolveSeats_law (s := s.taken _) hl _ _
  | _ => exact unwritten rfl

/-- Settles O9. -/
theorem placementLawKept : Obligations.PlacementLawKept := by
  intro s t hbanks hl h
  have hroute : Table.wf s.tables.route.active := (TableStore.family_legal hbanks.1 .route).1.1
  unfold step at h
  split at h
  · exact exec_resv_law h hl hroute
  · split at h
    · exact exec_resv_law h hl hroute
    · cases h; exact hl

end Sys2Proof.Machine
end

section
/-! PROOF. The laws that every step keeps (6): the notice queue, the acceptance list and the text lines (R145, R148, R150,
R164), and the portion masks (R150, log 30). -/

namespace Sys2Proof.Machine

/-! ### The portion that the Notice Unit has taken -/

section Portion

variable (s : State) (u : NoticeUnit)

@[simp] theorem Did.nothing_unit {σ : Type} (u : σ) : (Did.nothing u).unit = u := rfl

@[simp] theorem Did.nothing_said {σ : Type} (u : σ) : (Did.nothing u).said = [] := rfl

@[simp] theorem Did.andThen_unit {σ : Type} (d : Did σ) (f : σ → Did σ) : (d.andThen f).unit = (f d.unit).unit := rfl

@[simp] theorem Did.andThen_said {σ : Type} (d : Did σ) (f : σ → Did σ) :
    (d.andThen f).said = d.said ++ (f d.unit).said := rfl

@[simp] theorem NoticeUnit.settle_portion : (u.settle s).unit.portion = u.portion := by
  unfold NoticeUnit.settle
  repeat' split
  all_goals rfl

@[simp] theorem NoticeUnit.endShow_portion : u.endShow.unit.portion = u.portion := by
  unfold NoticeUnit.endShow
  split <;> rfl

@[simp] theorem NoticeUnit.remove_portion (id : Nat) : (u.remove id).unit.portion = u.portion := by
  unfold NoticeUnit.remove
  split
  · rfl
  · dsimp only [Did.andThen_unit]
    split
    · exact NoticeUnit.endShow_portion _
    · rfl

@[simp] theorem NoticeUnit.removeAndSettle_portion (id : Nat) : (u.removeAndSettle s id).unit.portion = u.portion := by
  simp [NoticeUnit.removeAndSettle]

@[simp] theorem NoticeUnit.endCounted_portion : u.endCounted.unit.portion = u.portion := by
  unfold NoticeUnit.endCounted
  split
  · dsimp only [Did.andThen_unit]
    split
    · split <;> simp
    · simp
  · rfl
  · rfl

@[simp] theorem NoticeUnit.preempt_portion : u.preempt.unit.portion = u.portion := by
  unfold NoticeUnit.preempt
  split
  · split
    · split <;> simp
    · rfl
  · rfl
  · rfl

@[simp] theorem NoticeUnit.nowDue_portion (effective : Nat) : (u.nowDue s effective).unit.portion = u.portion := by
  unfold NoticeUnit.nowDue
  split <;> simp

@[simp] theorem NoticeUnit.admission_portion (e : NoticeEntry) : (u.admission s e).unit.portion = u.portion := by
  simp [NoticeUnit.admission]

@[simp] theorem NoticeUnit.update_portion (old e : NoticeEntry) : (u.update s old e).unit.portion = u.portion := by
  unfold NoticeUnit.update
  dsimp only
  split <;> simp

@[simp] theorem NoticeUnit.offer_portion (e : NoticeEntry) : (u.offer s e).unit.portion = u.portion := by
  unfold NoticeUnit.offer
  split
  · simp
  · split
    · simp
    · split
      · split <;> simp
      · rfl

@[simp] theorem NoticeUnit.take_portion (f : NoticeFields) : (u.take s f).unit.portion = u.portion := by
  unfold NoticeUnit.take
  split
  · rfl
  · split
    · rfl
    · split <;> simp

@[simp] theorem NoticeUnit.repeatExpired_portion (e : NoticeEntry) : (u.repeatExpired s e).unit.portion = u.portion := by
  unfold NoticeUnit.repeatExpired
  dsimp only
  split <;> simp

@[simp] theorem NoticeUnit.withdraw_portion : u.withdraw.unit.portion = u.portion := by
  unfold NoticeUnit.withdraw
  split <;> rfl

@[simp] theorem NoticeUnit.rebuildLocal_portion (k : ApproachKind) : (u.rebuildLocal s k).unit.portion = u.portion := by
  unfold NoticeUnit.rebuildLocal
  split
  · rfl
  · dsimp only
    repeat' split
    all_goals rfl

@[simp] theorem NoticeUnit.rebuildLocals_portion : (u.rebuildLocals s).unit.portion = u.portion := by
  simp [NoticeUnit.rebuildLocals]

@[simp] theorem NoticeUnit.reconcile_portion : (u.reconcile s).unit.portion = u.portion := by
  unfold NoticeUnit.reconcile
  dsimp only
  split
  · simp
  · simp only [Did.andThen_unit, Did.nothing_unit]
    split <;> split <;> simp

theorem NoticeUnit.each_portion {α : Type} {f : NoticeUnit → α → Did NoticeUnit}
    (hf : ∀ v x, (f v x).unit.portion = v.portion) (l : List α) : (Did.each f u l).unit.portion = u.portion :=
  Did.each_keeps (P := fun v => v.portion = u.portion) (fun v x hv => (hf v x).trans hv) rfl

@[simp] theorem NoticeUnit.purge_portion (portion : Nat) : (u.purge s portion).unit.portion = u.portion :=
  NoticeUnit.each_portion u (fun v id => NoticeUnit.removeAndSettle_portion s v id) _

@[simp] theorem NoticeUnit.tick_portion : (u.tick s).unit.portion = u.portion := by
  have hlife : u.tickLifetimes.unit.portion = u.portion :=
    NoticeUnit.each_portion { u with queue := _ } (fun v id => NoticeUnit.remove_portion v id) _
  have hrepeat (v : NoticeUnit) : v.tickRepeats.unit.portion = v.portion := by
    unfold NoticeUnit.tickRepeats
    dsimp only
    split <;> simp
  have hdwell (v : NoticeUnit) : v.tickDwell.unit.portion = v.portion := by
    unfold NoticeUnit.tickDwell
    split
    · split <;> simp
    · rfl
    · rfl
  simp [NoticeUnit.tick, hlife, hrepeat, hdwell]

end Portion

/-! ### What the commands make of the Notice Unit -/

/-- The acceptance list's own law (R148). -/
abbrev acceptanceLaw (l : List FilterEntry) : Prop :=
  l.length ≤ 24 ∧ (l.map (·.id)).Nodup ∧ ∀ x ∈ l, (1 ≤ x.id ∧ x.id ≤ 255) ∧ ∀ p ∈ x.override.toList, p ≤ 3

/-- What the operations of the Notice Unit, one after another, make of it; the state each reads is any. -/
inductive NoticeUnit.becomes : NoticeUnit → NoticeUnit → Prop
  | same {u : NoticeUnit} : u.becomes u
  | settle {u v : NoticeUnit} (x : State) : u.becomes v → u.becomes (v.settle x).unit
  | take {u v : NoticeUnit} (x : State) (f : NoticeFields) : u.becomes v → u.becomes (v.take x f).unit
  | removeAndSettle {u v : NoticeUnit} (x : State) (id : Nat) : u.becomes v → u.becomes (v.removeAndSettle x id).unit
  | repeatExpired {u v : NoticeUnit} (x : State) {e : NoticeEntry} :
    e ∈ v.queue → u.becomes v → u.becomes (v.repeatExpired x e).unit
  | endCounted {u v : NoticeUnit} : u.becomes v → u.becomes v.endCounted.unit
  | tick {u v : NoticeUnit} (x : State) : u.becomes v → u.becomes (v.tick x).unit
  | withdraw {u v : NoticeUnit} : u.becomes v → u.becomes v.withdraw.unit
  | rebuildDefault {u v : NoticeUnit} (x : State) : u.becomes v → u.becomes (v.rebuildDefault x)
  | rebuildLocals {u v : NoticeUnit} (x : State) : u.becomes v → u.becomes (v.rebuildLocals x).unit
  | reconcile {u v : NoticeUnit} (x : State) : u.becomes v → u.becomes (v.reconcile x).unit
  | purge {u v : NoticeUnit} (x : State) (portion : Nat) :
    u.becomes v → u.becomes (NoticeUnit.purge x { v with portion := portion } portion).unit
  | rejects {u v : NoticeUnit} : u.becomes v → u.becomes { v with rejected := count16 v.rejected 1 }
  | clears {u v : NoticeUnit} : u.becomes v → u.becomes { v with rejected := 0, dropped := 0 }
  | accepts {u v : NoticeUnit} {l : List FilterEntry} :
    (acceptanceLaw v.acceptance → acceptanceLaw l) → u.becomes v → u.becomes { v with acceptance := l }

section Notice

variable {c : Instr} {s t : State} {u v : NoticeUnit}

theorem NoticeUnit.becomes_legal (h : u.becomes v) (hl : u.legal) : v.legal := by
  induction h with
  | same => exact hl
  | settle x _ ih => exact (NoticeUnit.settle_spec ih).1
  | take x f _ ih => exact NoticeUnit.take_legal ih f
  | removeAndSettle x id _ ih => exact (NoticeUnit.removeAndSettle_spec ih id).1
  | repeatExpired x he _ ih => exact NoticeUnit.repeatExpired_legal ih he
  | endCounted _ ih => exact NoticeUnit.endCounted_legal ih
  | tick x _ ih => exact NoticeUnit.tick_legal ih
  | withdraw _ ih => exact NoticeUnit.withdraw_legal ih
  | rebuildDefault x _ ih => exact NoticeUnit.rebuildDefault_legal ih
  | rebuildLocals x _ ih => exact NoticeUnit.rebuildLocals_legal ih
  | reconcile x _ ih => exact NoticeUnit.reconcile_legal ih
  | @purge v x portion _ ih =>
    have hportion : ({ v with portion := portion } : NoticeUnit).legal := ih
    exact NoticeUnit.purge_legal hportion portion
  | rejects _ ih =>
    obtain ⟨hqueue, hlist, hlines, hdefault, -, hdropped⟩ := ih
    exact ⟨hqueue, hlist, hlines, hdefault, count16_le _ _, hdropped⟩
  | clears _ ih =>
    obtain ⟨hqueue, hlist, hlines, hdefault, -, -⟩ := ih
    exact ⟨hqueue, hlist, hlines, hdefault, Nat.zero_le _, Nat.zero_le _⟩
  | accepts hlaw _ ih =>
    obtain ⟨hqueue, hlist, hrest⟩ := ih
    exact ⟨hqueue, hlaw hlist, hrest⟩

/-- Whether a mask passes the clause of R150 for a portion. -/
abbrev masksPortion (portion : Nat) (m : BitVec 3) : Prop :=
  1 ≤ portion → portion ≤ 3 → m.getLsbD (portion - 1) = true

theorem NoticeUnit.portionLaw_of_masks (h : v.masks (fun _ m => masksPortion u.portion m)) (hp : v.portion = u.portion) :
    v.portionLaw := by
  intro h1 h3 e he
  rw [hp] at h1 h3 ⊢
  exact h e he h1 h3

theorem NoticeUnit.masks_of_portionLaw (h : u.portionLaw) : u.masks (fun _ m => masksPortion u.portion m) :=
  fun e he h1 h3 => h h1 h3 e he

/-- The mask of a local notice names every portion (R162). -/
theorem masksPortion_seven (portion : Nat) : masksPortion portion 7 := by
  intro h1 h3
  interval_cases portion <;> decide

theorem masksPortion_of_holds {m : BitVec 3} {portion : Nat} (h : holdsPortion m portion = true) : masksPortion portion m :=
  fun _ _ => ((holdsPortion_eq_true_iff m portion).1 h).2

theorem NoticeUnit.becomes_portionLaw (h : u.becomes v) (hl : u.portionLaw) : v.portionLaw := by
  induction h with
  | same => exact hl
  | settle x _ ih =>
    exact NoticeUnit.portionLaw_of_masks (NoticeUnit.settle_masks (NoticeUnit.masks_of_portionLaw ih)) (by simp)
  | take x f _ ih =>
    exact NoticeUnit.portionLaw_of_masks
      (NoticeUnit.take_masks (NoticeUnit.masks_of_portionLaw ih) masksPortion_of_holds) (by simp)
  | removeAndSettle x id _ ih =>
    exact NoticeUnit.portionLaw_of_masks (NoticeUnit.removeAndSettle_masks (NoticeUnit.masks_of_portionLaw ih) id) (by simp)
  | @repeatExpired v x e he _ ih =>
    have hq : ({ v with queue := replaceEntry v.queue { e with repeatTimer := 0, due := true } } : NoticeUnit).masks
        (fun _ m => masksPortion v.portion m) :=
      masks_replace (P := fun _ m => masksPortion v.portion m) (NoticeUnit.masks_of_portionLaw ih)
        (NoticeUnit.masks_of_portionLaw ih e he)
    refine NoticeUnit.portionLaw_of_masks (u := v) ?_ (by simp)
    unfold NoticeUnit.repeatExpired
    dsimp only
    split
    · exact hq
    · exact NoticeUnit.nowDue_masks hq _
  | endCounted _ ih =>
    exact NoticeUnit.portionLaw_of_masks (NoticeUnit.endCounted_masks (NoticeUnit.masks_of_portionLaw ih)) (by simp)
  | tick x _ ih =>
    exact NoticeUnit.portionLaw_of_masks (NoticeUnit.tick_masks (NoticeUnit.masks_of_portionLaw ih)) (by simp)
  | withdraw _ ih =>
    exact NoticeUnit.portionLaw_of_masks (NoticeUnit.withdraw_masks (NoticeUnit.masks_of_portionLaw ih)) (by simp)
  | rebuildDefault x _ ih => exact ih
  | rebuildLocals x _ ih =>
    exact NoticeUnit.portionLaw_of_masks (NoticeUnit.rebuildLocals_masks (NoticeUnit.masks_of_portionLaw ih)) (by simp)
  | reconcile x _ ih =>
    exact NoticeUnit.portionLaw_of_masks
      (NoticeUnit.reconcile_masks (NoticeUnit.masks_of_portionLaw ih) fun _ => masksPortion_seven _) (by simp)
  | @purge v x portion _ _ =>
    refine NoticeUnit.portionLaw_of_masks (u := { v with portion := portion }) (fun e he => ?_) (by simp)
    exact masksPortion_of_holds (NoticeUnit.purge_masks _ portion e he)
  | rejects _ ih => exact ih
  | clears _ ih => exact ih
  | accepts _ _ ih => exact ih

theorem filterEntry_legal {args : List Byte} (hid : natAt args 1 ≠ 0) :
    (1 ≤ (filterEntry args).id ∧ (filterEntry args).id ≤ 255) ∧ ∀ p ∈ (filterEntry args).override.toList, p ≤ 3 := by
  have hbyte : natAt args 1 < 256 := (byteAt args 1).isLt
  refine ⟨⟨Nat.one_le_iff_ne_zero.2 hid, Nat.lt_succ_iff.1 hbyte⟩, fun p hp => ?_⟩
  unfold filterEntry at hp
  dsimp only at hp
  split at hp
  · next hle => exact List.mem_singleton.1 hp ▸ hle
  · cases hp

theorem State.acceptInsert_becomes (s : State) (args : List Byte) :
    s.notice.becomes (s.acceptInsert args).after.notice := by
  rcases acceptInsert_cases s args with ⟨r, h, -⟩ | ⟨hid, -, hlength, hnew, -, h⟩ <;> rw [h]
  · exact .same
  · refine .accepts (fun ⟨_, hnodup, hlegal⟩ => ?_) .same
    refine ⟨(insertAfter_length_le _ _ _).trans hlength, insertAfter_nodup hnodup hnew, fun x hx => ?_⟩
    rcases mem_insertAfter hx with rfl | hx
    · exact filterEntry_legal hid
    · exact hlegal x hx

theorem acceptanceLaw_filter {l : List FilterEntry} (h : acceptanceLaw l) (p : FilterEntry → Bool) :
    acceptanceLaw (l.filter p) := by
  obtain ⟨hlength, hnodup, hlegal⟩ := h
  exact ⟨(List.length_filter_le _ _).trans hlength, hnodup.sublist (List.filter_sublist.map _),
    fun x hx => hlegal x (List.mem_of_mem_filter hx)⟩

theorem runCommand_becomes {code : Nat} {f : MgmtFrame} {onRefuse : Result → Answer} {body : Answer} {mode : Mode}
    (h : runCommand code f onRefuse body mode = .next t) (hrefuse : ∀ r, u.becomes (onRefuse r).after.notice)
    (hbody : u.becomes body.after.notice) : u.becomes t.notice :=
  runCommand_keeps (P := fun t => u.becomes t.notice) h (fun _ _ _ _ _ _ h => h) hbody hrefuse

theorem execAcceptRemove_becomes {f : MgmtFrame} (h : execAcceptRemove f s = .next t) : s.notice.becomes t.notice := by
  refine runCommand_becomes h (fun _ => .same) ?_
  split
  · exact .same
  · exact .accepts (fun hl => acceptanceLaw_filter hl _) .same

theorem execStatus_becomes {f : MgmtFrame} (h : execStatus f s = .next t) : s.notice.becomes t.notice := by
  refine runCommand_becomes h (fun _ => .same) ?_
  dsimp only
  split
  · exact .same
  · exact .clears .same

theorem execStartUpComplete_becomes (h : execStartUpComplete s = .next t) : s.notice.becomes t.notice := by
  unfold execStartUpComplete at h
  split at h <;> cases h
  · dsimp only
    split
    · exact .settle _ .same
    · rw [State.readRetained_notice]; exact .settle _ .same
  · exact .same

theorem execSecondsTick_becomes (h : execSecondsTick s = .next t) : s.notice.becomes t.notice := by
  unfold execSecondsTick at h
  dsimp only at h
  split at h <;> cases h
  · exact .tick _ .same
  · exact .same

theorem execNoticeCancel_becomes {payload : List Byte} (h : execNoticeCancel payload s = .next t) :
    s.notice.becomes t.notice := by
  unfold execNoticeCancel at h
  dsimp only at h
  repeat' split at h
  all_goals cases h
  · exact .same
  · exact .rejects .same
  · exact .same
  · exact .removeAndSettle _ _ .same

theorem execLifetimeExpiry_becomes {id : Nat} (h : execLifetimeExpiry id s = .next t) : s.notice.becomes t.notice := by
  unfold execLifetimeExpiry at h
  split at h <;> cases h
  · exact .removeAndSettle _ _ .same
  · exact .same

theorem execRepeatTimerExpiry_becomes {id : Nat} (h : execRepeatTimerExpiry id s = .next t) :
    s.notice.becomes t.notice := by
  unfold execRepeatTimerExpiry at h
  split at h
  · next he =>
    split at h <;> cases h
    · exact .same
    · exact .repeatExpired _ (NoticeUnit.find_spec he).1 .same
  · cases h; exact .same

theorem execDwellEnd_becomes (h : execDwellEnd s = .next t) : s.notice.becomes t.notice := by
  unfold execDwellEnd at h
  split at h <;> cases h
  · exact .settle _ (.endCounted .same)
  · exact .same
  · exact .same

theorem execModeChangeNotice_becomes {before after : Mode} (h : execModeChangeNotice before after s = .next t) :
    s.notice.becomes t.notice := by
  unfold execModeChangeNotice at h
  dsimp only at h
  split at h <;> cases h
  · exact .withdraw .same
  · exact .settle _ .same

theorem execReckoningAnnouncementNotice_becomes {news : ReckoningNews}
    (h : execReckoningAnnouncementNotice news s = .next t) : s.notice.becomes t.notice := by
  unfold execReckoningAnnouncementNotice at h
  dsimp only at h
  split at h <;> cases h
  · exact .reconcile _ (.rebuildDefault _ .same)
  · exact .reconcile _ .same

theorem execActivationAnnouncementNotice_becomes {families : FamilySet}
    (h : execActivationAnnouncementNotice families s = .next t) : s.notice.becomes t.notice := by
  have hroute : s.notice.becomes (if families.route then (s.notice.rebuildDefault s).reconcile s
      else Did.nothing (s.notice.rebuildDefault s)).unit := by
    split
    · exact .reconcile _ (.rebuildDefault _ .same)
    · exact .rebuildDefault _ .same
  unfold execActivationAnnouncementNotice at h
  dsimp only at h
  split at h <;> cases h
  · exact .rebuildLocals _ hroute
  · exact hroute

/-- Every command but a start works on the Notice Unit by its operations. -/
theorem exec_noticeBecomes (h : exec c s = .next t) (hc : isStart c = false) : s.notice.becomes t.notice := by
  have unwritten (hw : c.writesNotice = false) : s.notice.becomes t.notice := by rw [exec_notice h hw]; exact .same
  cases c with
  | powerOn => cases hc
  | powerLoss => cases hc
  | restartHoldEnd => cases hc
  | startUpComplete => exact execStartUpComplete_becomes h
  | secondsTick => exact execSecondsTick_becomes h
  | status _ => exact execStatus_becomes h
  | acceptInsert _ => exact runCommand_becomes h (fun _ => .same) (State.acceptInsert_becomes (s.taken _) _)
  | acceptRemove _ => exact execAcceptRemove_becomes h
  | notice f => cases h; exact .take _ _ .same
  | noticeCancel _ => exact execNoticeCancel_becomes h
  | lifetimeExpiry _ => exact execLifetimeExpiry_becomes h
  | repeatTimerExpiry _ => exact execRepeatTimerExpiry_becomes h
  | dwellEnd => exact execDwellEnd_becomes h
  | modeChangeNotice _ _ => exact execModeChangeNotice_becomes h
  | reckoningAnnouncementNotice _ => exact execReckoningAnnouncementNotice_becomes h
  | portionChangeNotice p => cases h; exact .reconcile _ (.rebuildDefault _ (.purge _ p .same))
  | activationAnnouncementNotice _ => exact execActivationAnnouncementNotice_becomes h
  | coachNumberChange => cases h; exact .rebuildDefault _ .same
  | _ => exact unwritten rfl

/-- A start leaves the Notice Unit at its start, or as it was. -/
theorem exec_notice_of_isStart (h : exec c s = .next t) (hc : isStart c = true) :
    t.notice = NoticeUnit.start ∨ t.notice = s.notice := by
  cases c with
  | powerOn => cases h; exact .inl rfl
  | powerLoss => cases h; exact .inl rfl
  | restartHoldEnd =>
    change execRestartHoldEnd s = .next t at h
    unfold execRestartHoldEnd at h
    split at h <;> cases h
    · rw [State.readRetained_notice]; exact .inl rfl
    · exact .inr rfl
  | _ => cases hc

theorem NoticeUnit.start_legal : NoticeUnit.start.legal := by
  refine ⟨⟨?_, ?_, ?_, ?_⟩, ⟨?_, ?_, ?_⟩, ?_, ?_, ?_, ?_⟩ <;> decide

theorem exec_notice_legal (h : exec c s = .next t) (hl : s.notice.legal) : t.notice.legal := by
  by_cases hc : isStart c = true
  · rcases exec_notice_of_isStart h hc with ht | ht <;> rw [ht]
    · exact NoticeUnit.start_legal
    · exact hl
  · exact NoticeUnit.becomes_legal (exec_noticeBecomes h (by simpa using hc)) hl

theorem exec_notice_portionLaw (h : exec c s = .next t) (hl : s.notice.portionLaw) : t.notice.portionLaw := by
  by_cases hc : isStart c = true
  · rcases exec_notice_of_isStart h hc with ht | ht <;> rw [ht]
    · exact fun _ _ => nofun
    · exact hl
  · exact NoticeUnit.becomes_portionLaw (exec_noticeBecomes h (by simpa using hc)) hl

end Notice

/-- Settles O10. -/
theorem noticeLawKept : Obligations.NoticeLawKept :=
  ⟨fun _ _ => step_keeps (P := fun s => s.notice.legal) (fun _ _ hl => hl) exec_notice_legal,
    fun _ _ _ => step_keeps (P := fun s => s.notice.portionLaw) (fun _ _ hl => hl) exec_notice_portionLaw⟩

end Sys2Proof.Machine
end

section
/-! PROOF. The laws that every step keeps (7): the page stacks (R170, R171) and the brightness (R185). -/

namespace Sys2Proof.Machine

variable {c : Instr} {s t : State} {u : PanelComposer}

theorem PanelState.start_legal : PanelState.start.legal none := by
  refine ⟨?_, ?_, ?_, ?_, ?_, ?_, ?_⟩ <;> decide

theorem PanelComposer.start_legal : PanelComposer.start.legal :=
  ⟨PanelState.start_legal, PanelState.start_legal, nofun⟩

theorem PanelComposer.requestBoth_legal (h : u.legal) : (u.requestBoth s).legal := PanelComposer.requestWhere_legal h _

/-- A change of both panels that keeps the law of each keeps that of the composer. -/
theorem PanelComposer.both_legal (h : u.legal) {g : Panel → PanelState → PanelState × Bool}
    (hg : ∀ (panel : Panel) (q : PanelState), q.legal u.basis → (g panel q).1.legal u.basis) : (u.both s g).legal := by
  obtain ⟨h1, h2, hlow⟩ := h
  obtain ⟨k1, k2, hbasis, klow⟩ := PanelComposer.both_spec (s := s) g (hg .panel1 _ h1) (hg .panel2 _ h2) hlow
  exact ⟨hbasis ▸ k1, hbasis ▸ k2, klow⟩

/-- A mode change sets the level FULL, or leaves it with its timer (R185). -/
theorem PanelComposer.modeLevel_legal (h : u.legal) (before after : Mode) : (u.modeLevel s before after).legal := by
  obtain ⟨h1, h2, hlow⟩ := h
  unfold PanelComposer.modeLevel
  split
  · exact ⟨h1, h2, nofun⟩
  · split
    · exact ⟨h1, h2, nofun⟩
    · exact ⟨h1, h2, hlow⟩

theorem PanelState.serviceStart_legal {q : PanelState} {basis : Option Approach} (h : q.legal basis) :
    ({ q with serviceOffset := 0 } : PanelState).legal basis := by
  obtain ⟨hlength, hbottom, hmap, hkinds, happroach, hoffsets, -⟩ := h
  exact ⟨hlength, hbottom, hmap, hkinds, happroach, hoffsets, Nat.zero_le _⟩

theorem PanelComposer.modeOffset_legal (h : u.legal) (before after : Mode) : (u.modeOffset before after).legal := by
  obtain ⟨h1, h2, hlow⟩ := h
  unfold PanelComposer.modeOffset
  split
  · exact ⟨PanelState.serviceStart_legal h1, PanelState.serviceStart_legal h2, hlow⟩
  · exact ⟨h1, h2, hlow⟩

/-- An announcement taken through the composer keeps its law where the composer's change does. -/
theorem withPanels_legal {g : State → PanelComposer → PanelComposer} (h : s.withPanels c g = .next t)
    (hl : s.panels.legal) (hg : (g s s.panels).legal) : t.panels.legal := by
  rcases withPanels_next h with ⟨-, rfl⟩ | ⟨-, rfl⟩
  · exact hg
  · exact hl

theorem execReckoningAnnouncementPanel_legal {news : ReckoningNews} (h : execReckoningAnnouncementPanel news s = .next t)
    (hl : s.panels.legal) : t.panels.legal := by
  refine withPanels_legal h hl ?_
  have hfollowed := PanelComposer.followApproach_legal (s := s) hl
  dsimp only
  split
  · exact PanelComposer.requestBoth_legal hfollowed
  · exact PanelComposer.requestWhere_legal hfollowed _

theorem execNoticeTextChange_legal {item : NoticeTextItem} (h : execNoticeTextChange item s = .next t)
    (hl : s.panels.legal) : t.panels.legal := by
  refine withPanels_legal h hl ?_
  split <;> exact PanelComposer.requestWhere_legal hl _

theorem execFormationChangePanel_legal {item : FormationItem} (h : execFormationChangePanel item s = .next t)
    (hl : s.panels.legal) : t.panels.legal := by
  refine withPanels_legal h hl ?_
  split
  · exact PanelComposer.requestBoth_legal (PanelComposer.followApproach_legal hl)
  · exact PanelComposer.requestWhere_legal hl _
  · exact PanelComposer.requestWhere_legal hl _

theorem execActivationAnnouncementPanel_legal {families : FamilySet}
    (h : execActivationAnnouncementPanel families s = .next t) (hl : s.panels.legal) : t.panels.legal := by
  refine withPanels_legal h hl (PanelComposer.requestBoth_legal ?_)
  split
  · exact PanelComposer.followApproach_legal hl
  · exact hl

theorem execComposeSwap_legal {panel : Panel} (h : execComposeSwap panel s = .next t) (hl : s.panels.legal) :
    t.panels.legal := by
  obtain ⟨h1, h2, hlow⟩ := id hl
  unfold execComposeSwap at h
  split at h <;> split at h <;> cases h
  · exact ⟨PanelState.swap_legal h1 _, h2, hlow⟩
  · exact hl
  · exact ⟨h1, PanelState.swap_legal h2 _, hlow⟩
  · exact hl

theorem execIdleTimerExpiry_legal (h : execIdleTimerExpiry s = .next t) (hl : s.panels.legal) : t.panels.legal := by
  unfold execIdleTimerExpiry at h
  split at h <;> cases h
  · obtain ⟨h1, h2, -⟩ := hl
    exact ⟨h1, h2, fun _ => rfl⟩
  · exact hl

theorem execSecondsTick_panels_legal (h : execSecondsTick s = .next t) (hl : s.panels.legal) : t.panels.legal := by
  unfold execSecondsTick at h
  dsimp only at h
  split at h <;> cases h
  · exact PanelComposer.tick_legal hl
  · exact hl

theorem execRestartHoldEnd_panels_legal (h : execRestartHoldEnd s = .next t) (hl : s.panels.legal) : t.panels.legal := by
  unfold execRestartHoldEnd at h
  split at h <;> cases h
  · rw [State.readRetained_panels]; exact PanelComposer.start_legal
  · exact hl

theorem execOverlayRequest_legal {id : Nat} (h : execOverlayRequest id s = .next t) (hl : s.panels.legal) :
    t.panels.legal :=
  withPanels_legal h hl (PanelComposer.both_legal hl fun _ _ hq => PanelState.overlay_legal hq id)

theorem execOverlayEnd_legal {id : Nat} (h : execOverlayEnd id s = .next t) (hl : s.panels.legal) : t.panels.legal :=
  withPanels_legal h hl (PanelComposer.both_legal hl fun _ _ hq => PanelState.endOverlay_legal hq id)

theorem execModeChangePanel_legal {before after : Mode} (h : execModeChangePanel before after s = .next t)
    (hl : s.panels.legal) : t.panels.legal :=
  withPanels_legal h hl
    (PanelComposer.requestBoth_legal (PanelComposer.modeOffset_legal (PanelComposer.modeLevel_legal hl _ _) _ _))

theorem execTravelRightChange_legal {panel : Panel} (h : execTravelRightChange panel s = .next t) (hl : s.panels.legal) :
    t.panels.legal := withPanels_legal h hl (PanelComposer.requestWhere_legal hl _)

theorem execClockMinuteChange_legal (h : execClockMinuteChange s = .next t) (hl : s.panels.legal) : t.panels.legal :=
  withPanels_legal h hl (PanelComposer.requestWhere_legal hl _)

theorem exec_panels_legal (h : exec c s = .next t) (hl : s.panels.legal) : t.panels.legal := by
  have unwritten (hw : c.writesPanels = false) : t.panels.legal := by rw [exec_panels h hw]; exact hl
  cases c with
  | powerOn => cases h; exact PanelComposer.start_legal
  | powerLoss => cases h; exact PanelComposer.start_legal
  | restartHoldEnd => exact execRestartHoldEnd_panels_legal h hl
  | secondsTick => exact execSecondsTick_panels_legal h hl
  | orientationChange => exact withPanels_legal h hl (PanelComposer.requestBoth_legal hl)
  | reckoningAnnouncementPanel _ => exact execReckoningAnnouncementPanel_legal h hl
  | overlayRequest _ => exact execOverlayRequest_legal h hl
  | overlayEnd _ => exact execOverlayEnd_legal h hl
  | noticeTextChange _ => exact execNoticeTextChange_legal h hl
  | activity => exact withPanels_legal h hl (PanelComposer.active_legal hl)
  | modeChangePanel _ _ => exact execModeChangePanel_legal h hl
  | formationChangePanel _ => exact execFormationChangePanel_legal h hl
  | activationAnnouncementPanel _ => exact execActivationAnnouncementPanel_legal h hl
  | travelRightChange _ => exact execTravelRightChange_legal h hl
  | clockMinuteChange => exact execClockMinuteChange_legal h hl
  | composeSwap _ => exact execComposeSwap_legal h hl
  | idleTimerExpiry => exact execIdleTimerExpiry_legal h hl
  | _ => exact unwritten rfl

/-- Settles O11. -/
theorem panelLawKept : Obligations.PanelLawKept :=
  fun _ _ => step_keeps (P := fun s => s.panels.legal) (fun _ _ hl => hl) exec_panels_legal

end Sys2Proof.Machine
end

section
/-! PROOF. The step, the start and every command (logs 4, 5, 15); the links and the transmit queues of the line (R2, R3, R11 to
R14). -/

namespace Sys2Proof.Machine

/-! ### The step and the start -/

/-- Settles O1. -/
theorem stepRunsTheCommand : Obligations.StepRunsTheCommand := by
  refine ⟨fun _ _ _ => rfl, fun s hpending => ⟨fun c cs hannounced => ?_, fun hannounced => ?_⟩⟩ <;> unfold step <;>
    simp only [hpending, hannounced]

/-- The laws of the blocks, all of them, at the start. -/
theorem State.reset_legal : State.reset.line.legal ∧ State.reset.form.legal ∧ State.reset.tablesLegal ∧
    State.reset.commitLegal ∧ State.reset.reckoningLegal ∧ State.reset.resv.placementLaw ∧ State.reset.notice.legal ∧
    State.reset.notice.portionLaw ∧ State.reset.panels.legal ∧ State.reset.faults.legal ∧ State.reset.mgmt.holdLegal :=
  ⟨LineInterface.start_legal, FormationUnit.start_legal,
    ⟨TableStore.start_legal, ⟨nofun, nofun⟩, SeatBusEngine.start_legal, nofun⟩,
    State.start_commitLegal rfl rfl fun f => by cases f <;> rfl, ⟨ReckoningUnit.start_legal, State.paramsLegal_of_defaults nofun rfl rfl⟩,
    ReservationUnit.start_law, NoticeUnit.start_legal, fun _ _ => nofun, PanelComposer.start_legal, FaultStore.start_legal,
    ManagementUnit.start_holdLegal⟩

theorem PanelComposer.start_values : ∀ q ∈ [PanelComposer.start.panel1, PanelComposer.start.panel2],
    q.stack.map (fun l => (l.kind, l.offset, l.dead)) = [(.map, 0, false)] ∧ q.approachWant = false ∧
      q.serviceOffset = 0 ∧ q.compose = none ∧ q.again = false ∧
      q.front = Vector.replicate 48 (Vector.replicate 192 0) ∧ q.back = Vector.replicate 48 (Vector.replicate 192 0) := by
  intro q hq
  obtain rfl : q = PanelState.start := by simpa [PanelComposer.start] using hq
  exact ⟨rfl, rfl, rfl, rfl, rfl, rfl, rfl⟩

/-- Settles O2. -/
theorem resetValues : Obligations.ResetValues :=
  ⟨⟨rfl, fun p => by cases p <;> rfl⟩, ⟨rfl, rfl, rfl, rfl, rfl, rfl, rfl, rfl, rfl, rfl⟩,
    ⟨rfl, fun f => by cases f <;> rfl⟩, ⟨rfl, rfl, rfl, rfl, rfl, rfl, rfl⟩, ⟨rfl, rfl, rfl⟩,
    ⟨rfl, rfl, rfl, rfl, rfl, rfl, rfl, rfl, rfl⟩, ⟨rfl, rfl, rfl, rfl⟩,
    ⟨rfl, rfl, rfl, rfl, rfl, rfl, rfl, rfl, rfl⟩, ⟨rfl, rfl, rfl, rfl, rfl, rfl, rfl⟩,
    ⟨rfl, rfl, rfl, PanelComposer.start_values⟩, ⟨rfl, rfl, rfl, rfl, rfl, rfl, rfl, rfl, rfl, rfl⟩, State.reset_legal⟩

/-! ### No command stops the part -/

section Completes

/-- An outcome that the part goes on from. -/
abbrev completes (o : StepOutcome) : Prop := ∃ t, o = .next t

theorem completes_next (t : State) : completes (.next t) := ⟨t, rfl⟩

theorem completes_ite {p : Prop} [Decidable p] {a b : StepOutcome} (ha : completes a) (hb : completes b) :
    completes (if p then a else b) := by
  split
  · exact ha
  · exact hb

variable (s : State)

theorem execLossOfSignal_completes (p : Port) : completes (execLossOfSignal p s) := by
  unfold execLossOfSignal
  split <;> exact completes_next _

theorem execFrameArrival_completes (p : Port) (bytes : List Byte) : completes (execFrameArrival p bytes s) := by
  unfold execFrameArrival
  split
  · exact completes_next _
  · split <;> exact completes_next _

theorem execEnumerate_completes (p : Port) (seq : Byte) (payload : List Byte) :
    completes (execEnumerate p seq payload s) := by
  unfold execEnumerate
  split
  · exact completes_ite (completes_next _) (completes_next _)
  · exact completes_next _

theorem execNewInauguration_completes : completes (execNewInauguration s) := by
  unfold execNewInauguration
  dsimp only
  split
  · split <;> exact completes_next _
  · exact completes_next _

theorem execDepartureReport_completes (d : Nat) : completes (execDepartureReport d s) := by
  unfold execDepartureReport
  dsimp only
  repeat' split
  all_goals exact completes_next _

theorem execMgmtUnknownCommand_completes (p : Port) (seq : Byte) (payload : List Byte) :
    completes (execMgmtUnknownCommand p seq payload s) := by
  unfold execMgmtUnknownCommand
  split <;> exact completes_next _

theorem execStore_completes (f : MgmtFrame) : completes (execStore f s) := by
  unfold execStore
  dsimp only
  split
  · exact completes_next _
  · exact completes_ite (completes_next _) (completes_next _)

theorem execStoreWriteEnd_completes (agrees : Bool) : completes (execStoreWriteEnd agrees s) := by
  unfold execStoreWriteEnd
  split
  · exact completes_next _
  · exact completes_ite (completes_next _) (completes_next _)

theorem execReckoningAnnouncementResv_completes (news : ReckoningNews) :
    completes (execReckoningAnnouncementResv news s) := by
  unfold execReckoningAnnouncementResv
  dsimp only
  split
  · exact completes_next _
  · exact completes_ite (completes_next _) (completes_next _)

theorem execSeatSettleEnd_completes : completes (execSeatSettleEnd s) := by
  unfold execSeatSettleEnd
  split
  · exact completes_ite (completes_next _) (completes_next _)
  · exact completes_next _

theorem execSeatAnswer_completes (address status check : Byte) : completes (execSeatAnswer address status check s) := by
  unfold execSeatAnswer
  split
  · exact completes_ite (completes_next _) (completes_next _)
  · exact completes_next _

theorem execSeatAnswerTimeout_completes : completes (execSeatAnswerTimeout s) := by
  unfold execSeatAnswerTimeout
  split
  · exact completes_ite (completes_next _) (completes_ite (completes_next _) (completes_next _))
  · exact completes_next _

theorem execNoticeCancel_completes (payload : List Byte) : completes (execNoticeCancel payload s) :=
  completes_ite (completes_next _) (completes_ite (completes_next _) (completes_ite (completes_next _) (completes_next _)))

theorem execLifetimeExpiry_completes (id : Nat) : completes (execLifetimeExpiry id s) := by
  unfold execLifetimeExpiry
  split <;> exact completes_next _

theorem execRepeatTimerExpiry_completes (id : Nat) : completes (execRepeatTimerExpiry id s) := by
  unfold execRepeatTimerExpiry
  split
  · exact completes_ite (completes_next _) (completes_next _)
  · exact completes_next _

theorem execDwellEnd_completes : completes (execDwellEnd s) := by
  unfold execDwellEnd
  split <;> exact completes_next _

theorem execReckoningAnnouncementNotice_completes (news : ReckoningNews) :
    completes (execReckoningAnnouncementNotice news s) := by
  unfold execReckoningAnnouncementNotice
  dsimp only
  split <;> exact completes_next _

theorem execComposeSwap_completes (panel : Panel) : completes (execComposeSwap panel s) := by
  unfold execComposeSwap
  split <;> split <;> exact completes_next _

theorem execIdleTimerExpiry_completes : completes (execIdleTimerExpiry s) := by
  unfold execIdleTimerExpiry
  split <;> exact completes_next _

theorem exec_completes (c : Instr) : completes (exec c s) := by
  cases c with
  | powerOn => exact completes_next _
  | powerLoss => exact completes_next _
  | startUpComplete => exact completes_ite (completes_next _) (completes_next _)
  | neighbourSignalAppears _ => exact completes_ite (completes_next _) (completes_next _)
  | trainingCompletes _ => exact completes_ite (completes_next _) (completes_next _)
  | lossOfSignal p => exact execLossOfSignal_completes s p
  | linkChangeReport _ _ => exact completes_next _
  | frameArrival p bytes => exact execFrameArrival_completes s p bytes
  | transmissionEnd _ => exact completes_ite (completes_next _) (completes_next _)
  | enumerate p seq payload => exact execEnumerate_completes s p seq payload
  | newInauguration => exact execNewInauguration_completes s
  | orientationChange => exact completes_ite (completes_next _) (completes_next _)
  | position _ => exact completes_ite (completes_next _) (completes_next _)
  | departureReport d => exact execDepartureReport_completes s d
  | time _ => exact completes_ite (completes_next _) (completes_next _)
  | secondsTick => exact completes_ite (completes_next _) (completes_next _)
  | clockSecond => exact completes_ite (completes_next _) (completes_next _)
  | freshnessExpiry => exact completes_ite (completes_next _) (completes_next _)
  | mgmtUnknownCommand p seq payload => exact execMgmtUnknownCommand_completes s p seq payload
  | load _ => exact runCommand_completes _ _ _ _ _
  | loadNext _ => exact runCommand_completes _ _ _ _ _
  | commit _ => exact runCommand_completes _ _ _ _ _
  | discard _ => exact runCommand_completes _ _ _ _ _
  | mode _ => exact runCommand_completes _ _ _ _ _
  | param _ => exact runCommand_completes _ _ _ _ _
  | status _ => exact runCommand_completes _ _ _ _ _
  | startAck _ => exact runCommand_completes _ _ _ _ _
  | assign _ => exact runCommand_completes _ _ _ _ _
  | stopCancel _ => exact runCommand_completes _ _ _ _ _
  | resvAdd _ => exact runCommand_completes _ _ _ _ _
  | resvDrop _ => exact runCommand_completes _ _ _ _ _
  | acceptInsert _ => exact runCommand_completes _ _ _ _ _
  | acceptRemove _ => exact runCommand_completes _ _ _ _ _
  | restart _ => exact runCommand_completes _ _ _ _ _
  | faultRead _ => exact runCommand_completes _ _ _ _ _
  | faultClear _ => exact runCommand_completes _ _ _ _ _
  | ident _ => exact runCommand_completes _ _ _ _ _
  | store f => exact execStore_completes s f
  | storeWriteEnd agrees => exact execStoreWriteEnd_completes s agrees
  | restartHoldEnd => exact completes_ite (completes_next _) (completes_next _)
  | faultReport _ => exact completes_next _
  | portionChangeReckoning _ => exact completes_next _
  | routeActivationReckoning _ => exact completes_next _
  | reckoningAnnouncementResv news => exact execReckoningAnnouncementResv_completes s news
  | activationAnnouncementResv _ => exact completes_next _
  | portionChangeResv => exact completes_next _
  | modeChangeResv => exact completes_next _
  | horizonChange => exact completes_next _
  | queueRequest _ => exact completes_next _
  | seatActivationEngine => exact completes_next _
  | modeChangeEngine => exact completes_next _
  | faultClearEngine => exact completes_next _
  | seatSettleEnd => exact execSeatSettleEnd_completes s
  | seatAnswer address status check => exact execSeatAnswer_completes s address status check
  | seatAnswerTimeout => exact execSeatAnswerTimeout_completes s
  | repollDue _ => exact completes_ite (completes_next _) (completes_next _)
  | refreshRoundBegin => exact completes_ite (completes_next _) (completes_next _)
  | notice _ => exact completes_next _
  | noticeCancel payload => exact execNoticeCancel_completes s payload
  | lifetimeExpiry id => exact execLifetimeExpiry_completes s id
  | repeatTimerExpiry id => exact execRepeatTimerExpiry_completes s id
  | dwellEnd => exact execDwellEnd_completes s
  | modeChangeNotice _ _ => exact completes_ite (completes_next _) (completes_next _)
  | reckoningAnnouncementNotice news => exact execReckoningAnnouncementNotice_completes s news
  | portionChangeNotice _ => exact completes_next _
  | activationAnnouncementNotice _ => exact completes_next _
  | coachNumberChange => exact completes_next _
  | reckoningAnnouncementPanel _ => exact completes_ite (completes_next _) (completes_next _)
  | overlayRequest _ => exact completes_ite (completes_next _) (completes_next _)
  | overlayEnd _ => exact completes_ite (completes_next _) (completes_next _)
  | noticeTextChange _ => exact completes_ite (completes_next _) (completes_next _)
  | activity => exact completes_ite (completes_next _) (completes_next _)
  | modeChangePanel _ _ => exact completes_ite (completes_next _) (completes_next _)
  | formationChangePanel _ => exact completes_ite (completes_next _) (completes_next _)
  | activationAnnouncementPanel _ => exact completes_ite (completes_next _) (completes_next _)
  | travelRightChange _ => exact completes_ite (completes_next _) (completes_next _)
  | clockMinuteChange => exact completes_ite (completes_next _) (completes_next _)
  | composeSwap panel => exact execComposeSwap_completes s panel
  | idleTimerExpiry => exact execIdleTimerExpiry_completes s

/-- Settles O3. -/
theorem everyCommandCompletes : Obligations.EveryCommandCompletes := by
  intro c s
  obtain ⟨t, ht⟩ := exec_completes s c
  exact ⟨t, ht, exec_pending ht⟩

end Completes

/-! ### Links (R2, R3) -/

section Links

variable {p : Port} {s : State}

theorem execLossOfSignal_of_up (h : (s.line.port p).link = .up) : execLossOfSignal p s = .next
    { s with line := s.line.mapPort p PortState.lose
             announced := s.announced ++ [.faultReport (.linkLost p), .linkChangeReport p .down] } := by
  unfold execLossOfSignal
  rw [h]

theorem execLossOfSignal_of_training (h : (s.line.port p).link = .training) :
    execLossOfSignal p s = .next (s.changeLink p .down) := by
  unfold execLossOfSignal
  rw [h]

theorem execLossOfSignal_of_down (h : (s.line.port p).link = .down) : execLossOfSignal p s = .next s := by
  unfold execLossOfSignal
  rw [h]

/-- Settles O14. -/
theorem linkEvents : Obligations.LinkEvents := by
  refine ⟨fun p s => ⟨(apply_ite _ _ _ _).symm, (apply_ite _ _ _ _).symm⟩,
    fun p s => ⟨fun hup => ⟨_, execLossOfSignal_of_up hup, rfl, ?_, ?_, ?_⟩,
      execLossOfSignal_of_training, execLossOfSignal_of_down⟩⟩
  · exact s.line.mapPort_relay _ _
  · exact s.line.port_mapPort_other _ _
  · exact s.line.port_mapPort_self _ _

end Links

/-! ### The arbiter and the offers (R11 to R14) -/

section Queues

variable {q : PortState} {f g : Frame} {own through : List Frame}

/-- An originated frame begins where four frames in a row have passed it, or none waits to pass (R13). -/
theorem PortState.arbitrate_own (hidle : q.sending = none) (hown : q.own = f :: own) (h : q.run = 4 ∨ q.through = []) :
    q.arbitrate = { q with own := own, sending := some f, run := 0 } := by
  unfold PortState.arbitrate
  simp only [hidle, hown]
  cases hthrough : q.through with
  | nil => rfl
  | cons g through => exact if_pos (h.resolve_right (by simp [hthrough]))

/-- Otherwise a frame of the through queue begins, counted where an originated frame waits (R13). -/
theorem PortState.arbitrate_through (hidle : q.sending = none) (hthrough : q.through = g :: through)
    (h : q.own = [] ∨ q.run ≠ 4) :
    q.arbitrate = { q with through := through, sending := some g, run := if q.own = [] then q.run else q.run + 1 } := by
  unfold PortState.arbitrate
  simp only [hidle, hthrough]
  cases hown : q.own with
  | nil => rfl
  | cons f own => exact if_neg (h.resolve_left (by simp [hown]))

theorem PortState.arbitrate_still (h : q.sending ≠ none ∨ (q.own = [] ∧ q.through = [])) : q.arbitrate = q := by
  unfold PortState.arbitrate
  cases hsending : q.sending with
  | some f => rfl
  | none =>
    obtain ⟨hown, hthrough⟩ := h.resolve_left (by simp [hsending])
    simp only [hown, hthrough]

/-- Settles O15. -/
theorem transmitQueues : Obligations.TransmitQueues := by
  refine ⟨⟨fun _ _ _ => PortState.arbitrate_own, fun _ _ _ => PortState.arbitrate_through,
    fun _ => PortState.arbitrate_still, fun _ => rfl, fun p s h => if_pos (Option.isSome_iff_ne_none.2 h)⟩, fun f q => ?_⟩
  refine ⟨fun hlink => if_pos hlink, fun hlink hroom => ?_, fun hlink hfull => ?_, fun hroom => if_pos hroom,
    fun hfull => if_neg (Nat.not_lt.2 hfull)⟩
  · exact (if_neg (not_not.2 hlink)).trans (if_pos hroom)
  · exact (if_neg (not_not.2 hlink)).trans (if_neg (Nat.not_lt.2 hfull))

end Queues

end Sys2Proof.Machine
end

section
/-! PROOF. The Frame Dispatcher (R9, R41), the bytes of a frame read back (R4, R19), and the Formation Unit: a link change report
(R33 to R35) and an ENUMERATE (R26 to R32); the reply (R43) and a code that names no command (R42). -/

namespace Sys2Proof.Machine

/-! ### The dispatch (R9, R41) -/

section Dispatch

variable {p : Port} {seq : Byte} {payload : List Byte}

theorem dispatchFrame_of_other {kind : BitVec 4} (h : kind.toNat ∉ [1, 3, 4, 5, 6, 7]) :
    dispatchFrame p seq kind payload = [] := by
  unfold dispatchFrame
  split
  case h_7 => rfl
  all_goals simp_all

theorem noticeReadable_eq_false_iff (bs : List Byte) : noticeReadable bs = false ↔
    bs.length < 11 ∨ ((byteAt bs 4).getLsbD 6 = true ∧ bs.length < 11 + min 96 (natAt bs 10)) := by
  rw [← inlineCount]
  simp only [noticeReadable, Bool.and_eq_false_iff, decide_eq_false_iff_not, Nat.not_le, Bool.or_eq_false_iff,
    Bool.not_eq_false']

theorem dispatchFrame_notice : dispatchFrame p seq 5 payload =
    if payload.length < 11 ∨ ((byteAt payload 4).getLsbD 6 = true ∧ payload.length < 11 + min 96 (natAt payload 10))
    then [] else [.notice (NoticeFields.ofBytes payload)] := by
  change (if noticeReadable payload = true then [Instr.notice (NoticeFields.ofBytes payload)] else []) = _
  by_cases h : noticeReadable payload = true
  · rw [if_pos h, if_neg fun hn => Bool.noConfusion (h.symm.trans ((noticeReadable_eq_false_iff _).2 hn))]
  · rw [if_neg h, if_pos ((noticeReadable_eq_false_iff _).1 (by simpa using h))]

theorem dispatchFrame_position : dispatchFrame p seq 3 payload =
    if payload.length < 10 then [] else [.position (PositionFields.ofBytes payload)] := by
  change (if 10 ≤ payload.length then [Instr.position (PositionFields.ofBytes payload)] else []) = _
  by_cases h : payload.length < 10
  · rw [if_neg (Nat.not_le.2 h), if_pos h]
  · rw [if_pos (Nat.not_lt.1 h), if_neg h]

theorem namedCommand_mgmtCommand {code : Byte} {args : List Byte} (h : 1 ≤ code.toNat ∧ code.toNat ≤ 19) :
    namedCommand (mgmtCommand p seq (code :: args)) = some (code.toNat, { port := p, seq := seq, args := args }) := by
  obtain ⟨hlow, hhigh⟩ := h
  unfold mgmtCommand
  dsimp only [List.head?_cons, List.drop_succ_cons, List.drop_zero]
  generalize code.toNat = k at hlow hhigh
  interval_cases k <;> rfl

theorem mgmtCommand_of_unnamed {code : Byte} {args : List Byte} (h : code.toNat = 0 ∨ 20 ≤ code.toNat) :
    mgmtCommand p seq (code :: args) = .mgmtUnknownCommand p seq (code :: args) := by
  unfold mgmtCommand
  dsimp only [List.head?_cons]
  split
  case h_20 => rfl
  all_goals omega

/-- Settles O18. -/
theorem dispatchTable : Obligations.DispatchTable := by
  intro p seq payload
  refine ⟨rfl, dispatchFrame_position, rfl, dispatchFrame_notice, rfl, rfl, fun _ => dispatchFrame_of_other, ?_, rfl⟩
  rintro code args rfl
  exact ⟨namedCommand_mgmtCommand, mgmtCommand_of_unnamed⟩

end Dispatch

/-! ### The bytes of a frame (R4, R19) -/

section Bytes

theorem extractLsb'_setWidth_of_le {w v : Nat} (h : w ≤ v) (x : BitVec w) : (x.setWidth v).extractLsb' 0 w = x := by
  ext i hi
  simp [hi, Nat.lt_of_lt_of_le hi h]

/-- A word is its four bytes, the most significant first. -/
theorem bytes_append (i : BitVec 32) :
    (i.extractLsb' 24 8 ++ i.extractLsb' 16 8 ++ i.extractLsb' 8 8 ++ i.extractLsb' 0 8 : BitVec 32) = i := by
  ext j hj
  simp only [BitVec.getElem_append, BitVec.getElem_extractLsb']
  interval_cases j <;> simp

variable {f : Frame} {bs : List Byte}

theorem Target.valueBytes_length (t : Target) : t.valueBytes.length = 4 := by cases t <;> rfl

/-- The bytes before the check. -/
theorem Frame.body_of_bytes (hf : f.payload = .bytes bs) (hlen : bs.length ≤ 240) :
    f.body = (f.kind ++ f.target.code : BitVec 8) :: (f.target.valueBytes ++
      f.hops.setWidth 8 :: f.origin :: f.seq :: BitVec.ofNat 8 bs.length :: bs) := by
  have hpayload : f.payload.toBytes = bs := by rw [hf]; exact List.take_of_length_le hlen
  unfold Frame.body
  rw [hpayload]
  simp

/-- The header fields of a sequence of bytes that begins as the body of a frame. -/
theorem header_of_body (k : BitVec 8) (t : Target) (h o q n : Byte) (rest : List Byte) :
    let sent := k :: (t.valueBytes ++ h :: o :: q :: n :: rest)
    byteAt sent 0 = k ∧ byteAt sent 5 = h ∧ byteAt sent 6 = o ∧ byteAt sent 7 = q ∧ byteAt sent 8 = n ∧
      sent.drop 9 = rest := by
  cases t <;> exact ⟨rfl, rfl, rfl, rfl, rfl, rfl⟩

theorem Target.ofHeader_code (k : BitVec 4) (t : Target) (rest : List Byte) :
    Target.ofHeader ((k ++ t.code : BitVec 8) :: (t.valueBytes ++ rest)) = some t := by
  have hcode : (byteAt ((k ++ t.code : BitVec 8) :: (t.valueBytes ++ rest)) 0).extractLsb' 0 4 = t.code :=
    BitVec.extractLsb'_append_eq_right
  unfold Target.ofHeader
  rw [hcode]
  cases t with
  | coach p => rfl
  | lead => rfl
  | all => rfl
  | portion m => exact congrArg (fun m => some (Target.portion m)) (extractLsb'_setWidth_of_le (by decide) m)
  | ident i => exact congrArg (fun i => some (Target.ident i)) (bytes_append i)

/-- Settles O19: the lengths agree, the check is that of the bytes before it, and each field is read where it was written. -/
theorem frameReadsBack : Obligations.FrameReadsBack := by
  intro f bs hf hlen
  have hbody := Frame.body_of_bytes hf hlen
  have hbytes : f.toBytes = (f.kind ++ f.target.code : BitVec 8) :: (f.target.valueBytes ++
      f.hops.setWidth 8 :: f.origin :: f.seq :: BitVec.ofNat 8 bs.length :: (bs ++ crcBytes f.body)) := by
    rw [Frame.toBytes, hbody]; simp
  obtain ⟨h0, h5, h6, h7, h8, hdrop⟩ := header_of_body (f.kind ++ f.target.code) f.target (f.hops.setWidth 8) f.origin f.seq
    (BitVec.ofNat 8 bs.length) (bs ++ crcBytes f.body)
  rw [← hbytes] at h0 h5 h6 h7 h8 hdrop
  have hbodyLength : f.body.length = bs.length + 9 := by
    rw [hbody]; simp [Target.valueBytes_length]; omega
  have hlength : f.toBytes.length = bs.length + 11 := by
    rw [Frame.toBytes, List.length_append, hbodyLength]; rfl
  have hcount : natAt f.toBytes 8 = bs.length := by
    rw [natAt, h8, BitVec.toNat_ofNat, Nat.mod_eq_of_lt (by omega)]
  have hcut : f.toBytes.length - 2 = f.body.length := by omega
  have hcheck : f.toBytes.drop (f.toBytes.length - 2) = crcBytes (f.toBytes.take (f.toBytes.length - 2)) := by
    rw [hcut, Frame.toBytes, List.drop_left, List.take_left]
  have hagree : ¬ lengthsDisagree f.toBytes := by rw [lengthsDisagree, hcount, hlength]; omega
  have htarget : Target.ofHeader f.toBytes = some f.target := by rw [hbytes]; exact Target.ofHeader_code _ _ _
  rw [parseFrame_of_lengths hagree, if_neg (not_not.2 hcheck), htarget, Option.map_some, frameWithTarget, h0, h5, h6, h7,
    hdrop, hcount, List.take_left, BitVec.extractLsb'_append_eq_left, extractLsb'_setWidth_of_le (by decide), ← hf]

end Bytes

/-! ### The Formation Unit (R25 to R35) -/

section Formation

theorem FormationUnit.hops_eq (u : FormationUnit) : u.hops = if u.isNumbered then BitVec.ofNat 6 u.position else 63 := by
  unfold FormationUnit.hops FormationUnit.isNumbered FormationUnit.headPort FormationUnit.position
  cases u.numbering <;> rfl

theorem FormationUnit.afterReport_announcements (u : FormationUnit) (p : Port) (link : LinkState) :
    (u.afterReport p link).announcements = u.announcements := by
  unfold FormationUnit.afterReport
  split <;> rfl

/-- Settles O20. -/
theorem linkChangeReports : Obligations.LinkChangeReports := by
  intro p link s
  change execLinkChangeReport p link s = _
  unfold execLinkChangeReport LineInterface.offerEvent FormationUnit.linkEvent FormationUnit.toLead
  dsimp only
  rw [FormationUnit.hops_eq, FormationUnit.afterReport_announcements]
  rfl

/-- Settles O21. -/
theorem enumeration : Obligations.Enumeration := by
  intro p seq payload s
  refine ⟨?_, ?_, fun hshort => ?_⟩
  · rintro number count rest rfl hcount
    change (if count.toNat + 1 ≤ 32 then _ else _ : StepOutcome) = _
    rw [if_pos hcount]
    cases p <;> rfl
  · rintro number count rest rfl hcount
    exact if_neg (Nat.not_le.2 hcount)
  · change execEnumerate p seq payload s = _
    unfold execEnumerate
    split
    · simp at hshort
    · rfl

theorem State.reply_of_unnumbered {s : State} (h : s.form.numbering = .unnumbered) (port : Port) (seq code : Byte)
    (result : Result) (data : ReplyData) : s.reply port seq code result data =
      { s with
        line := s.line.offer port
          { kind := 8, target := .lead, hops := 63, origin := 0, seq := seq, payload := .reply code result.code data } } := by
  unfold State.reply FormationUnit.replyPort FormationUnit.toLead FormationUnit.headPort FormationUnit.hops
    FormationUnit.position
  rw [h]
  rfl

theorem State.reply_of_numbered {s : State} {n : Nat} {head : Port} (h : s.form.numbering = .numbered n head) (port : Port)
    (seq code : Byte) (result : Result) (data : ReplyData) : s.reply port seq code result data =
      { s with
        line := s.line.offer head
          { kind := 8, target := .lead, hops := BitVec.ofNat 6 n, origin := BitVec.ofNat 8 n, seq := seq
            payload := .reply code result.code data } } := by
  unfold State.reply FormationUnit.replyPort FormationUnit.toLead FormationUnit.headPort FormationUnit.hops
    FormationUnit.position
  rw [h]
  rfl

/-- Settles O22. -/
theorem repliesAndUnknownCommands : Obligations.RepliesAndUnknownCommands :=
  ⟨fun _ _ _ _ _ _ => ⟨fun h => State.reply_of_unnumbered h _ _ _ _ _, fun _ _ h => State.reply_of_numbered h _ _ _ _ _⟩,
    rfl, fun _ _ _ => ⟨rfl, fun _ _ => rfl⟩⟩

end Formation

end Sys2Proof.Machine
end

section
/-! PROOF. Management frames (chapter 3): the common checks of all commands (R42), COMMIT accepted and activated (R54 to R57),
DISCARD (R58), MODE and PARAM (R59 to R61); ASSIGN and IDENT (R37 to R39, R195); RESTART and STORE (R191, R196). -/

namespace Sys2Proof.Machine

/-! ### The common checks (R42) -/

section Checks

variable {code : Nat} {f : MgmtFrame} {s : State}

theorem runCommand_of_refused {onRefuse : Result → Answer} {body : Answer} {mode : Mode} {r : Result}
    (h : commonCheck code f.args mode = some r) :
    runCommand code f onRefuse body mode = (onRefuse r).send code f := by
  rw [runCommand, h]

/-- A command of least length (R41): it is executed and answered from that length on. -/
theorem runCommand_of_checked {onRefuse : Result → Answer} {body : Answer} {mode : Mode}
    (h : commonCheck code f.args mode = none) : runCommand code f onRefuse body mode = body.send code f := by
  rw [runCommand, h]

/-- A command that a common check refuses: every one of the nineteen answers with the check's result. -/
theorem exec_of_refused {c : Instr} (hc : namedCommand c = some (code, f)) {r : Result}
    (h : commonCheck code f.args s.mgmt.mode = some r) :
    exec c s = (refuse (contextAfterRefusal code (s.taken c)) r).send code f := by
  cases c with
  | load g => cases hc; exact runCommand_of_refused h
  | loadNext g => cases hc; exact runCommand_of_refused h
  | commit g => cases hc; exact runCommand_of_refused h
  | discard g => cases hc; exact runCommand_of_refused h
  | mode g => cases hc; exact runCommand_of_refused h
  | param g => cases hc; exact runCommand_of_refused h
  | status g => cases hc; exact runCommand_of_refused h
  | startAck g => cases hc; exact runCommand_of_refused h
  | assign g => cases hc; exact runCommand_of_refused h
  | stopCancel g => cases hc; exact runCommand_of_refused h
  | resvAdd g => cases hc; exact runCommand_of_refused h
  | resvDrop g => cases hc; exact runCommand_of_refused h
  | acceptInsert g => cases hc; exact runCommand_of_refused h
  | acceptRemove g => cases hc; exact runCommand_of_refused h
  | restart g => cases hc; exact runCommand_of_refused h
  | faultRead g => cases hc; exact runCommand_of_refused h
  | faultClear g => cases hc; exact runCommand_of_refused h
  | ident g => cases hc; exact runCommand_of_refused h
  | store g =>
    cases hc
    change execStore f s = _
    unfold execStore
    rw [h]
    rfl
  | _ => cases hc

theorem fixedLength_of_mem {n : Nat} (h : (code, n) ∈ argumentBytes) : fixedLength code = some n := by
  have all : ∀ x ∈ argumentBytes, fixedLength x.1 = some x.2 := by decide
  exact all _ h

theorem commonCheck_of_wrongLength {args : List Byte} {mode : Mode} (hmode : mode ≠ .restartPending ∨ code = 7 ∨ code = 16)
    {n : Nat} (hn : fixedLength code = some n) (hlen : args.length ≠ n) : commonCheck code args mode = some .badLength := by
  have hbusy : ¬ (mode = .restartPending ∧ code ≠ 7 ∧ code ≠ 16) := by tauto
  rw [commonCheck, if_neg hbusy, hn]
  exact if_pos hlen

theorem commonCheck_of_leastLength {args : List Byte} {mode : Mode} (hmode : mode ≠ .restartPending)
    (hn : fixedLength code = none) :
    commonCheck code args mode = if args.length < leastLength code then some .badLength else none := by
  rw [commonCheck, if_neg fun h => hmode h.1, hn]

/-- Settles O23. -/
theorem commonChecks : Obligations.CommonChecks := by
  intro c code f s hc
  refine ⟨fun hmode h7 h16 => exec_of_refused hc (commonCheck_of_restartPending hmode ⟨h7, h16⟩), fun hmode => ⟨?_, ?_, ?_⟩⟩
  · exact fun n hn hlen => exec_of_refused hc (commonCheck_of_wrongLength hmode (fixedLength_of_mem hn) hlen)
  · rintro rfl hlen
    have hrunning : s.mgmt.mode ≠ .restartPending := by simpa using hmode
    exact exec_of_refused hc ((commonCheck_of_leastLength hrunning rfl).trans (if_pos hlen))
  · rintro rfl hlen
    have hrunning : s.mgmt.mode ≠ .restartPending := by simpa using hmode
    exact exec_of_refused hc ((commonCheck_of_leastLength hrunning rfl).trans (if_pos hlen))

end Checks

/-! ### COMMIT accepted and activated (R54 to R57) -/

section Commit

variable {s : State}

/-- A COMMIT that passes the six tests of R52. -/
theorem State.commit_of_valid {args : List Byte} {a : Activation} (h : s.commitReaches args a)
    (h3 : ∀ g, (FamilySet.ofByte (byteAt args 0)).names g = true → (s.tables.family g).state ≠ .empty)
    (hr : s.departureRefused (FamilySet.ofByte (byteAt args 0)) a = none)
    (hd : validate s.tables (FamilySet.ofByte (byteAt args 0)) = none) :
    s.commit args = ⟨s.accept { families := FamilySet.ofByte (byteAt args 0), activation := a, tag := wordAt args 3 2 },
      .ok, .tag (wordAt args 3 2)⟩ := by
  obtain ⟨hp, hn, hk, ha⟩ := h
  simp [commit, ha, hp, hn, not_lt.2 hk, FamilySet.find?_list_eq_none h3, hr, hd]

theorem TableStore.committed_active (t : TableStore) (fs : FamilySet) (g : Family) :
    ((t.mapFamilies fs (fun b => { b with state := .committed })).family g).active = (t.family g).active := by
  rw [TableStore.family_mapFamilies]
  split <;> rfl

theorem TableStore.committed_routeToReplace (t : TableStore) (fs gs : FamilySet) :
    (t.mapFamilies fs (fun b => { b with state := .committed })).routeToReplace gs = t.routeToReplace gs := by
  have hactive : (t.mapFamilies fs (fun b => { b with state := .committed })).route.active = t.route.active :=
    t.committed_active fs .route
  unfold TableStore.routeToReplace
  rw [hactive]
  rfl

theorem TableStore.committed_textToReplace (t : TableStore) (fs gs : FamilySet) :
    (t.mapFamilies fs (fun b => { b with state := .committed })).textToReplace gs = t.textToReplace gs := by
  have hactive : (t.mapFamilies fs (fun b => { b with state := .committed })).text.active = t.text.active :=
    t.committed_active fs .text
  unfold TableStore.textToReplace
  rw [hactive]
  rfl

/-- A commit accepted with NOW: the activation, with no commit pending (R55, R56). -/
theorem State.accept_now {x : PendingCommit} (hx : x.activation = .now) :
    s.accept x = { s with tables := (s.accept x).tables, mgmt := { s.mgmt with commit := none }
                          announced := s.announced ++ activationSays x.families } ∧
      activates s.tables (s.accept x).tables x.families x.tag := by
  have haccept : s.accept x = State.activate { s with
      tables := s.tables.mapFamilies x.families (fun b => { b with state := .committed })
      mgmt := { s.mgmt with commit := some x } } x := if_pos hx
  refine ⟨by rw [haccept]; rfl, fun g => ?_, ?_, ?_, ?_⟩
  · rw [State.accept_family, hx]; rfl
  · rw [haccept]; rfl
  · rw [haccept]; exact s.tables.committed_routeToReplace x.families x.families
  · rw [haccept]; exact s.tables.committed_textToReplace x.families x.families

/-- A commit accepted for later: pending, the banks of its families COMMITTED (R54). -/
theorem State.accept_later {x : PendingCommit} (hx : x.activation ≠ .now) :
    s.accept x = { s with tables := (s.accept x).tables, mgmt := { s.mgmt with commit := some x } } ∧
      (∀ g, (s.accept x).tables.family g =
        if x.families.names g = true then { s.tables.family g with state := .committed } else s.tables.family g) ∧
      s.tables.keepsFlags (s.accept x).tables := by
  have haccept : s.accept x = { s with
      tables := s.tables.mapFamilies x.families (fun b => { b with state := .committed })
      mgmt := { s.mgmt with commit := some x } } := if_neg hx
  rw [haccept]
  exact ⟨rfl, fun g => s.tables.family_mapFamilies _ _ g, s.tables.mapFamilies_keepsFlags _ _⟩

/-- Settles O26. -/
theorem commitAccepted : Obligations.CommitAccepted := by
  intro f s hmode hlen hcommit fs kind k tag hnamed hknown hkind hstates hdeparture hvalid
  obtain ⟨a, ha⟩ : ∃ a, activationOf kind k = some a :=
    Option.ne_none_iff_exists'.1 fun hnone => absurd ((activationOf_eq_none_iff kind k).1 hnone) (not_lt.2 hkind)
  have hsome : fs.isNone = false := by
    obtain ⟨g, hg⟩ := hnamed
    exact Bool.eq_false_iff.2 fun hnone => by simp [(FamilySet.isNone_iff fs).1 hnone g] at hg
  have hreaches : (s.commitTaken f).commitReaches f.args a := ⟨hcommit, hsome, hknown, ha⟩
  have hahead : (s.commitTaken f).departureRefused fs a = none := by
    refine State.departureRefused_of_ahead ha (fun ⟨h1, h⟩ => ?_) fun ⟨h1, d, hd, hle⟩ => ?_
    · obtain ⟨h48, hroute, -⟩ := hdeparture h1
      exact h.elim (not_le.2 h48) (not_le.2 hroute)
    · obtain ⟨-, -, hpassed⟩ := hdeparture h1
      exact absurd hle (not_le.2 (hpassed d hd))
  have hcommitted := State.commit_of_valid hreaches hstates hahead hvalid
  refine ⟨(s.commitTaken f).accept ⟨fs, a, tag⟩, ?_, fun h0 => ?_, fun h0 => ?_⟩
  · rw [exec_commit_of_length hmode hlen, hcommitted]; rfl
  · obtain rfl : a = .now := by simpa [h0, activationOf, eq_comm] using ha
    obtain ⟨haccept, hactivates⟩ := State.accept_now (s := s.commitTaken f) (x := ⟨fs, .now, tag⟩) rfl
    refine ⟨haccept.trans ?_, hactivates⟩
    rw [← hcommit]
    rfl
  · have ha' : a = if kind = 1 then .atDeparture k else .atInauguration := by
      have : kind = 1 ∨ kind = 2 := by omega
      rcases this with h | h <;> simp [h, activationOf] at ha ⊢ <;> exact ha.symm
    have hlater : a ≠ .now := by
      rw [ha']
      split <;> nofun
    rw [← ha']
    exact State.accept_later (s := s.commitTaken f) (x := ⟨fs, a, tag⟩) hlater

theorem execDepartureReport_of_activates {d k : Nat} {x : PendingCommit} (hx : s.mgmt.commit = some x)
    (ha : x.activation = .atDeparture k) (hk : k ≤ d) :
    execDepartureReport d s = .next ((s.taken (.departureReport d)).activate x) := by
  unfold execDepartureReport
  simp [hx, ha, hk]

theorem execDepartureReport_of_waits {d : Nat}
    (h : ∀ x k, s.mgmt.commit = some x → x.activation = .atDeparture k → d < k) :
    execDepartureReport d s = .next (s.taken (.departureReport d)) := by
  unfold execDepartureReport
  dsimp only
  split
  · next x hx =>
    split
    · next k ha => exact if_neg (not_le.2 (h x k hx ha))
    · rfl
    · rfl
  · rfl

theorem execNewInauguration_of_activates {x : PendingCommit} (hx : s.mgmt.commit = some x)
    (ha : x.activation = .atInauguration) :
    execNewInauguration s = .next ((s.taken .newInauguration).noContext.activate x) := by
  unfold execNewInauguration
  simp [hx, ha]

theorem execNewInauguration_of_waits (h : ∀ x, s.mgmt.commit = some x → x.activation ≠ .atInauguration) :
    execNewInauguration s = .next (s.taken .newInauguration).noContext := by
  unfold execNewInauguration
  dsimp only
  split
  · next x hx => exact if_neg (h x hx)
  · rfl

theorem activationSays_of_route {fs : FamilySet} (h : fs.route = true) : activationSays fs = [.routeActivationReckoning fs] :=
  if_pos h

theorem activationSays_of_noRoute {fs : FamilySet} (h : fs.route = false) : activationSays fs = stepTwo fs := by
  rw [activationSays, h]; rfl

/-- At most one announcement to each of the four units (R57). -/
theorem stepTwo_length (fs : FamilySet) : (stepTwo fs).length ≤ 4 := by
  have one (b : Bool) (c : Instr) : (if b then [c] else []).length ≤ 1 := by cases b <;> simp
  unfold stepTwo
  simp only [List.length_append]
  have := one (fs.seat || fs.resv || fs.route || fs.text) (.activationAnnouncementResv { fs with page := false })
  have := one fs.seat .seatActivationEngine
  have := one (fs.route || fs.text)
    (.activationAnnouncementNotice { seat := false, resv := false, route := fs.route, text := fs.text, page := false })
  have := one (fs.route || fs.text || fs.page) (.activationAnnouncementPanel { fs with seat := false, resv := false })
  omega

/-- Settles O27. -/
theorem commitActivation : Obligations.CommitActivation := by
  refine ⟨fun s d => ⟨fun x k hx ha hk => ?_, execDepartureReport_of_waits, fun x hx ha => ?_, execNewInauguration_of_waits⟩,
    fun fs => ⟨activationSays_of_route, activationSays_of_noRoute, fun x => ?_, ?_, fun x => ?_, fun x => ?_,
      stepTwo_length fs⟩⟩
  · exact ⟨_, execDepartureReport_of_activates hx ha hk, State.activate_activates (s.taken _) x, rfl⟩
  · exact ⟨_, execNewInauguration_of_activates hx ha, State.activate_activates (s.taken _).noContext x, rfl⟩
  · simp [stepTwo, or_assoc, and_comm]
  · simp [stepTwo]
  · simp [stepTwo, and_comm]
  · simp [stepTwo, or_assoc, and_comm]

end Commit

/-! ### DISCARD (R58) -/

section Discard

variable {s : State}

theorem exec_discard_of_length {f : MgmtFrame} (hmode : s.mgmt.mode ≠ .restartPending) (hlen : f.args.length = 1) :
    exec (.discard f) s = ((s.taken (.discard f)).noContext.discard f.args).send 4 f :=
  State.command_of_fixedLength _ (fun h => absurd h hmode) rfl hlen

theorem ManagementUnit.locks_iff (u : ManagementUnit) (g : Family) :
    u.locks g = true ↔ ∃ x, u.commit = some x ∧ x.families.names g = true := by
  unfold ManagementUnit.locks
  cases u.commit <;> simp

theorem State.freedTables_keepsFlags (s : State) : s.tables.keepsFlags s.freedTables := by
  unfold State.freedTables
  split
  · exact TableStore.mapFamilies_keepsFlags _ _ _
  · exact ⟨rfl, rfl, rfl⟩

/-- The tables that a DISCARD of `fs` leaves (R58): the pending commit's banks freed where it cancels one, then those of the
set emptied. -/
def State.discardedTables (s : State) (fs : FamilySet) : TableStore :=
  (if s.mgmt.cancels fs then s.freedTables else s.tables).mapFamilies fs (fun b => { b with staged := [], state := .empty })

theorem State.discard_of_known {args : List Byte} (h : natAt args 0 ≤ 31) :
    s.discard args =
      ⟨{ s with tables := s.discardedTables (FamilySet.ofByte (byteAt args 0))
                mgmt := { s.mgmt with
                  commit := if s.mgmt.cancels (FamilySet.ofByte (byteAt args 0)) then none else s.mgmt.commit } },
       .ok, .cancelled (s.mgmt.cancels (FamilySet.ofByte (byteAt args 0)))⟩ := if_neg (not_lt.2 h)

theorem State.discardedTables_keepsFlags (s : State) (fs : FamilySet) : s.tables.keepsFlags (s.discardedTables fs) := by
  unfold State.discardedTables
  split
  · exact s.freedTables_keepsFlags
  · exact ⟨rfl, rfl, rfl⟩

/-- A bank after a DISCARD (R46, R58): emptied where the set names it, freed where the set cancels its commit. -/
theorem State.discardedTables_family (s : State) (fs : FamilySet) (g : Family) :
    (s.discardedTables fs).family g =
      if fs.names g then { s.tables.family g with staged := [], state := .empty }
      else if s.mgmt.cancels fs = true ∧ s.mgmt.locks g = true then { s.tables.family g with state := .filling }
      else s.tables.family g := by
  unfold State.discardedTables
  rw [TableStore.family_mapFamilies]
  by_cases hcancels : s.mgmt.cancels fs = true
  · rw [if_pos hcancels, State.freedTables_family]
    by_cases hlocks : s.mgmt.locks g = true
    · simp [hlocks, hcancels]
    · simp [hlocks]
  · simp [hcancels]

/-- Settles O29. -/
theorem discardTaken : Obligations.DiscardTaken := by
  intro f s hmode hlen fs named
  have hnamed (g : Family) : named g ↔ s.mgmt.locks g = true := (s.mgmt.locks_iff g).symm
  refine ⟨?_, fun hunknown => ?_, fun hknown => ?_⟩
  · simp only [hnamed]; exact s.mgmt.cancels_iff fs
  · rw [exec_discard_of_length hmode hlen, State.discard, if_pos hunknown]; rfl
  · refine ⟨_, by rw [exec_discard_of_length hmode hlen, State.discard_of_known hknown]; rfl, rfl,
      s.discardedTables_keepsFlags fs, fun g => ?_⟩
    change ((s.discardedTables fs).family g).active = _ ∧ ((s.discardedTables fs).family g).tag = _ ∧
      ((s.discardedTables fs).family g).count = _ ∧ (_ → ((s.discardedTables fs).family g).staged = [] ∧
        ((s.discardedTables fs).family g).state = .empty) ∧ (_ → ((s.discardedTables fs).family g).staged = _ ∧
        (_ → ((s.discardedTables fs).family g).state = .filling) ∧ (_ → ((s.discardedTables fs).family g).state = _))
    rw [s.discardedTables_family fs g, hnamed g]
    by_cases hfs : fs.names g = true
    · rw [if_pos hfs]; simp [hfs]
    · rw [if_neg hfs]
      by_cases hfreed : s.mgmt.cancels fs = true ∧ s.mgmt.locks g = true
      · rw [if_pos hfreed]; simp [hfs, hfreed]
      · rw [if_neg hfreed]; simp [hfs, hfreed]

end Discard

end Sys2Proof.Machine
end

section
/-! PROOF. Management frames (chapter 3): MODE and PARAM (R59 to R61); ASSIGN and IDENT (R37 to R39, R195); RESTART and STORE
(R191, R196). -/

namespace Sys2Proof.Machine

section Modes

variable {f : MgmtFrame} {s : State}

/-! ### MODE and RESTART (R59, R191) -/

theorem State.setMode_same {m : Mode} (h : s.mgmt.mode = m) : s.setMode m = s := if_pos h

theorem State.setMode_other {m : Mode} (h : s.mgmt.mode ≠ m) : s.setMode m =
    { s with mgmt := { s.mgmt with mode := m }
             announced := s.announced ++
               [.modeChangeResv, .modeChangeNotice s.mgmt.mode m, .modeChangePanel s.mgmt.mode m] } := if_neg h

theorem exec_mode_of_length (hmode : s.mgmt.mode ≠ .restartPending) (hlen : f.args.length = 1) :
    exec (.mode f) s = (match modeOf (natAt f.args 0) with
      | some m => ⟨(s.taken (.mode f)).setMode m, .ok, .none⟩
      | none => refuse (s.taken (.mode f)) .range : Answer).send 5 f :=
  State.command_of_fixedLength _ (fun h => absurd h hmode) rfl hlen

theorem exec_mode_of_known (hmode : s.mgmt.mode ≠ .restartPending) (hlen : f.args.length = 1) {m : Mode}
    (hm : (natAt f.args 0, m) ∈ [(0, Mode.normal), (1, .quiet), (2, .service)]) :
    exec (.mode f) s = (⟨(s.taken (.mode f)).setMode m, .ok, .none⟩ : Answer).send 5 f := by
  have all : ∀ x ∈ [(0, Mode.normal), (1, .quiet), (2, .service)], modeOf x.1 = some x.2 := by decide
  rw [exec_mode_of_length hmode hlen, all _ hm]

theorem modeOf_of_large {n : Nat} (h : 2 < n) : modeOf n = none := by
  unfold modeOf
  split
  case h_4 => rfl
  all_goals omega

theorem modeTaken (hmode : s.mgmt.mode ≠ .restartPending) (hlen : f.args.length = 1) :
    let taken : State := { s with announced := s.announced.erase (.mode f) }
    (∀ m, (natAt f.args 0, m) ∈ [(0, Mode.normal), (1, .quiet), (2, .service)] →
      (s.mgmt.mode = m → exec (.mode f) s = .next (taken.reply f.port f.seq 5 .ok .none)) ∧
      (s.mgmt.mode ≠ m → exec (.mode f) s = .next
        (State.reply { taken with
          mgmt := { s.mgmt with mode := m }
          announced := taken.announced ++
            [.modeChangeResv, .modeChangeNotice s.mgmt.mode m, .modeChangePanel s.mgmt.mode m] } f.port f.seq 5 .ok .none))) ∧
    (2 < natAt f.args 0 → exec (.mode f) s = .next (taken.reply f.port f.seq 5 .range .none)) := by
  refine ⟨fun m hm => ⟨fun hsame => ?_, fun hother => ?_⟩, fun hlarge => ?_⟩
  · rw [exec_mode_of_known hmode hlen hm, State.setMode_same (s := s.taken _) hsame]; rfl
  · rw [exec_mode_of_known hmode hlen hm, State.setMode_other (s := s.taken _) hother]; rfl
  · rw [exec_mode_of_length hmode hlen, modeOf_of_large hlarge]; rfl

theorem exec_restart_of_length (hmode : s.mgmt.mode ≠ .restartPending) (hlen : f.args.length = 1) :
    exec (.restart f) s = .next
      (State.reply { s with
        mgmt := { s.mgmt with mode := .restartPending, hold := some (holdOf (natAt f.args 0)) }
        announced := s.announced.erase (.restart f) ++
          [.modeChangeResv, .modeChangeNotice s.mgmt.mode .restartPending,
           .modeChangePanel s.mgmt.mode .restartPending, .modeChangeEngine] } f.port f.seq 15 .ok
        (.hold (holdOf (natAt f.args 0)))) := by
  refine (State.command_of_fixedLength (s := s.taken (.restart f)) _ (fun h => absurd h hmode) rfl hlen).trans ?_
  rw [State.setMode_other (s := s.taken _) hmode]
  simp [Answer.send]

/-! ### PARAM (R60, R61) -/

theorem exec_param_of_set (hmode : s.mgmt.mode ≠ .restartPending) (hlen : f.args.length = 3) {p : Params}
    (hp : s.mgmt.params.set (natAt f.args 0) (wordAt f.args 1 2) = some p) :
    exec (.param f) s = .next
      (State.reply { s with
        mgmt := { s.mgmt with params := p }
        announced := s.announced.erase (.param f) ++ s.mgmt.params.news p } f.port f.seq 6 .ok
        (.param (natAt f.args 0) (p.get (natAt f.args 0)))) := by
  refine (State.command_of_fixedLength (s := s.taken (.param f)) _ (fun h => absurd h hmode) rfl hlen).trans ?_
  rw [hp]
  rfl

theorem exec_param_of_unknown (hmode : s.mgmt.mode ≠ .restartPending) (hlen : f.args.length = 3)
    (hlarge : 6 < natAt f.args 0) :
    exec (.param f) s = .next ((s.taken (.param f)).reply f.port f.seq 6 .range .none) := by
  have hset : s.mgmt.params.set (natAt f.args 0) (wordAt f.args 1 2) = none := by
    unfold Params.set
    split
    case h_8 => rfl
    all_goals omega
  refine (State.command_of_fixedLength (s := s.taken (.param f)) _ (fun h => absurd h hmode) rfl hlen).trans ?_
  rw [hset]
  rfl

/-- A change of the horizon alone is announced to the Reservation Unit (R61). -/
theorem Params.news_horizon (p : Params) (h : Nat) :
    p.news { p with horizon := h } = if ({ p with horizon := h } : Params) = p then [] else [.horizonChange] := by
  cases p
  simp [Params.news, eq_comm]

/-- A change of a travel-right parameter is announced to its panel (R61). -/
theorem Params.news_travelRight1 (p : Params) (b : Bool) :
    p.news { p with travelRight1 := b } =
      if ({ p with travelRight1 := b } : Params) = p then [] else [.travelRightChange .panel1] := by
  cases p
  simp [Params.news, eq_comm]

theorem Params.news_travelRight2 (p : Params) (b : Bool) :
    p.news { p with travelRight2 := b } =
      if ({ p with travelRight2 := b } : Params) = p then [] else [.travelRightChange .panel2] := by
  cases p
  simp [Params.news, eq_comm]

/-- A set that keeps the horizon and the travel-right parameters announces nothing (R61). -/
theorem Params.news_of_same {p q : Params} (h : q.horizon = p.horizon ∧ q.travelRight1 = p.travelRight1 ∧
    q.travelRight2 = p.travelRight2) : p.news q = [] := by
  obtain ⟨hh, h1, h2⟩ := h
  simp [Params.news, hh, h1, h2]

/-- Settles O30. -/
theorem modeAndParam : Obligations.ModeAndParam := by
  refine ⟨fun f s => modeTaken, fun f s hmode hlen => ?_⟩
  intro v p yes becomes
  have taken {q : Params} {held : Nat} {said : List Instr} (hq : p.set (natAt f.args 0) v = some q)
      (hheld : q.get (natAt f.args 0) = held) (hsaid : p.news q = if q = p then [] else said) : becomes q held said := by
    change exec (.param f) s = _
    rw [exec_param_of_set hmode hlen hq, hheld, hsaid]
  refine ⟨fun h => ?_, fun h => ?_, fun h => ?_, fun h => ?_, fun h => ?_, fun h => ?_, fun h => ?_,
    exec_param_of_unknown hmode hlen⟩
  · exact taken (by rw [h]; rfl) (by rw [h]; rfl) (Params.news_horizon _ _)
  · exact taken (by rw [h]; rfl) (by rw [h]; rfl) ((Params.news_of_same ⟨rfl, rfl, rfl⟩).trans (ite_self _).symm)
  · exact taken (by rw [h]; rfl) (by rw [h]; rfl) ((Params.news_of_same ⟨rfl, rfl, rfl⟩).trans (ite_self _).symm)
  · exact taken (by rw [h]; rfl) (by rw [h]; rfl) ((Params.news_of_same ⟨rfl, rfl, rfl⟩).trans (ite_self _).symm)
  · exact taken (by rw [h]; rfl) (by rw [h]; rfl) ((Params.news_of_same ⟨rfl, rfl, rfl⟩).trans (ite_self _).symm)
  · exact taken (by rw [h]; rfl) (by rw [h]; rfl) (Params.news_travelRight1 _ _)
  · exact taken (by rw [h]; rfl) (by rw [h]; rfl) (Params.news_travelRight2 _ _)

/-! ### ASSIGN and IDENT (R37 to R39, R195) -/

theorem classOf_eq_ite (n : Nat) : classOf n = if n = 0 then .first else if n = 1 then .second else .mixed := by
  rcases n with _ | _ | n <;> simp [classOf]

theorem exec_assign_of_length (hmode : s.mgmt.mode ≠ .restartPending) (hlen : f.args.length = 3) :
    let u := { s.form with portion := min 3 (natAt f.args 0), coachNumber := min 99 (natAt f.args 1)
                           coachClass := classOf (natAt f.args 2) }
    exec (.assign f) s = .next
      (State.reply { s.taken (.assign f) with
        form := u, announced := s.announced.erase (.assign f) ++ s.form.assignNews u } f.port f.seq 9 .ok
        (.assigned u.portion u.coachNumber u.coachClass)) :=
  State.command_of_fixedLength _ (fun h => absurd h hmode) rfl hlen

theorem toNat_append_byte {n : Nat} (x : BitVec n) (b : Byte) : (x ++ b).toNat = x.toNat * 256 + b.toNat := by
  rw [BitVec.toNat_append, ← Nat.shiftLeft_add_eq_or_of_lt b.isLt, Nat.shiftLeft_eq]

/-- Four bytes as a word, the most significant first (chapter 1, Layouts). -/
theorem ofNat_wordAt_four (bs : List Byte) (i : Nat) :
    BitVec.ofNat 32 (wordAt bs i 4) = byteAt bs i ++ byteAt bs (i + 1) ++ byteAt bs (i + 2) ++ byteAt bs (i + 3) := by
  refine BitVec.eq_of_toNat_eq ?_
  rw [BitVec.toNat_ofNat, Nat.mod_eq_of_lt (show _ < 2 ^ 32 from wordAt_lt bs i 4), toNat_append_byte, toNat_append_byte,
    toNat_append_byte]
  simp [wordAt, bigEndian, List.range_succ]

theorem exec_ident_of_length (hmode : s.mgmt.mode ≠ .restartPending) (hlen : f.args.length = 4) :
    exec (.ident f) s =
      (if BitVec.ofNat 32 (wordAt f.args 0 4) = 0 then refuse (s.taken (.ident f)) .invalid
       else ⟨{ s.taken (.ident f) with form := { s.form with identity := BitVec.ofNat 32 (wordAt f.args 0 4) } }, .ok,
         .identity (BitVec.ofNat 32 (wordAt f.args 0 4))⟩ : Answer).send 18 f :=
  State.command_of_fixedLength _ (fun h => absurd h hmode) rfl hlen

/-- Settles O33. -/
theorem assignAndIdent : Obligations.AssignAndIdent := by
  refine ⟨fun f s hmode hlen => ?_, fun f s hmode hlen => ?_⟩
  · dsimp only
    rw [exec_assign_of_length hmode hlen, ← classOf_eq_ite]
    simp [FormationUnit.assignNews, eq_comm]
  · dsimp only
    rw [exec_ident_of_length hmode hlen, ofNat_wordAt_four]
    refine ⟨fun hzero => ?_, fun hother => ?_⟩
    · rw [if_pos hzero]; rfl
    · rw [if_neg hother]; rfl

/-! ### STORE (R196) -/

theorem exec_store_of_length (hmode : s.mgmt.mode ≠ .restartPending) (hlen : f.args.length = 0) :
    exec (.store f) s =
      if s.mgmt.store.isSome then (refuse (s.taken (.store f)) .busy).send 19 f
      else .next { s.taken (.store f) with
        mgmt := { s.mgmt with store := some { copy := s.settings, port := f.port, seq := f.seq } } } := by
  change execStore f s = _
  unfold execStore
  rw [commonCheck_of_fixedLength (fun h => absurd h hmode) rfl hlen]

theorem execStoreWriteEnd_of_write {w : StoreWrite} (hw : s.mgmt.store = some w) (agrees : Bool) :
    execStoreWriteEnd agrees s =
      if agrees then .next (State.reply { s with retained := some w.copy, mgmt := { s.mgmt with store := none } } w.port
        w.seq 19 .ok .none)
      else .next (State.reply { s with
        retained := none, mgmt := { s.mgmt with store := none }
        announced := s.announced ++ [.faultReport .retainedWriteFailed] } w.port w.seq 19 .invalid .none) := by
  unfold execStoreWriteEnd
  rw [hw]

theorem execStoreWriteEnd_of_none (hw : s.mgmt.store = none) (agrees : Bool) : execStoreWriteEnd agrees s = .next s := by
  unfold execStoreWriteEnd
  rw [hw]

/-- Settles O59. -/
theorem restartAndStore : Obligations.RestartAndStore := by
  refine ⟨fun f s => exec_restart_of_length, fun f s hmode hlen => ⟨fun hw => ?_, fun hw => ?_⟩,
    fun w s hw => ⟨execStoreWriteEnd_of_write hw true, execStoreWriteEnd_of_write hw false⟩,
    fun b s hw => execStoreWriteEnd_of_none hw b⟩
  · rw [exec_store_of_length hmode hlen, if_pos (Option.isSome_iff_ne_none.2 hw)]; rfl
  · rw [exec_store_of_length hmode hlen, if_neg (by simp [hw])]; rfl

end Modes

end Sys2Proof.Machine
end

section
/-! PROOF. Loading (R45 to R51): an accepted LOAD or LOAD_NEXT, and each of their refusals. -/

namespace Sys2Proof.Machine

section Loading

variable {s : State} {fam : Family} {i m : Nat} {bytes : List Byte} {rs : List (List Byte)}

/-- The state that an accepted load leaves (R47). -/
abbrev State.loadedWith (s : State) (fam : Family) (i m : Nat) (rs : List (List Byte)) : State :=
  { s with
    tables := s.tables.setFamily fam { s.tables.family fam with
      staged := writeRecords fam (s.tables.family fam).staged i rs, state := .filling }
    mgmt := { s.mgmt with context := some (fam, i + m) } }

theorem State.loadedWith_self (s : State) (fam : Family) (i m : Nat) (rs : List (List Byte)) :
    (s.loadedWith fam i m rs).tables.family fam = { s.tables.family fam with
      staged := writeRecords fam (s.tables.family fam).staged i rs, state := .filling } := by
  rw [TableStore.family_setFamily, if_pos rfl]

theorem State.loadedWith_other (s : State) (i m : Nat) (rs : List (List Byte)) {g : Family} (h : g ≠ fam) :
    (s.loadedWith fam i m rs).tables.family g = s.tables.family g := by
  rw [TableStore.family_setFamily, if_neg h]

theorem State.loadedWith_loads (hlen : rs.length = m) : loads s (s.loadedWith fam i m rs) fam i m rs := by
  refine ⟨rfl, ?_, ?_, ?_, ?_, TableStore.setFamily_keepsFlags _ _ _, fun g => s.loadedWith_other i m rs, fun j => ?_⟩ <;>
    rw [State.loadedWith_self]
  rw [writeRecords_find, hlen]

/-! ### The tests on the records, the first that fails deciding (R48, R49) -/

theorem State.loadRecords_of_range (h : m = 0 ∨ fam.capacity < i + m) :
    s.loadRecords fam i m bytes = refuse s.noContext .range := if_pos h

theorem State.loadRecords_of_split (h1 : 1 ≤ m) (h2 : i + m ≤ fam.capacity) (h : splitRecords fam m bytes = some rs) :
    s.loadRecords fam i m bytes =
      if fam = .text ∧ rs.any (fun r => 96 < r.length) then refuse s.noContext .range
      else if fam = .text ∧ 12288 < charTotal (writeRecords fam (s.tables.family fam).staged i rs) then
        refuse s.noContext .full
      else ⟨s.loadedWith fam i m rs, .ok, .context fam (i + m)⟩ := by
  rw [State.loadRecords, if_neg (by omega), h]

theorem State.loadRecords_of_unfilled (h1 : 1 ≤ m) (h2 : i + m ≤ fam.capacity) (h : ∀ rs, ¬ fills fam m bytes rs) :
    s.loadRecords fam i m bytes = refuse s.noContext .badLength := by
  have hnone : splitRecords fam m bytes = none :=
    Option.eq_none_iff_forall_not_mem.2 fun rs hrs => h rs (splitRecords_iff.1 hrs)
  rw [State.loadRecords, if_neg (by omega), hnone]

theorem State.loadRecords_of_long (h1 : 1 ≤ m) (h2 : i + m ≤ Family.text.capacity) (h : fills .text m bytes rs)
    (hlong : ∃ r ∈ rs, 96 < r.length) : s.loadRecords .text i m bytes = refuse s.noContext .range := by
  rw [State.loadRecords_of_split h1 h2 (splitRecords_iff.2 h), if_pos ⟨rfl, by simpa using hlong⟩]

theorem State.loadRecords_of_full (h1 : 1 ≤ m) (h2 : i + m ≤ Family.text.capacity) (h : fills .text m bytes rs)
    (hshort : ∀ r ∈ rs, r.length ≤ 96) (hfull : 12288 < charTotal (writeRecords .text s.tables.text.staged i rs)) :
    s.loadRecords .text i m bytes = refuse s.noContext .full := by
  have hnotLong : ¬ (Family.text = .text ∧ rs.any (fun r => 96 < r.length) = true) := by simpa using hshort
  rw [State.loadRecords_of_split h1 h2 (splitRecords_iff.2 h), if_neg hnotLong]
  exact if_pos ⟨rfl, hfull⟩

theorem State.loadRecords_of_loadable (h : loadable s fam i m bytes rs) :
    s.loadRecords fam i m bytes = ⟨s.loadedWith fam i m rs, .ok, .context fam (i + m)⟩ := by
  obtain ⟨h1, h2, hsplit, htext⟩ := h
  rw [State.loadRecords_of_split h1 h2 hsplit, if_neg, if_neg]
  · exact fun ⟨hf, hfull⟩ => absurd (htext hf).2 (not_le.2 hfull)
  · rintro ⟨hf, hlong⟩
    obtain ⟨r, hr, hlt⟩ := List.any_eq_true.1 hlong
    exact absurd ((htext hf).1 r hr) (not_le.2 (of_decide_eq_true hlt))

/-! ### The two commands -/

theorem State.load_of_family {args : List Byte} (hf : Family.ofCode (natAt args 0) = some fam)
    (hlocks : s.mgmt.locks fam = false) :
    s.load args = s.loadRecords fam (wordAt args 1 2) (natAt args 3) (args.drop 4) := by
  rw [State.load, hf]
  exact if_neg (by simp [hlocks])

theorem State.load_of_locked {args : List Byte} (hf : Family.ofCode (natAt args 0) = some fam)
    (hlocks : s.mgmt.locks fam = true) : s.load args = refuse s.noContext .locked := by
  rw [State.load, hf]
  exact if_pos hlocks

theorem Family.ofCode_of_large {n : Nat} (h : 4 < n) : Family.ofCode n = none :=
  List.getElem?_eq_none_iff.2 h

theorem State.load_of_unknown {args : List Byte} (h : 4 < natAt args 0) : s.load args = refuse s.noContext .range := by
  rw [State.load, Family.ofCode_of_large h]

theorem State.loadNext_of_context {args : List Byte} (h : s.mgmt.context = some (fam, i)) :
    s.loadNext args = s.loadRecords fam i (natAt args 0) (args.drop 1) := by
  rw [State.loadNext, h]

theorem State.loadNext_of_none {args : List Byte} (h : s.mgmt.context = none) :
    s.loadNext args = refuse s.noContext .noContext := by
  rw [State.loadNext, h]

variable {f : MgmtFrame}

theorem exec_load_of_length (hmode : s.mgmt.mode ≠ .restartPending) (hlen : 4 ≤ f.args.length) :
    exec (.load f) s = ((s.taken (.load f)).load f.args).send 1 f :=
  runCommand_of_checked ((commonCheck_of_leastLength hmode rfl).trans (if_neg (not_lt.2 hlen)))

theorem exec_loadNext_of_length (hmode : s.mgmt.mode ≠ .restartPending) (hlen : 1 ≤ f.args.length) :
    exec (.loadNext f) s = ((s.taken (.loadNext f)).loadNext f.args).send 2 f :=
  runCommand_of_checked ((commonCheck_of_leastLength hmode rfl).trans (if_neg (not_lt.2 hlen)))

/-- The refusal of a load: the reply, and the context cleared. -/
theorem send_refused {c : Instr} {code : Nat} {r : Result} {a : Answer} (h : a = refuse (s.taken c).noContext r) :
    a.send code f = .next (State.reply { s with announced := s.announced.erase c, mgmt := { s.mgmt with context := none } }
      f.port f.seq (BitVec.ofNat 8 code) r .none) := by
  rw [h]
  rfl

/-- What a load of records leaves, refused or accepted. -/
theorem State.loadRecords_outcome (s : State) (fam : Family) (i m : Nat) (bytes : List Byte) :
    let t := (s.loadRecords fam i m bytes).after
    (t.tables = s.tables ∧ t.mgmt.context = none) ∨
      ((t.tables.family fam).state = .filling ∧ (∀ g, g ≠ fam → t.tables.family g = s.tables.family g) ∧
        t.mgmt.context = some (fam, i + m)) := by
  rcases loadRecords_cases s fam i m bytes with ⟨r, h⟩ | ⟨rs, -, -, -, -, h⟩ <;> rw [h]
  · exact .inl ⟨rfl, rfl⟩
  · exact .inr ⟨by rw [State.loadedWith_self], fun g => s.loadedWith_other i m rs, rfl⟩

theorem exec_load_outcome {t : State} (h : exec (.load f) s = .next t) :
    (t.tables = s.tables ∧ t.mgmt.context = none) ∨
      ∃ fam, Family.ofCode (natAt f.args 0) = some fam ∧ s.mgmt.locks fam = false ∧
        (t.tables.family fam).state = .filling ∧ (∀ g, g ≠ fam → t.tables.family g = s.tables.family g) ∧
        t.mgmt.context = some (fam, wordAt f.args 1 2 + natAt f.args 3) := by
  obtain ⟨a, rfl | ⟨r, rfl⟩, rfl⟩ := runCommand_next h
  swap
  · exact .inl ⟨rfl, rfl⟩
  cases hf : Family.ofCode (natAt f.args 0) with
  | none => rw [State.load, hf]; exact .inl ⟨rfl, rfl⟩
  | some fam =>
    cases hlocks : s.mgmt.locks fam with
    | true => rw [State.load_of_locked (s := s.taken _) hf hlocks]; exact .inl ⟨rfl, rfl⟩
    | false =>
      rw [State.load_of_family (s := s.taken _) hf hlocks]
      exact (State.loadRecords_outcome (s.taken _) fam _ _ _).imp_right fun h => ⟨fam, rfl, hlocks, h⟩

theorem exec_loadNext_outcome {t : State} (h : exec (.loadNext f) s = .next t) :
    (t.tables = s.tables ∧ t.mgmt.context = none) ∨
      ∃ fam i, s.mgmt.context = some (fam, i) ∧ (s.commitLegal → s.mgmt.locks fam = false) ∧
        (t.tables.family fam).state = .filling ∧ (∀ g, g ≠ fam → t.tables.family g = s.tables.family g) ∧
        t.mgmt.context = some (fam, i + natAt f.args 0) := by
  obtain ⟨a, rfl | ⟨r, rfl⟩, rfl⟩ := runCommand_next h
  swap
  · exact .inl ⟨rfl, rfl⟩
  cases hx : s.mgmt.context with
  | none => rw [State.loadNext_of_none (s := s.taken _) hx]; exact .inl ⟨rfl, rfl⟩
  | some x =>
    obtain ⟨fam, i⟩ := x
    rw [State.loadNext_of_context (s := s.taken _) hx]
    have hlocks : s.commitLegal → s.mgmt.locks fam = false := fun ⟨_, hcontext, _⟩ => (hcontext (fam, i) (by simp [hx])).1
    exact (State.loadRecords_outcome (s.taken _) fam _ _ _).imp_right fun h => ⟨fam, i, rfl, hlocks, h⟩

/-- Settles O24. -/
theorem loadsTaken : Obligations.LoadsTaken := by
  refine ⟨⟨fun f s fam rs hmode hlen hfam hlocks hrs => ?_, fun f s fam i rs hmode hlen hcontext hrs => ?_⟩,
    fun f s t => ⟨exec_load_outcome, exec_loadNext_outcome⟩, fun f s hmode => ?_, ⟨rfl, rfl⟩,
    fun u fam => u.locks_iff fam, fun fam m i bytes rs bank => ⟨splitRecords_iff, fun hw => writeRecords_wf hw fam i rs,
      fun j => writeRecords_find fam bank i j rs⟩⟩
  · refine ⟨(s.taken (.load f)).loadedWith fam _ _ rs, ?_, State.loadedWith_loads (splitRecords_length hrs.2.2.1)⟩
    rw [exec_load_of_length hmode hlen, State.load_of_family (s := s.taken _) hfam hlocks,
      State.loadRecords_of_loadable (s := s.taken _) hrs]
    rfl
  · refine ⟨(s.taken (.loadNext f)).loadedWith fam _ _ rs, ?_, State.loadedWith_loads (splitRecords_length hrs.2.2.1)⟩
    rw [exec_loadNext_of_length hmode hlen, State.loadNext_of_context (s := s.taken _) hcontext,
      State.loadRecords_of_loadable (s := s.taken _) hrs]
    rfl
  · intro refused tests
    have tested {c : Instr} {code : Nat} {fam : Family} {i m : Nat} {bytes : List Byte}
        (hexec : exec c s = ((s.taken c).loadRecords fam i m bytes).send code f) :
        tests c (BitVec.ofNat 8 code) fam i m bytes := by
      refine ⟨fun h => hexec.trans (send_refused (State.loadRecords_of_range h)), fun h1 h2 => ⟨fun h => ?_, ?_⟩⟩
      · exact hexec.trans (send_refused (State.loadRecords_of_unfilled h1 h2 h))
      · rintro rs hrs rfl
        exact ⟨fun h => hexec.trans (send_refused (State.loadRecords_of_long h1 h2 hrs h)),
          fun hshort h => hexec.trans (send_refused (State.loadRecords_of_full h1 h2 hrs hshort h))⟩
    refine ⟨fun hlen => ?_, fun hlen => ?_⟩
    · have hexec := exec_load_of_length hmode hlen
      refine ⟨fun h => hexec.trans (send_refused (State.load_of_unknown h)), fun fam hfam => ⟨fun h => ?_, fun h => ?_⟩⟩
      · exact hexec.trans (send_refused (State.load_of_locked (s := s.taken _) hfam h))
      · exact tested (code := 1) (by rw [hexec, State.load_of_family (s := s.taken _) hfam h])
    · have hexec := exec_loadNext_of_length hmode hlen
      refine ⟨fun h => hexec.trans (send_refused (State.loadNext_of_none (s := s.taken _) h)), fun fam i h => ?_⟩
      exact tested (code := 2) (by rw [hexec, State.loadNext_of_context (s := s.taken _) h])

end Loading

end Sys2Proof.Machine
end

section
/-! PROOF. Structural validation (R53): when a record breaks a condition, which record the detail names, and the whole set. -/

namespace Sys2Proof.Machine

/-! ### The record that a search finds -/

/-- A search along a list stops at the first element that meets the condition searched for. -/
theorem find?_map_of_first {α β : Type} {p : α → Bool} {breaks : α → Prop} (hp : ∀ x, p x = true ↔ breaks x) (g : α → β)
    {l pre post : List α} {e : α} (hl : l = pre ++ e :: post) (hpre : ∀ x ∈ pre, ¬ breaks x) (he : breaks e) :
    (l.find? p).map g = some (g e) := by
  have hfind : l.find? p = some e := List.find?_eq_some_iff_append.mpr
    ⟨(hp e).mpr he, pre, post, hl, fun x hx => by simpa [← hp] using hpre x hx⟩
  rw [hfind]
  rfl

theorem find?_map_eq_none {α β : Type} {p : α → Bool} {breaks : α → Prop} (hp : ∀ x, p x = true ↔ breaks x) (g : α → β)
    {l : List α} : (l.find? p).map g = none ↔ ∀ x ∈ l, ¬ breaks x := by
  simp only [Option.map_eq_none_iff, List.find?_eq_none, hp]

theorem Table.find_eq_none_iff {α : Type} (t : Table α) (i : Nat) : Table.find t i = none ↔ ∀ e ∈ t, e.1 ≠ i := by
  induction t with
  | nil => simp
  | cons a t ih =>
    unfold Table.find
    split
    · simp [*]
    · simp [*]

/-! ### When a record breaks a condition, family by family -/

/-- A SEAT record that breaks a condition (R53). -/
abbrev SeatBreaks (bank : Table (List Byte)) (e : Nat × List Byte) : Prop :=
  (seatSlot e.2).enabled = true ∧
    (3 < (seatSlot e.2).string ∨ (seatSlot e.2).address.toNat = 0 ∨ 32 < (seatSlot e.2).address.toNat ∨
      ∃ e' ∈ bank, e'.1 < e.1 ∧ (seatSlot e'.2).enabled = true ∧
        (seatSlot e'.2).string = (seatSlot e.2).string ∧ (seatSlot e'.2).address = (seatSlot e.2).address)

/-- A RESV record that breaks a condition (R53), `seats` the SEAT bank that will be active. -/
abbrev ResvBreaks (seats bank : Table (List Byte)) (e : Nat × List Byte) : Prop :=
  (resvRecord e.2).id = 0 ∨ 127 < (resvRecord e.2).slot ∨ enabledSlot seats (resvRecord e.2).slot = none ∨
    (resvRecord e.2).board = (resvRecord e.2).alight ∨
    ∃ e' ∈ bank, e'.1 < e.1 ∧ (resvRecord e'.2).id = (resvRecord e.2).id

/-- A PAGE record that breaks a condition (R53, R168). -/
abbrev PageBreaks (bank : Table (List Byte)) (e : Nat × List Byte) : Prop :=
  (e.1 % 25 = 0 ∧ (3 < natAt e.2 0 ∨ natAt e.2 1 = 0 ∨ 3 < natAt e.2 1)) ∨
  (e.1 % 25 ≠ 0 ∧ (3 < natAt e.2 0 ∨ Table.find bank (e.1 - e.1 % 25) = none ∨
    ∃ q ∈ [rectAt e.2 1, rectAt e.2 5], q.w = 0 ∨ q.h = 0 ∨ 192 < q.x0 + q.w ∨ 48 < q.y0 + q.h))

/-- An ordinal of a ROUTE bank that breaks a condition: absent, a segment out of range, or a code that is not new (R53). -/
abbrev RouteBreaks (bank : Table (List Byte)) (i : Nat) : Prop :=
  (∀ e ∈ bank, e.1 ≠ i) ∨
    ∃ e ∈ bank, e.1 = i ∧
      ((1 ≤ i ∧ ((routeEntry i e.2).segment = 0 ∨ 1000000 < (routeEntry i e.2).segment)) ∨
        ∃ e' ∈ bank, e'.1 < i ∧ (routeEntry e'.1 e'.2).code = (routeEntry i e.2).code)

theorem seatOffends_iff (bank : Table (List Byte)) (e : Nat × List Byte) :
    seatOffends bank e.1 e.2 = true ↔ SeatBreaks bank e := by
  simp only [seatOffends, SeatBreaks, Bool.and_eq_true, Bool.or_eq_true, decide_eq_true_eq, List.any_eq_true, beq_iff_eq,
    and_assoc, or_assoc, Nat.lt_one_iff]

theorem resvOffends_iff (seats bank : Table (List Byte)) (e : Nat × List Byte) :
    resvOffends seats bank e.1 e.2 = true ↔ ResvBreaks seats bank e := by
  simp only [resvOffends, ResvBreaks, Bool.or_eq_true, decide_eq_true_eq, Option.isNone_iff_eq_none, List.any_eq_true,
    Bool.and_eq_true, beq_iff_eq, or_assoc]
  rw [or_left_comm (a := (resvRecord e.2).board = (resvRecord e.2).alight)]

theorem Rect.onPanel_eq_false_iff (q : Rect) :
    q.onPanel = false ↔ q.w = 0 ∨ q.h = 0 ∨ 192 < q.x0 + q.w ∨ 48 < q.y0 + q.h := by
  rw [Rect.onPanel, decide_eq_false_iff_not]
  omega

theorem pageOffends_iff (bank : Table (List Byte)) (e : Nat × List Byte) :
    pageOffends bank e.1 e.2 = true ↔ PageBreaks bank e := by
  by_cases h : e.1 % 25 = 0
  · simp [pageOffends, PageBreaks, h]
  · simp [pageOffends, PageBreaks, h, Rect.onPanel_eq_false_iff, or_assoc]

theorem routeOffends_iff (bank : Table (List Byte)) (i : Nat) (r : List Byte) :
    routeOffends bank i r = true ↔
      (1 ≤ i ∧ ((routeEntry i r).segment = 0 ∨ 1000000 < (routeEntry i r).segment)) ∨
        ∃ e' ∈ bank, e'.1 < i ∧ (routeEntry e'.1 e'.2).code = (routeEntry i r).code := by
  simp [routeOffends]

/-! ### The first break of a ROUTE bank -/

theorem routeFirstOffender_eq (bank : Table (List Byte)) :
    routeFirstOffender bank =
      (List.range (highest bank + 1)).find? (fun i => (Table.find bank i).elim true (routeOffends bank i)) := by
  unfold routeFirstOffender
  congr
  funext i
  cases Table.find bank i <;> rfl

theorem route_breaks_iff {bank : Table (List Byte)} (hwf : Table.wf bank) (i : Nat) :
    (Table.find bank i).elim true (routeOffends bank i) = true ↔ RouteBreaks bank i := by
  cases hfind : Table.find bank i with
  | none => exact iff_of_true rfl (.inl ((Table.find_eq_none_iff bank i).mp hfind))
  | some r =>
    have hmem : (i, r) ∈ bank := Table.mem_of_find hfind
    have honly : ∀ e ∈ bank, e.1 = i → e.2 = r := fun e he hi =>
      Option.some.inj ((Table.find_of_mem hwf he).symm.trans (hi ▸ hfind))
    rw [Option.elim_some, routeOffends_iff]
    constructor
    · exact fun h => .inr ⟨(i, r), hmem, rfl, h⟩
    · rintro (h | ⟨e, he, hi, h⟩)
      · exact absurd rfl (h _ hmem)
      · exact honly e he hi ▸ h

theorem routeFirstOffender_eq_some {bank : Table (List Byte)} (hwf : Table.wf bank) {i : Nat} (hi : i ≤ highest bank)
    (hbreaks : RouteBreaks bank i) (hbelow : ∀ j, j < i → ¬ RouteBreaks bank j) : routeFirstOffender bank = some i := by
  rw [routeFirstOffender_eq, List.find?_range_eq_some]
  refine ⟨(route_breaks_iff hwf i).mpr hbreaks, List.mem_range.mpr (Nat.lt_succ_of_le hi), fun j hj => ?_⟩
  rw [Bool.not_eq_true', ← Bool.not_eq_true, route_breaks_iff hwf]
  exact hbelow j hj

theorem routeFirstOffender_eq_none {bank : Table (List Byte)} (hwf : Table.wf bank) :
    routeFirstOffender bank = none ↔ ∀ i ≤ highest bank, ¬ RouteBreaks bank i := by
  simp only [routeFirstOffender_eq, List.find?_range_eq_none, Bool.not_eq_true', ← Bool.not_eq_true,
    route_breaks_iff hwf, Nat.lt_succ_iff]

theorem greatest_isSome {l : List Nat} (h : l ≠ []) : ∃ m, greatest l = some m := by
  obtain ⟨m, hm, hle⟩ := l.toFinset.exists_max_image id (List.toFinset_nonempty_iff l |>.mpr h)
  exact ⟨m, (greatest_eq_some_iff l m).mpr ⟨by simpa using hm, fun y hy => hle y (by simpa using hy)⟩⟩

theorem highest_spec {bank : Table (List Byte)} (h : bank ≠ []) :
    (∃ e ∈ bank, e.1 = highest bank) ∧ ∀ e ∈ bank, e.1 ≤ highest bank := by
  obtain ⟨m, hm⟩ := greatest_isSome (l := bank.map (·.1)) (by simpa using h)
  have heq : highest bank = m := by rw [highest, hm, Option.getD_some]
  obtain ⟨hmem, hle⟩ := (greatest_eq_some_iff _ _).mp hm
  rw [heq]
  exact ⟨List.mem_map.mp hmem, fun e he => hle _ (List.mem_map_of_mem he)⟩

/-- Without a gap, the indices of a bank are the numbers below its length. -/
theorem indices_eq_range_iff {bank : Table (List Byte)} (hwf : Table.wf bank) (hne : bank ≠ []) :
    bank.map (·.1) = List.range bank.length ↔ ∀ i ≤ highest bank, ∃ e ∈ bank, e.1 = i := by
  obtain ⟨⟨top, htop, htopEq⟩, hle⟩ := highest_spec hne
  constructor
  · intro h i hi
    have hmem : ∀ j, j ∈ bank.map (·.1) ↔ j < bank.length := fun j => by rw [h, List.mem_range]
    exact List.mem_map.mp ((hmem i).mpr (hi.trans_lt (htopEq ▸ (hmem _).mp (List.mem_map_of_mem htop))))
  · intro h
    have hkeys : bank.map (·.1) = List.range (highest bank + 1) := by
      refine List.Pairwise.eq_of_mem_iff (List.pairwise_map.mpr hwf) List.pairwise_lt_range fun i => ?_
      rw [List.mem_map, List.mem_range, Nat.lt_succ_iff]
      exact ⟨fun ⟨e, he, hi⟩ => hi ▸ hle e he, h i⟩
    have hlen : bank.length = highest bank + 1 := by simpa using congrArg List.length hkeys
    rw [hkeys, hlen]

/-! ### The validation of a family -/

variable (t : TableStore) (fs : FamilySet)

theorem validateFamily_seat_eq_none :
    validateFamily t fs .seat = none ↔ ∀ e ∈ t.seat.staged, ¬ SeatBreaks t.seat.staged e :=
  find?_map_eq_none (seatOffends_iff t.seat.staged) _

theorem validateFamily_resv_eq_none :
    validateFamily t fs .resv = none ↔ ∀ e ∈ t.resv.staged, ¬ ResvBreaks (t.after fs .seat) t.resv.staged e :=
  find?_map_eq_none (resvOffends_iff (t.after fs .seat) t.resv.staged) _

theorem validateFamily_page_eq_none :
    validateFamily t fs .page = none ↔ ∀ e ∈ t.page.staged, ¬ PageBreaks t.page.staged e :=
  find?_map_eq_none (pageOffends_iff t.page.staged) _

theorem validateFamily_route_of_short (h : t.route.staged.length < 2) :
    validateFamily t fs .route = some (.family .route none) := if_pos h

theorem validateFamily_route (h : ¬ t.route.staged.length < 2) :
    validateFamily t fs .route = (routeFirstOffender t.route.staged).map (fun i => .family .route (some i)) := if_neg h

/-- Two of a bank's records share no value exactly when none shares it with one of a lower index. -/
theorem unique_iff_not_repeated {α : Type} (bank : Table α) (R : Nat × α → Nat × α → Prop) :
    (∀ e ∈ bank, ∀ e' ∈ bank, e.1 < e'.1 → ¬ R e e') ↔ ∀ e ∈ bank, ¬ ∃ e' ∈ bank, e'.1 < e.1 ∧ R e' e :=
  ⟨fun h e he ⟨e', he', hlt, hR⟩ => h e' he' e he hlt hR,
    fun h e he e' he' hlt hR => h e' he' ⟨e, he, hlt, hR⟩⟩

theorem seat_valid_iff :
    validateFamily t fs .seat = none ↔
      (∀ e ∈ t.seat.staged, (seatSlot e.2).enabled = true →
        (seatSlot e.2).string ≤ 3 ∧ 1 ≤ (seatSlot e.2).address.toNat ∧ (seatSlot e.2).address.toNat ≤ 32) ∧
      (∀ e ∈ t.seat.staged, ∀ e' ∈ t.seat.staged, e.1 < e'.1 → (seatSlot e.2).enabled = true →
        (seatSlot e'.2).enabled = true → (seatSlot e.2).string = (seatSlot e'.2).string →
        (seatSlot e.2).address ≠ (seatSlot e'.2).address) := by
  have hpair := unique_iff_not_repeated t.seat.staged (fun e e' => (seatSlot e.2).enabled = true ∧
    (seatSlot e'.2).enabled = true ∧ (seatSlot e.2).string = (seatSlot e'.2).string ∧
    (seatSlot e.2).address = (seatSlot e'.2).address)
  simp only [not_and] at hpair
  rw [validateFamily_seat_eq_none, hpair, ← forall₂_and]
  refine forall₂_congr fun e he => ?_
  have hrange : (seatSlot e.2).string ≤ 3 ∧ 1 ≤ (seatSlot e.2).address.toNat ∧ (seatSlot e.2).address.toNat ≤ 32 ↔
      ¬ (3 < (seatSlot e.2).string ∨ (seatSlot e.2).address.toNat = 0 ∨ 32 < (seatSlot e.2).address.toNat) := by omega
  rw [hrange]
  by_cases hen : (seatSlot e.2).enabled = true
  · simp only [SeatBreaks, hen, true_and, forall_true_left, not_or, and_assoc]
  · simp [SeatBreaks, hen]

theorem resv_valid_iff :
    validateFamily t fs .resv = none ↔
      (∀ e ∈ t.resv.staged, (resvRecord e.2).id ≠ 0 ∧ (resvRecord e.2).slot ≤ 127 ∧
        enabledSlot (t.after fs .seat) (resvRecord e.2).slot ≠ none ∧
        (resvRecord e.2).board ≠ (resvRecord e.2).alight) ∧
      (∀ e ∈ t.resv.staged, ∀ e' ∈ t.resv.staged, e.1 < e'.1 → (resvRecord e.2).id ≠ (resvRecord e'.2).id) := by
  have hpair := unique_iff_not_repeated t.resv.staged (fun e e' => (resvRecord e.2).id = (resvRecord e'.2).id)
  rw [validateFamily_resv_eq_none, hpair, ← forall₂_and]
  refine forall₂_congr fun e _ => ?_
  simp only [ResvBreaks, not_or, not_lt, ne_eq, and_assoc]

theorem route_valid_iff (hwf : Table.wf t.route.staged) :
    validateFamily t fs .route = none ↔
      2 ≤ t.route.staged.length ∧ t.route.staged.map (·.1) = List.range t.route.staged.length ∧
      (∀ e ∈ t.route.staged, ∀ e' ∈ t.route.staged, e.1 < e'.1 →
        (routeEntry e.1 e.2).code ≠ (routeEntry e'.1 e'.2).code) ∧
      (∀ e ∈ t.route.staged, 1 ≤ e.1 →
        1 ≤ (routeEntry e.1 e.2).segment ∧ (routeEntry e.1 e.2).segment ≤ 1000000) := by
  by_cases hlen : t.route.staged.length < 2
  case pos => simp [validateFamily_route_of_short t fs hlen, Nat.not_le_of_lt hlen]
  case neg =>
    have hne : t.route.staged ≠ [] := fun h => hlen (by rw [h]; exact Nat.zero_lt_two)
    have hpair := unique_iff_not_repeated t.route.staged
      (fun e e' => (routeEntry e.1 e.2).code = (routeEntry e'.1 e'.2).code)
    obtain ⟨-, hle⟩ := highest_spec hne
    rw [validateFamily_route t fs hlen, Option.map_eq_none_iff, routeFirstOffender_eq_none hwf,
      indices_eq_range_iff hwf hne]
    constructor
    · intro h
      refine ⟨Nat.le_of_not_lt hlen, fun i hi => ?_, hpair.mpr fun e he hrep => ?_, fun e he h1 => ?_⟩
      · have hgap : ¬ ∀ e ∈ t.route.staged, e.1 ≠ i := fun hgap => h i hi (.inl hgap)
        simpa using hgap
      · exact h e.1 (hle e he) (.inr ⟨e, he, rfl, .inr hrep⟩)
      · have hseg : ¬ ((routeEntry e.1 e.2).segment = 0 ∨ 1000000 < (routeEntry e.1 e.2).segment) :=
          fun hbad => h e.1 (hle e he) (.inr ⟨e, he, rfl, .inl ⟨h1, hbad⟩⟩)
        omega
    · rintro ⟨-, hkeys, hcodes, hsegs⟩ i hi (hgap | ⟨e, he, rfl, ⟨h1, hbad⟩ | hrep⟩)
      · obtain ⟨e, he, rfl⟩ := hkeys i hi
        exact hgap e he rfl
      · have hseg := hsegs e he h1
        omega
      · exact hpair.mp hcodes e he hrep

theorem page_valid_iff :
    validateFamily t fs .page = none ↔ ∀ e ∈ t.page.staged,
      (e.1 % 25 = 0 → natAt e.2 0 ≤ 3 ∧ 1 ≤ natAt e.2 1 ∧ natAt e.2 1 ≤ 3) ∧
      (e.1 % 25 ≠ 0 → natAt e.2 0 ≤ 3 ∧ Table.find t.page.staged (e.1 - e.1 % 25) ≠ none ∧
        ∀ q ∈ [rectAt e.2 1, rectAt e.2 5], 1 ≤ q.w ∧ 1 ≤ q.h ∧ q.x0 + q.w ≤ 192 ∧ q.y0 + q.h ≤ 48) := by
  rw [validateFamily_page_eq_none]
  refine forall₂_congr fun e _ => ?_
  by_cases h : e.1 % 25 = 0
  · simp only [PageBreaks, h, true_and, ne_eq, not_true_eq_false, false_and, or_false, false_implies, and_true, not_or,
      not_lt, forall_true_left, Nat.one_le_iff_ne_zero]
  · simp only [PageBreaks, h, false_and, false_or, true_and, not_or, not_exists, not_and, not_lt, ne_eq,
      not_false_eq_true, forall_true_left, false_implies, Nat.one_le_iff_ne_zero]

/-! ### The validation of the whole set -/

theorem validate_eq_none_iff : validate t fs = none ↔ ∀ g, fs.names g = true → validateFamily t fs g = none := by
  simp only [validate, List.findSome?_eq_none_iff, FamilySet.mem_list]

theorem validate_of_first {pre post : List Family} {g : Family} {d : CommitDetail}
    (hall : [Family.seat, .resv, .route, .text, .page] = pre ++ g :: post)
    (hpre : ∀ x ∈ pre, fs.names x = true → validateFamily t fs x = none) (hg : fs.names g = true)
    (hd : validateFamily t fs g = some d) : validate t fs = some d := by
  have hlist : fs.list = pre.filter fs.names ++ g :: post.filter fs.names := by
    rw [FamilySet.list, show Family.all = _ from hall, List.filter_append, List.filter_cons_of_pos hg]
  have hnone : (pre.filter fs.names).findSome? (validateFamily t fs) = none :=
    List.findSome?_eq_none_iff.mpr fun x hx => hpre x (List.mem_filter.mp hx).1 (List.mem_filter.mp hx).2
  rw [validate, hlist, List.findSome?_append, hnone, Option.none_or, List.findSome?_cons, hd]

/-- Settles O28. -/
theorem validationConditions : Obligations.ValidationConditions := by
  intro t fs
  refine ⟨seat_valid_iff t fs, resv_valid_iff t fs, route_valid_iff t fs, rfl, page_valid_iff t fs, ⟨?_, ?_, ?_⟩,
    validateFamily_route_of_short t fs, ?_, validate_eq_none_iff t fs,
    fun pre g post d hall hpre hg hd => validate_of_first t fs hall hpre hg hd⟩
  case refine_1 => exact fun pre e post hl => find?_map_of_first (seatOffends_iff t.seat.staged) _ hl
  case refine_2 => exact fun pre e post hl => find?_map_of_first (resvOffends_iff (t.after fs .seat) t.resv.staged) _ hl
  case refine_3 => exact fun pre e post hl => find?_map_of_first (pageOffends_iff t.page.staged) _ hl
  case refine_4 =>
    intro hlen hwf breaks i hi hbreaks hbelow
    obtain ⟨e, he, hle⟩ := hi
    have hne : t.route.staged ≠ [] := List.ne_nil_of_mem he
    rw [validateFamily_route t fs (Nat.not_lt.mpr hlen),
      routeFirstOffender_eq_some hwf (hle.trans ((highest_spec hne).2 e he)) hbreaks hbelow, Option.map_some]

end Sys2Proof.Machine
end

section
/-! PROOF. Route and position (chapters 4 and 5): the calling and halting sets (R69 to R71), STOP_CANCEL (R76 to R78), a
POSITION frame (R84 to R87), and the permille and arrival minute of the progress computation (R92, R93). -/

namespace Sys2Proof.Machine

/-! ### The ordinals of a table that pass a test (R70, R71) -/

theorem TableStore.mem_ordinalsWhere {t : TableStore} (hwf : Table.wf t.route.active) (test : Nat → RouteEntry → Bool)
    (x : Nat) : x ∈ t.ordinalsWhere test ↔ ∃ e, t.entry x = some e ∧ test x e = true := by
  simp only [ordinalsWhere, List.mem_map, List.mem_filter, entry, Option.map_eq_some_iff]
  constructor
  · rintro ⟨e, ⟨he, htest⟩, rfl⟩
    exact ⟨_, ⟨e.2, Table.find_of_mem hwf he, rfl⟩, htest⟩
  · rintro ⟨_, ⟨r, hfind, rfl⟩, htest⟩
    exact ⟨(x, r), ⟨Table.mem_of_find hfind, htest⟩, rfl⟩

theorem TableStore.ordinalsWhere_ascending {t : TableStore} (hwf : Table.wf t.route.active)
    (test : Nat → RouteEntry → Bool) : (t.ordinalsWhere test).Pairwise (· < ·) :=
  List.pairwise_map.mpr (hwf.filter _)

/-- Ascending ordinals below 48 are at most 48. -/
theorem TableStore.length_ordinalsWhere_le {t : TableStore} (hlegal : bankLegal .route t.route.active)
    (test : Nat → RouteEntry → Bool) : (t.ordinalsWhere test).length ≤ 48 := by
  obtain ⟨hwf, hbelow⟩ := hlegal
  have hnodup : (t.ordinalsWhere test).Nodup := (ordinalsWhere_ascending hwf test).imp Nat.ne_of_lt
  have hsub : t.ordinalsWhere test ⊆ List.range 48 := fun x hx => by
    obtain ⟨e, he, rfl⟩ := List.mem_map.mp hx
    exact List.mem_range.mpr (hbelow e (List.mem_filter.mp he).1)
  simpa using (List.subperm_of_subset hnodup hsub).length_le

theorem TableStore.callsAt_iff (t : TableStore) (portion x : Nat) (e : RouteEntry) :
    t.callsAt portion x e = true ↔ portion ≠ 0 ∧ e.mask.getLsbD (portion - 1) = true ∧ x ∉ t.cancelled := by
  simp only [callsAt, Bool.and_eq_true, holdsPortion_eq_true_iff, Bool.not_eq_true', List.contains_eq_mem,
    decide_eq_false_iff_not, and_assoc]

theorem TableStore.haltsAt_iff (t : TableStore) (x : Nat) (e : RouteEntry) :
    t.haltsAt x e = true ↔ e.mask ≠ 0 ∧ x ∉ t.cancelled := by
  simp only [haltsAt, Bool.and_eq_true, bne_iff_ne, Bool.not_eq_true', List.contains_eq_mem, decide_eq_false_iff_not]

/-- Settles O34: both sets are the ordinals of one table that pass a test, ascending as the table is. -/
theorem callingAndHaltingSets : Obligations.CallingAndHaltingSets := by
  intro t portion hwf
  refine ⟨fun x => ?_, fun x => ?_, TableStore.ordinalsWhere_ascending hwf _, TableStore.ordinalsWhere_ascending hwf _,
    fun hlegal => TableStore.length_ordinalsWhere_le hlegal _⟩
  · rw [TableStore.callingSet, TableStore.mem_ordinalsWhere hwf]
    simp only [TableStore.callsAt_iff]
  · rw [TableStore.haltingSet, TableStore.mem_ordinalsWhere hwf]
    simp only [TableStore.haltsAt_iff]

/-! ### STOP_CANCEL (R76 to R78) -/

theorem mem_setFlag (flags : List Nat) (ordinal : Nat) (flag : Bool) (x : Nat) :
    x ∈ setFlag flags ordinal flag ↔ if x = ordinal then flag = true else x ∈ flags := by
  rcases Nat.lt_trichotomy x ordinal with hlt | rfl | hgt
  · cases flag <;> simp [setFlag, hlt.ne, hlt, Nat.lt_asymm hlt]
  · cases flag <;> simp [setFlag]
  · cases flag <;> simp [setFlag, hgt.ne', hgt, Nat.lt_asymm hgt]

theorem byteAt_bne_zero (bs : List Byte) (i : Nat) : (byteAt bs i != 0) = (natAt bs i != 0) := by
  rw [Bool.eq_iff_iff, bne_iff_ne, bne_iff_ne, ne_eq, ne_eq, natAt_eq_zero_iff]

/-- The flags are written where the Reckoning Unit reads them: with a replaced ROUTE table, in that table alone (R78). -/
theorem TableStore.setCancelled_eq (t : TableStore) (flags : List Nat) :
    t.setCancelled flags =
      { t with cancelled := (t.setCancelled flags).cancelled, replacedRoute := (t.setCancelled flags).replacedRoute } := by
  unfold setCancelled
  cases t.replacedRoute <;> rfl

theorem TableStore.setCancelled_cancelled_of_replaced {t : TableStore} (h : t.replacedRoute.isSome = true)
    (flags : List Nat) : (t.setCancelled flags).cancelled = t.cancelled := by
  obtain ⟨r, hr⟩ := Option.isSome_iff_exists.mp h
  rw [setCancelled, hr]

section StopCancel

variable {f : MgmtFrame} {s : State}

theorem exec_stopCancel_of_length (hmode : s.mgmt.mode ≠ .restartPending) (hlen : f.args.length = 2) :
    exec (.stopCancel f) s =
      (if s.tables.asReckoned.entryCount ≤ natAt f.args 0 then refuse (s.taken (.stopCancel f)) .range
       else
         let u := if s.tables.asReckoned.cancelled.contains (natAt f.args 0) = (byteAt f.args 1 != 0)
           then s.taken (.stopCancel f)
           else (s.taken (.stopCancel f)).cancelStop (natAt f.args 0) (byteAt f.args 1 != 0)
         ⟨u, .ok, .stopCancelled (natAt f.args 0) (byteAt f.args 1 != 0) u.reck.calling.length⟩ : Answer).send 10 f :=
  State.command_of_fixedLength _ (fun h => absurd h hmode) rfl hlen

theorem exec_stopCancel_of_range (hmode : s.mgmt.mode ≠ .restartPending) (hlen : f.args.length = 2)
    (h : s.tables.asReckoned.entryCount ≤ natAt f.args 0) :
    exec (.stopCancel f) s = .next ((s.taken (.stopCancel f)).reply f.port f.seq 10 .range .none) := by
  rw [exec_stopCancel_of_length hmode hlen, if_pos h]
  rfl

theorem exec_stopCancel_of_same (hmode : s.mgmt.mode ≠ .restartPending) (hlen : f.args.length = 2)
    (hin : natAt f.args 0 < s.tables.asReckoned.entryCount)
    (hsame : s.tables.asReckoned.cancelled.contains (natAt f.args 0) = (natAt f.args 1 != 0)) :
    exec (.stopCancel f) s = .next ((s.taken (.stopCancel f)).reply f.port f.seq 10 .ok
      (.stopCancelled (natAt f.args 0) (natAt f.args 1 != 0) s.reck.calling.length)) := by
  rw [exec_stopCancel_of_length hmode hlen, if_neg (Nat.not_le.mpr hin), byteAt_bne_zero, if_pos hsame]
  rfl

theorem exec_stopCancel_of_changed (hmode : s.mgmt.mode ≠ .restartPending) (hlen : f.args.length = 2)
    (hin : natAt f.args 0 < s.tables.asReckoned.entryCount)
    (hother : s.tables.asReckoned.cancelled.contains (natAt f.args 0) ≠ (natAt f.args 1 != 0)) :
    exec (.stopCancel f) s = .next
      (((s.taken (.stopCancel f)).cancelStop (natAt f.args 0) (natAt f.args 1 != 0)).reply f.port f.seq 10 .ok
        (.stopCancelled (natAt f.args 0) (natAt f.args 1 != 0)
          ((s.taken (.stopCancel f)).cancelStop (natAt f.args 0) (natAt f.args 1 != 0)).reck.calling.length)) := by
  rw [exec_stopCancel_of_length hmode hlen, if_neg (Nat.not_le.mpr hin), byteAt_bne_zero, if_neg hother]
  rfl

end StopCancel

/-- Settles O35. -/
theorem stopCancelTaken : Obligations.StopCancelTaken := by
  intro f s hmode hlen
  refine ⟨TableStore.asReckoned_none _, fun r hr => ?_, exec_stopCancel_of_range hmode hlen,
    exec_stopCancel_of_same hmode hlen,
    fun hin hother => ⟨_, exec_stopCancel_of_changed hmode hlen hin hother, ?_, ?_, fun x => ?_, fun hr => ?_, rfl⟩⟩
  case refine_1 => simp [hr]
  case refine_2 =>
    exact congrArg
      (fun x => { (s.taken (.stopCancel f)).cancelStop (natAt f.args 0) (natAt f.args 1 != 0) with tables := x })
      (TableStore.setCancelled_eq _ _)
  case refine_3 =>
    dsimp only [State.cancelStop]
    rw [TableStore.setCancelled_asReckoned]
    rfl
  case refine_4 =>
    dsimp only [State.cancelStop]
    rw [TableStore.setCancelled_asReckoned]
    exact mem_setFlag _ _ _ x
  case refine_5 => exact TableStore.setCancelled_cancelled_of_replaced hr _

/-! ### A POSITION frame (R84 to R87) -/

theorem accepts_iff (t : TableStore) (r : ReckoningUnit) (f : PositionFields) :
    accepts t r f = true ↔ r.portion ≠ 0 ∧ f.mask.getLsbD (r.portion - 1) = true ∧
      f.d.toNat < t.entryCount ∧ (f.atPlatform = true → f.a.toNat < t.entryCount) := by
  cases hplatform : f.atPlatform <;>
    simp [accepts, holdsPortion_eq_true_iff, and_assoc, hplatform]

/-- The speed is taken as it stands where there is none to smooth it with (R87). -/
theorem smoothed_of_fresh {r : Progress} (v : Nat)
    (h : r.state = .hold ∨ r.state = .awaitingPosition ∨ r.state = .noRoute) : smoothed r v = v := by
  rcases h with h | h | h <;> rw [smoothed, h]

theorem smoothed_of_running {r : Progress} (v : Nat)
    (h : ¬ (r.state = .hold ∨ r.state = .awaitingPosition ∨ r.state = .noRoute)) :
    smoothed r v = r.vs.elim v (fun vs => (3 * vs + v + 2) / 4) := by
  simp only [not_or] at h
  obtain ⟨hhold, hawaiting, hroute⟩ := h
  unfold smoothed
  cases hs : r.state
  case hold => exact absurd hs hhold
  case awaitingPosition => exact absurd hs hawaiting
  case noRoute => exact absurd hs hroute
  all_goals cases r.vs <;> rfl

theorem smoothed_eq (r : Progress) (v : Nat) :
    smoothed r v =
      if r.state = .hold ∨ r.state = .awaitingPosition ∨ r.state = .noRoute then v
      else r.vs.elim v (fun vs => (3 * vs + v + 2) / 4) := by
  split
  case isTrue h => exact smoothed_of_fresh v h
  case isFalse h => exact smoothed_of_running v h

/-- The computation carries the smoothed speed along. -/
theorem ReckoningUnit.compute_vs (t : TableStore) (r : ReckoningUnit) (f : LastFrame) (framed : Bool) :
    (r.compute t f framed).vs = r.progress.vs := by
  rw [compute]
  split <;> rfl

theorem exec_position_of_rejected {f : PositionFields} {s : State} (h : ¬ accepts s.tables.asReckoned s.reck f = true) :
    exec (.position f) s = .next (s.taken (.position f)) := if_neg h

theorem exec_position_of_accepted {f : PositionFields} {s : State} (h : accepts s.tables.asReckoned s.reck f = true) :
    exec (.position f) s = .next { s with
      reck := s.reck.afterFrame s.tables.asReckoned s.mgmt.params (clampedFrame f)
      announced := s.announced.erase (.position f) ++ reckoningSays s.reck.progress
        (s.reck.afterFrame s.tables.asReckoned s.mgmt.params (clampedFrame f)).progress true ++
          [.departureReport f.d.toNat] } := if_pos h

/-- Settles O36. -/
theorem positionTaken : Obligations.PositionTaken := by
  intro f s entries accepted last old vs
  have hentries : entries.length = s.tables.asReckoned.entryCount := by
    rw [TableStore.entryCount, TableStore.asReckoned_active]
    simp only [entries]
    cases s.tables.replacedRoute <;> rfl
  have haccepts : accepted ↔ accepts s.tables.asReckoned s.reck f = true := by
    rw [accepts_iff, ← hentries]
  have hvs : vs = smoothed old last.v := by
    rw [smoothed_eq]
    simp only [vs]
    congr 1
    cases old.vs <;> rfl
  refine ⟨fun h => exec_position_of_rejected (haccepts.not.mp h),
    fun h => ⟨_, exec_position_of_accepted (haccepts.mp h), rfl, rfl, ?_, ?_, fun hold => ?_⟩⟩
  · rw [hvs]
    rfl
  · rw [hvs]
    exact ReckoningUnit.compute_vs _ _ _ _
  · rw [hvs]
    exact smoothed_le (fun v hv => hold v (by simpa using hv)) (Nat.min_le_right _ _)

/-! ### The distance, the permille and the arrival minute (R68, R92, R93) -/

theorem TableStore.distance_self (t : TableStore) (x : Nat) : t.distance x x = 0 := by
  simp [distance]

theorem TableStore.distance_succ (t : TableStore) {x y : Nat} (h : x ≤ y) :
    t.distance x (y + 1) = t.distance x y + t.segment (y + 1) := by
  have hlast : x + 1 + (y - x) = y + 1 := by omega
  rw [distance, distance, Nat.succ_sub h, List.range_succ, List.map_append, List.sum_append, List.map_singleton,
    List.sum_singleton, hlast]

theorem permilleOf_of_some (t : TableStore) {o : Ordinals} {p n : Nat} (hp : o.p = some p) (hn : o.n = some n)
    (d sRun : Nat) : permilleOf t o d sRun = min 999 ((t.distance p d + sRun) * 1000 / t.distance p n) := by
  rw [permilleOf, hp, hn]

theorem permilleOf_of_none (t : TableStore) {o : Ordinals} (hp : o.p = none) (d sRun : Nat) :
    permilleOf t o d sRun = 0 := by
  rw [permilleOf, hp]

theorem arrivalOf_of_eta (t : TableStore) {c : Clock} (hc : c.valid = true) (n : Option Nat) (e : Nat) (delay : Int) :
    arrivalOf t c n (some e) delay = some ((c.seconds + e + 30) / 60 % 1440) := by
  simp only [arrivalOf, hc]

/-- Without a valid clock or an ETA the arrival is the scheduled one with the delay (R74, R93). -/
theorem arrivalOf_scheduled (t : TableStore) {c : Clock} {eta : Option Nat} (h : c.valid = false ∨ eta = none)
    {n : Nat} {e : RouteEntry} (he : t.entry n = some e) (delay : Int) :
    arrivalOf t c (some n) eta delay = e.arrivalAsRead.map (fun m : Nat => (((m : Int) + delay) % 1440).toNat) := by
  have hclock : arrivalOf t c (some n) eta delay = arrivalOf t { c with valid := false } (some n) eta delay := by
    rcases h with h | rfl
    · simp only [arrivalOf, h]
    · cases hv : c.valid <;> simp only [arrivalOf, hv]
  rw [hclock]
  simp only [arrivalOf, Option.bind_some, he]
  cases e.arrivalAsRead <;> rfl

/-- An arrival read from the schedule, in the words of R74. -/
theorem scheduled_cases {q : Option Nat} {e : RouteEntry} {delay : Int}
    (h : q = e.arrivalAsRead.map (fun m : Nat => (((m : Int) + delay) % 1440).toNat)) :
    (∀ m : Nat, (e.arrival = some m ∨ (e.arrival = none ∧ e.departure = some m)) →
      q = some (((m : Int) + delay) % 1440).toNat) ∧
    (e.arrival = none → e.departure = none → q = none) := by
  subst h
  refine ⟨fun m hm => ?_, fun ha hd => ?_⟩
  · rcases hm with ha | ⟨ha, hd⟩
    · simp [RouteEntry.arrivalAsRead, ha]
    · simp [RouteEntry.arrivalAsRead, ha, hd]
  · simp [RouteEntry.arrivalAsRead, ha, hd]

section Compute

variable {t : TableStore} {r : ReckoningUnit} {f : LastFrame} {framed : Bool}

theorem ReckoningUnit.compute_of_not_running (h : stateOf (findOrdinals r.calling r.halting f) ≠ .running) :
    (r.compute t f framed).permille = 0 ∧ (r.compute t f framed).eta = none := by
  rcases stateOf_cases (findOrdinals r.calling r.halting f) with hs | hs | hs
  · simp [compute, hs]
  · simp [compute, hs]
  · exact absurd hs h

theorem ReckoningUnit.compute_permille (h : stateOf (findOrdinals r.calling r.halting f) = .running) :
    (r.compute t f framed).permille = permilleOf t (findOrdinals r.calling r.halting f) f.d f.sRun := by
  rw [compute, h]

theorem ReckoningUnit.compute_arrival_of_finished (h : stateOf (findOrdinals r.calling r.halting f) = .finished) :
    (r.compute t f framed).arrival = none := by
  rw [compute, h]

/-- Short of the last stop the arrival is that of the next one, for the ETA the record holds. -/
theorem ReckoningUnit.compute_arrival (h : stateOf (findOrdinals r.calling r.halting f) ≠ .finished) :
    (r.compute t f framed).arrival =
      arrivalOf t r.clock (r.compute t f framed).n (r.compute t f framed).eta f.delay := by
  rcases stateOf_cases (findOrdinals r.calling r.halting f) with hs | hs | hs
  · exact absurd hs h
  · rw [compute, hs]
  · rw [compute, hs]

end Compute

/-- Settles O39. -/
theorem permilleAndArrival : Obligations.PermilleAndArrival := by
  refine ⟨fun t x y => ⟨t.distance_self x, t.distance_succ⟩, fun t r f framed => ?_⟩
  obtain ⟨-, hp, hn, -⟩ := r.compute_ordinals t f framed
  dsimp only
  refine ⟨fun h1 h2 => ?_, fun hnone => ?_, fun hrun p n hp' hn' => ?_, fun hfin => ?_, fun e hvalid heta => ?_,
    fun hfin hsched n e hn' he => ?_⟩
  case refine_1 =>
    refine (ReckoningUnit.compute_of_not_running fun hrun => ?_).1
    exact (ReckoningUnit.compute_state_running_iff.mpr hrun).elim h1 h2
  case refine_2 =>
    by_cases hrun : stateOf (findOrdinals r.calling r.halting f) = .running
    · rw [ReckoningUnit.compute_permille hrun, permilleOf_of_none t (hp ▸ hnone)]
    · exact (ReckoningUnit.compute_of_not_running hrun).1
  case refine_3 =>
    rw [ReckoningUnit.compute_permille (ReckoningUnit.compute_state_running_iff.mp hrun),
      permilleOf_of_some t (hp ▸ hp') (hn ▸ hn')]
  case refine_4 =>
    exact ReckoningUnit.compute_arrival_of_finished (ReckoningUnit.compute_state_eq_finished_iff.mp hfin)
  case refine_5 =>
    have hrun : stateOf (findOrdinals r.calling r.halting f) = .running := by
      by_contra h
      exact nomatch (ReckoningUnit.compute_of_not_running h).2.symm.trans heta
    rw [ReckoningUnit.compute_arrival (by rw [hrun]; nofun), heta, arrivalOf_of_eta t hvalid]
  case refine_6 =>
    have harrival := ReckoningUnit.compute_arrival (t := t) (framed := framed)
      (ReckoningUnit.compute_state_eq_finished_iff.not.mp hfin)
    rw [hn', arrivalOf_scheduled t hsched he] at harrival
    exact scheduled_cases harrival

end Sys2Proof.Machine
end

section
/-! PROOF. What the Reckoning Unit hands on (R95), its recomputations (R99 to R101), entry into HOLD (R97), and the clock
(R102, R104). -/

namespace Sys2Proof.Machine

/-! ### The announcements of a changed record (R95) -/

section Announcements

variable (old new : Progress)

theorem changed_forResv_iff :
    Changed.forResv (Progress.changed old new) = true ↔
      old.state ≠ new.state ∨ old.remembered ≠ new.remembered ∨ old.p ≠ new.p ∨ old.n ≠ new.n ∨ old.a ≠ new.a ∨
        old.approach ≠ new.approach ∨ old.inForce ≠ new.inForce := by
  simp only [Changed.forResv, Progress.changed, Bool.or_eq_true, bne_iff_ne, or_assoc]

theorem changed_forNotice_iff :
    Changed.forNotice (Progress.changed old new) = true ↔
      Changed.forResv (Progress.changed old new) = true ∨ old.arrival ≠ new.arrival := by
  simp only [Changed.forNotice, Bool.or_eq_true]
  simp only [Progress.changed, bne_iff_ne]

theorem changed_forPanel_iff :
    Changed.forPanel (Progress.changed old new) = true ↔
      Changed.forNotice (Progress.changed old new) = true ∨ old.permille ≠ new.permille ∨ old.delay ≠ new.delay := by
  simp only [Changed.forPanel, Bool.or_eq_true, or_assoc]
  simp only [Progress.changed, bne_iff_ne]

/-- What an event says where a condition holds. -/
theorem ite_singleton_sublist {α : Type} {c : Prop} [Decidable c] (x : α) : (if c then [x] else []).Sublist [x] := by
  split
  · exact List.Sublist.refl _
  · exact List.nil_sublist _

/-- One announcement to each of the three units at most. -/
theorem newsOf_sublist :
    (Progress.newsOf old new).Sublist [.reckoningAnnouncementResv (.progress (Progress.changed old new)),
      .reckoningAnnouncementNotice (.progress (Progress.changed old new)),
      .reckoningAnnouncementPanel (.progress (Progress.changed old new))] :=
  ((ite_singleton_sublist _).append (ite_singleton_sublist _)).append (ite_singleton_sublist _)

theorem newsOf_nodup : (Progress.newsOf old new).Nodup :=
  (newsOf_sublist old new).nodup (by simp)

theorem not_mem_activities {framed : Bool} {x : Instr} (h : x ≠ .activity) :
    x ∉ Progress.activities old new framed := by
  simp [Progress.activities, h]

/-- An instruction other than an activity stands only in the announcements of the record. -/
theorem mem_reckoningSays_iff {framed : Bool} {x : Instr} (h : x ≠ .activity) :
    x ∈ reckoningSays old new framed ↔ x ∈ Progress.newsOf old new := by
  rw [reckoningSays, List.mem_append, or_iff_left (not_mem_activities old new h)]

theorem count_reckoningSays_le {framed : Bool} {x : Instr} (h : x ≠ .activity) :
    (reckoningSays old new framed).count x ≤ 1 := by
  rw [reckoningSays, List.count_append, List.count_eq_zero.mpr (not_mem_activities old new h), Nat.add_zero]
  exact List.nodup_iff_count_le_one.mp (newsOf_nodup old new) x

theorem activity_mem_reckoningSays_iff (framed : Bool) :
    .activity ∈ reckoningSays old new framed ↔ (new.inForce ≠ none ∧ new.inForce ≠ old.inForce) ∨
      (new.state = .atStop ∧ old.state ≠ .atStop) ∨
      (framed = true ∧ new.door ≠ .closed ∧ old.door = .closed) := by
  simp [reckoningSays, Progress.newsOf, Progress.activities, Option.isSome_iff_ne_none, and_assoc]

end Announcements

/-- Settles O40. -/
theorem recordAnnouncements : Obligations.RecordAnnouncements := by
  intro old new framed
  dsimp only
  rw [← changed_forResv_iff, ← changed_forNotice_iff, ← changed_forPanel_iff]
  refine ⟨fun c => ?_, fun c => ?_, fun c => ?_, activity_mem_reckoningSays_iff old new framed,
    count_reckoningSays_le old new (by simp), count_reckoningSays_le old new (by simp),
    count_reckoningSays_le old new (by simp)⟩
  all_goals
    rw [mem_reckoningSays_iff old new (by simp)]
    simp [Progress.newsOf, and_comm]

/-! ### Recomputations (R99 to R101) -/

section Held

variable {t : TableStore} {r : ReckoningUnit} {f : LastFrame}

theorem ReckoningUnit.recomputeHeld_of_finished (h : stateOf (findOrdinals r.calling r.halting f) = .finished) :
    r.recomputeHeld t f = { r.progress with
      remembered := some .finished, d := some f.d, a := (findOrdinals r.calling r.halting f).a
      p := (findOrdinals r.calling r.halting f).p, n := none, h := none, remaining := 0, eta := none, permille := 0
      arrival := none, approach := none } := by
  rw [recomputeHeld, h]

theorem ReckoningUnit.recomputeHeld_of_atStop (h : stateOf (findOrdinals r.calling r.halting f) = .atStop) :
    r.recomputeHeld t f = { r.progress with
      remembered := some .atStop, d := some f.d, a := (findOrdinals r.calling r.halting f).a
      p := (findOrdinals r.calling r.halting f).p, n := (findOrdinals r.calling r.halting f).n, h := none
      remaining := t.distance f.a ((findOrdinals r.calling r.halting f).n.getD 0), eta := none, permille := 0
      arrival := arrivalOf t r.clock (findOrdinals r.calling r.halting f).n none f.delay, approach := none } := by
  rw [recomputeHeld, h]

/-- In HOLD an approach is kept, and none is entered (R101). -/
def ReckoningUnit.keepsApproach (r : ReckoningUnit) (f : LastFrame) : Bool :=
  r.progress.remembered == some .approaching &&
    r.progress.approach == approachTarget (findOrdinals r.calling r.halting f)

theorem ReckoningUnit.recomputeHeld_of_running (h : stateOf (findOrdinals r.calling r.halting f) = .running) :
    r.recomputeHeld t f = { r.progress with
      remembered := some (if r.keepsApproach f then .approaching else .running), d := some f.d, a := none
      p := (findOrdinals r.calling r.halting f).p, n := (findOrdinals r.calling r.halting f).n
      h := (findOrdinals r.calling r.halting f).h
      remaining := lessRun (t.distance f.d ((findOrdinals r.calling r.halting f).n.getD 0)) f.sRun, eta := none
      permille := permilleOf t (findOrdinals r.calling r.halting f) f.d f.sRun
      arrival := arrivalOf t r.clock (findOrdinals r.calling r.halting f).n none f.delay
      approach := if r.keepsApproach f then r.progress.approach else none } := by
  rw [recomputeHeld, h]
  rfl

/-- The record in HOLD holds the ordinals that R88 finds, and keeps what a frame alone gives. -/
theorem ReckoningUnit.recomputeHeld_keeps (t : TableStore) (r : ReckoningUnit) (f : LastFrame) :
    let q := r.recomputeHeld t f
    let o := findOrdinals r.calling r.halting f
    q.state = r.progress.state ∧ q.d = some f.d ∧ q.a = o.a ∧ q.p = o.p ∧ q.n = o.n ∧ q.eta = none ∧
      (q.vs = r.progress.vs ∧ q.sRun = r.progress.sRun ∧ q.delay = r.progress.delay ∧ q.door = r.progress.door) := by
  rcases stateOf_cases (findOrdinals r.calling r.halting f) with hs | hs | hs
  · simp [recomputeHeld_of_finished hs, (stateOf_eq_finished_iff _).1 hs]
  · simp [recomputeHeld_of_atStop hs]
  · simp [recomputeHeld_of_running hs, ((stateOf_eq_running_iff _).1 hs).2]

theorem ReckoningUnit.recomputeHeld_arrival {n : Nat} {e : RouteEntry}
    (hn : (findOrdinals r.calling r.halting f).n = some n) (he : t.entry n = some e) :
    (r.recomputeHeld t f).arrival = e.arrivalAsRead.map (fun m : Nat => (((m : Int) + f.delay) % 1440).toNat) := by
  rcases stateOf_cases (findOrdinals r.calling r.halting f) with hs | hs | hs
  · exact nomatch hn.symm.trans ((stateOf_eq_finished_iff _).1 hs)
  · rw [recomputeHeld_of_atStop hs, hn]
    exact arrivalOf_scheduled t (.inr rfl) he f.delay
  · rw [recomputeHeld_of_running hs, hn]
    exact arrivalOf_scheduled t (.inr rfl) he f.delay

theorem ReckoningUnit.recomputeHeld_approach :
    (r.recomputeHeld t f).approach =
      if (r.recomputeHeld t f).remembered = some .approaching then r.progress.approach else none := by
  rcases stateOf_cases (findOrdinals r.calling r.halting f) with hs | hs | hs
  · simp [recomputeHeld_of_finished hs]
  · simp [recomputeHeld_of_atStop hs]
  · rw [recomputeHeld_of_running hs]
    cases r.keepsApproach f <;> rfl

theorem ReckoningUnit.recomputeHeld_remembered_of_running {n : Nat}
    (hn : (findOrdinals r.calling r.halting f).n = some n) (ha : (findOrdinals r.calling r.halting f).a = none) :
    (r.recomputeHeld t f).remembered =
      if r.progress.remembered = some .approaching ∧
          r.progress.approach = approachTarget (findOrdinals r.calling r.halting f)
        then some .approaching else some .running := by
  rw [recomputeHeld_of_running ((stateOf_eq_running_iff _).mpr ⟨by simp [hn], ha⟩)]
  by_cases hkeep : r.keepsApproach f = true
  · have hboth := hkeep
    rw [keepsApproach, Bool.and_eq_true, beq_iff_eq, beq_iff_eq] at hboth
    rw [if_pos hboth, hkeep]
    rfl
  · have hnot := hkeep
    rw [keepsApproach, Bool.and_eq_true, beq_iff_eq, beq_iff_eq] at hnot
    rw [if_neg hnot, if_neg hkeep]

/-- Past the last calling stop (R88, R101). -/
theorem ReckoningUnit.recomputeHeld_last (hn : (findOrdinals r.calling r.halting f).n = none) :
    let q := r.recomputeHeld t f
    q.remembered = some .finished ∧ q.h = none ∧ q.remaining = 0 ∧ q.permille = 0 ∧ q.arrival = none := by
  rw [recomputeHeld_of_finished ((stateOf_eq_finished_iff _).mpr hn)]
  exact ⟨rfl, rfl, rfl, rfl, rfl⟩

/-- At a calling stop that is not the last (R88, R101). -/
theorem ReckoningUnit.recomputeHeld_stopped {n : Nat} (hn : (findOrdinals r.calling r.halting f).n = some n)
    (ha : (findOrdinals r.calling r.halting f).a ≠ none) :
    let q := r.recomputeHeld t f
    q.remembered = some .atStop ∧ q.h = none ∧ q.permille = 0 ∧ q.remaining = t.distance f.a n := by
  rw [recomputeHeld_of_atStop ((stateOf_eq_atStop_iff _).mpr ⟨by simp [hn], ha⟩), hn]
  exact ⟨rfl, rfl, rfl, rfl⟩

/-- Between calling stops (R88, R101). -/
theorem ReckoningUnit.recomputeHeld_underway {n : Nat} (hn : (findOrdinals r.calling r.halting f).n = some n)
    (ha : (findOrdinals r.calling r.halting f).a = none) :
    let q := r.recomputeHeld t f
    let o := findOrdinals r.calling r.halting f
    q.h = o.h ∧
      q.remembered = (if r.progress.remembered = some .approaching ∧ r.progress.approach = approachTarget o
        then some .approaching else some .running) ∧
      q.remaining = (max 0 ((t.distance f.d n : Int) - f.sRun)).toNat ∧
      (o.p = none → q.permille = 0) ∧
      (∀ p, o.p = some p → q.permille = min 999 ((t.distance p f.d + f.sRun) * 1000 / t.distance p n)) := by
  have hremembered := recomputeHeld_remembered_of_running (t := t) hn ha
  have hrecord := recomputeHeld_of_running (t := t) ((stateOf_eq_running_iff _).mpr ⟨by simp [hn], ha⟩)
  refine ⟨by rw [hrecord], hremembered, ?_, fun hp => ?_, fun p hp => ?_⟩
  · rw [hrecord, ← lessRun_eq_toNat, hn]
    rfl
  · rw [hrecord]
    exact permilleOf_of_none t hp _ _
  · rw [hrecord]
    exact permilleOf_of_some t hp hn _ _

end Held

theorem ReckoningUnit.recompute_of_none {t : TableStore} {r : ReckoningUnit} (h : r.lastFrame = none) :
    r.recompute t = r.progress.cleared (if t.route.active = [] then .noRoute else .awaitingPosition) := by
  rw [recompute, h]
  simp only [TableStore.entryCount, List.length_eq_zero_iff]

theorem ReckoningUnit.recompute_of_held {t : TableStore} {r : ReckoningUnit} {f : LastFrame} (h : r.lastFrame = some f)
    (hs : r.progress.state = .hold) : r.recompute t = r.recomputeHeld t f := by
  rw [recompute, h]
  exact if_pos hs

theorem ReckoningUnit.recompute_of_not_held {t : TableStore} {r : ReckoningUnit} {f : LastFrame} (h : r.lastFrame = some f)
    (hs : r.progress.state ≠ .hold) : r.recompute t = r.compute t f false := by
  rw [recompute, h]
  exact if_neg hs

/-- Settles O41. -/
theorem recomputations : Obligations.Recomputations := by
  refine ⟨fun portion s => ⟨_, rfl, rfl, rfl, fun hnone => ?none, fun f hf hs => ?out, fun f hf hs => ?held⟩,
    fun families s => ⟨_, rfl, rfl, rfl⟩⟩
  case none => exact ReckoningUnit.recompute_of_none hnone
  case out => exact ReckoningUnit.recompute_of_not_held hf hs
  case held =>
    intro q o
    have hq : q = ReckoningUnit.recomputeHeld s.tables.asReckoned
        { s.reck with portion := portion, calling := s.tables.asReckoned.callingSet portion
                      halting := s.tables.asReckoned.haltingSet } f := ReckoningUnit.recompute_of_held hf hs
    obtain ⟨hstate, hd, ha, hp, hn, heta, hkept⟩ := hq ▸ ReckoningUnit.recomputeHeld_keeps s.tables.asReckoned _ f
    refine ⟨hstate.trans hs, hd, ha, hp, hn, heta, hkept, fun hlast => ?_, fun n hnext hstop => ?_, fun n hnext hrun => ?_,
      fun n e hnext he => scheduled_cases (hq ▸ ReckoningUnit.recomputeHeld_arrival hnext he),
      hq ▸ ReckoningUnit.recomputeHeld_approach⟩
    · rw [hq]
      exact ReckoningUnit.recomputeHeld_last hlast
    · rw [hq]
      exact ReckoningUnit.recomputeHeld_stopped hnext hstop
    · rw [hq]
      exact ReckoningUnit.recomputeHeld_underway hnext hrun

/-! ### HOLD (R97) and the clock (R102, R104) -/

theorem ProgressState.counts_iff (x : ProgressState) : x.counts = true ↔ x ∈ [.atStop, .running, .approaching] := by
  cases x <;> decide

theorem exec_freshnessExpiry_of_counts {s : State} (h : s.reck.progress.state.counts = true) :
    exec .freshnessExpiry s = .next { s with
      reck := (s.reck.expire s.tables.asReckoned).unit
      announced := s.announced ++ (s.reck.expire s.tables.asReckoned).said } := if_pos h

theorem exec_freshnessExpiry_of_not_counts {s : State} (h : ¬ s.reck.progress.state.counts = true) :
    exec .freshnessExpiry s = .next s := if_neg h

theorem ReckoningUnit.held_arrival {t : TableStore} {r : ReckoningUnit} {f : LastFrame} (hf : r.lastFrame = some f)
    {n : Nat} {e : RouteEntry} (hn : r.progress.n = some n) (he : t.entry n = some e) :
    (r.held t).arrival = e.arrivalAsRead.map (fun m : Nat => (((m : Int) + f.delay) % 1440).toNat) := by
  rw [held, hn, hf]
  exact arrivalOf_scheduled t (.inr rfl) he f.delay

theorem Clock.news_of_valid (old : Clock) {new : Clock} (h : new.valid = true) :
    Clock.news old new =
      if old.valid = true ∧ old.seconds / 60 = new.seconds / 60 then [] else [.clockMinuteChange] := by
  by_cases hold : old.valid = true <;> simp [Clock.news, Clock.minute, h, hold]

theorem Clock.news_of_second (c : Clock) (seconds phase : Nat) :
    Clock.news c { c with seconds := seconds, phase := phase } =
      if c.seconds / 60 = seconds / 60 then [] else [.clockMinuteChange] := by
  simp [Clock.news, Clock.minute]

theorem exec_time_of_unsound {payload : List Byte} {s : State}
    (h : payload.length < 5 ∨ 86399 < wordAt payload 0 3 ∨ 999 < wordAt payload 3 2) :
    exec (.time payload) s = .next (s.taken (.time payload)) := if_pos h

theorem exec_time_of_sound {payload : List Byte} {s : State}
    (h : ¬ (payload.length < 5 ∨ 86399 < wordAt payload 0 3 ∨ 999 < wordAt payload 3 2)) :
    exec (.time payload) s = .next ((s.taken (.time payload)).setClock
      { seconds := wordAt payload 0 3, phase := wordAt payload 3 2, valid := true }) := if_neg h

theorem exec_clockSecond_of_powered {s : State} (h : s.powered = true) :
    exec .clockSecond s = .next
      (s.setClock { s.reck.clock with seconds := (s.reck.clock.seconds + 1) % 86400, phase := 0 }) := if_pos h

/-- The second of the day wraps at midnight (R102). -/
theorem second_wraps {seconds : Nat} (h : seconds ≤ 86399) :
    (seconds + 1) % 86400 = if seconds + 1 = 86400 then 0 else seconds + 1 := by
  split <;> omega

/-- Settles O42. -/
theorem holdAndClock : Obligations.HoldAndClock := by
  refine ⟨fun s => ⟨fun f hs hf => ?enter, fun hs => ?stay⟩, fun payload s => ⟨exec_time_of_unsound, fun h1 h2 h3 => ?time⟩,
    fun s hp => fun hsec => ?second⟩
  case enter =>
    refine ⟨_, exec_freshnessExpiry_of_counts ((ProgressState.counts_iff _).mpr hs), ?_, rfl, fun n e hn he => ?_⟩
    · dsimp only [ReckoningUnit.expire]
      rw [List.append_assoc]
    · exact scheduled_cases (ReckoningUnit.held_arrival hf hn he)
  case stay => exact exec_freshnessExpiry_of_not_counts ((ProgressState.counts_iff _).not.mpr hs)
  case time =>
    rw [exec_time_of_sound (by omega), State.setClock, Clock.news_of_valid _ rfl]
    rfl
  case second =>
    rw [exec_clockSecond_of_powered hp, State.setClock, Clock.news_of_second, second_wraps hsec]

end Sys2Proof.Machine
end

section
/-! PROOF. Reservations (chapter 6): the placement run and the events that resolve every seat (R109, R110, R112, R123, R125,
R126), and the content of a seat (R111, R118 to R122). -/

namespace Sys2Proof.Machine

/-! ### The decision for one record (R110) -/

section Place

variable {t : TableStore} {calling : List Nat} {before : Table Placement} {x : ResvRecord}

theorem place_of_disabled (h : 127 < x.slot ∨ enabledSlot t.seat.active x.slot = none) :
    place t calling before x = .unplaced .seatDisabled :=
  if_pos (h.symm.imp_left Option.isNone_iff_eq_none.mpr)

theorem place_of_enabled (hslot : x.slot ≤ 127) (hseat : enabledSlot t.seat.active x.slot ≠ none) :
    place t calling before x =
      (onRoute t calling x).elim (.unplaced .notOnRoute) (fun j =>
        if j.2 ≤ j.1 then .unplaced .order
        else if (chainOf before x.slot).any (fun e => spansOverlap j.1 j.2 e.b e.a) then .unplaced .overlap
        else .placed j.1 j.2) := by
  have hpass : ¬ ((enabledSlot t.seat.active x.slot).isNone = true ∨ 127 < x.slot) := by
    rw [Option.isNone_iff_eq_none]
    exact fun h => h.elim hseat (Nat.not_lt.mpr hslot)
  rw [place, if_neg hpass]
  cases onRoute t calling x <;> rfl

theorem onRoute_eq_none (h : ∀ b a, ¬ (t.lookup x.board = some b ∧ t.lookup x.alight = some a ∧ b ∈ calling ∧ a ∈ calling)) :
    onRoute t calling x = none :=
  Option.eq_none_iff_forall_ne_some.mpr fun j hj => h j.1 j.2 ((onRoute_eq_some_iff t calling x j.1 j.2).mp hj)

end Place

theorem placeAll_snoc (t : TableStore) (calling : List Nat) (pre : Table (List Byte)) (i : Nat) (bytes : List Byte) :
    placeAll t calling [] (pre ++ [(i, bytes)]) = placeAll t calling [] pre ++
      [(i, (resvRecord bytes).placement (place t calling (placeAll t calling [] pre) (resvRecord bytes)))] := by
  rw [placeAll_append]
  rfl

/-! ### The events that resolve every seat (R109, R112, R123) -/

theorem stale_iff (t : TableStore) (calling : List Nat) (u : ReservationUnit) :
    u.stale t calling = true ↔ u.basisCount ≠ t.route.count ∨ u.basisCalling ≠ calling := by
  rw [ReservationUnit.stale, Bool.or_eq_true, bne_iff_ne, bne_iff_ne]

theorem ReservationUnit.renew_placements (t : TableStore) (calling : List Nat) (u : ReservationUnit) :
    (u.renew t calling).placements =
      if u.basisCount ≠ t.route.count ∨ u.basisCalling ≠ calling then placeAll t calling [] t.resv.active
      else u.placements := by
  simp only [renew, ← stale_iff]
  split <;> rfl

theorem ReservationUnit.renew_contents (t : TableStore) (calling : List Nat) (u : ReservationUnit) :
    (u.renew t calling).contents = u.contents := by
  unfold renew
  split <;> rfl

/-- The unit whose seats an event resolves: the basis renewed, and a placement run made where the event asks for one. -/
def State.resvToResolve (s : State) (run : Bool) : ReservationUnit :=
  let u := s.resv.renew s.tables s.reck.calling
  if run then u.run s.tables s.reck.calling else u

theorem State.resvToResolve_placements (s : State) (run : Bool) :
    (s.resvToResolve run).placements =
      if run = true ∨ s.resv.basisCount ≠ s.tables.route.count ∨ s.resv.basisCalling ≠ s.reck.calling
      then placeAll s.tables s.reck.calling [] s.tables.resv.active else s.resv.placements := by
  cases run with
  | true => exact (if_pos (.inl rfl)).symm
  | false => simpa [resvToResolve] using ReservationUnit.renew_placements s.tables s.reck.calling s.resv

theorem State.resvToResolve_contents (s : State) (run : Bool) : (s.resvToResolve run).contents = s.resv.contents := by
  cases run <;> exact ReservationUnit.renew_contents s.tables s.reck.calling s.resv

theorem State.resvToResolve_basis (s : State) (run : Bool) :
    (s.resvToResolve run).basisCount = s.tables.route.count ∧ (s.resvToResolve run).basisCalling = s.reck.calling := by
  cases run with
  | true => exact ⟨rfl, rfl⟩
  | false => exact ReservationUnit.renew_basis s.tables s.reck.calling s.resv

theorem State.resolveSeats_eq (s : State) (run force : Bool) :
    s.resolveSeats run force = s.withResv ((s.resvToResolve run).resolveAll s force) := rfl

/-- The events that resolve every seat, with whether they make a placement run and whether they request every slot. -/
abbrev resolvesSeats (c : Instr) (run force : Bool) : Prop :=
  (c = .reckoningAnnouncementResv .sets ∧ run = true ∧ force = false) ∨
  (∃ x : Changed, c = .reckoningAnnouncementResv (.progress x) ∧ run = false ∧ force = false ∧
    (x.state ∨ x.remembered ∨ x.p ∨ x.n ∨ x.a ∨ x.approach)) ∨
  (∃ fs : FamilySet, c = .activationAnnouncementResv fs ∧ run = (fs.seat || fs.resv || fs.route) ∧
    force = (fs.seat || fs.text)) ∨
  (c = .portionChangeResv ∧ run = true ∧ force = false) ∨
  (c = .modeChangeResv ∧ run = false ∧ force = false) ∨
  (c = .horizonChange ∧ run = false ∧ force = false)

theorem exec_of_resolvesSeats {c : Instr} {s : State} {run force : Bool} (h : resolvesSeats c run force) :
    exec c s = .next ((s.taken c).resolveSeats run force) := by
  rcases h with ⟨rfl, rfl, rfl⟩ | ⟨x, rfl, rfl, rfl, hx⟩ | ⟨fs, rfl, rfl, rfl⟩ | ⟨rfl, rfl, rfl⟩ | ⟨rfl, rfl, rfl⟩ |
    ⟨rfl, rfl, rfl⟩
  · rfl
  · have hresv : Changed.forResv x = true := by
      simpa only [Changed.forResv, Bool.or_eq_true, or_assoc] using hx
    exact if_pos (.inl hresv)
  · rfl
  · rfl
  · rfl
  · rfl

/-- Settles O44. -/
theorem seatResolution : Obligations.SeatResolution := by
  refine ⟨fun t calling => ⟨rfl, fun pre i bytes => ?_⟩, fun c s run force hc hwf => ?_⟩
  · refine ⟨_, placeAll_snoc t calling pre i bytes, place_of_disabled, fun hslot hseat => ⟨fun hoff => ?_, fun b a hon => ?_⟩⟩
    · rw [place_of_enabled hslot hseat, onRoute_eq_none hoff, Option.elim_none]
    · rw [place_of_enabled hslot hseat, (onRoute_eq_some_iff _ _ _ b a).mpr hon, Option.elim_some]
      have hoverlap := overlaps_chainOf_iff (placeAll t calling [] pre) (resvRecord bytes).slot b a
      exact ⟨fun hle => if_pos hle, fun hlt htaken => by rw [if_neg (Nat.not_le.mpr hlt), if_pos (hoverlap.mpr htaken)],
        fun hlt hfree => by rw [if_neg (Nat.not_le.mpr hlt), if_neg (hoverlap.not.mpr hfree)]⟩
  · have hfind := find_allContents (s := s.taken c) (ps := ((s.taken c).resvToResolve run).placements) hwf
    refine ⟨_, exec_of_resolvesSeats hc, ?_, (s.taken c).resvToResolve_placements run,
      ((s.taken c).resvToResolve_basis run).1, ((s.taken c).resvToResolve_basis run).2, hfind.1, hfind.2⟩
    rw [State.resolveSeats_eq]
    simp only [State.withResv, ReservationUnit.resolveAll, (s.taken c).resvToResolve_contents run]
    rfl

/-! ### What a seat shows (R118 to R122) -/

/-- A chain entry covers the current segment start (R119). -/
abbrev coversStart (cur : Option Nat) (e : ChainEntry) : Prop := ∃ c0, cur = some c0 ∧ e.b ≤ c0 ∧ c0 < e.a

/-- A chain entry begins after the current segment start (R119). -/
abbrev beginsLater (cur : Option Nat) (e : ChainEntry) : Prop := ∀ c0, cur = some c0 → c0 < e.b

/-- No current segment start is known without a route, before a position, and in HOLD with nothing of use remembered. -/
theorem currentStart_eq_none_iff (r : Progress) (calling : List Nat) :
    currentStart r calling = none ↔ r.state ∈ [.noRoute, .awaitingPosition] ∨
      (r.state = .hold ∧ r.remembered ∉ [some .atStop, some .running, some .approaching, some .finished]) := by
  cases hs : r.state with
  | hold =>
    cases hr : r.remembered with
    | none => simp [currentStart, Progress.effective, hs, hr]
    | some x => cases x <;> simp [currentStart, Progress.effective, hs, hr]
  | _ => simp [currentStart, Progress.effective, hs]

theorem currentStart_of_effective {r : Progress} {calling : List Nat} {cur : Option Nat}
    (h : currentStart r calling = some cur) :
    let state := if r.state = .hold then r.remembered else some r.state
    (state = some .atStop → cur = r.a) ∧ (state = some .running ∨ state = some .approaching → cur = r.p) ∧
      (state = some .finished → ∀ m, cur = some m ↔ m ∈ calling ∧ ∀ y ∈ calling, y ≤ m) := by
  have heff : ∀ x, (if r.state = .hold then r.remembered else some r.state) = some x → r.effective = x := by
    intro x hx
    by_cases hs : r.state = .hold
    · rw [if_pos hs] at hx
      rw [Progress.effective, hs, hx]
      rfl
    · rw [if_neg hs] at hx
      cases hx
      cases hx : r.state <;> simp_all [Progress.effective]
  refine ⟨fun hx => ?_, fun hx => ?_, fun hx m => ?_⟩
  · rw [currentStart, heff _ hx] at h
    exact (Option.some.inj h).symm
  · rcases hx with hx | hx <;> rw [currentStart, heff _ hx] at h <;> exact (Option.some.inj h).symm
  · rw [currentStart, heff _ hx] at h
    rw [← Option.some.inj h]
    exact greatest_eq_some_iff calling m

section Verdict

variable {r : Progress} {calling : List Nat} {horizon : Nat} {cur : Option Nat} {chain pre post : List ChainEntry}
  {e : ChainEntry}

theorem find?_of_split {p : ChainEntry → Bool} {P : ChainEntry → Prop} (hp : ∀ y, p y = true ↔ P y)
    (hsplit : chain = pre ++ e :: post) (hpre : ∀ y ∈ pre, ¬ P y) (he : P e) : chain.find? p = some e :=
  List.find?_eq_some_iff_append.mpr ⟨(hp e).mpr he, pre, post, hsplit, fun y hy => by simpa [← hp] using hpre y hy⟩

theorem find?_none_of_forall {p : ChainEntry → Bool} {P : ChainEntry → Prop} (hp : ∀ y, p y = true ↔ P y)
    (hnone : ∀ y ∈ chain, ¬ P y) : chain.find? p = none :=
  List.find?_eq_none.mpr fun y hy => (hp y).not.mpr (hnone y hy)

/-- The record that occupies the seat (R119). -/
theorem covering_of_split (hsplit : chain = pre ++ e :: post) (hpre : ∀ y ∈ pre, ¬ coversStart cur y)
    (he : coversStart cur e) : cur.bind (fun c => chain.find? (fun x => decide (x.b ≤ c ∧ c < x.a))) = some e := by
  obtain ⟨c0, rfl, hb, ha⟩ := he
  exact find?_of_split (fun y => decide_eq_true_iff) hsplit (fun y hy h => hpre y hy ⟨c0, rfl, h⟩) ⟨hb, ha⟩

theorem covering_eq_none (h : ∀ y ∈ chain, ¬ coversStart cur y) :
    cur.bind (fun c => chain.find? (fun x => decide (x.b ≤ c ∧ c < x.a))) = none := by
  cases cur with
  | none => rfl
  | some c0 => exact find?_none_of_forall (fun y => decide_eq_true_iff) fun y hy hc => h y hy ⟨c0, rfl, hc⟩

theorem seatVerdict_of_covering (h : cur.bind (fun c => chain.find? (fun x => decide (x.b ≤ c ∧ c < x.a))) = some e) :
    seatVerdict r calling horizon cur chain =
      if r.inForce.map (·.kind) = some .calling ∧ r.n = some e.a then
        (chain.find? (fun y => y.b == e.a)).elim ⟨.amber, 3, some e.a, e.note⟩ (fun y => ⟨.red, 1, some y.a, y.note⟩)
      else ⟨.red, 1, some e.a, e.note⟩ := by
  simp only [seatVerdict, h]
  cases chain.find? (fun y => y.b == e.a) <;> rfl

theorem seatVerdict_of_free (h : ∀ y ∈ chain, ¬ coversStart cur y) :
    seatVerdict r calling horizon cur chain =
      (chain.find? (fun y => cur.all (fun c => decide (c < y.b)))).elim ⟨.green, 0, none, 0⟩ (fun y =>
        if y.b ∈ horizonStops calling cur r.n horizon then ⟨.amber, 2, some y.b, y.note⟩ else ⟨.green, 0, none, 0⟩) := by
  simp only [seatVerdict, covering_eq_none h]
  cases cur with
  | none => cases hfind : chain.find? (fun _ => true) <;> simp [hfind]
  | some c0 => cases hfind : chain.find? (fun y => decide (c0 < y.b)) <;> simp [hfind]

theorem beginsLater_iff (y : ChainEntry) : cur.all (fun c => decide (c < y.b)) = true ↔ beginsLater cur y := by
  cases cur <;> simp [beginsLater]

end Verdict

/-- The content that a verdict gives a seat (R119, R121, R122). -/
abbrev verdictContent (s : State) (seat : SeatSlot) (v : SeatVerdict) : SeatContent :=
  { lamp := v.lamp, dim := s.mgmt.mode == .quiet, label := seat.label, lineA := (s.tables.string v.textId).take 12
    lineB := ((v.stop.map s.tables.shortName).getD []).take 12, icon := if seat.icon && v.lamp != .green then v.note else 0 }

section Resolve

variable {s : State} {ps : Table Placement} {slot : Nat} {seat : SeatSlot}

theorem resolveSlot_eq_none_iff :
    resolveSlot s ps slot seat = none ↔
      s.mgmt.mode.dark = true ∨ currentStart s.reck.progress s.reck.calling = none := by
  unfold resolveSlot
  split
  case isTrue h => simp [h]
  case isFalse h => cases currentStart s.reck.progress s.reck.calling <;> simp [h]

theorem resolveSlot_eq_some {c : SeatContent} (h : resolveSlot s ps slot seat = some c) :
    ∃ cur, currentStart s.reck.progress s.reck.calling = some cur ∧
      c = verdictContent s seat
        (seatVerdict s.reck.progress s.reck.calling s.mgmt.params.horizon cur (chainOf ps slot)) := by
  unfold resolveSlot at h
  split at h
  case isTrue => cases h
  case isFalse =>
    cases hcur : currentStart s.reck.progress s.reck.calling with
    | none => rw [hcur] at h; cases h
    | some cur =>
      rw [hcur] at h
      exact ⟨cur, rfl, (Option.some.inj h).symm⟩

end Resolve

theorem verdictContent_red (s : State) (seat : SeatSlot) (textId stop note : Nat) :
    verdictContent s seat ⟨.red, textId, some stop, note⟩ =
      { lamp := .red, dim := s.mgmt.mode == .quiet, label := seat.label, lineA := (s.tables.string textId).take 12
        lineB := (s.tables.shortName stop).take 12, icon := if seat.icon = true then note else 0 } := by
  cases h : seat.icon <;> simp [verdictContent, h]

theorem verdictContent_amber (s : State) (seat : SeatSlot) (textId stop note : Nat) :
    verdictContent s seat ⟨.amber, textId, some stop, note⟩ =
      { lamp := .amber, dim := s.mgmt.mode == .quiet, label := seat.label, lineA := (s.tables.string textId).take 12
        lineB := (s.tables.shortName stop).take 12, icon := if seat.icon = true then note else 0 } := by
  cases h : seat.icon <;> simp [verdictContent, h]

/-- A free seat shows its label alone. -/
theorem verdictContent_green (s : State) (seat : SeatSlot) :
    verdictContent s seat ⟨.green, 0, none, 0⟩ =
      { lamp := .green, dim := s.mgmt.mode == .quiet, label := seat.label, lineA := List.take 12 []
        lineB := List.take 12 [], icon := if seat.icon = true then 0 else 0 } := by
  simp [verdictContent, TableStore.string]

/-- Settles O45. -/
theorem seatLamps : Obligations.SeatLamps := by
  intro s ps slot x
  refine ⟨⟨fun e => mem_chainOf, chainOf_sorted ps slot⟩, ?blank, fun c hc => ?lamps⟩
  case blank => rw [resolveSlot_eq_none_iff, Mode.dark_iff, currentStart_eq_none_iff]
  case lamps =>
    obtain ⟨cur, hcur, rfl⟩ := resolveSlot_eq_some hc
    obtain ⟨hstop, hrun, hfin⟩ := currentStart_of_effective hcur
    refine ⟨cur, hstop, hrun, hfin, fun pre e post hsplit hpre he => ?covered, fun hfree => ?free⟩
    case covered =>
      have hcover := covering_of_split hsplit hpre he
      have hmem : e ∈ chainOf ps slot := by rw [hsplit]; simp
      obtain ⟨p, hp, hslot, hplaced, -⟩ := mem_chainOf.mp hmem
      refine ⟨⟨p, hp, hslot, hplaced⟩, fun hplain => ?_, fun hpreview pre y post hsplit' hpre' hy => ?_,
        fun hpreview hnone => ?_⟩
      · rw [seatVerdict_of_covering hcover, if_neg hplain]
        exact verdictContent_red s x 1 e.a e.note
      · rw [seatVerdict_of_covering hcover, if_pos hpreview, find?_of_split (fun _ => beq_iff_eq) hsplit' hpre' hy]
        exact verdictContent_red s x 1 y.a y.note
      · rw [seatVerdict_of_covering hcover, if_pos hpreview, find?_none_of_forall (fun _ => beq_iff_eq) hnone]
        exact verdictContent_amber s x 3 e.a e.note
    case free =>
      refine ⟨fun pre y post hsplit hpre hy => ⟨fun hnear => ?_, fun hfar => ?_⟩, fun hnone => ?_⟩
      · rw [seatVerdict_of_free hfree, find?_of_split beginsLater_iff hsplit hpre hy, Option.elim_some,
          if_pos (show y.b ∈ horizonStops _ cur _ _ from hnear)]
        exact verdictContent_amber s x 2 y.b y.note
      · rw [seatVerdict_of_free hfree, find?_of_split beginsLater_iff hsplit hpre hy, Option.elim_some,
          if_neg (show y.b ∉ horizonStops _ cur _ _ from hfar)]
        exact verdictContent_green s x
      · rw [seatVerdict_of_free hfree, find?_none_of_forall beginsLater_iff hnone, Option.elim_none]
        exact verdictContent_green s x

end Sys2Proof.Machine
end

section
/-! PROOF. Live edits (chapter 6, 6.4): the renewal that comes first (R109, R112), RESV_ADD's tests and its accepted edit
(R114, R115), and RESV_DROP (R116). -/

namespace Sys2Proof.Machine

/-! ### The renewal (R109, R112, R117) -/

theorem outdated_iff (s : State) (u : ReservationUnit) :
    u.outdated s.tables s.reck.calling = true ↔
      u.basisCount ≠ s.tables.route.count ∨ u.basisCalling ≠ s.reck.calling ∨ u.basisSeat ≠ s.tables.seat.count ∨
        u.basisResv ≠ s.tables.resv.count := by
  simp only [ReservationUnit.outdated, Bool.or_eq_true, stale_iff, bne_iff_ne, or_assoc]

theorem ReservationUnit.forEdit_of_current {s : State} {u : ReservationUnit}
    (h : ¬ u.outdated s.tables s.reck.calling = true) : u.forEdit s = Did.nothing u := if_neg h

theorem ReservationUnit.forEdit_of_outdated {s : State} {u : ReservationUnit}
    (h : u.outdated s.tables s.reck.calling = true) :
    u.forEdit s = ReservationUnit.resolveAll s false (u.run s.tables s.reck.calling) := if_pos h

/-! ### An edited table, read at an index -/

theorem Table.find_set_at {α : Type} (t : Table α) (i : Nat) (v : α) (j : Nat) :
    Table.find (Table.set t i v) j = if j = i then some v else Table.find t j := by
  rw [Table.find_set]
  exact if_congr eq_comm rfl rfl

theorem Table.find_erase_at {α : Type} (t : Table α) (i j : Nat) :
    Table.find (Table.erase t i) j = if j = i then none else Table.find t j := by
  rw [Table.find_erase]
  exact if_congr eq_comm rfl rfl

/-! ### The tests of RESV_ADD (R114) -/

section Tests

variable {t : TableStore} {calling : List Nat} {u : ReservationUnit} {x : ResvRecord}

theorem resvAddTest_eq :
    resvAddTest t calling u x =
      if x.id = 0 then .inl .invalid
      else if ∃ e ∈ t.resv.active, (resvRecord e.2).id = x.id then .inl .duplicate
      else if 512 ≤ t.resv.active.length then .inl .full
      else if 127 < x.slot ∨ enabledSlot t.seat.active x.slot = none then .inl .invalid
      else if x.board = x.alight then .inl .invalid
      else (onRoute t calling x).elim (.inl .notOnRoute) (fun j =>
        if j.2 < j.1 then .inl .notOnRoute
        else if (chainOf u.placements x.slot).any (fun e => spansOverlap j.1 j.2 e.b e.a) then .inl .overlap
        else .inr j) := by
  simp only [resvAddTest, List.any_eq_true, beq_iff_eq, Option.isNone_iff_eq_none]
  cases onRoute t calling x <;> rfl

/-- The tests that do not read the route are passed (R114). -/
abbrev soundForAdd (t : TableStore) (x : ResvRecord) : Prop :=
  ¬ x.id = 0 ∧ (¬ ∃ e ∈ t.resv.active, (resvRecord e.2).id = x.id) ∧ ¬ 512 ≤ t.resv.active.length ∧
    ¬ (127 < x.slot ∨ enabledSlot t.seat.active x.slot = none) ∧ ¬ x.board = x.alight

theorem resvAddTest_of_sound (h : soundForAdd t x) :
    resvAddTest t calling u x = (onRoute t calling x).elim (.inl .notOnRoute) (fun j =>
      if j.2 < j.1 then .inl .notOnRoute
      else if (chainOf u.placements x.slot).any (fun e => spansOverlap j.1 j.2 e.b e.a) then .inl .overlap
      else .inr j) := by
  obtain ⟨h1, h2, h3, h4, h5⟩ := h
  rw [resvAddTest_eq, if_neg h1, if_neg h2, if_neg h3, if_neg h4, if_neg h5]

/-- Both stops of a record stand on the route and in the calling set. -/
abbrev isJourney (t : TableStore) (calling : List Nat) (x : ResvRecord) (b a : Nat) : Prop :=
  t.lookup x.board = some b ∧ t.lookup x.alight = some a ∧ b ∈ calling ∧ a ∈ calling

theorem resvAddTest_of_off_route (h : soundForAdd t x) (hoff : ¬ ∃ b a, isJourney t calling x b a ∧ b ≤ a) :
    resvAddTest t calling u x = .inl .notOnRoute := by
  rw [resvAddTest_of_sound h]
  cases hj : onRoute t calling x with
  | none => rfl
  | some j =>
    have hlt : j.2 < j.1 :=
      Nat.lt_of_not_le fun hle => hoff ⟨j.1, j.2, (onRoute_eq_some_iff t calling x j.1 j.2).mp hj, hle⟩
    rw [Option.elim_some, if_pos hlt]

theorem resvAddTest_of_journey (h : soundForAdd t x) {b a : Nat} (hj : isJourney t calling x b a) (hle : b ≤ a) :
    resvAddTest t calling u x =
      if (chainOf u.placements x.slot).any (fun e => spansOverlap b a e.b e.a) then .inl .overlap else .inr (b, a) := by
  rw [resvAddTest_of_sound h, (onRoute_eq_some_iff t calling x b a).mpr hj, Option.elim_some,
    if_neg (Nat.not_lt.mpr hle)]

theorem isJourney_unique {b a b' a' : Nat} (h : isJourney t calling x b a) (h' : isJourney t calling x b' a') :
    b = b' ∧ a = a' := by
  have heq : some (b, a) = some (b', a') :=
    ((onRoute_eq_some_iff t calling x b a).mpr h).symm.trans ((onRoute_eq_some_iff t calling x b' a').mpr h')
  simpa using heq

end Tests

/-! ### The state an accepted edit leaves (R115, R116) -/

/-- The state with the RESV bank edited, the renewal made. -/
def State.withRecords (s : State) (bank : Table (List Byte)) : State :=
  { s.withResv (s.resv.forEdit s) with tables := { s.tables with resv := { s.tables.resv with active := bank } } }

/-- The unit with the placements edited, the renewal made. -/
def State.unitPlacing (s : State) (ps : Table Placement) : ReservationUnit :=
  { (s.resv.forEdit s).unit with placements := ps }

/-- The state after a live edit and the resolution of its slot. -/
def State.edited (s : State) (bank : Table (List Byte)) (ps : Table Placement) (slot : Nat) : State :=
  (s.withRecords bank).withResv ((s.unitPlacing ps).resolveOne (s.withRecords bank) slot)

section Edited

variable {s : State} {bank : Table (List Byte)} {ps : Table Placement} {slot : Nat}

theorem ReservationUnit.resolveOne_of_disabled {T : State} {V : ReservationUnit}
    (h : enabledSlot T.tables.seat.active slot = none) : V.resolveOne T slot = Did.nothing V := by
  rw [ReservationUnit.resolveOne, h]

theorem State.edited_of_disabled (h : enabledSlot s.tables.seat.active slot = none) :
    s.edited bank ps slot = { s.withRecords bank with resv := s.unitPlacing ps } := by
  rw [State.edited, ReservationUnit.resolveOne_of_disabled (T := s.withRecords bank) h]
  simp only [State.withResv, Did.nothing, List.append_nil]

/-- An edit leaves the bank and the placements edited, the content of the slot renewed, and its queue request. -/
theorem State.edited_eq (s : State) (bank : Table (List Byte)) (ps : Table Placement) (slot : Nat) :
    s.edited bank ps slot = { s with
      tables := { s.tables with resv := { s.tables.resv with active := bank } }
      resv := { (s.resv.forEdit s).unit with placements := ps, contents := (s.edited bank ps slot).resv.contents }
      announced := s.announced ++ (s.resv.forEdit s).said ++
        (if Table.find (s.edited bank ps slot).resv.contents slot = Table.find (s.resv.forEdit s).unit.contents slot then []
         else [.queueRequest slot]) } := by
  cases hseat : enabledSlot s.tables.seat.active slot with
  | none =>
    rw [State.edited_of_disabled hseat]
    simp only [State.unitPlacing, if_true, List.append_nil]
    rfl
  | some seat =>
    obtain ⟨hstate, -, -⟩ := State.withResv_resolveOne (s.withRecords bank) (s.unitPlacing ps) (seat := seat) hseat
    exact hstate

theorem State.edited_placements (s : State) (bank : Table (List Byte)) (ps : Table Placement) (slot : Nat) :
    (s.edited bank ps slot).resv.placements = ps := by
  rw [State.edited_eq]

theorem State.edited_bank (s : State) (bank : Table (List Byte)) (ps : Table Placement) (slot : Nat) :
    (s.edited bank ps slot).tables.resv.active = bank := by
  rw [State.edited_eq]

theorem State.edited_contents {seat : SeatSlot} (h : enabledSlot s.tables.seat.active slot = some seat) (j : Nat) :
    Table.find (s.edited bank ps slot).resv.contents j =
      if j = slot then resolveSlot s ps slot seat else Table.find (s.resv.forEdit s).unit.contents j := by
  obtain ⟨-, hcontents, -⟩ := State.withResv_resolveOne (s.withRecords bank) (s.unitPlacing ps) (seat := seat) h
  exact hcontents j

theorem State.edited_contents_of_disabled (h : enabledSlot s.tables.seat.active slot = none) :
    (s.edited bank ps slot).resv.contents = (s.resv.forEdit s).unit.contents := by
  rw [State.edited_of_disabled h]
  rfl

end Edited

/-! ### RESV_ADD (R114, R115) -/

section ResvAdd

variable {f : MgmtFrame} {s : State}

theorem State.resvAdd_of_refused {args : List Byte} {r : Result}
    (h : resvAddTest s.tables s.reck.calling (s.resv.forEdit s).unit (resvRecord args) = .inl r) :
    s.resvAdd args = refuse (s.withResv (s.resv.forEdit s)) r := by
  unfold State.resvAdd
  simp only [State.withResv_resv, h]

theorem State.resvAdd_of_passed {args : List Byte} {b a : Nat}
    (h : resvAddTest s.tables s.reck.calling (s.resv.forEdit s).unit (resvRecord args) = .inr (b, a)) :
    s.resvAdd args =
      ⟨s.edited (Table.set s.tables.resv.active (Table.lowestFree s.tables.resv.active 0) args)
        (Table.set (s.resv.forEdit s).unit.placements (Table.lowestFree s.tables.resv.active 0)
          ((resvRecord args).placement (.placed b a))) (resvRecord args).slot, .ok,
        .resvAdded (Table.lowestFree s.tables.resv.active 0) b a s.stagedResv⟩ := by
  unfold State.resvAdd
  simp only [State.withResv_resv, h]
  rfl

theorem exec_resvAdd_of_length (hmode : s.mgmt.mode ≠ .restartPending) (hlen : f.args.length = 10) :
    exec (.resvAdd f) s = ((s.taken (.resvAdd f)).resvAdd f.args).send 11 f :=
  State.command_of_fixedLength _ (fun h => absurd h hmode) rfl hlen

theorem exec_resvAdd_of_refused (hmode : s.mgmt.mode ≠ .restartPending) (hlen : f.args.length = 10) {r : Result}
    (h : resvAddTest s.tables s.reck.calling (s.resv.forEdit s).unit (resvRecord f.args) = .inl r) :
    exec (.resvAdd f) s = .next (State.reply { s with
      resv := (s.resv.forEdit s).unit
      announced := s.announced.erase (.resvAdd f) ++ (s.resv.forEdit s).said } f.port f.seq 11 r .none) := by
  rw [exec_resvAdd_of_length hmode hlen, State.resvAdd_of_refused (s := s.taken _) h]
  rfl

theorem exec_resvAdd_of_passed (hmode : s.mgmt.mode ≠ .restartPending) (hlen : f.args.length = 10) {b a : Nat}
    (h : resvAddTest s.tables s.reck.calling (s.resv.forEdit s).unit (resvRecord f.args) = .inr (b, a)) :
    exec (.resvAdd f) s = .next (State.reply
      ((s.taken (.resvAdd f)).edited (Table.set s.tables.resv.active (Table.lowestFree s.tables.resv.active 0) f.args)
        (Table.set (s.resv.forEdit s).unit.placements (Table.lowestFree s.tables.resv.active 0)
          ((resvRecord f.args).placement (.placed b a))) (resvRecord f.args).slot) f.port f.seq 11 .ok
        (.resvAdded (Table.lowestFree s.tables.resv.active 0) b a s.stagedResv)) := by
  rw [exec_resvAdd_of_length hmode hlen, State.resvAdd_of_passed (s := s.taken _) h]
  rfl

end ResvAdd

/-! ### RESV_DROP (R116) -/

section ResvDrop

variable {f : MgmtFrame} {s : State} {args : List Byte} {i : Nat} {bytes : List Byte}

theorem State.resvDrop_of_missing
    (h : s.tables.resv.active.find? (fun e => (resvRecord e.2).id == wordAt args 0 4) = none) :
    s.resvDrop args = refuse (s.withResv (s.resv.forEdit s)) .notFound := by
  unfold State.resvDrop
  simp only [h]

theorem State.resvDrop_of_unplaced
    (h : s.tables.resv.active.find? (fun e => (resvRecord e.2).id == wordAt args 0 4) = some (i, bytes))
    {reason : UnplacedReason}
    (hp : (Table.find (s.resv.forEdit s).unit.placements i).map Placement.outcome = some (.unplaced reason)) :
    s.resvDrop args =
      ⟨{ s.withRecords (Table.erase s.tables.resv.active i) with
          resv := s.unitPlacing (Table.erase (s.resv.forEdit s).unit.placements i) }, .ok,
        .resvDropped (some reason) s.stagedResv⟩ := by
  unfold State.resvDrop
  simp only [h, State.withResv_resv, hp]
  rfl

theorem State.resvDrop_of_not_unplaced
    (h : s.tables.resv.active.find? (fun e => (resvRecord e.2).id == wordAt args 0 4) = some (i, bytes))
    (hp : ∀ y, (Table.find (s.resv.forEdit s).unit.placements i).map Placement.outcome ≠ some (.unplaced y)) :
    s.resvDrop args =
      ⟨s.edited (Table.erase s.tables.resv.active i) (Table.erase (s.resv.forEdit s).unit.placements i)
        (resvRecord bytes).slot, .ok, .resvDropped none s.stagedResv⟩ := by
  unfold State.resvDrop
  simp only [h, State.withResv_resv]
  rfl

theorem exec_resvDrop_of_length (hmode : s.mgmt.mode ≠ .restartPending) (hlen : f.args.length = 4) :
    exec (.resvDrop f) s = ((s.taken (.resvDrop f)).resvDrop f.args).send 12 f :=
  State.command_of_fixedLength _ (fun h => absurd h hmode) rfl hlen

theorem exec_resvDrop_of_unplaced (hmode : s.mgmt.mode ≠ .restartPending) (hlen : f.args.length = 4)
    (h : s.tables.resv.active.find? (fun e => (resvRecord e.2).id == wordAt f.args 0 4) = some (i, bytes))
    {reason : UnplacedReason}
    (hp : (Table.find (s.resv.forEdit s).unit.placements i).map Placement.outcome = some (.unplaced reason)) :
    exec (.resvDrop f) s = .next (State.reply
      { (s.taken (.resvDrop f)).withRecords (Table.erase s.tables.resv.active i) with
        resv := s.unitPlacing (Table.erase (s.resv.forEdit s).unit.placements i) } f.port f.seq 12 .ok
        (.resvDropped (some reason) s.stagedResv)) := by
  rw [exec_resvDrop_of_length hmode hlen, State.resvDrop_of_unplaced (s := s.taken _) h hp]
  rfl

theorem exec_resvDrop_of_not_unplaced (hmode : s.mgmt.mode ≠ .restartPending) (hlen : f.args.length = 4)
    (h : s.tables.resv.active.find? (fun e => (resvRecord e.2).id == wordAt f.args 0 4) = some (i, bytes))
    (hp : ∀ y, (Table.find (s.resv.forEdit s).unit.placements i).map Placement.outcome ≠ some (.unplaced y)) :
    exec (.resvDrop f) s = .next (State.reply
      ((s.taken (.resvDrop f)).edited (Table.erase s.tables.resv.active i)
        (Table.erase (s.resv.forEdit s).unit.placements i) (resvRecord bytes).slot) f.port f.seq 12 .ok
        (.resvDropped none s.stagedResv)) := by
  rw [exec_resvDrop_of_length hmode hlen, State.resvDrop_of_not_unplaced (s := s.taken _) h hp]
  rfl

theorem find_of_split {P : Nat × List Byte → Bool} {bank pre post : Table (List Byte)} (hsplit : bank = pre ++ (i, bytes) :: post)
    (hpre : ∀ e ∈ pre, ¬ P e = true) (hi : P (i, bytes) = true) : bank.find? P = some (i, bytes) :=
  List.find?_eq_some_iff_append.mpr ⟨hi, pre, post, hsplit, fun e he => by simpa using hpre e he⟩

/-- The count after an unplaced record has left (R109, R116). -/
theorem unplacedCount_erase_unplaced {ps : Table Placement} (hwf : Table.wf ps) {y : UnplacedReason}
    (h : (Table.find ps i).map Placement.outcome = some (.unplaced y)) :
    unplacedCount (Table.erase ps i) + 1 = unplacedCount ps := by
  obtain ⟨p, hp, hy⟩ := Option.map_eq_some_iff.mp h
  rw [unplacedCount_erase hwf i p hp]
  simp [unplacedCount, hy]

theorem unplacedCount_erase_placed {ps : Table Placement} (hwf : Table.wf ps) {b a : Nat}
    (h : (Table.find ps i).map Placement.outcome = some (.placed b a)) :
    unplacedCount (Table.erase ps i) = unplacedCount ps := by
  obtain ⟨p, hp, hplaced⟩ := Option.map_eq_some_iff.mp h
  rw [unplacedCount_erase hwf i p hp]
  simp [unplacedCount, hplaced]

/-- A dropped record that was not placed: no content changes, and nothing is requested. -/
theorem State.edited_unresolved (s : State) (bank : Table (List Byte)) (ps : Table Placement) (slot : Nat) :
    { s.withRecords bank with resv := s.unitPlacing ps } = { s with
      tables := { s.tables with resv := { s.tables.resv with active := bank } }
      resv := { (s.resv.forEdit s).unit with placements := ps, contents := (s.resv.forEdit s).unit.contents }
      announced := s.announced ++ (s.resv.forEdit s).said ++
        (if Table.find (s.resv.forEdit s).unit.contents slot = Table.find (s.resv.forEdit s).unit.contents slot then []
         else [.queueRequest slot]) } := by
  rw [if_pos rfl, List.append_nil]
  rfl

end ResvDrop

/-- Settles O46. -/
theorem liveEdits : Obligations.LiveEdits := by
  intro f s hmode old u said staged outdated
  have houtdated : outdated ↔ s.resv.outdated s.tables s.reck.calling = true := (outdated_iff s s.resv).symm
  refine ⟨fun hcur => ?current, fun hout => ?renewed, fun hlen => ?add, fun hlen => ?drop⟩
  case current =>
    have hedit := ReservationUnit.forEdit_of_current (houtdated.not.mp hcur)
    exact ⟨congrArg Did.unit hedit, congrArg Did.said hedit⟩
  case renewed =>
    have hedit := ReservationUnit.forEdit_of_outdated (houtdated.mp hout)
    simp only [u, said, hedit]
    exact ⟨rfl, fun hwf => find_allContents hwf, rfl⟩
  case add =>
    intro x journey bad1 bad2 bad3 bad4 bad5 bad6 bad7 refused
    have href {r : Result} (h : resvAddTest s.tables s.reck.calling u x = .inl r) : refused r :=
      exec_resvAdd_of_refused hmode hlen h
    refine ⟨fun h1 => href ?_, fun h1 h2 => href ?_, fun h1 h2 h3 => href ?_, fun h1 h2 h3 h4 => href ?_,
      fun h1 h2 h3 h4 h5 => href ?_, fun h1 h2 h3 h4 h5 h6 => href ?_, fun h1 h2 h3 h4 h5 h6 h7 => href ?_,
      fun h1 h2 h3 h5 h6 h7 hwf b a seat hj hseat hslot => ?_⟩
    · rw [resvAddTest_eq, if_pos h1]
    · rw [resvAddTest_eq, if_neg h1, if_pos h2]
    · rw [resvAddTest_eq, if_neg h1, if_neg h2, if_pos h3]
    · rw [resvAddTest_eq, if_neg h1, if_neg h2, if_neg h3, if_pos h4]
    · rw [resvAddTest_eq, if_neg h1, if_neg h2, if_neg h3, if_neg h4, if_pos h5]
    · exact resvAddTest_of_off_route ⟨h1, h2, h3, h4, h5⟩ h6
    · obtain ⟨b, a, hj, hle⟩ := not_not.mp h6
      obtain ⟨b', a', hj', hoverlap⟩ := h7
      obtain ⟨rfl, rfl⟩ := isJourney_unique hj hj'
      rw [resvAddTest_of_journey ⟨h1, h2, h3, h4, h5⟩ hj hle, if_pos ((overlaps_chainOf_iff _ _ _ _).mpr hoverlap)]
    · obtain ⟨b', a', hj', hle⟩ := not_not.mp h6
      obtain ⟨rfl, rfl⟩ := isJourney_unique hj hj'
      have h4 : ¬ bad4 := fun h4 => h4.elim (Nat.not_lt.mpr hslot) fun hnone => nomatch hseat.symm.trans hnone
      have htest : resvAddTest s.tables s.reck.calling u x = .inr (b, a) := by
        rw [resvAddTest_of_journey ⟨h1, h2, h3, h4, h5⟩ hj hle,
          if_neg ((overlaps_chainOf_iff _ _ _ _).not.mpr fun hoverlap => h7 ⟨b, a, hj, hoverlap⟩)]
      obtain ⟨-, hfree, hbelow, -⟩ := Table.lowestFree_spec hwf 0 fun _ _ => Nat.zero_le _
      refine ⟨_, _, exec_resvAdd_of_passed hmode hlen htest, ?_, hfree,
        fun j hj => Option.isSome_iff_ne_none.mp (hbelow j (Nat.zero_le j) hj),
        fun j => ?_, fun j => ?_, fun j => ?_⟩
      · rw [State.edited_bank, State.edited_placements]
        exact State.edited_eq _ _ _ _
      · rw [State.edited_bank]
        exact Table.find_set_at _ _ _ j
      · rw [State.edited_placements]
        exact Table.find_set_at _ _ _ j
      · rw [State.edited_placements]
        exact State.edited_contents (s := s.taken (.resvAdd f)) hseat j
  case drop =>
    refine ⟨fun hmissing => ?missing, fun pre i bytes post hsplit hpre hid => ?found⟩
    case missing =>
      have hnone : s.tables.resv.active.find? (fun e => (resvRecord e.2).id == wordAt f.args 0 4) = none :=
        List.find?_eq_none.mpr fun e he => beq_iff_eq.not.mpr (hmissing e he)
      rw [exec_resvDrop_of_length hmode hlen, State.resvDrop_of_missing (s := s.taken _) hnone]
      rfl
    case found =>
      intro slot
      have hfind := find_of_split (P := fun e => (resvRecord e.2).id == wordAt f.args 0 4) hsplit
        (fun e he => beq_iff_eq.not.mpr (hpre e he)) (beq_iff_eq.mpr hid)
      by_cases hunplaced : ∃ y, (Table.find u.placements i).map Placement.outcome = some (.unplaced y)
      case pos =>
        obtain ⟨y, hy⟩ := hunplaced
        refine ⟨_, _, exec_resvDrop_of_unplaced hmode hlen hfind hy,
          State.edited_unresolved (s.taken (.resvDrop f)) _ _ slot, fun j => Table.find_erase_at _ _ j,
          fun j => Table.find_erase_at _ _ j, fun y' hy' => ?_, fun b a hplaced => nomatch hy.symm.trans hplaced⟩
        obtain rfl : y = y' := by simpa using hy.symm.trans hy'
        exact ⟨rfl, rfl, fun hwf => unplacedCount_erase_unplaced hwf hy⟩
      case neg =>
        refine ⟨_, _, exec_resvDrop_of_not_unplaced hmode hlen hfind fun y hy => hunplaced ⟨y, hy⟩, ?_, fun j => ?_, fun j => ?_,
          fun y hy => absurd ⟨y, hy⟩ hunplaced,
          fun b a hplaced => ⟨rfl, fun seat hseat j => ?_, fun hnone => ?_, fun hwf => ?_⟩⟩
        · rw [State.edited_bank, State.edited_placements]
          exact State.edited_eq _ _ _ _
        · rw [State.edited_bank]
          exact Table.find_erase_at _ _ j
        · rw [State.edited_placements]
          exact Table.find_erase_at _ _ j
        · rw [State.edited_placements]
          exact State.edited_contents (s := s.taken (.resvDrop f)) hseat j
        · exact State.edited_contents_of_disabled (s := s.taken (.resvDrop f)) hnone
        · rw [State.edited_placements]
          exact unplacedCount_erase_placed hwf hplaced

end Sys2Proof.Machine
end

section
/-! PROOF. The Seat Bus Engine (chapter 7): queue requests and the SEAT activation (R131, R141), and the ends of a transaction
(R134, R135, R137). -/

namespace Sys2Proof.Machine

theorem State.withBus_nothing (s : State) (u : SeatBusEngine) :
    s.withBus (Did.nothing u) = { s with bus := u.choose s } := by
  simp only [State.withBus, Did.nothing, List.append_nil]

/-- The engine's choice reads nothing that taking an announcement changes. -/
theorem choose_taken (s : State) (c : Instr) (u : SeatBusEngine) : u.choose (s.taken c) = u.choose s := rfl

theorem SeatBusEngine.request_eq (t : TableStore) (u : SeatBusEngine) (slot : Nat) :
    u.request t slot =
      if slot ∈ u.dirty then u
      else if enabledSlot t.seat.active slot = none then u
      else { u with dirty := u.dirty ++ [slot] } := by
  simp only [request, Option.isNone_iff_eq_none]
  by_cases hin : slot ∈ u.dirty
  · rw [if_pos (.inl hin), if_pos hin]
  · simp only [hin, false_or, if_false]

/-- Settles O47. -/
theorem seatRequests : Obligations.SeatRequests := by
  refine ⟨fun slot s => ?_, fun s => ?_, fun x s hx hwait => ?_, fun s hs => ?_⟩
  · change Host.Outcome.next _ = _
    rw [SeatBusEngine.request_eq, State.withBus_nothing, choose_taken]
    rfl
  · have hblanking : (if s.bus.blanking = .none then BlankingPass.none else .running 0) =
        (match s.bus.blanking with | .none => .none | .running _ => .running 0 | .done => .running 0) := by
      cases s.bus.blanking <;> rfl
    rw [hblanking]
    change Host.Outcome.next _ = _
    rw [State.withBus_nothing, choose_taken]
    rfl
  · change execSeatSettleEnd s = _
    simp only [execSeatSettleEnd, hx, hwait, Bool.false_eq_true, if_false]
  · change execSeatSettleEnd s = _
    cases hx : s.bus.transaction with
    | none => simp only [execSeatSettleEnd, hx]
    | some x => simp only [execSeatSettleEnd, hx, hs x hx, if_true]

/-! ### The ends of a transaction (R135, R137) -/

theorem foldl_add_toNat (bs : List Byte) (a : Byte) :
    (bs.foldl (· + ·) a).toNat = (a.toNat + (bs.map BitVec.toNat).sum) % 256 := by
  induction bs generalizing a with
  | nil => simp [Nat.mod_eq_of_lt a.isLt]
  | cons b bs ih =>
    rw [List.foldl_cons, ih, BitVec.toNat_add, Nat.mod_add_mod, List.map_cons, List.sum_cons, Nat.add_assoc]

theorem byteSum_toNat (bs : List Byte) : (byteSum bs).toNat = (bs.map BitVec.toNat).sum % 256 := by
  rw [byteSum, foldl_add_toNat, show (0 : Byte).toNat = 0 from rfl, Nat.zero_add]

theorem byteSum_eq_zero_iff (bs : List Byte) : byteSum bs = 0 ↔ (bs.map BitVec.toNat).sum % 256 = 0 := by
  rw [← byteSum_toNat]
  exact BitVec.toNat_eq (y := 0)

theorem status_sound_iff (status : Byte) : status = 0 ∨ status = 1 ↔ status.toNat ≤ 1 := by
  rw [BitVec.toNat_eq, BitVec.toNat_eq]
  exact Nat.le_one_iff_eq_zero_or_eq_one.symm

/-- A good answer (R130). -/
theorem goodAnswer_iff (sentTo address status check : Byte) :
    goodAnswer sentTo address status check = true ↔
      (address.toNat + status.toNat + check.toNat) % 256 = 0 ∧ address = sentTo ∧ status.toNat ≤ 1 := by
  have hsum : ([address, status, check].map BitVec.toNat).sum = address.toNat + status.toNat + check.toNat := by
    simp [Nat.add_assoc]
  simp only [goodAnswer, Bool.and_eq_true, Bool.or_eq_true, beq_iff_eq, byteSum_eq_zero_iff, hsum, status_sound_iff,
    and_assoc]

section Ends

variable {u : SeatBusEngine} {x : Transaction}

theorem SeatBusEngine.answered_of_discard (h : x.discard = true) (t : TableStore) (lamp : Bool) :
    u.answered t x lamp = Did.nothing { u with transaction := none } := by
  simp only [answered, h, if_true]

/-- The engine after a good answer to `x`, a lamp fault aside: a FAULTED slot becomes OK and is queued (R135, R137). -/
def SeatBusEngine.cured (t : TableStore) (u : SeatBusEngine) (x : Transaction) : SeatBusEngine :=
  { u with
    transaction := none
    faulted := if u.isFaulted x.slot then Table.erase u.faulted x.slot else u.faulted
    dirty := if u.isFaulted x.slot ∧ x.slot ∉ u.dirty ∧ enabledSlot t.seat.active x.slot ≠ none
             then u.dirty ++ [x.slot] else u.dirty }

theorem SeatBusEngine.cured_eq (t : TableStore) (u : SeatBusEngine) (x : Transaction) :
    u.cured t x = if u.isFaulted x.slot
      then SeatBusEngine.request t { u with transaction := none, faulted := Table.erase u.faulted x.slot } x.slot
      else { u with transaction := none } := by
  cases hf : u.isFaulted x.slot with
  | false => simp [cured, hf]
  | true =>
    rw [request_eq]
    by_cases hin : x.slot ∈ u.dirty
    · simp [cured, hf, hin]
    · by_cases hoff : enabledSlot t.seat.active x.slot = none <;> simp [cured, hf, hin, hoff]

theorem SeatBusEngine.answered_of_kept (h : x.discard = false) (t : TableStore) (lamp : Bool) :
    u.answered t x lamp = if lamp then (u.cured t x).lampFault x.slot else Did.nothing (u.cured t x) := by
  simp only [answered, h, cured_eq, Bool.false_eq_true, if_false]

/-- A lamp fault is reported, and marked, while its mark is clear (R135, R138). -/
theorem SeatBusEngine.lampFault_eq (u : SeatBusEngine) (lamp : Bool) (slot : Nat) :
    (if lamp then u.lampFault slot else Did.nothing u) =
      ⟨{ u with lampReported :=
          if (lamp && !u.lampReported.contains slot) = true then u.lampReported ++ [slot] else u.lampReported },
        if (lamp && !u.lampReported.contains slot) = true then [.faultReport (.seatLamp slot)] else []⟩ := by
  cases lamp with
  | false => simp [Did.nothing]
  | true => by_cases hin : slot ∈ u.lampReported <;> simp [lampFault, Did.nothing, hin]

theorem SeatBusEngine.unanswered_of_discard (h : x.discard = true) :
    u.unanswered x = Did.nothing { u with transaction := none } := by
  simp only [unanswered, h, if_true]

theorem SeatBusEngine.unanswered_of_kept (h : x.discard = false) :
    u.unanswered x =
      ⟨{ u with transaction := none, faulted := Table.set u.faulted x.slot 30 },
        if u.isFaulted x.slot then [] else [.faultReport (.seatModule x.slot)]⟩ := by
  simp only [unanswered, h, Bool.false_eq_true, if_false]

end Ends

section Events

variable {s : State} {x : Transaction} {address status check : Byte}

theorem exec_seatAnswer_of_good (hx : s.bus.transaction = some x)
    (h : (x.awaiting && goodAnswer x.address address status check) = true) :
    exec (.seatAnswer address status check) s = .next (s.withBus (s.bus.answered s.tables x (status == 1))) := by
  change execSeatAnswer address status check s = _
  simp only [execSeatAnswer, hx, h, if_true]

theorem exec_seatAnswer_of_other
    (h : ∀ x, s.bus.transaction = some x → (x.awaiting && goodAnswer x.address address status check) = false) :
    exec (.seatAnswer address status check) s = .next s := by
  change execSeatAnswer address status check s = _
  cases hx : s.bus.transaction with
  | none => simp only [execSeatAnswer, hx]
  | some x => simp only [execSeatAnswer, hx, h x hx, Bool.false_eq_true, if_false]

theorem exec_seatAnswerTimeout_of_none (h : ∀ x, s.bus.transaction = some x → x.awaiting = false) :
    exec .seatAnswerTimeout s = .next s := by
  change execSeatAnswerTimeout s = _
  cases hx : s.bus.transaction with
  | none => simp only [execSeatAnswerTimeout, hx]
  | some x => simp only [execSeatAnswerTimeout, hx, h x hx, Bool.not_false, if_true]

theorem exec_seatAnswerTimeout_of_awaiting (hx : s.bus.transaction = some x) (hwait : x.awaiting = true) :
    exec .seatAnswerTimeout s =
      if x.kind ≠ .repoll ∧ x.attempt < 3 then
        .next { s with bus := { s.bus with transaction := some { x with attempt := x.attempt + 1 } } }
      else .next (s.withBus (s.bus.unanswered x)) := by
  change execSeatAnswerTimeout s = _
  simp only [execSeatAnswerTimeout, hx, hwait, Bool.not_true, Bool.false_eq_true, if_false]

theorem exec_seatAnswerTimeout_of_last (hx : s.bus.transaction = some x) (hwait : x.awaiting = true)
    (hlast : x.kind = .repoll ∨ 3 ≤ x.attempt) :
    exec .seatAnswerTimeout s = .next (s.withBus (s.bus.unanswered x)) := by
  rw [exec_seatAnswerTimeout_of_awaiting hx hwait, if_neg fun h => hlast.elim h.1 (Nat.not_le.mpr h.2)]

end Events

/-- Settles O48. -/
theorem seatTransactions : Obligations.SeatTransactions := by
  refine ⟨fun address status check s => ?answer, fun s => ?timeout⟩
  case answer =>
    have hgood (x : Transaction) : (x.awaiting && goodAnswer x.address address status check) = true ↔
        x.awaiting = true ∧ (address.toNat + status.toNat + check.toNat) % 256 = 0 ∧ address = x.address ∧
          status.toNat ≤ 1 := by
      rw [Bool.and_eq_true, goodAnswer_iff]
    refine ⟨fun h => exec_seatAnswer_of_other fun x hx => Bool.eq_false_iff.mpr ((hgood x).not.mpr (h x hx)),
      fun x hx hg hdiscard => ?_, fun x hx hg hkept => ?_⟩
    · rw [exec_seatAnswer_of_good hx ((hgood x).mpr hg), SeatBusEngine.answered_of_discard hdiscard, State.withBus_nothing]
    · have hlamp : (status == 1) = decide (status.toNat = 1) := by
        rw [Bool.eq_iff_iff, beq_iff_eq, decide_eq_true_iff, BitVec.toNat_eq]
        rfl
      rw [exec_seatAnswer_of_good hx ((hgood x).mpr hg), SeatBusEngine.answered_of_kept hkept,
        SeatBusEngine.lampFault_eq, hlamp]
      rfl
  case timeout =>
    refine ⟨exec_seatAnswerTimeout_of_none, fun x hx hwait hkind hlt => ?_, fun x hx hwait hlast hdiscard => ?_,
      fun x hx hwait hlast hkept => ?_⟩
    · rw [exec_seatAnswerTimeout_of_awaiting hx hwait, if_pos ⟨hkind, hlt⟩]
    · rw [exec_seatAnswerTimeout_of_last hx hwait hlast, SeatBusEngine.unanswered_of_discard hdiscard, State.withBus_nothing]
    · rw [exec_seatAnswerTimeout_of_last hx hwait hlast, SeatBusEngine.unanswered_of_kept hkept]
      rfl

end Sys2Proof.Machine
end

section
/-! PROOF. The engine's choice of work (R132, R133, R137, R139, R140) and the bytes of its messages (R22). -/

namespace Sys2Proof.Machine

/-! ### The first enabled slot that passes a test -/

section FirstSlot

variable {t : TableStore} {test : Nat → Bool} {i : Nat} {x : SeatSlot}

theorem mem_enabledSlots_iff (hwf : Table.wf t.seat.active) (i : Nat) :
    i ∈ enabledSlots t.seat.active ↔ enabledSlot t.seat.active i ≠ none := by
  simp only [enabledSlots, List.mem_map, List.mem_filter]
  constructor
  · rintro ⟨e, ⟨he, hen⟩, rfl⟩
    simp [enabledSlot, Table.find_of_mem hwf he, hen]
  · intro h
    obtain ⟨x, hx⟩ := Option.ne_none_iff_exists'.mp h
    obtain ⟨r, hr, hx⟩ := Option.bind_eq_some_iff.mp hx
    exact ⟨(i, r), ⟨Table.mem_of_find hr, (Option.ite_none_right_eq_some.mp hx).1⟩, rfl⟩

theorem enabledSlots_ascending (hwf : Table.wf t.seat.active) : (enabledSlots t.seat.active).Pairwise (· < ·) :=
  List.pairwise_map.mpr (hwf.filter _)

/-- The lowest enabled slot that passes the test is the one found. -/
theorem firstSlot_eq_some (hwf : Table.wf t.seat.active) (hx : enabledSlot t.seat.active i = some x) (hi : test i = true)
    (hbelow : ∀ j, j < i → enabledSlot t.seat.active j ≠ none → ¬ test j = true) :
    firstSlot t (enabledSlots t.seat.active) test = some (i, x) := by
  have hmem : i ∈ (enabledSlots t.seat.active).filter test :=
    List.mem_filter.mpr ⟨(mem_enabledSlots_iff hwf i).mpr (by simp [hx]), hi⟩
  obtain ⟨pre, post, hsplit⟩ := List.append_of_mem hmem
  have hpre : pre = [] := by
    refine List.eq_nil_iff_forall_not_mem.mpr fun j hj => ?_
    have hasc : (pre ++ i :: post).Pairwise (· < ·) := hsplit ▸ (enabledSlots_ascending hwf).filter test
    obtain ⟨hen, htest⟩ := List.mem_filter.mp (hsplit ▸ List.mem_append_left _ hj : j ∈ (enabledSlots _).filter test)
    exact hbelow j ((List.pairwise_append.mp hasc).2.2 j hj i (List.mem_cons_self ..)) ((mem_enabledSlots_iff hwf j).mp hen)
      htest
  rw [firstSlot, hsplit, hpre, List.nil_append, List.findSome?_cons, hx]
  rfl

theorem firstSlot_eq_none (hwf : Table.wf t.seat.active)
    (h : ∀ j, enabledSlot t.seat.active j ≠ none → ¬ test j = true) :
    firstSlot t (enabledSlots t.seat.active) test = none := by
  refine List.findSome?_eq_none_iff.mpr fun j hj => ?_
  obtain ⟨hen, htest⟩ := List.mem_filter.mp hj
  exact absurd htest (h j ((mem_enabledSlots_iff hwf j).mp hen))

end FirstSlot

/-! ### The dirty queue (R132, R133) -/

section Sendable

variable {t : TableStore} {u : SeatBusEngine}

/-- A slot to which the engine can send: enabled, and its module not FAULTED. -/
abbrev canSend (t : TableStore) (u : SeatBusEngine) (i : Nat) : Prop :=
  enabledSlot t.seat.active i ≠ none ∧ Table.find u.faulted i = none

theorem passedOver_iff (i : Nat) :
    (u.isFaulted i || (enabledSlot t.seat.active i).isNone) = true ↔ ¬ canSend t u i := by
  rw [Bool.or_eq_true, Option.isNone_iff_eq_none, SeatBusEngine.isFaulted, Option.isSome_iff_ne_none]
  tauto

theorem sendable_of_split {pre post : List Nat} {i : Nat} (hsplit : u.dirty = pre ++ i :: post)
    (hpre : ∀ j ∈ pre, ¬ canSend t u j) (hi : canSend t u i) : u.sendable t = i :: post := by
  rw [SeatBusEngine.sendable, hsplit, List.dropWhile_append_of_pos fun j hj => (passedOver_iff j).mpr (hpre j hj),
    List.dropWhile_cons, if_neg ((passedOver_iff i).not.mpr (not_not.mpr hi))]

theorem sendable_eq_nil (h : ∀ j ∈ u.dirty, ¬ canSend t u j) : u.sendable t = [] :=
  List.dropWhile_eq_nil_iff.mpr fun j hj => (passedOver_iff j).mpr (h j hj)

end Sendable

/-! ### The choice (R132, R140) -/

section Choose

variable {s : State} {u : SeatBusEngine}

theorem choose_of_busy (h : u.transaction ≠ none ∨ s.line.relay = .closed) : u.choose s = u :=
  if_pos (h.imp_left Option.isSome_iff_ne_none.mpr)

theorem choose_of_idle (htr : u.transaction = none) (hrelay : s.line.relay = .opened) :
    u.choose s = if s.mgmt.mode = .restartPending then u.chooseBlanking s else u.chooseWork s := by
  have hgo : ¬ (u.transaction.isSome = true ∨ s.line.relay = .closed) := by simp [htr, hrelay]
  rw [SeatBusEngine.choose, if_neg hgo]

theorem chooseWork_of_sendable {i : Nat} {rest : List Nat} {x : SeatSlot} (h : u.sendable s.tables = i :: rest)
    (hx : enabledSlot s.tables.seat.active i = some x) :
    u.chooseWork s = SeatBusEngine.begin s { u with dirty := rest } .dirty i x := by
  simp only [SeatBusEngine.chooseWork, h, hx]

/-- With nothing to send, the first due re-poll. -/
theorem chooseWork_of_due {i : Nat} {x : SeatSlot} (h : u.sendable s.tables = [])
    (hdue : firstSlot s.tables (enabledSlots s.tables.seat.active) (fun i => Table.find u.faulted i == some 0) =
      some (i, x)) : u.chooseWork s = SeatBusEngine.begin s { u with dirty := [] } .repoll i x := by
  simp only [SeatBusEngine.chooseWork, h, hdue]

theorem chooseWork_of_not_due (h : u.sendable s.tables = [])
    (hdue : firstSlot s.tables (enabledSlots s.tables.seat.active) (fun i => Table.find u.faulted i == some 0) = none) :
    u.chooseWork s =
      if u.refreshActive then
        (firstSlot s.tables (enabledSlots s.tables.seat.active) (fun i => u.refreshPointer ≤ i && !u.isFaulted i)).elim
          { u with dirty := [], refreshActive := false, refreshPointer := 0 }
          (fun e => { SeatBusEngine.begin s { u with dirty := [] } .refresh e.1 e.2 with refreshPointer := e.1 + 1 })
      else { u with dirty := [] } := by
  simp only [SeatBusEngine.chooseWork, h, hdue]
  cases firstSlot s.tables (enabledSlots s.tables.seat.active) (fun i => u.refreshPointer ≤ i && !u.isFaulted i) <;> rfl

/-- With nothing to send the dirty queue is left empty, whatever is begun. -/
theorem chooseWork_dirty (h : u.sendable s.tables = []) : (u.chooseWork s).dirty = [] := by
  cases hdue : firstSlot s.tables (enabledSlots s.tables.seat.active) (fun i => Table.find u.faulted i == some 0) with
  | some e => rw [chooseWork_of_due h hdue]; rfl
  | none =>
    rw [chooseWork_of_not_due h hdue]
    split
    · cases firstSlot s.tables (enabledSlots s.tables.seat.active) (fun i => u.refreshPointer ≤ i && !u.isFaulted i) <;> rfl
    · rfl

/-- A slot that the refresh sends to: from the pointer on, and its module not FAULTED (R139). -/
theorem refreshes_iff (i : Nat) :
    (decide (u.refreshPointer ≤ i) && !u.isFaulted i) = true ↔ u.refreshPointer ≤ i ∧ Table.find u.faulted i = none := by
  rw [Bool.and_eq_true, decide_eq_true_iff, Bool.not_eq_true', SeatBusEngine.isFaulted, Option.isSome_eq_false_iff,
    Option.isNone_iff_eq_none]

theorem chooseBlanking_of_running {pointer : Nat} (h : u.blanking = .running pointer ∨ (u.blanking = .none ∧ pointer = 0)) :
    u.chooseBlanking s =
      (firstSlot s.tables (enabledSlots s.tables.seat.active) (fun i => pointer ≤ i)).elim { u with blanking := .done }
        (fun e => { u.begin s .blanking e.1 e.2 with blanking := .running (e.1 + 1) }) := by
  rcases h with h | ⟨h, rfl⟩
  · simp only [SeatBusEngine.chooseBlanking, h]
    cases firstSlot s.tables (enabledSlots s.tables.seat.active) (fun i => pointer ≤ i) <;> rfl
  · simp only [SeatBusEngine.chooseBlanking, h]
    cases firstSlot s.tables (enabledSlots s.tables.seat.active) (fun i => 0 ≤ i) <;> rfl

theorem chooseBlanking_of_done (h : u.blanking = .done) : u.chooseBlanking s = u := by
  simp only [SeatBusEngine.chooseBlanking, h]

end Choose

/-! ### The bytes of the messages (R22) -/

theorem checked_sound (bs : List Byte) : ((checked bs).map BitVec.toNat).sum % 256 = 0 := by
  rw [← byteSum_eq_zero_iff, checked, byteSum, List.foldl_append]
  change byteSum bs + (0 - byteSum bs) = 0
  simp

/-- The form byte of a SHOW message: icon, a spare bit, dim, and the lamp code. -/
abbrev formByte (c : SeatContent) : BitVec (4 + 1 + 1 + 2) :=
  BitVec.ofNat 4 c.icon ++ 0#1 ++ BitVec.ofBool c.dim ++ c.lamp.code

theorem formByte_lamp (c : SeatContent) : (formByte c).extractLsb' 0 2 = c.lamp.code := by
  refine BitVec.eq_of_getLsbD_eq fun i hi => ?_
  rw [BitVec.getLsbD_extractLsb', BitVec.getLsbD_append]
  simp [hi]

theorem formByte_dim (c : SeatContent) : (formByte c).getLsbD 2 = c.dim := by
  rw [BitVec.getLsbD_append, BitVec.getLsbD_append]
  simp

theorem formByte_spare (c : SeatContent) : (formByte c).getLsbD 3 = false := by
  rw [BitVec.getLsbD_append, BitVec.getLsbD_append, BitVec.getLsbD_append]
  simp

theorem formByte_icon (c : SeatContent) : (formByte c).extractLsb' 4 4 = BitVec.ofNat 4 c.icon := by
  refine BitVec.eq_of_getLsbD_eq fun i hi => ?_
  have hshift : 4 + i - 2 - 1 - 1 = i := by omega
  rw [BitVec.getLsbD_extractLsb', BitVec.getLsbD_append, BitVec.getLsbD_append, BitVec.getLsbD_append,
    if_neg (by omega), if_neg (by omega), if_neg (by omega), hshift]
  simp [hi]

theorem length_padTo (n : Nat) (pad : Byte) (text : Text) : (padTo n pad text).length = n := by
  rw [padTo, List.length_append, List.length_take, List.length_replicate]
  omega

theorem showMessage_eq (address : Byte) (c : SeatContent) :
    showMessage address c = [address, 1, formByte c] ++ padTo 4 space c.label ++ padTo 12 space c.lineA ++
      padTo 12 space c.lineB ++ [0 - byteSum ([address, 1, formByte c] ++ padTo 4 space c.label ++
        padTo 12 space c.lineA ++ padTo 12 space c.lineB)] := rfl

theorem showMessage_length (address : Byte) (c : SeatContent) : (showMessage address c).length = 32 := by
  simp only [showMessage, checked, List.length_append, length_padTo, List.length_cons, List.length_nil]

/-- Settles O49. -/
theorem seatChoices : Obligations.SeatChoices := by
  refine ⟨fun s => ?mode, fun slot n s hfind => ?repoll, fun s hrelay => ?refresh, fun s u => ?choice,
    fun address c => ⟨⟨_, rfl, checked_sound _⟩, ⟨_, rfl, checked_sound _⟩, 
      ⟨formByte c, _, showMessage_eq address c, checked_sound _,
      showMessage_length address c, ?lamp, formByte_dim c, formByte_spare c, fun hicon => ?icon⟩⟩⟩
  case mode =>
    change Host.Outcome.next _ = _
    rw [State.withBus_nothing, choose_taken]
    rfl
  case repoll =>
    have hfaulted : s.bus.isFaulted slot = true := by rw [SeatBusEngine.isFaulted, hfind]; rfl
    change execRepollDue slot s = _
    rw [execRepollDue, if_pos hfaulted, State.withBus_nothing]
  case refresh =>
    change execRefreshRoundBegin s = _
    rw [execRefreshRoundBegin, if_pos hrelay, State.withBus_nothing]
  case lamp =>
    rw [formByte_lamp]
    cases c.lamp <;> rfl
  case icon =>
    rw [formByte_icon, BitVec.toNat_ofNat, Nat.mod_eq_of_lt (by omega)]
  case choice =>
    intro enabled sends begins
    have hbegin (v : SeatBusEngine) (hv : v.selected = u.selected) (kind : TransactionKind) (i : Nat) (x : SeatSlot)
        (hx : enabledSlot s.tables.seat.active i = some x) : begins (v.begin s kind i x) kind i := by
      refine ⟨x, hx, rfl, ?_⟩
      rw [← hv]
      cases kind <;> rfl
    refine ⟨choose_of_busy, fun htr hrelay hwf hmode => ⟨fun pre i post hsplit hpre hi => ?_, fun hnone => ?_⟩,
      fun htr hrelay hwf hmode => ⟨fun hdone => ?_, fun pointer hpointer => ⟨fun i hle hen hbelow => ?_, fun hnone => ?_⟩⟩⟩
    all_goals rw [choose_of_idle htr hrelay]
    · obtain ⟨x, hx⟩ := Option.ne_none_iff_exists'.mp hi.1
      rw [if_neg hmode, chooseWork_of_sendable (sendable_of_split hsplit hpre hi) hx]
      exact ⟨hbegin { u with dirty := post } rfl .dirty i x hx, rfl⟩
    · have hempty := sendable_eq_nil hnone
      rw [if_neg hmode]
      refine ⟨?_, fun i hen hdue hbelow => ?_, fun hnodue => ⟨fun hidle => ?_,
        fun hround => ⟨fun i hle hi hbelow => ?_, fun hend => ?_⟩⟩⟩
      · exact chooseWork_dirty hempty
      · obtain ⟨x, hx⟩ := Option.ne_none_iff_exists'.mp hen
        rw [chooseWork_of_due hempty (firstSlot_eq_some hwf hx (beq_iff_eq.mpr hdue) fun j hj hen' h =>
          hbelow j hj hen' (beq_iff_eq.mp h))]
        exact hbegin { u with dirty := [] } rfl .repoll i x hx
      all_goals rw [chooseWork_of_not_due hempty (firstSlot_eq_none hwf fun j hen h => hnodue j hen (beq_iff_eq.mp h))]
      · rw [hidle]
        rfl
      · obtain ⟨x, hx⟩ := Option.ne_none_iff_exists'.mp hi.1
        have hfirst := firstSlot_eq_some (test := fun i => u.refreshPointer ≤ i && !u.isFaulted i) hwf hx
          ((refreshes_iff i).mpr ⟨hle, hi.2⟩)
          fun j hj hen h => hbelow j ((refreshes_iff j).mp h).1 hj ⟨hen, ((refreshes_iff j).mp h).2⟩
        rw [if_pos hround, hfirst]
        exact ⟨hbegin { u with dirty := [] } rfl .refresh i x hx, rfl⟩
      · have hfirst := firstSlot_eq_none (test := fun i => u.refreshPointer ≤ i && !u.isFaulted i) hwf
          fun j hen h => hend j ((refreshes_iff j).mp h).1 ⟨hen, ((refreshes_iff j).mp h).2⟩
        rw [if_pos hround, hfirst, Option.elim_none]
    · rw [if_pos hmode, chooseBlanking_of_done hdone]
    · obtain ⟨x, hx⟩ := Option.ne_none_iff_exists'.mp hen
      have hfirst : firstSlot s.tables (enabledSlots s.tables.seat.active) (fun i => pointer ≤ i) = some (i, x) :=
        firstSlot_eq_some hwf hx (decide_eq_true hle) fun j hj hen h => hbelow j (of_decide_eq_true h) hj hen
      rw [if_pos hmode, chooseBlanking_of_running hpointer, hfirst, Option.elim_some]
      exact ⟨hbegin u rfl .blanking i x hx, rfl⟩
    · have hfirst : firstSlot s.tables (enabledSlots s.tables.seat.active) (fun i => pointer ≤ i) = none :=
        firstSlot_eq_none hwf fun j hen h => hnone j (of_decide_eq_true h) hen
      rw [if_pos hmode, chooseBlanking_of_running hpointer, hfirst, Option.elim_none]

end Sys2Proof.Machine
end

section
/-! PROOF. The Notice Unit (chapter 8): the acceptance list's decision (R147), the choice of the next show (R157), and the
outcomes of a NOTICE (R146, R151 to R153). -/

namespace Sys2Proof.Machine

/-! ### The decision of the acceptance list (R147) -/

theorem matchesNotice_iff (x : FilterEntry) (f : NoticeFields) (portion : Nat) :
    x.matchesNotice f portion = true ↔
      f.category &&& x.categoryMask = x.categoryValue &&& x.categoryMask ∧
      f.language &&& x.languageMask = x.languageValue &&& x.languageMask ∧
      portion ≠ 0 ∧ x.portions.getLsbD (portion - 1) = true := by
  simp only [FilterEntry.matchesNotice, Bool.and_eq_true, beq_iff_eq, holdsPortion_eq_true_iff, and_assoc]

theorem decideNotice_of_none {list : List FilterEntry} {f : NoticeFields} {portion : Nat}
    (h : list.find? (fun x => x.matchesNotice f portion) = none) : decideNotice list f portion = none := by
  rw [decideNotice, h]

theorem decideNotice_of_some {list : List FilterEntry} {f : NoticeFields} {portion : Nat} {x : FilterEntry}
    (h : list.find? (fun x => x.matchesNotice f portion) = some x) :
    decideNotice list f portion = if x.accept = true then some (x.override.getD f.priority.toNat) else none := by
  rw [decideNotice, h]

/-! ### A queue split at one of its entries (R150, R151) -/

section Split

variable {q pre post : List NoticeEntry} {old e : NoticeEntry}

/-- No id stands twice, so the other entries have other ids. -/
theorem ids_ne_of_split (hn : (q.map (·.id)).Nodup) (hq : q = pre ++ old :: post) : ∀ x ∈ pre ++ post, x.id ≠ old.id := by
  rw [hq, List.map_append, List.map_cons, List.nodup_middle, List.nodup_cons, ← List.map_append] at hn
  exact fun x hx hid => hn.1 (List.mem_map.mpr ⟨x, hx, hid⟩)

theorem replaceEntry_of_split (hn : (q.map (·.id)).Nodup) (hq : q = pre ++ old :: post) (hid : e.id = old.id) :
    replaceEntry q e = pre ++ e :: post := by
  have hother := ids_ne_of_split hn hq
  have hkeep (l : List NoticeEntry) (hl : ∀ x ∈ l, x.id ≠ old.id) :
      l.map (fun x => if x.id = e.id then e else x) = l :=
    (List.map_congr_left fun x hx => if_neg (hid ▸ hl x hx)).trans (List.map_id _)
  rw [replaceEntry, hq, List.map_append, List.map_cons, if_pos hid.symm,
    hkeep pre fun x hx => hother x (List.mem_append_left _ hx), hkeep post fun x hx => hother x (List.mem_append_right _ hx)]

theorem filter_id_of_queue_split (hn : (q.map (·.id)).Nodup) (hq : q = pre ++ old :: post) :
    q.filter (fun x => x.id != old.id) = pre ++ post := by
  have hother := ids_ne_of_split hn hq
  rw [hq, List.filter_append, List.filter_cons_of_neg (by simp), ← List.filter_append]
  exact List.filter_eq_self.mpr fun x hx => bne_iff_ne.mpr (hother x hx)

theorem insertEntry_of_split {before after : List NoticeEntry} (hbefore : ∀ x ∈ before, x.effective ≤ e.effective)
    (hafter : ∀ x ∈ after, e.effective < x.effective) : insertEntry (before ++ after) e = before ++ e :: after := by
  induction before with
  | nil =>
    cases after with
    | nil => rfl
    | cons x after => exact if_pos (hafter x (List.mem_cons_self ..))
  | cons x before ih =>
    have hle := hbefore x (List.mem_cons_self ..)
    rw [List.cons_append, insertEntry, if_neg (Nat.not_lt.mpr hle),
      ih fun y hy => hbefore y (List.mem_cons_of_mem x hy), List.cons_append]

end Split

/-! ### The choice of the next show (R157) -/

section Settle

variable {s : State} {u : NoticeUnit}

theorem settle_of_showing {id : Nat} {text : Text} {dwell : Nat} (h : u.lines = .showing id text dwell) :
    u.settle s = Did.nothing u := by
  rw [NoticeUnit.settle, h]

theorem settle_of_dark (h : ∀ id text dwell, u.lines ≠ .showing id text dwell) (hmode : s.mgmt.mode.dark = true) :
    u.settle s = Did.nothing { u with lines := .blank } := by
  rw [NoticeUnit.settle]
  split
  next id text dwell hl => exact absurd hl (h id text dwell)
  next => rw [if_pos hmode]

theorem settle_of_none_due (h : ∀ id text dwell, u.lines ≠ .showing id text dwell) (hmode : s.mgmt.mode.dark = false)
    (hdue : u.queue.find? (·.due) = none) : u.settle s = Did.nothing { u with lines := .default } := by
  rw [NoticeUnit.settle]
  split
  next id text dwell hl => exact absurd hl (h id text dwell)
  next => rw [hmode, hdue]; rfl

theorem settle_of_due (h : ∀ id text dwell, u.lines ≠ .showing id text dwell) (hmode : s.mgmt.mode.dark = false)
    {e : NoticeEntry} (hdue : u.queue.find? (·.due) = some e) :
    u.settle s =
      ⟨{ u with queue := replaceEntry u.queue e.started
                lines := .showing e.id ((noticeText s.tables e).take 96)
                  (dwellOf ((noticeText s.tables e).take 96).length) }, [.noticeTextChange .current]⟩ := by
  rw [NoticeUnit.settle]
  split
  next id text dwell hl => exact absurd hl (h id text dwell)
  next => rw [hmode, hdue]; rfl

end Settle

theorem light_iff (m : Mode) : m.dark = false ↔ m ∈ [.normal, .quiet] := by
  cases m <;> decide

/-- Settles O51. -/
theorem acceptanceAndShows : Obligations.AcceptanceAndShows := by
  refine ⟨fun f portion list => ⟨fun hnone => ?_, fun pre x post hsplit hpre hx => ?_⟩, fun s u hlegal => ?_⟩
  · exact decideNotice_of_none (List.find?_eq_none.mpr fun x hx => (matchesNotice_iff x f portion).not.mpr (hnone x hx))
  · rw [decideNotice_of_some (List.find?_eq_some_iff_append.mpr ⟨(matchesNotice_iff x f portion).mpr hx, pre, post, hsplit,
      fun y hy => by simpa [← matchesNotice_iff] using hpre y hy⟩)]
    cases x.override <;> rfl
  · refine ⟨fun ⟨id, text, dwell, hl⟩ => settle_of_showing hl,
      fun hidle hmode => settle_of_dark (fun id text dwell hl => hidle ⟨id, text, dwell, hl⟩) ((Mode.dark_iff _).mpr hmode),
      fun hidle hmode => ⟨fun hnone => ?_, fun pre e post hsplit hpre hdue => ?_⟩⟩
    all_goals
      have hlines : ∀ id text dwell, u.lines ≠ .showing id text dwell := fun id text dwell hl => hidle ⟨id, text, dwell, hl⟩
      have hlight := (light_iff _).mpr hmode
    · exact settle_of_none_due hlines hlight (List.find?_eq_none.mpr fun e he => by simp [hnone e he])
    · have hfind : u.queue.find? (·.due) = some e :=
        List.find?_eq_some_iff_append.mpr ⟨hdue, pre, post, hsplit, fun x hx => by simp [hpre x hx]⟩
      obtain ⟨⟨-, hn, -⟩, -⟩ := hlegal
      rw [settle_of_due hlines hlight hfind, replaceEntry_of_split (e := e.started) hn hsplit rfl]
      rfl

/-! ### A NOTICE (R146, R151 to R153) -/

theorem State.withNotice_nothing (s : State) (u : NoticeUnit) :
    s.withNotice (Did.nothing u) = { s with notice := u } := by
  simp only [State.withNotice, Did.nothing, List.append_nil]

section Taken

variable {s : State} {u : NoticeUnit} {f : NoticeFields}

theorem take_of_bad_id (h : f.id.toNat = 0 ∨ 65279 < f.id.toNat) :
    u.take s f = Did.nothing { u with rejected := count16 u.rejected 1 } := if_pos h

theorem take_of_not_held (h : ¬ (f.id.toNat = 0 ∨ 65279 < f.id.toNat)) (hheld : holdsPortion f.mask u.portion = false) :
    u.take s f = Did.nothing u := by
  rw [NoticeUnit.take, if_neg h, hheld]
  rfl

theorem take_of_rejected (h : ¬ (f.id.toNat = 0 ∨ 65279 < f.id.toNat)) (hheld : holdsPortion f.mask u.portion = true)
    (hdecide : decideNotice u.acceptance f u.portion = none) :
    u.take s f = Did.nothing { u with rejected := count16 u.rejected 1 } := by
  rw [NoticeUnit.take, if_neg h, hheld, hdecide]
  rfl

theorem take_of_accepted (h : ¬ (f.id.toNat = 0 ∨ 65279 < f.id.toNat)) (hheld : holdsPortion f.mask u.portion = true)
    {p : Nat} (hdecide : decideNotice u.acceptance f u.portion = some p) : u.take s f = u.offer s (noticeEntry f p) := by
  rw [NoticeUnit.take, if_neg h, hheld, hdecide]
  rfl

end Taken

/-! ### Admission, update and eviction (R151 to R153) -/

section Offer

variable {s : State} {u : NoticeUnit} {e old last : NoticeEntry}

/-- What follows when an entry of priority `p` has become due: pre-emption, and then the choice. -/
def NoticeUnit.preemptedAndSettled (s : State) (u : NoticeUnit) (p : Nat) : Did NoticeUnit :=
  ⟨((u.preemptedBy p).unit.settle s).unit, (u.preemptedBy p).said ++ ((u.preemptedBy p).unit.settle s).said⟩

theorem admitted_legal (h : u.legal) (he : e.legal) (hlen : u.queue.length < 16) (hnew : ∀ x ∈ u.queue, x.id ≠ e.id) :
    ({ u with queue := insertEntry u.queue e } : NoticeUnit).legal := by
  obtain ⟨hqueue, hacceptance, hlines, hrest⟩ := h
  refine ⟨queueLaw_insert hqueue hlen hnew he, hacceptance, Lines.legal_mono (fun i hi => ?_) hlines, hrest⟩
  obtain ⟨x, hx, rfl⟩ := List.mem_map.mp hi
  exact List.mem_map.mpr ⟨x, mem_insertEntry.mpr (.inr hx), rfl⟩

theorem admission_eq (h : u.legal) (he : e.legal) (hlen : u.queue.length < 16) (hnew : ∀ x ∈ u.queue, x.id ≠ e.id)
    {pre post : List NoticeEntry} (hsplit : u.queue = pre ++ post) (hpre : ∀ x ∈ pre, x.effective ≤ e.effective)
    (hpost : ∀ x ∈ post, e.effective < x.effective) :
    u.admission s e =
      (⟨{ u with queue := pre ++ e :: post }, if e.overlayWanted then [.overlayRequest e.id] else []⟩ : Did _).andThen
        (fun v => v.preemptedAndSettled s e.effective) := by
  have hlegal := admitted_legal h he hlen hnew
  rw [NoticeUnit.admission, Did.andThen, Did.andThen]
  dsimp only
  rw [NoticeUnit.nowDue_eq hlegal, hsplit, insertEntry_of_split hpre hpost]
  rfl

theorem offer_of_room (hnew : ∀ x ∈ u.queue, x.id ≠ e.id) (hlen : u.queue.length < 16) :
    u.offer s e = u.admission s e := by
  have hfind : u.find e.id = none := List.find?_eq_none.mpr fun x hx => by simpa using hnew x hx
  rw [NoticeUnit.offer, hfind]
  exact if_pos hlen

theorem offer_of_full (hnew : ∀ x ∈ u.queue, x.id ≠ e.id) (hlen : u.queue.length = 16) {rest : List NoticeEntry}
    (hlast : u.queue = rest ++ [last]) :
    u.offer s e =
      if e.effective < last.effective then
        (NoticeUnit.removeAndSettle s { u with dropped := count16 u.dropped 1 } last.id).andThen (fun v => v.admission s e)
      else Did.nothing { u with dropped := count16 u.dropped 1 } := by
  have hfind : u.find e.id = none := List.find?_eq_none.mpr fun x hx => by simpa using hnew x hx
  have hget : u.queue.getLast? = some last := by rw [hlast, List.getLast?_concat]
  rw [NoticeUnit.offer, hfind]
  simp only [hlen, hget, lt_irrefl, if_false]

theorem offer_of_queued (h : u.legal) (hold : old ∈ u.queue) (hid : old.id = e.id) : u.offer s e = u.update s old e := by
  obtain ⟨⟨-, hn, -⟩, -⟩ := h
  rw [NoticeUnit.offer, ← hid, NoticeUnit.find_of_mem hn hold]

/-- The last entry, of a lower priority than the new one, is removed and the next show chosen (R152). -/
theorem without_last (h : u.legal) {rest : List NoticeEntry} (hlast : u.queue = rest ++ [last]) :
    u.without s last.id =
      ⟨(NoticeUnit.settle s { u with queue := rest, lines := if u.shows last.id then .default else u.lines }).unit,
        (if u.shows last.id then [.noticeTextChange .current] else []) ++
          (if last.overlayWanted then [.overlayEnd last.id] else []) ++
          (NoticeUnit.settle s { u with queue := rest, lines := if u.shows last.id then .default else u.lines }).said⟩ := by
  obtain ⟨⟨-, hn, -⟩, -⟩ := h
  have hfilter : u.queue.filter (fun x => x.id != last.id) = rest := by
    rw [filter_id_of_queue_split hn hlast, List.append_nil]
  have hany : u.queue.any (fun x => x.id == last.id && x.overlayWanted) = last.overlayWanted := by
    have hrest : rest.any (fun x => x.id == last.id && x.overlayWanted) = false := by
      rw [List.any_eq_false]
      intro x hx
      simp [ids_ne_of_split hn hlast x (by simpa using hx)]
    rw [hlast, List.any_append, hrest]
    simp
  rw [NoticeUnit.without, hfilter, hany]

/-- The entry that an update makes (R153). -/
abbrev NoticeEntry.updating (e old : NoticeEntry) : NoticeEntry := { e with repeatTimer := old.repeatTimer }

theorem updating_legal (h : u.legal) (hold : old ∈ u.queue) (he : e.legal) : (e.updating old).legal := by
  obtain ⟨⟨-, -, -, hentries⟩, -⟩ := h
  obtain ⟨-, -, -, htimer, -⟩ := hentries old hold
  obtain ⟨h1, h2, h3, -, h5, h6, h7⟩ := he
  exact ⟨h1, h2, h3, htimer, h5, h6, h7⟩

theorem kept_place_legal (h : u.legal) (hold : old ∈ u.queue) (hid : e.id = old.id) (hp : e.effective = old.effective)
    (he : e.legal) : ({ u with queue := replaceEntry u.queue e } : NoticeUnit).legal :=
  have ⟨hlaw, hids⟩ := queueLaw_replace h.1 hold hid hp he
  NoticeUnit.legal_queue h hlaw hids

/-- An entry moved by an update while the lines do not show it: removed and admitted again (R153). -/
theorem moved_legal (h : u.legal) (hold : old ∈ u.queue) (hid : e.id = old.id) (hquiet : u.shows old.id = false)
    (he : e.legal) :
    ({ u with queue := insertEntry (u.queue.filter (fun x => x.id != old.id)) e } : NoticeUnit).legal := by
  obtain ⟨⟨hlen, hn, -⟩, -⟩ := id h
  have hremoved := NoticeUnit.remove_legal h old.id
  rw [NoticeUnit.remove_quiet hn hold hquiet] at hremoved
  have hshorter : (u.queue.filter (fun x => x.id != old.id)).length < u.queue.length :=
    List.length_filter_lt_length_iff_exists.mpr ⟨old, hold, by simp⟩
  exact admitted_legal hremoved he (by dsimp only; omega) fun x hx => by simpa [hid] using (List.mem_filter.mp hx).2

/-- The queue that an update leaves (R153): the entry in its place, or placed anew. -/
abbrev NoticeUnit.updatedQueue (u : NoticeUnit) (old e : NoticeEntry) : List NoticeEntry :=
  if e.effective = old.effective then replaceEntry u.queue (e.updating old)
  else insertEntry (u.queue.filter (fun x => x.id != e.id)) (e.updating old)

theorem updatedQueue_legal (h : u.legal) (hold : old ∈ u.queue) (hid : old.id = e.id) (hquiet : u.shows old.id = false)
    (he : e.legal) : ({ u with queue := u.updatedQueue old e } : NoticeUnit).legal := by
  have hnew := updating_legal h hold he
  unfold NoticeUnit.updatedQueue
  split
  case isTrue hp => exact kept_place_legal h hold hid.symm hp hnew
  case isFalse =>
    rw [← hid]
    exact moved_legal h hold hid.symm hquiet hnew

theorem update_of_shown {text : Text} {dwell : Nat} (hl : u.lines = .showing e.id text dwell) :
    u.update s old e =
      (⟨{ u with queue := u.updatedQueue old e, lines := .default },
        overlayNews s.tables old (e.updating old) ++ [.noticeTextChange .current]⟩ : Did _).andThen
          (NoticeUnit.settle s) := by
  have hshows : u.shows e.id = true := (NoticeUnit.shows_iff e.id).mpr ⟨text, dwell, hl⟩
  simp only [NoticeUnit.update, hshows, if_true, NoticeUnit.endShow, hl, Did.andThen]

theorem update_of_quiet (h : u.legal) (hold : old ∈ u.queue) (hid : old.id = e.id) (hquiet : u.shows e.id = false)
    (he : e.legal) :
    u.update s old e =
      (⟨{ u with queue := u.updatedQueue old e }, overlayNews s.tables old (e.updating old)⟩ : Did _).andThen
        (fun v => v.preemptedAndSettled s e.effective) := by
  have hlegal := updatedQueue_legal h hold hid (hid ▸ hquiet) he
  simp only [NoticeUnit.update, hquiet, Bool.false_eq_true, if_false, Did.andThen, NoticeUnit.nowDue_eq hlegal]
  rfl

end Offer

theorem exec_notice_of_take {f : NoticeFields} {s : State} {d : Did NoticeUnit} (h : s.notice.take s f = d) :
    exec (.notice f) s = .next { s with
      notice := d.unit, announced := s.announced.erase (.notice f) ++ d.said } := by
  rw [← h]
  rfl

theorem exec_notice_of_quiet {f : NoticeFields} {s : State} {u : NoticeUnit} (h : s.notice.take s f = Did.nothing u) :
    exec (.notice f) s = .next { s with notice := u, announced := s.announced.erase (.notice f) } := by
  rw [exec_notice_of_take h]
  simp only [Did.nothing, List.append_nil]

/-- The notice ends in `v` with an entry of priority `p` due: pre-emption, and then the choice. -/
theorem exec_notice_of_due {f : NoticeFields} {s : State} {v : NoticeUnit} {p : Nat} {said : List Instr}
    (h : s.notice.take s f = (⟨v, said⟩ : Did NoticeUnit).andThen (fun v => v.preemptedAndSettled s p)) :
    exec (.notice f) s = .next { s with
      notice := ((v.preemptedBy p).unit.settle s).unit
      announced := s.announced.erase (.notice f) ++ said ++ (v.preemptedBy p).said ++
        ((v.preemptedBy p).unit.settle s).said } := by
  rw [exec_notice_of_take h]
  simp only [Did.andThen_unit, Did.andThen_said, NoticeUnit.preemptedAndSettled, List.append_assoc]

theorem noticeEntry_overlayRequest (f : NoticeFields) (p : Nat) :
    (if (noticeEntry f p).overlayWanted then [Instr.overlayRequest (noticeEntry f p).id] else []) =
      if p = 0 ∧ f.overlay = true then [.overlayRequest f.id.toNat] else [] := by
  simp [noticeEntry]

section Accepted

variable {s : State} {u : NoticeUnit} {e last : NoticeEntry}

theorem dropped_legal (h : u.legal) : ({ u with dropped := count16 u.dropped 1 } : NoticeUnit).legal := by
  obtain ⟨hqueue, hacceptance, hlines, htext, hrejected, -⟩ := h
  exact ⟨hqueue, hacceptance, hlines, htext, hrejected, Nat.min_le_left _ _⟩

/-- What the eviction of the last entry leaves: one place free, and no new id (R152). -/
theorem evicted_queue (h : u.legal) (hnew : ∀ x ∈ u.queue, x.id ≠ e.id) (hmem : last ∈ u.queue) :
    (u.without s last.id).unit.queue.length < 16 ∧ ∀ x ∈ (u.without s last.id).unit.queue, x.id ≠ e.id := by
  obtain ⟨-, hids⟩ := NoticeUnit.removeAndSettle_spec (s := s) h last.id
  rw [NoticeUnit.removeAndSettle_eq h] at hids
  obtain ⟨⟨hlen, -⟩, -⟩ := h
  constructor
  · have hcount : (u.without s last.id).unit.queue.length = (u.queue.filter (fun x => x.id != last.id)).length := by
      simpa using congrArg List.length hids
    have hshorter : (u.queue.filter (fun x => x.id != last.id)).length < u.queue.length :=
      List.length_filter_lt_length_iff_exists.mpr ⟨last, hmem, by simp⟩
    omega
  · intro x hx
    have hid : x.id ∈ (u.queue.filter (fun x => x.id != last.id)).map (·.id) := hids ▸ List.mem_map_of_mem hx
    obtain ⟨y, hy, hyx⟩ := List.mem_map.mp hid
    exact hyx ▸ hnew y (List.mem_filter.mp hy).1

/-- A full queue whose last entry has a lower priority: eviction, and then admission (R152). -/
theorem offer_of_evicting (h : u.legal) (he : e.legal) (hnew : ∀ x ∈ u.queue, x.id ≠ e.id) (hfull : u.queue.length = 16)
    {rest : List NoticeEntry} (hlast : u.queue = rest ++ [last]) (hlt : e.effective < last.effective)
    {left : Did NoticeUnit} (hleft : NoticeUnit.without s { u with dropped := count16 u.dropped 1 } last.id = left)
    {pre post : List NoticeEntry} (hsplit : left.unit.queue = pre ++ post) (hpre : ∀ x ∈ pre, x.effective ≤ e.effective)
    (hpost : ∀ x ∈ post, e.effective < x.effective) :
    u.offer s e =
      (⟨{ left.unit with queue := pre ++ e :: post },
        left.said ++ (if e.overlayWanted then [.overlayRequest e.id] else [])⟩ : Did _).andThen
          (fun v => v.preemptedAndSettled s e.effective) := by
  have hdropped := dropped_legal h
  have hmem : last ∈ u.queue := by rw [hlast]; simp
  obtain ⟨hroom, hnew'⟩ := evicted_queue (s := s) hdropped hnew hmem
  have hlegal := NoticeUnit.without_legal (s := s) hdropped last.id
  rw [hleft] at hroom hnew' hlegal
  rw [offer_of_full hnew hfull hlast, if_pos hlt, NoticeUnit.removeAndSettle_eq hdropped, hleft, Did.andThen,
    admission_eq hlegal he hroom hnew' hsplit hpre hpost]
  simp only [Did.andThen, List.append_assoc]

end Accepted

/-- Settles O52. -/
theorem noticeTaken : Obligations.NoticeTaken := by
  intro f s taken u held interval entry becomes admitted
  refine ⟨fun hbad => exec_notice_of_quiet (take_of_bad_id hbad), fun hlow hhigh => ?_⟩
  have hgood : ¬ (f.id.toNat = 0 ∨ 65279 < f.id.toNat) := by omega
  have hheld : held ↔ holdsPortion f.mask u.portion = true := (holdsPortion_eq_true_iff _ _).symm
  refine ⟨fun hnot => exec_notice_of_quiet (take_of_not_held hgood (Bool.eq_false_iff.mpr (hheld.not.mp hnot))),
    fun hin hrejected => exec_notice_of_quiet (take_of_rejected hgood (hheld.mp hin) hrejected),
    fun p hin hdecide hlegal => ⟨fun hnew => ⟨fun hroom => ?room, fun rest last hlast hfull => ⟨fun hle => ?drop,
      fun hlt => ?evict⟩⟩, fun pre old post hsplit hid => ?update⟩⟩
  all_goals
    have htake := take_of_accepted (s := s) hgood (hheld.mp hin) hdecide
    have hp : p ≤ 3 := decideNotice_le (fun x hx => (hlegal.2.1.2.2 x hx).2) hdecide
    have hnotice : (noticeEntry f p).legal := noticeEntry_legal hp (by omega)
  case room =>
    intro pre post hqueue hpre hpost
    refine exec_notice_of_due (htake.trans ?_)
    rw [offer_of_room hnew hroom, admission_eq hlegal hnotice hroom hnew hqueue hpre hpost, noticeEntry_overlayRequest]
    rfl
  case drop =>
    refine exec_notice_of_quiet (htake.trans ?_)
    rw [offer_of_full hnew hfull hlast, if_neg (show ¬ (noticeEntry f p).effective < _ from Nat.not_lt.mpr hle)]
    rfl
  case evict =>
    intro shown left pre post hqueue hpre hpost
    have hleft := without_last (s := s) (dropped_legal hlegal) hlast
    refine exec_notice_of_due (htake.trans ?_)
    rw [offer_of_evicting hlegal hnotice hnew hfull hlast hlt hleft hqueue hpre hpost, noticeEntry_overlayRequest]
    rfl
  case update =>
    intro new said q hsame hmoved
    have hold : old ∈ u.queue := by rw [hsplit]; simp
    obtain ⟨⟨-, hn, -⟩, -⟩ := id hlegal
    have hqueue : u.updatedQueue old (noticeEntry f p) = q := by
      unfold NoticeUnit.updatedQueue
      split
      case isTrue heq =>
        rw [hsame heq]
        exact replaceEntry_of_split hn hsplit hid.symm
      case isFalse hne =>
        obtain ⟨before, after, hq, hrest, hbefore, hafter⟩ := hmoved hne
        rw [hq, show (noticeEntry f p).id = old.id from hid.symm, filter_id_of_queue_split hn hsplit, hrest]
        exact insertEntry_of_split hbefore hafter
    have hsaid : overlayNews s.tables old ((noticeEntry f p).updating old) = said := by
      simp only [overlayNews, said, hid]
      rfl
    refine ⟨fun text dwell hl => ?_, fun hquiet => ?_⟩
    · have hupdate := htake.trans ((offer_of_queued hlegal hold hid).trans (update_of_shown (s := s) (hid ▸ hl)))
      rw [hqueue, hsaid] at hupdate
      rw [exec_notice_of_take hupdate]
      simp only [Did.andThen_unit, Did.andThen_said, List.append_assoc]
      rfl
    · have hshows : u.shows (noticeEntry f p).id = false :=
        Bool.eq_false_iff.mpr fun h => have ⟨text, dwell, hl⟩ := (NoticeUnit.shows_iff _).mp h
          hquiet text dwell (hid ▸ hl)
      have hupdate := htake.trans ((offer_of_queued hlegal hold hid).trans
        (update_of_quiet (s := s) hlegal hold hid hshows hnotice))
      rw [hqueue, hsaid] at hupdate
      exact exec_notice_of_due hupdate

end Sys2Proof.Machine
end

section
/-! PROOF. What ends at the Notice Unit: cancellations, lifetimes, repeat timers and dwells (R154 to R156, R158, R159). -/

namespace Sys2Proof.Machine

section Ends

variable {s : State} {u : NoticeUnit} {e x : NoticeEntry} {pre post : List NoticeEntry}

/-! ### A removal (R154) -/

theorem any_overlay_of_mem (hn : (u.queue.map (·.id)).Nodup) (he : e ∈ u.queue) :
    u.queue.any (fun x => x.id == e.id && x.overlayWanted) = e.overlayWanted := by
  rw [Bool.eq_iff_iff, List.any_eq_true]
  constructor
  · rintro ⟨x, hx, hxw⟩
    rw [Bool.and_eq_true, beq_iff_eq] at hxw
    exact queueLaw_unique hn hx he hxw.1 ▸ hxw.2
  · exact fun hw => ⟨e, he, by simp [hw]⟩

/-- The queue without the entry of an id. -/
abbrev NoticeUnit.lacking (u : NoticeUnit) (id : Nat) : NoticeUnit :=
  { u with queue := u.queue.filter (fun e => e.id != id) }

/-- What is announced of the removal of an entry that the lines do not show. -/
abbrev NoticeEntry.endsOverlay (e : NoticeEntry) : List Instr := if e.overlayWanted then [.overlayEnd e.id] else []

theorem without_of_quiet (h : u.legal) (he : e ∈ u.queue) (hquiet : u.shows e.id = false) :
    u.without s e.id = ⟨((u.lacking e.id).settle s).unit, e.endsOverlay ++ ((u.lacking e.id).settle s).said⟩ := by
  obtain ⟨⟨-, hn, -⟩, -⟩ := h
  rw [NoticeUnit.without, any_overlay_of_mem hn he, hquiet]
  rfl

theorem without_of_shown (h : u.legal) (he : e ∈ u.queue) (hshown : u.shows e.id = true) :
    u.without s e.id =
      ⟨(NoticeUnit.settle s { u.lacking e.id with lines := .default }).unit,
        [.noticeTextChange .current] ++ e.endsOverlay ++
          (NoticeUnit.settle s { u.lacking e.id with lines := .default }).said⟩ := by
  obtain ⟨⟨-, hn, -⟩, -⟩ := h
  rw [NoticeUnit.without, any_overlay_of_mem hn he, hshown]
  rfl

theorem shows_of_other {id : Nat} {text : Text} {dwell : Nat} (hl : u.lines = .showing id text dwell) (hne : id ≠ e.id) :
    u.shows e.id = false := by
  rw [NoticeUnit.shows, hl]
  exact beq_false_of_ne hne

theorem shows_of_idle (hl : ∀ id text dwell, u.lines ≠ .showing id text dwell) (id : Nat) : u.shows id = false :=
  Bool.eq_false_iff.mpr fun h => have ⟨text, dwell, hlines⟩ := (NoticeUnit.shows_iff id).mp h
    hl id text dwell hlines

/-! ### Pre-emption that does not come about (R159) -/

theorem preemptedBy_of_keeps {p : Nat} (h : p ≠ 0 ∨ ∀ x ∈ u.queue, u.shows x.id = true → x.effective = 0) :
    u.preemptedBy p = Did.nothing u := by
  rw [NoticeUnit.preemptedBy]
  split
  next x hfind =>
    refine if_neg fun ⟨hp, hx⟩ => ?_
    exact h.elim (fun h => h hp) fun h => hx (h x (List.mem_of_find?_eq_some hfind)
      (by simpa using List.find?_some hfind))
  next => rfl

/-! ### A repeat timer at 0 (R156) -/

/-- The entry on the lines keeps its priority when an entry's timer has woken it. -/
theorem woken_shows_priority (hn : (u.queue.map (·.id)).Nodup) (hsplit : u.queue = pre ++ e :: post) (hx : x ∈ u.queue)
    {text : Text} {dwell : Nat} (hl : u.lines = .showing x.id text dwell) (hzero : x.effective = 0) :
    ∀ y ∈ pre ++ { e with repeatTimer := 0, due := true } :: post, u.shows y.id = true → y.effective = 0 := by
  have hshown (y : NoticeEntry) (hy : y ∈ u.queue) (hs : u.shows y.id = true) : y.effective = 0 := by
    have hid : x.id = y.id := by
      rw [NoticeUnit.shows, hl] at hs
      exact beq_iff_eq.mp hs
    exact queueLaw_unique hn hx hy hid ▸ hzero
  intro y hy hs
  rw [List.mem_append, List.mem_cons] at hy
  rcases hy with hy | rfl | hy
  · exact hshown y (by rw [hsplit]; simp [hy]) hs
  · exact hshown e (by rw [hsplit]; simp) hs
  · exact hshown y (by rw [hsplit]; simp [hy]) hs

/-- The entry whose repeat timer has reached 0. -/
abbrev NoticeEntry.woken (e : NoticeEntry) : NoticeEntry := { e with repeatTimer := 0, due := true }

theorem woken_legal (h : e.legal) : e.woken.legal := by
  obtain ⟨h1, h2, h3, -, h5, h6, h7⟩ := h
  exact ⟨h1, h2, h3, Nat.zero_le _, h5, h6, h7⟩

theorem repeatExpired_of_due (h : u.legal) (hsplit : u.queue = pre ++ e :: post) (hdue : e.due = true) :
    u.repeatExpired s e = Did.nothing { u with queue := pre ++ e.woken :: post } := by
  obtain ⟨⟨-, hn, -⟩, -⟩ := h
  rw [NoticeUnit.repeatExpired, if_pos hdue, replaceEntry_of_split (e := e.woken) hn hsplit rfl]

theorem repeatExpired_of_not_due (h : u.legal) (hsplit : u.queue = pre ++ e :: post) (hdue : e.due = false) :
    u.repeatExpired s e =
      NoticeUnit.preemptedAndSettled s { u with queue := pre ++ e.woken :: post } e.effective := by
  have hmem : e ∈ u.queue := by rw [hsplit]; simp
  have hlegal := kept_place_legal (e := e.woken) h hmem rfl rfl (woken_legal (h.1.2.2.2 e hmem))
  obtain ⟨⟨-, hn, -⟩, -⟩ := h
  rw [NoticeUnit.repeatExpired, hdue]
  change NoticeUnit.nowDue s _ _ = _
  rw [NoticeUnit.nowDue_eq hlegal, replaceEntry_of_split (e := e.woken) hn hsplit rfl]
  rfl

/-- The show in progress is kept where nothing of priority 0 has become due, or the show is itself of priority 0. -/
theorem preemptedAndSettled_of_keeps {p : Nat} {id : Nat} {text : Text} {dwell : Nat} (hl : u.lines = .showing id text dwell)
    (h : p ≠ 0 ∨ ∀ x ∈ u.queue, u.shows x.id = true → x.effective = 0) :
    u.preemptedAndSettled s p = Did.nothing u := by
  rw [NoticeUnit.preemptedAndSettled, preemptedBy_of_keeps h, Did.nothing_unit, settle_of_showing hl]
  rfl

end Ends

/-! ### The events -/

section Events

variable {s : State} {e : NoticeEntry} {id : Nat}

theorem exec_lifetimeExpiry_of_some (hfind : s.notice.find id = some e) (h : e.remaining ≠ none) :
    exec (.lifetimeExpiry id) s = .next (s.withNotice (s.notice.removeAndSettle s id)) := by
  obtain ⟨n, hn⟩ := Option.ne_none_iff_exists'.mp h
  change execLifetimeExpiry id s = _
  rw [execLifetimeExpiry, hfind, Option.bind_some, hn]

theorem exec_lifetimeExpiry_of_none (h : (s.notice.find id).bind (·.remaining) = none) :
    exec (.lifetimeExpiry id) s = .next s := by
  change execLifetimeExpiry id s = _
  rw [execLifetimeExpiry, h]

theorem exec_repeatTimerExpiry_of_some (hfind : s.notice.find id = some e) (h : e.repeatTimer ≠ 0) :
    exec (.repeatTimerExpiry id) s = .next (s.withNotice (s.notice.repeatExpired s e)) := by
  change execRepeatTimerExpiry id s = _
  rw [execRepeatTimerExpiry, hfind]
  exact if_neg h

theorem exec_repeatTimerExpiry_of_none (h : ∀ e, s.notice.find id = some e → e.repeatTimer = 0) :
    exec (.repeatTimerExpiry id) s = .next s := by
  change execRepeatTimerExpiry id s = _
  rw [execRepeatTimerExpiry]
  cases hfind : s.notice.find id with
  | none => rfl
  | some e => exact if_pos (h e hfind)

theorem exec_dwellEnd_of_showing {text : Text} {dwell : Nat} (hl : s.notice.lines = .showing id text dwell) :
    exec .dwellEnd s = .next (s.withNotice (s.notice.endCounted.andThen (NoticeUnit.settle s))) := by
  change execDwellEnd s = _
  rw [execDwellEnd, hl]

theorem exec_dwellEnd_of_idle (h : ∀ id text dwell, s.notice.lines ≠ .showing id text dwell) :
    exec .dwellEnd s = .next s := by
  change execDwellEnd s = _
  rw [execDwellEnd]
  cases hl : s.notice.lines with
  | showing id text dwell => exact absurd hl (h id text dwell)
  | blank => rfl
  | default => rfl

end Events

theorem exec_noticeCancel_of_short {payload : List Byte} {s : State} (h : payload.length < 2) :
    exec (.noticeCancel payload) s = .next (s.taken (.noticeCancel payload)) := if_pos h

theorem exec_noticeCancel_of_readable {payload : List Byte} {s : State} (h : 2 ≤ payload.length) :
    exec (.noticeCancel payload) s =
      if 65280 ≤ wordAt payload 0 2 then
        .next ((s.taken (.noticeCancel payload)).withNotice
          (Did.nothing { s.notice with rejected := count16 s.notice.rejected 1 }))
      else if (s.notice.find (wordAt payload 0 2)).isNone then .next (s.taken (.noticeCancel payload))
      else .next ((s.taken (.noticeCancel payload)).withNotice (s.notice.removeAndSettle s (wordAt payload 0 2))) :=
  if_neg (Nat.not_lt.mpr h)

/-- Settles O53. -/
theorem noticeEnds : Obligations.NoticeEnds := by
  intro s hlegal u without gone
  obtain ⟨⟨-, hn, -⟩, -⟩ := id hlegal
  have hgone {c : Instr} {announced : List Instr} {e : NoticeEntry} (he : e ∈ u.queue)
      (hexec : exec c s = .next { s with
        notice := (u.without s e.id).unit, announced := announced ++ (u.without s e.id).said }) :
      gone c announced e := by
    refine ⟨fun ⟨id, text, dwell, hne, hl⟩ => ?_, fun hidle => ?_, fun text dwell hl => ?_⟩
    · rw [hexec, without_of_quiet hlegal he (shows_of_other hl hne), settle_of_showing (u := u.lacking e.id) hl]
      simp only [Did.nothing, List.append_nil]
      rfl
    · rw [hexec, without_of_quiet hlegal he (shows_of_idle hidle e.id)]
      simp only [List.append_assoc]
      rfl
    · rw [hexec, without_of_shown hlegal he ((NoticeUnit.shows_iff e.id).mpr ⟨text, dwell, hl⟩)]
  have hmissing {id : Nat} (h : ∀ e ∈ u.queue, e.id ≠ id) : u.find id = none :=
    List.find?_eq_none.mpr fun e he => by simpa using h e he
  refine ⟨fun payload => ⟨exec_noticeCancel_of_short, fun hlen => ⟨fun hlocal => ?_, fun hbelow =>
      ⟨fun hnone => ?_, fun e he hid => ?_⟩⟩⟩, fun e he hlife => ?_, fun id hnone => ?_,
    fun pre e post hsplit htimer hshown => ?_, fun pre e post hsplit htimer => ⟨fun hdue => ?_, fun hdue => ?_⟩,
    fun id hnone => ?_, exec_dwellEnd_of_idle, fun e text dwell he hl => ?_⟩
  · rw [exec_noticeCancel_of_readable hlen, if_pos hlocal, State.withNotice_nothing]
    rfl
  · rw [exec_noticeCancel_of_readable hlen, if_neg (Nat.not_le.mpr hbelow), hmissing hnone]
    rfl
  · refine hgone he ?_
    rw [exec_noticeCancel_of_readable hlen, if_neg (Nat.not_le.mpr hbelow), ← hid, NoticeUnit.find_of_mem hn he,
      NoticeUnit.removeAndSettle_eq hlegal]
    rfl
  · refine hgone he ?_
    rw [exec_lifetimeExpiry_of_some (NoticeUnit.find_of_mem hn he) hlife, NoticeUnit.removeAndSettle_eq hlegal]
    rfl
  · refine exec_lifetimeExpiry_of_none (Option.bind_eq_none_iff.mpr fun e he => ?_)
    obtain ⟨hmem, hid⟩ := NoticeUnit.find_spec he
    exact hnone e hmem hid
  · obtain ⟨x, text, dwell, hx, hl, hkeeps⟩ := hshown
    have he : e ∈ u.queue := by rw [hsplit]; simp
    rw [exec_repeatTimerExpiry_of_some (NoticeUnit.find_of_mem hn he) (by omega)]
    cases hdue : e.due with
    | true => rw [repeatExpired_of_due hlegal hsplit hdue, State.withNotice_nothing]
    | false =>
      have hkeep := hkeeps.resolve_left (by simp [hdue])
      rw [repeatExpired_of_not_due hlegal hsplit hdue, preemptedAndSettled_of_keeps
        (u := { s.notice with queue := pre ++ e.woken :: post }) hl
        (hkeep.imp_right fun hzero => woken_shows_priority (u := s.notice) hn hsplit hx hl hzero), State.withNotice_nothing]
  · have he : e ∈ u.queue := by rw [hsplit]; simp
    rw [exec_repeatTimerExpiry_of_some (NoticeUnit.find_of_mem hn he) (by omega), repeatExpired_of_due hlegal hsplit hdue,
      State.withNotice_nothing]
  · have he : e ∈ u.queue := by rw [hsplit]; simp
    rw [exec_repeatTimerExpiry_of_some (NoticeUnit.find_of_mem hn he) (by omega),
      repeatExpired_of_not_due hlegal hsplit hdue]
    rfl
  · refine exec_repeatTimerExpiry_of_none fun e he => ?_
    obtain ⟨hmem, hid⟩ := NoticeUnit.find_spec he
    exact hnone e hmem hid
  · intro spent d
    have hunit : (s.notice.countedEnd e).unit = { (if spent = true then without e.id else u) with lines := .default } := by
      simp only [NoticeUnit.countedEnd, spent]
      split <;> rfl
    rw [exec_dwellEnd_of_showing hl, NoticeUnit.endCounted_eq hlegal he hl]
    simp only [State.withNotice, Did.andThen_unit, Did.andThen_said, hunit]
    rfl

end Sys2Proof.Machine
end

section
/-! PROOF. What the Notice Unit's operations leave of its queue (R150 to R154, R157, R162, R163): which entries stay, which
join, what else of the unit is unchanged, and that no entry's text is announced as changed. -/

namespace Sys2Proof.Machine

/-! ### The words -/

/-- An entry after a show has started: the same but for its due flag, its timer and its shows. -/
abbrev sameNotice (e e' : NoticeEntry) : Prop :=
  e' = { e with due := e'.due, repeatTimer := e'.repeatTimer, showsRemaining := e'.showsRemaining }

/-- The entries of a queue whose ids are not `gone` stay in another. -/
abbrev keepsEntries (gone : Nat → Prop) (q q' : List NoticeEntry) : Prop :=
  ∀ e ∈ q, ¬ gone e.id → ∃ e' ∈ q', sameNotice e e'

/-- No id stands in a queue that does not stand in another, or has `joined`. -/
abbrev addsOnly (joined : Nat → Prop) (q q' : List NoticeEntry) : Prop :=
  ∀ e' ∈ q', (∃ e ∈ q, e.id = e'.id) ∨ joined e'.id

/-- The portion, the default text and the basis are unchanged. -/
abbrev NoticeUnit.sameRest (u v : NoticeUnit) : Prop :=
  v.portion = u.portion ∧ v.defaultText = u.defaultText ∧ v.basis = u.basis

/-- No entry's text is announced as changed (R166). -/
abbrev noEntryNews (said : List Instr) : Prop := ∀ id, .noticeTextChange (.entry id) ∉ said

variable {s : State} {u v : NoticeUnit} {e x y : NoticeEntry} {q q' : List NoticeEntry} {gone joined : Nat → Prop}

theorem sameNotice_id (h : sameNotice e x) : x.id = e.id := by rw [h]

theorem sameNotice_trans (h : sameNotice e x) (h' : sameNotice x y) : sameNotice e y := by
  rw [sameNotice, h', h]

theorem keepsEntries_refl (q : List NoticeEntry) : keepsEntries gone q q := fun e he _ => ⟨e, he, rfl⟩

theorem keepsEntries_trans {q'' : List NoticeEntry} (h : keepsEntries gone q q') (h' : keepsEntries gone q' q'') :
    keepsEntries gone q q'' := by
  intro e he hstay
  obtain ⟨e', he', hsame⟩ := h e he hstay
  obtain ⟨e'', he'', hsame'⟩ := h' e' he' (sameNotice_id hsame ▸ hstay)
  exact ⟨e'', he'', sameNotice_trans hsame hsame'⟩

theorem keepsEntries_mono {gone' : Nat → Prop} (hg : ∀ i, gone i → gone' i) (h : keepsEntries gone q q') :
    keepsEntries gone' q q' := fun e he hstay => h e he fun hgone => hstay (hg _ hgone)

theorem addsOnly_of_ids (h : q'.map (·.id) = q.map (·.id)) : addsOnly joined q q' := by
  intro e' he'
  have hid : e'.id ∈ q.map (·.id) := h ▸ List.mem_map_of_mem he'
  exact .inl (List.mem_map.mp hid)

theorem addsOnly_trans {q'' : List NoticeEntry} (h : addsOnly joined q q') (h' : addsOnly joined q' q'') :
    addsOnly joined q q'' := by
  intro e'' he''
  rcases h' e'' he'' with ⟨e', he', hid⟩ | hjoin
  · exact hid ▸ h e' he'
  · exact .inr hjoin

theorem addsOnly_mono {joined' : Nat → Prop} (hj : ∀ i, joined i → joined' i) (h : addsOnly joined q q') :
    addsOnly joined' q q' := fun e he => (h e he).imp_right (hj _)

theorem noEntryNews_nil : noEntryNews [] := fun _ => List.not_mem_nil

theorem noEntryNews_append {l l' : List Instr} (h : noEntryNews l) (h' : noEntryNews l') : noEntryNews (l ++ l') :=
  fun id hmem => (List.mem_append.mp hmem).elim (h id) (h' id)

theorem noEntryNews_shown : noEntryNews [.noticeTextChange .current] := by simp [noEntryNews]

theorem noEntryNews_current (c : Prop) [Decidable c] : noEntryNews (if c then [.noticeTextChange .current] else []) := by
  intro id
  split <;> simp

theorem noEntryNews_overlayEnd (c : Prop) [Decidable c] (i : Nat) : noEntryNews (if c then [.overlayEnd i] else []) := by
  intro id
  split <;> simp

/-! ### The choice of the next show (R157) -/

theorem settle_cases (s : State) (u : NoticeUnit) :
    (∃ l, u.settle s = Did.nothing { u with lines := l }) ∨
      ∃ e l, e ∈ u.queue ∧ u.settle s =
        ⟨{ u with queue := replaceEntry u.queue e.started, lines := l }, [.noticeTextChange .current]⟩ := by
  by_cases hshow : ∃ id text dwell, u.lines = .showing id text dwell
  · obtain ⟨id, text, dwell, hl⟩ := hshow
    exact .inl ⟨u.lines, settle_of_showing hl⟩
  · have hidle : ∀ id text dwell, u.lines ≠ .showing id text dwell := fun id text dwell hl => hshow ⟨id, text, dwell, hl⟩
    cases hmode : s.mgmt.mode.dark with
    | true => exact .inl ⟨_, settle_of_dark hidle hmode⟩
    | false =>
      cases hdue : u.queue.find? (·.due) with
      | none => exact .inl ⟨_, settle_of_none_due hidle hmode hdue⟩
      | some e => exact .inr ⟨e, _, List.mem_of_find?_eq_some hdue, settle_of_due hidle hmode hdue⟩

theorem replaceEntry_ids (q : List NoticeEntry) (e : NoticeEntry) : (replaceEntry q e).map (·.id) = q.map (·.id) := by
  rw [replaceEntry, List.map_map]
  refine List.map_congr_left fun x _ => ?_
  rw [Function.comp_apply]
  split
  case isTrue h => exact h.symm
  case isFalse => rfl

theorem settle_ids (s : State) (u : NoticeUnit) : (u.settle s).unit.queue.map (·.id) = u.queue.map (·.id) := by
  rcases settle_cases s u with ⟨l, h⟩ | ⟨e, l, -, h⟩
  · rw [h]; rfl
  · rw [h]; exact replaceEntry_ids _ _

theorem settle_keeps (hn : (u.queue.map (·.id)).Nodup) : keepsEntries gone u.queue (u.settle s).unit.queue := by
  rcases settle_cases s u with ⟨l, h⟩ | ⟨e, l, he, h⟩
  · rw [h]
    exact keepsEntries_refl _
  · rw [h]
    intro x hx _
    refine ⟨_, List.mem_map_of_mem hx, ?_⟩
    split
    case isTrue hid =>
      obtain rfl : x = e := queueLaw_unique hn hx he hid
      rfl
    case isFalse => rfl

theorem settle_rest (s : State) (u : NoticeUnit) : u.sameRest (u.settle s).unit := by
  rcases settle_cases s u with ⟨l, h⟩ | ⟨e, l, -, h⟩ <;> rw [h] <;> exact ⟨rfl, rfl, rfl⟩

theorem settle_said (s : State) (u : NoticeUnit) : noEntryNews (u.settle s).said := by
  rcases settle_cases s u with ⟨l, h⟩ | ⟨e, l, -, h⟩ <;> rw [h]
  · exact noEntryNews_nil
  · exact noEntryNews_shown

/-! ### Removals (R154, R165) -/

theorem without_ids (s : State) (u : NoticeUnit) (id : Nat) :
    (u.without s id).unit.queue.map (·.id) = (u.queue.filter (fun e => e.id != id)).map (·.id) :=
  settle_ids s _

theorem without_keeps (hn : (u.queue.map (·.id)).Nodup) (id : Nat) :
    keepsEntries (· = id) u.queue (u.without s id).unit.queue := by
  intro e he hid
  have hstay : e ∈ u.queue.filter (fun e => e.id != id) := List.mem_filter.mpr ⟨he, bne_iff_ne.mpr hid⟩
  exact settle_keeps (gone := (· = id)) (hn.sublist (List.filter_sublist.map _)) e hstay hid

theorem mem_without {id : Nat} (h : e ∈ (u.without s id).unit.queue) : e.id ≠ id ∧ ∃ x ∈ u.queue, x.id = e.id := by
  have hid : e.id ∈ (u.queue.filter (fun e => e.id != id)).map (·.id) := without_ids s u id ▸ List.mem_map_of_mem h
  obtain ⟨x, hx, hxe⟩ := List.mem_map.mp hid
  obtain ⟨hmem, hne⟩ := List.mem_filter.mp hx
  exact ⟨hxe ▸ bne_iff_ne.mp hne, x, hmem, hxe⟩

theorem without_length_le (s : State) (u : NoticeUnit) (id : Nat) : (u.without s id).unit.queue.length ≤ u.queue.length := by
  have hlen := congrArg List.length (without_ids s u id)
  simp only [List.length_map] at hlen
  exact hlen ▸ List.length_filter_le _ _

theorem without_rest (s : State) (u : NoticeUnit) (id : Nat) : u.sameRest (u.without s id).unit :=
  settle_rest s { u with queue := u.queue.filter (fun e => e.id != id)
                         lines := if u.shows id then .default else u.lines }

theorem without_said (s : State) (u : NoticeUnit) (id : Nat) : noEntryNews (u.without s id).said :=
  noEntryNews_append (noEntryNews_append (noEntryNews_current _) (noEntryNews_overlayEnd _ _)) (settle_said s _)

theorem withoutAll_legal (h : u.legal) (ids : List Nat) : (u.withoutAll s ids).unit.legal := by
  induction ids generalizing u with
  | nil => exact h
  | cons id ids ih => exact ih (NoticeUnit.without_legal h id)

theorem withoutAll_keeps (h : u.legal) (ids : List Nat) :
    keepsEntries (· ∈ ids) u.queue (u.withoutAll s ids).unit.queue := by
  induction ids generalizing u with
  | nil => exact keepsEntries_refl _
  | cons id ids ih =>
    have hfirst := keepsEntries_mono (gone' := (· ∈ id :: ids)) (fun i hi => List.mem_cons.mpr (.inl hi))
      (without_keeps (s := s) h.1.2.1 id)
    exact keepsEntries_trans hfirst (keepsEntries_mono (fun i hi => List.mem_cons.mpr (.inr hi))
      (ih (NoticeUnit.without_legal h id)))

theorem mem_withoutAll {ids : List Nat} (h : e ∈ (u.withoutAll s ids).unit.queue) :
    e.id ∉ ids ∧ ∃ x ∈ u.queue, x.id = e.id := by
  induction ids generalizing u with
  | nil => exact ⟨List.not_mem_nil, e, h, rfl⟩
  | cons id ids ih =>
    obtain ⟨hrest, x, hx, hxe⟩ := ih h
    obtain ⟨hne, y, hy, hyx⟩ := mem_without hx
    exact ⟨fun hmem => (List.mem_cons.mp hmem).elim (fun hid => hne (hxe.trans hid)) hrest, y, hy, hyx.trans hxe⟩

theorem withoutAll_length_le (s : State) (u : NoticeUnit) (ids : List Nat) :
    (u.withoutAll s ids).unit.queue.length ≤ u.queue.length := by
  induction ids generalizing u with
  | nil => exact le_rfl
  | cons id ids ih => exact (ih _).trans (without_length_le s u id)

theorem withoutAll_rest (s : State) (u : NoticeUnit) (ids : List Nat) : u.sameRest (u.withoutAll s ids).unit := by
  induction ids generalizing u with
  | nil => exact ⟨rfl, rfl, rfl⟩
  | cons id ids ih =>
    obtain ⟨h1, h2, h3⟩ := without_rest s u id
    obtain ⟨h1', h2', h3'⟩ := ih (u.without s id).unit
    exact ⟨h1'.trans h1, h2'.trans h2, h3'.trans h3⟩

/-! ### Texts rebuilt (R163) -/

theorem renewed_id (s : State) (e : NoticeEntry) : (e.renewed s).id = e.id := by
  unfold NoticeEntry.renewed
  split <;> rfl

theorem renewed_effective (s : State) (e : NoticeEntry) : (e.renewed s).effective = e.effective := by
  unfold NoticeEntry.renewed
  split <;> rfl

theorem localTextNow_of_local (s : State) (k : ApproachKind) :
    localTextNow s (localId k) = some (localText s.tables s.reck.progress k) := by
  cases k <;> rfl

theorem renewed_of_local {k : ApproachKind} (h : e.id = localId k) :
    (e.renewed s).text = .inlined (localText s.tables s.reck.progress k) := by
  rw [NoticeEntry.renewed, h, localTextNow_of_local]

theorem renewed_of_other (h : ∀ k, e.id ≠ localId k) : e.renewed s = e := by
  have hcalling : e.id ≠ 65281 := h .calling
  have hclosed : e.id ≠ 65282 := h .closedDoor
  simp [NoticeEntry.renewed, localTextNow, hcalling, hclosed]

theorem rebuilt_queue (s : State) (u : NoticeUnit) : (u.rebuilt s).unit.queue = u.queue.map (NoticeEntry.renewed s) := by
  unfold NoticeUnit.rebuilt
  dsimp only
  repeat' split
  all_goals rfl

theorem rebuilt_rest (s : State) (u : NoticeUnit) : u.sameRest (u.rebuilt s).unit := by
  unfold NoticeUnit.rebuilt
  dsimp only
  repeat' split
  all_goals exact ⟨rfl, rfl, rfl⟩

theorem rebuilt_said (s : State) (u : NoticeUnit) : noEntryNews (u.rebuilt s).said := by
  unfold NoticeUnit.rebuilt
  dsimp only
  repeat' split
  all_goals simp [noEntryNews]

theorem rebuilt_ids (s : State) (u : NoticeUnit) : (u.rebuilt s).unit.queue.map (·.id) = u.queue.map (·.id) := by
  rw [rebuilt_queue, List.map_map]
  exact List.map_congr_left fun e _ => renewed_id s e

theorem rebuilt_keeps (s : State) (u : NoticeUnit) :
    keepsEntries (fun i => ∃ k, i = localId k) u.queue (u.rebuilt s).unit.queue := by
  intro e he hother
  rw [rebuilt_queue]
  exact ⟨e, List.mem_map.mpr ⟨e, he, renewed_of_other fun k hk => hother ⟨k, hk⟩⟩, rfl⟩

/-! ### A local notice offered (R151 to R153, R162) -/

/-- The notice stands in a queue, with its priority and its text. -/
abbrev holdsNotice (x : NoticeEntry) (q : List NoticeEntry) : Prop :=
  ∃ e ∈ q, e.id = x.id ∧ e.effective = x.effective ∧ e.text = x.text

/-- An entry of a new or an old id put into a queue, and then the choice. -/
theorem settled_with (hn : ((v.settle s).unit.queue.map (·.id)).Nodup) (hx : x ∈ v.queue)
    (hstay : ∀ e ∈ q, e.id ≠ x.id → e ∈ v.queue) (honly : ∀ e ∈ v.queue, e.id = x.id ∨ e ∈ q) :
    keepsEntries (· = x.id) q (v.settle s).unit.queue ∧ addsOnly (· = x.id) q (v.settle s).unit.queue ∧
      holdsNotice x (v.settle s).unit.queue := by
  have hkeep : keepsEntries (fun _ => False) v.queue (v.settle s).unit.queue := settle_keeps (settle_ids s v ▸ hn)
  have hids : addsOnly (fun _ => False) v.queue (v.settle s).unit.queue := addsOnly_of_ids (settle_ids s v)
  refine ⟨fun e he hne => hkeep e (hstay e he hne) id, fun e' he' => ?_, ?_⟩
  · obtain ⟨e, he, hid⟩ := (hids e' he').resolve_right id
    exact (honly e he).elim (fun h => .inr (hid ▸ h)) fun h => .inl ⟨e, h, hid⟩
  · obtain ⟨x', hx', hsame⟩ := hkeep x hx id
    exact ⟨x', hx', by rw [hsame], by rw [hsame], by rw [hsame]⟩

/-- The queue of R151 with a local notice in it: after those of its priority. -/
abbrev placedLocal (q : List NoticeEntry) (y : NoticeEntry) : List NoticeEntry :=
  q.filter (fun e => e.effective ≤ 1) ++ y :: q.filter (fun e => 1 < e.effective)

theorem mem_placedLocal : e ∈ placedLocal q y ↔ e = y ∨ e ∈ q := by
  simp only [placedLocal, List.mem_append, List.mem_cons, List.mem_filter, decide_eq_true_eq]
  constructor
  · rintro (⟨h, -⟩ | h | ⟨h, -⟩)
    · exact .inr h
    · exact .inl h
    · exact .inr h
  · rintro (h | h)
    · exact .inr (.inl h)
    · exact (Nat.lt_or_ge 1 e.effective).elim (fun hlt => .inr (.inr ⟨h, hlt⟩)) fun hle => .inl ⟨h, hle⟩

/-- The queue of an update by a local notice (R153). -/
abbrev updatedLocal (q : List NoticeEntry) (old y : NoticeEntry) : List NoticeEntry :=
  if old.effective = 1 then q.map (fun e => if e.id = y.id then y else e)
  else placedLocal (q.filter (fun e => e.id != y.id)) y

theorem mem_updatedLocal {old : NoticeEntry} (hold : old ∈ q) (hid : old.id = y.id) :
    y ∈ updatedLocal q old y ∧ (∀ e ∈ q, e.id ≠ y.id → e ∈ updatedLocal q old y) ∧
      ∀ e ∈ updatedLocal q old y, e.id = y.id ∨ e ∈ q := by
  unfold updatedLocal
  split
  case isTrue =>
    refine ⟨List.mem_map.mpr ⟨old, hold, if_pos hid⟩, fun e he hne => List.mem_map.mpr ⟨e, he, if_neg hne⟩, fun e he => ?_⟩
    obtain ⟨e', he', rfl⟩ := List.mem_map.mp he
    split
    · exact .inl rfl
    · exact .inr he'
  case isFalse =>
    refine ⟨mem_placedLocal.mpr (.inl rfl),
      fun e he hne => mem_placedLocal.mpr (.inr (List.mem_filter.mpr ⟨he, bne_iff_ne.mpr hne⟩)), fun e he => ?_⟩
    rcases mem_placedLocal.mp he with rfl | h
    · exact .inl rfl
    · exact .inr (List.mem_filter.mp h).1

section OfferedLocal

theorem offeredLocal_legal (h : u.legal) (hx : x.legal) (hp : x.effective = 1) (hw : x.overlayWanted = false) :
    (u.offeredLocal s x).unit.legal := by
  rw [← NoticeUnit.offer_local h hp hw]
  exact NoticeUnit.offer_legal h hx

theorem offeredLocal_of_queued {old : NoticeEntry} (hfind : u.queue.find? (fun e => e.id == x.id) = some old) :
    ∃ v said, noEntryNews said ∧ v.queue = updatedLocal u.queue old { x with repeatTimer := old.repeatTimer } ∧
      u.sameRest v ∧ u.offeredLocal s x = ⟨(v.settle s).unit, said ++ (v.settle s).said⟩ := by
  simp only [NoticeUnit.offeredLocal, hfind]
  split
  · exact ⟨{ u with queue := updatedLocal u.queue old { x with repeatTimer := old.repeatTimer }, lines := .default },
      (if old.overlayWanted then [.overlayEnd x.id] else []) ++ [.noticeTextChange .current],
      noEntryNews_append (noEntryNews_overlayEnd _ _) noEntryNews_shown, rfl, ⟨rfl, rfl, rfl⟩, rfl⟩
  · exact ⟨{ u with queue := updatedLocal u.queue old { x with repeatTimer := old.repeatTimer } },
      (if old.overlayWanted then [.overlayEnd x.id] else []), noEntryNews_overlayEnd _ _, rfl, ⟨rfl, rfl, rfl⟩, rfl⟩

theorem offeredLocal_of_room (hfind : u.queue.find? (fun e => e.id == x.id) = none) (hroom : u.queue.length < 16) :
    u.offeredLocal s x =
      ⟨(NoticeUnit.settle s { u with queue := placedLocal u.queue x }).unit,
        [] ++ (NoticeUnit.settle s { u with queue := placedLocal u.queue x }).said⟩ := by
  simp only [NoticeUnit.offeredLocal, hfind, hroom, if_true]

/-- A full queue: an eviction and an admission, or a drop (R152). -/
theorem offeredLocal_of_full (hfind : u.queue.find? (fun e => e.id == x.id) = none) (hfull : ¬ u.queue.length < 16) :
    (∃ id, let left := NoticeUnit.without s { u with dropped := min 65535 (u.dropped + 1) } id
        let v : NoticeUnit := { left.unit with queue := placedLocal left.unit.queue x }
        u.offeredLocal s x = ⟨(v.settle s).unit, left.said ++ (v.settle s).said⟩) ∨
      u.offeredLocal s x = ⟨{ u with dropped := min 65535 (u.dropped + 1) }, []⟩ := by
  simp only [NoticeUnit.offeredLocal, hfind, hfull, if_false]
  cases u.queue.getLast? with
  | none => exact .inr rfl
  | some last =>
    dsimp only
    split
    · exact .inl ⟨last.id, rfl⟩
    · exact .inr rfl

/-- What offering a local notice does: nothing joins but its id; with room, the others stay and it is there. -/
theorem offeredLocal_spec (h : u.legal) (hx : x.legal) (hp : x.effective = 1) (hw : x.overlayWanted = false) :
    addsOnly (· = x.id) u.queue (u.offeredLocal s x).unit.queue ∧
      (u.queue.length < 16 → keepsEntries (· = x.id) u.queue (u.offeredLocal s x).unit.queue ∧
        holdsNotice x (u.offeredLocal s x).unit.queue) ∧
      u.sameRest (u.offeredLocal s x).unit ∧ noEntryNews (u.offeredLocal s x).said := by
  have hn := (offeredLocal_legal (s := s) h hx hp hw).1.2.1
  cases hfind : u.queue.find? (fun e => e.id == x.id) with
  | some old =>
    obtain ⟨v, said, hsaid, hq, hrest, hoffer⟩ := offeredLocal_of_queued (s := s) hfind
    rw [hoffer] at hn ⊢
    obtain ⟨hnew, hstay, honly⟩ := mem_updatedLocal (y := { x with repeatTimer := old.repeatTimer })
      (List.mem_of_find?_eq_some hfind) (by simpa using List.find?_some hfind)
    rw [← hq] at hnew hstay honly
    obtain ⟨hkeep, hadd, hhold⟩ := settled_with hn hnew hstay honly
    obtain ⟨r1, r2, r3⟩ := settle_rest s v
    exact ⟨hadd, fun _ => ⟨hkeep, hhold⟩, ⟨r1.trans hrest.1, r2.trans hrest.2.1, r3.trans hrest.2.2⟩,
      noEntryNews_append hsaid (settle_said s v)⟩
  | none =>
    by_cases hroom : u.queue.length < 16
    case pos =>
      rw [offeredLocal_of_room hfind hroom] at hn ⊢
      obtain ⟨hkeep, hadd, hhold⟩ := settled_with (q := u.queue) hn (mem_placedLocal.mpr (.inl rfl))
        (fun e he _ => mem_placedLocal.mpr (.inr he))
        fun e he => (mem_placedLocal.mp he).imp_left (congrArg NoticeEntry.id)
      exact ⟨hadd, fun _ => ⟨hkeep, hhold⟩, settle_rest s _, noEntryNews_append noEntryNews_nil (settle_said s _)⟩
    case neg =>
      rcases offeredLocal_of_full (s := s) hfind hroom with ⟨id, hoffer⟩ | hoffer
      · rw [hoffer] at hn ⊢
        obtain ⟨-, hadd, -⟩ := settled_with
          (q := (NoticeUnit.without s { u with dropped := min 65535 (u.dropped + 1) } id).unit.queue) hn
          (mem_placedLocal.mpr (.inl rfl)) (fun e he _ => mem_placedLocal.mpr (.inr he))
          fun e he => (mem_placedLocal.mp he).imp_left (congrArg NoticeEntry.id)
        have hleft : addsOnly (· = x.id) u.queue
            (NoticeUnit.without s { u with dropped := min 65535 (u.dropped + 1) } id).unit.queue :=
          fun e he => .inl (mem_without he).2
        obtain ⟨l1, l2, l3⟩ := without_rest s { u with dropped := min 65535 (u.dropped + 1) } id
        obtain ⟨r1, r2, r3⟩ := settle_rest s {
          (NoticeUnit.without s { u with dropped := min 65535 (u.dropped + 1) } id).unit with
          queue := placedLocal (NoticeUnit.without s { u with dropped := min 65535 (u.dropped + 1) } id).unit.queue x }
        exact ⟨addsOnly_trans hleft hadd, fun hlt => absurd hlt hroom, ⟨r1.trans l1, r2.trans l2, r3.trans l3⟩,
          noEntryNews_append (without_said s _ id) (settle_said s _)⟩
      · rw [hoffer]
        exact ⟨addsOnly_of_ids rfl, fun hlt => absurd hlt hroom, ⟨rfl, rfl, rfl⟩, noEntryNews_nil⟩

end OfferedLocal

end Sys2Proof.Machine
end

section
/-! PROOF. The local notices kept in step with the approach in force: their texts rebuilt while it stays, the old one removed
and the new one offered when it moves (R162, R163). -/

namespace Sys2Proof.Machine
variable {s : State} {u v : NoticeUnit} {e x : NoticeEntry} {q q' : List NoticeEntry} {k : ApproachKind}

/-! ### The words -/

/-- An id of a local notice. -/
abbrev isLocal (i : Nat) : Prop := ∃ k, i = localId k

/-- The id of the notice of the approach in force, where the approach is not the basis. -/
abbrev NoticeUnit.newLocal (s : State) (u : NoticeUnit) (i : Nat) : Prop :=
  ∃ a, s.reck.progress.inForce = some a ∧ u.basis ≠ s.reck.progress.inForce ∧ i = localId a.kind

/-- The local notices of a queue are in step with the approach in force (R162). -/
abbrev NoticeUnit.inStep (s : State) (u : NoticeUnit) (q : List NoticeEntry) : Prop :=
  (s.reck.progress.inForce = none → ∀ a, u.basis = some a → ∀ e ∈ q, e.id ≠ localId a.kind) ∧
  (∀ a b, u.basis = some a → s.reck.progress.inForce = some b → a.kind ≠ b.kind → ∀ e ∈ q, e.id ≠ localId a.kind) ∧
  (∀ a, s.reck.progress.inForce = some a → u.basis ≠ s.reck.progress.inForce → u.queue.length < 16 →
    ∃ e ∈ q, e.id = localId a.kind ∧ e.effective = 1 ∧ e.text = .inlined (localText s.tables s.reck.progress a.kind))

theorem localId_injective : Function.Injective localId := by
  intro k k' h
  cases k <;> cases k' <;> simp_all [localId]

/-! ### The approach unchanged: the texts rebuilt (R163) -/

theorem renewed_eq (s : State) (e : NoticeEntry) : e.renewed s =
    if e.id = 65281 then { e with text := .inlined (localText s.tables s.reck.progress .calling) }
    else if e.id = 65282 then { e with text := .inlined (localText s.tables s.reck.progress .closedDoor) } else e := by
  by_cases hcalling : e.id = 65281
  · simp [NoticeEntry.renewed, localTextNow, hcalling]
  · by_cases hclosed : e.id = 65282
    · simp [NoticeEntry.renewed, localTextNow, hclosed]
    · simp [NoticeEntry.renewed, localTextNow, hcalling, hclosed]

theorem renewed_changed (h : (e.renewed s).text ≠ e.text) : ∃ k, e.id = localId k := by
  by_contra hno
  exact h (congrArg NoticeEntry.text (renewed_of_other fun k hk => hno ⟨k, hk⟩))

theorem find?_shown (hn : (u.queue.map (·.id)).Nodup) (he : e ∈ u.queue) {text : Text} {dwell : Nat}
    (hl : u.lines = .showing e.id text dwell) : u.queue.find? (fun x => u.shows x.id) = some e := by
  rw [← NoticeUnit.find_of_mem hn he, NoticeUnit.find]
  congr 1
  funext y
  simp [NoticeUnit.shows, hl, Bool.beq_comm]

theorem rebuilt_of_local {text : Text} {dwell : Nat} (hn : (u.queue.map (·.id)).Nodup) (he : e ∈ u.queue)
    (hl : u.lines = .showing e.id text dwell) (hk : e.id = localId k) :
    u.rebuilt s = if e.text = .inlined (localText s.tables s.reck.progress k) then
        ⟨{ u with queue := u.queue.map (NoticeEntry.renewed s) }, []⟩
      else
        ⟨{ u with queue := u.queue.map (NoticeEntry.renewed s)
                  lines := .showing e.id (localText s.tables s.reck.progress k) dwell }, [.noticeTextChange .current]⟩ := by
  have hnow : localTextNow s e.id = some (localText s.tables s.reck.progress k) := by rw [hk, localTextNow_of_local]
  simp only [NoticeUnit.rebuilt, hl, find?_shown hn he hl, hnow]

/-- The lines show a local notice whose text changes: they take the new text at once (R163). -/
theorem rebuilt_of_shown {text : Text} {dwell : Nat} (hn : (u.queue.map (·.id)).Nodup) (he : e ∈ u.queue)
    (hl : u.lines = .showing e.id text dwell) (hchange : (e.renewed s).text ≠ e.text) :
    ∃ k, e.id = localId k ∧ u.rebuilt s =
      ⟨{ u with queue := u.queue.map (NoticeEntry.renewed s)
                lines := .showing e.id (localText s.tables s.reck.progress k) dwell }, [.noticeTextChange .current]⟩ := by
  obtain ⟨k, hk⟩ := renewed_changed hchange
  rw [renewed_of_local hk] at hchange
  exact ⟨k, hk, (rebuilt_of_local hn he hl hk).trans (if_neg (Ne.symm hchange))⟩

/-- The lines show no local notice whose text changes: they stay as they are. -/
theorem rebuilt_of_unchanged (h : u.legal)
    (hsame : ∀ e text dwell, e ∈ u.queue → u.lines = .showing e.id text dwell → (e.renewed s).text = e.text) :
    u.rebuilt s = ⟨{ u with queue := u.queue.map (NoticeEntry.renewed s) }, []⟩ := by
  by_cases hshow : ∃ id text dwell, u.lines = .showing id text dwell
  · obtain ⟨id, text, dwell, hl⟩ := hshow
    obtain ⟨e, he, rfl⟩ := NoticeUnit.showing_mem h hl
    by_cases hlocal : ∃ k, e.id = localId k
    · obtain ⟨k, hk⟩ := hlocal
      have htext := hsame e text dwell he hl
      rw [renewed_of_local hk] at htext
      exact (rebuilt_of_local h.1.2.1 he hl hk).trans (if_pos htext.symm)
    · have hnow : localTextNow s e.id = none := by
        have hcalling : e.id ≠ 65281 := fun hid => hlocal ⟨.calling, hid⟩
        have hclosed : e.id ≠ 65282 := fun hid => hlocal ⟨.closedDoor, hid⟩
        simp [localTextNow, hcalling, hclosed]
      simp only [NoticeUnit.rebuilt, hl, find?_shown h.1.2.1 he hl, hnow]
  · cases hl : u.lines with
    | showing id text dwell => exact absurd ⟨id, text, dwell, hl⟩ hshow
    | blank => simp only [NoticeUnit.rebuilt, hl]
    | default => simp only [NoticeUnit.rebuilt, hl]

theorem reconciled_of_same (h : s.reck.progress.inForce = u.basis) : u.reconciled s = u.rebuilt s := if_pos h

/-! ### The approach moved: the old notice removed, the new one offered (R162) -/

/-- The notice of the basis removed. -/
abbrev NoticeUnit.withoutOld (s : State) (u : NoticeUnit) : Did NoticeUnit :=
  u.basis.elim ⟨u, []⟩ fun a => u.without s (localId a.kind)

/-- The notice of the approach in force offered. -/
abbrev NoticeUnit.withNew (s : State) (u : NoticeUnit) : Did NoticeUnit :=
  s.reck.progress.inForce.elim ⟨u, []⟩ fun a => u.offeredLocal s (localEntry s.tables s.reck.progress a.kind)

theorem reconciled_of_moved (h : s.reck.progress.inForce ≠ u.basis) : u.reconciled s =
    ⟨{ ((u.withoutOld s).unit.withNew s).unit with basis := s.reck.progress.inForce },
      (u.withoutOld s).said ++ ((u.withoutOld s).unit.withNew s).said⟩ := by
  unfold NoticeUnit.reconciled NoticeUnit.withNew NoticeUnit.withoutOld
  dsimp only
  rw [if_neg h]
  cases u.basis <;> cases s.reck.progress.inForce <;> rfl

theorem withoutOld_legal (h : u.legal) : (u.withoutOld s).unit.legal := by
  unfold NoticeUnit.withoutOld
  cases u.basis with
  | none => exact h
  | some a => exact NoticeUnit.without_legal h _

theorem withoutOld_keeps (h : u.legal) : keepsEntries isLocal u.queue (u.withoutOld s).unit.queue := by
  unfold NoticeUnit.withoutOld
  cases u.basis with
  | none => exact keepsEntries_refl _
  | some a => exact keepsEntries_mono (fun i hi => ⟨a.kind, hi⟩) (without_keeps h.1.2.1 _)

theorem withoutOld_adds (s : State) (u : NoticeUnit) :
    addsOnly (fun _ => False) u.queue (u.withoutOld s).unit.queue := by
  unfold NoticeUnit.withoutOld
  cases u.basis with
  | none => exact addsOnly_of_ids rfl
  | some a => exact fun e he => .inl (mem_without he).2

theorem mem_withoutOld {a : Approach} (h : e ∈ (u.withoutOld s).unit.queue) (hb : u.basis = some a) :
    e.id ≠ localId a.kind := by
  rw [NoticeUnit.withoutOld, hb] at h
  exact (mem_without h).1

theorem withoutOld_length_le (s : State) (u : NoticeUnit) : (u.withoutOld s).unit.queue.length ≤ u.queue.length := by
  unfold NoticeUnit.withoutOld
  cases u.basis with
  | none => exact le_rfl
  | some a => exact without_length_le s u _

theorem withoutOld_rest (s : State) (u : NoticeUnit) : u.sameRest (u.withoutOld s).unit := by
  unfold NoticeUnit.withoutOld
  cases u.basis with
  | none => exact ⟨rfl, rfl, rfl⟩
  | some a => exact without_rest s u _

theorem withoutOld_said (s : State) (u : NoticeUnit) : noEntryNews (u.withoutOld s).said := by
  unfold NoticeUnit.withoutOld
  cases u.basis with
  | none => exact noEntryNews_nil
  | some a => exact without_said s u _

theorem withNew_spec (h : v.legal) :
    addsOnly (fun i => ∃ a, s.reck.progress.inForce = some a ∧ i = localId a.kind) v.queue (v.withNew s).unit.queue ∧
      (v.queue.length < 16 → keepsEntries isLocal v.queue (v.withNew s).unit.queue ∧
        ∀ a, s.reck.progress.inForce = some a →
          holdsNotice (localEntry s.tables s.reck.progress a.kind) (v.withNew s).unit.queue) ∧
      v.sameRest (v.withNew s).unit ∧ noEntryNews (v.withNew s).said := by
  unfold NoticeUnit.withNew
  cases s.reck.progress.inForce with
  | none => exact ⟨addsOnly_of_ids rfl, fun _ => ⟨keepsEntries_refl _, nofun⟩, ⟨rfl, rfl, rfl⟩, noEntryNews_nil⟩
  | some a =>
    obtain ⟨hadd, hroom, hrest, hsaid⟩ := offeredLocal_spec (s := s) h
      (localEntry_legal s.tables s.reck.progress a.kind) rfl rfl
    refine ⟨addsOnly_mono (fun i hi => ⟨a, rfl, hi⟩) hadd, fun hlt => ?_, hrest, hsaid⟩
    obtain ⟨hkeep, hhold⟩ := hroom hlt
    exact ⟨keepsEntries_mono (fun i hi => ⟨a.kind, hi⟩) hkeep, fun b hb => Option.some.inj hb ▸ hhold⟩

/-! ### Both (R162) -/

/-- What keeping in step leaves of the unit. -/
theorem reconciled_rest (h : u.legal) :
    (u.reconciled s).unit.basis = s.reck.progress.inForce ∧ (u.reconciled s).unit.portion = u.portion ∧
      (u.reconciled s).unit.defaultText = u.defaultText ∧ noEntryNews (u.reconciled s).said := by
  by_cases hsame : s.reck.progress.inForce = u.basis
  · rw [reconciled_of_same hsame]
    obtain ⟨hportion, htext, hbasis⟩ := rebuilt_rest s u
    exact ⟨hbasis.trans hsame.symm, hportion, htext, rebuilt_said s u⟩
  · rw [reconciled_of_moved hsame]
    obtain ⟨hportion, htext, -⟩ := withoutOld_rest s u
    obtain ⟨-, -, ⟨hportion', htext', -⟩, hsaid⟩ := withNew_spec (s := s) (withoutOld_legal (s := s) h)
    exact ⟨rfl, hportion'.trans hportion, htext'.trans htext, noEntryNews_append (withoutOld_said s u) hsaid⟩

theorem reconciled_adds (h : u.legal) : addsOnly (u.newLocal s) u.queue (u.reconciled s).unit.queue := by
  by_cases hsame : s.reck.progress.inForce = u.basis
  · rw [reconciled_of_same hsame]
    exact addsOnly_of_ids (rebuilt_ids s u)
  · rw [reconciled_of_moved hsame]
    obtain ⟨hadd, -⟩ := withNew_spec (s := s) (withoutOld_legal (s := s) h)
    exact addsOnly_trans (addsOnly_mono (fun _ => False.elim) (withoutOld_adds s u))
      (addsOnly_mono (fun i ⟨a, ha, hi⟩ => ⟨a, ha, Ne.symm hsame, hi⟩) hadd)

theorem reconciled_keeps (h : u.legal) (hroom : u.queue.length < 16) :
    keepsEntries isLocal u.queue (u.reconciled s).unit.queue := by
  by_cases hsame : s.reck.progress.inForce = u.basis
  · rw [reconciled_of_same hsame]
    exact rebuilt_keeps s u
  · rw [reconciled_of_moved hsame]
    obtain ⟨-, hnew, -⟩ := withNew_spec (s := s) (withoutOld_legal (s := s) h)
    exact keepsEntries_trans (withoutOld_keeps h) (hnew ((withoutOld_length_le s u).trans_lt hroom)).1

theorem reconciled_inStep (h : u.legal) : u.inStep s (u.reconciled s).unit.queue := by
  by_cases hsame : s.reck.progress.inForce = u.basis
  · exact ⟨fun hnone a ha => (by simp [hnone, ha] at hsame), fun a b ha hb hne => (by simp_all),
      fun a _ hne => absurd hsame.symm hne⟩
  · rw [reconciled_of_moved hsame]
    obtain ⟨hadd, hnew, -⟩ := withNew_spec (s := s) (withoutOld_legal (s := s) h)
    refine ⟨fun hnone a ha e he => ?_, fun a b ha hb hne e he => ?_, fun a ha _ hroom => ?_⟩
    · rcases hadd e he with ⟨x, hx, hid⟩ | ⟨b, hb, -⟩
      · exact hid ▸ mem_withoutOld hx ha
      · simp [hnone] at hb
    · rcases hadd e he with ⟨x, hx, hid⟩ | ⟨b', hb', hid⟩
      · exact hid ▸ mem_withoutOld hx ha
      · obtain rfl : b' = b := Option.some.inj (hb'.symm.trans hb)
        exact fun hid' => hne (localId_injective (hid'.symm.trans hid))
    · exact (hnew ((withoutOld_length_le s u).trans_lt hroom)).2 a ha

/-- A rebuild of the texts leaves the local notices in step. -/
theorem inStep_renewed (h : u.inStep s q) : u.inStep s (q.map (NoticeEntry.renewed s)) := by
  obtain ⟨hended, hother, hnew⟩ := h
  have absent {i : Nat} (hq : ∀ e ∈ q, e.id ≠ i) : ∀ e ∈ q.map (NoticeEntry.renewed s), e.id ≠ i := by
    intro e he
    obtain ⟨x, hx, rfl⟩ := List.mem_map.mp he
    rw [renewed_id]
    exact hq x hx
  refine ⟨fun hnone a ha => absent (hended hnone a ha), fun a b ha hb hne => absent (hother a b ha hb hne),
    fun a ha hne hroom => ?_⟩
  obtain ⟨e, he, hid, heff, -⟩ := hnew a ha hne hroom
  exact ⟨_, List.mem_map_of_mem he, (renewed_id s e).trans hid, (renewed_effective s e).trans heff,
    renewed_of_local hid⟩

end Sys2Proof.Machine
end

section
/-! PROOF. The announcements of other blocks at the Notice Unit (R160 to R163, R165, R166), each as an equation of the whole
state, with what it leaves of the queue; and the texts it builds (R81, R161, R163). -/

namespace Sys2Proof.Machine
variable {s : State} {u v : NoticeUnit} {e x : NoticeEntry} {q q' : List NoticeEntry} {k : ApproachKind}

/-! ### The texts (R81, R161, R163) -/

theorem joinParts_eq (parts : List Text) :
    joinParts parts = List.intercalate [0x20#8] (parts.filter (fun p => p != [])) := by
  have hempty : (fun p : Text => !p.isEmpty) = (fun p => p != []) := by
    funext p
    cases p <;> rfl
  rw [joinParts, hempty]
  rfl

/-- The empty parts leave no trace (R81). -/
theorem joinParts_append_filter (ps qs : List Text) :
    joinParts (ps ++ qs.filter (fun p => !p.isEmpty)) = joinParts (ps ++ qs) := by
  simp only [joinParts, List.filter_append, List.filter_filter, Bool.and_self]

theorem connections_eq (t : TableStore) (o : Option Nat) : t.connections o =
    ((o.bind t.entry).elim [] fun e => e.notes.map (fun id => t.string id.toNat)).filter (fun p => !p.isEmpty) := by
  unfold TableStore.connections
  cases o.bind t.entry <;> rfl

theorem longName_eq (t : TableStore) (o : Option Nat) : t.longName o = (o.bind t.entry).elim [] RouteEntry.longName := by
  unfold TableStore.longName
  cases o.bind t.entry <;> rfl

theorem digitChar_of_lt {n : Nat} (h : n < 10) : digitChar n = BitVec.ofNat 8 (48 + n) := by
  rw [digitChar, Nat.mod_eq_of_lt h]

theorem digitChar_mod (n : Nat) : digitChar n = BitVec.ofNat 8 (48 + n % 10) := rfl

theorem hhmm_eq {m : Nat} (h : m < 1440) :
    hhmm m = [m / 600, m / 60 % 10, 10, m % 60 / 10, m % 10].map (fun d => BitVec.ofNat 8 (48 + d)) := by
  have hours : m / 60 / 10 = m / 600 := Nat.div_div_eq_div_mul m 60 10
  have minute : m % 60 % 10 = m % 10 := Nat.mod_mod_of_dvd m (by decide)
  rw [hhmm, hours, digitChar_of_lt (n := m / 600) (by omega), digitChar_of_lt (n := m % 60 / 10) (by omega),
    digitChar_mod (m / 60), digitChar_mod (m % 60), minute]
  rfl

theorem decimal_eq {n : Nat} (h : n < 1000) : decimal n =
    (if n < 10 then [n] else if n < 100 then [n / 10, n % 10] else [n / 100, n / 10 % 10, n % 10]).map
      (fun d => BitVec.ofNat 8 (48 + d)) := by
  unfold decimal
  split
  case isTrue hone => rw [digitChar_of_lt hone]; rfl
  case isFalse =>
    split
    case isTrue htwo => rw [digitChar_of_lt (n := n / 10) (by omega), digitChar_mod n]; rfl
    case isFalse => rw [digitChar_of_lt (n := n / 100) (by omega), digitChar_mod (n / 10), digitChar_mod n]; rfl

/-! ### Modes (R160) -/

theorem withdraw_of_showing {pre post : List NoticeEntry} {text : Text} {dwell : Nat} (hn : (u.queue.map (·.id)).Nodup)
    (hq : u.queue = pre ++ e :: post) (hl : u.lines = .showing e.id text dwell) :
    u.withdraw = ⟨{ u with
      lines := .blank
      queue := pre ++ { e with due := true, showsRemaining := if e.count = 0 then e.showsRemaining
                                                              else e.showsRemaining + 1 } :: post },
      [.noticeTextChange .current]⟩ := by
  have hother := ids_ne_of_split hn hq
  have hkeep (l : List NoticeEntry) (hl : ∀ x ∈ l, x.id ≠ e.id) : l.map (fun x => if x.id = e.id then
      { x with due := true, showsRemaining := if x.count = 0 then x.showsRemaining else x.showsRemaining + 1 } else x) = l :=
    (List.map_congr_left fun x hx => if_neg (hl x hx)).trans (List.map_id' l)
  simp only [NoticeUnit.withdraw, hl, hq, List.map_append, List.map_cons, if_true,
    hkeep pre fun x hx => hother x (List.mem_append_left _ hx), hkeep post fun x hx => hother x (List.mem_append_right _ hx)]

theorem withdraw_of_idle (hl : ∀ id text dwell, u.lines ≠ .showing id text dwell) :
    u.withdraw = Did.nothing { u with lines := .blank } := by
  unfold NoticeUnit.withdraw
  split
  case h_1 id text dwell hshow => exact absurd hshow (hl id text dwell)
  case h_2 => rfl
  case h_3 => rfl

/-! ### A portion change (R165) -/

/-- The entries whose mask lacks the portion's bit. -/
abbrev NoticeUnit.outside (u : NoticeUnit) (portion : Nat) : List NoticeEntry :=
  u.queue.filter (fun e => portion == 0 || !e.mask.getLsbD (portion - 1))

/-- The unit after the purge, with its default text built afresh. -/
abbrev NoticeUnit.purgedAfresh (s : State) (u : NoticeUnit) (portion : Nat) : NoticeUnit :=
  (NoticeUnit.withoutAll s { u with portion := portion } ((u.outside portion).map (·.id))).unit.rebuildDefault s

theorem not_holdsPortion (mask : BitVec 3) (portion : Nat) :
    (!holdsPortion mask portion) = (portion == 0 || !mask.getLsbD (portion - 1)) := by
  rw [holdsPortion, Bool.not_and, bne, Bool.not_not]

theorem purge_eq (h : u.legal) (portion : Nat) : NoticeUnit.purge s { u with portion := portion } portion =
    NoticeUnit.withoutAll s { u with portion := portion } ((u.outside portion).map (·.id)) := by
  have hlegal : ({ u with portion := portion } : NoticeUnit).legal := h
  simp only [NoticeUnit.purge, not_holdsPortion]
  exact NoticeUnit.removeAll_eq hlegal _

theorem purgedAfresh_legal (h : u.legal) (portion : Nat) : (u.purgedAfresh s portion).legal :=
  NoticeUnit.rebuildDefault_legal (withoutAll_legal (u := { u with portion := portion }) h _)

theorem purgedAfresh_rest (s : State) (u : NoticeUnit) (portion : Nat) :
    (u.purgedAfresh s portion).portion = portion ∧ (u.purgedAfresh s portion).basis = u.basis := by
  obtain ⟨hportion, -, hbasis⟩ := withoutAll_rest s { u with portion := portion } ((u.outside portion).map NoticeEntry.id)
  exact ⟨hportion, hbasis⟩

theorem exec_portionChangeNotice_eq (h : s.notice.legal) (portion : Nat) :
    let purged := NoticeUnit.withoutAll s { s.notice with portion := portion } ((s.notice.outside portion).map (·.id))
    let kept := (purged.unit.rebuildDefault s).reconciled s
    exec (.portionChangeNotice portion) s = .next
      { s with notice := kept.unit
               announced := s.announced.erase (.portionChangeNotice portion) ++ (purged.said ++ kept.said) } := by
  intro purged kept
  change execPortionChangeNotice portion s = _
  rw [execPortionChangeNotice, purge_eq h]
  simp only [Did.andThen, NoticeUnit.reconcile_eq (purgedAfresh_legal h portion)]
  rfl

/-- The entries within the portion are not among those purged. -/
theorem id_not_mem_outside (hn : (u.queue.map (·.id)).Nodup) {portion : Nat} (hportion : 1 ≤ portion) (he : e ∈ u.queue)
    (hbit : e.mask.getLsbD (portion - 1) = true) : e.id ∉ (u.outside portion).map (·.id) := by
  intro hmem
  obtain ⟨x, hx, hid⟩ := List.mem_map.mp hmem
  obtain ⟨hxq, hout⟩ := List.mem_filter.mp hx
  obtain rfl : x = e := queueLaw_unique hn hxq he hid
  rw [hbit, beq_eq_false_iff_ne.mpr (Nat.ne_of_gt hportion)] at hout
  exact absurd hout (by decide)

theorem portionChange_masks (h : u.legal) {portion : Nat} (hlo : 1 ≤ portion) (hhi : portion ≤ 3) :
    ∀ e ∈ ((u.purgedAfresh s portion).reconciled s).unit.queue, e.mask.getLsbD (portion - 1) = true := by
  have hpurged : (u.purgedAfresh s portion).masks (fun _ m => holdsPortion m portion = true) := by
    rw [NoticeUnit.purgedAfresh, ← purge_eq h]
    exact NoticeUnit.purge_masks _ portion
  have hall (k : ApproachKind) : holdsPortion 7 portion = true := by
    interval_cases portion <;> rfl
  rw [← NoticeUnit.reconcile_eq (purgedAfresh_legal h portion)]
  intro e he
  have hholds := NoticeUnit.reconcile_masks hpurged hall e he
  exact (Bool.and_eq_true_iff.mp hholds).2

/-! ### The entries that stay (R150, R162) -/

/-- The entries of a queue that stay keep all but what a show changes; nothing joins but the new local notice. -/
abbrev NoticeUnit.othersStay (s : State) (u : NoticeUnit) (stays : NoticeEntry → Prop) (q : List NoticeEntry) : Prop :=
  (u.queue.length < 16 → ∀ e ∈ u.queue, stays e → (∀ k, e.id ≠ localId k) → ∃ e' ∈ q, sameNotice e e') ∧
    ∀ e' ∈ q, (∃ e ∈ u.queue, e.id = e'.id) ∨ u.newLocal s e'.id

theorem othersStay_reconciled (h : u.legal) {stays : NoticeEntry → Prop} :
    u.othersStay s stays (u.reconciled s).unit.queue :=
  ⟨fun hroom e he _ hother => reconciled_keeps h hroom e he fun ⟨k, hk⟩ => hother k hk, reconciled_adds h⟩

theorem othersStay_renewed {stays : NoticeEntry → Prop} (h : u.othersStay s stays q) :
    u.othersStay s stays (q.map (NoticeEntry.renewed s)) := by
  obtain ⟨hkeep, hadd⟩ := h
  refine ⟨fun hroom e he hstay hother => ?_, fun e' he' => ?_⟩
  · obtain ⟨x, hx, hsame⟩ := hkeep hroom e he hstay hother
    refine ⟨x, List.mem_map.mpr ⟨x, hx, renewed_of_other fun k hk => hother k ?_⟩, hsame⟩
    exact (sameNotice_id hsame).symm.trans hk
  · obtain ⟨x, hx, rfl⟩ := List.mem_map.mp he'
    rw [renewed_id]
    exact hadd x hx

theorem othersStay_refl {stays : NoticeEntry → Prop} : u.othersStay s stays u.queue :=
  ⟨fun _ e he _ _ => ⟨e, he, rfl⟩, fun e he => .inl ⟨e, he, rfl⟩⟩

theorem othersStay_portionChange (h : u.legal) {portion : Nat} (hlo : 1 ≤ portion) :
    u.othersStay s (fun e => e.mask.getLsbD (portion - 1) = true) ((u.purgedAfresh s portion).reconciled s).unit.queue := by
  have hlegal : ({ u with portion := portion } : NoticeUnit).legal := h
  have hrest : u.basis = (u.purgedAfresh s portion).basis := (purgedAfresh_rest s u portion).2.symm
  obtain ⟨hkeep, hadd⟩ := othersStay_reconciled (s := s) (stays := fun _ => True) (purgedAfresh_legal (s := s) h portion)
  refine ⟨fun hroom e he hbit hother => ?_, fun e' he' => ?_⟩
  · have hroom' : (u.purgedAfresh s portion).queue.length < 16 := (withoutAll_length_le s _ _).trans_lt hroom
    obtain ⟨x, hx, hsame⟩ := withoutAll_keeps hlegal _ e he (id_not_mem_outside h.1.2.1 hlo he hbit)
    obtain ⟨y, hy, hsame'⟩ := hkeep hroom' x hx trivial fun k => sameNotice_id hsame ▸ hother k
    exact ⟨y, hy, sameNotice_trans hsame hsame'⟩
  · rcases hadd e' he' with ⟨x, hx, hid⟩ | hnew
    · obtain ⟨-, y, hy, hyx⟩ := mem_withoutAll hx
      exact .inl ⟨y, hy, hyx.trans hid⟩
    · exact .inr (by rw [NoticeUnit.newLocal, hrest]; exact hnew)

/-- With portion 0 every notice but the new local one is purged (R165). -/
theorem portionChange_zero (h : u.legal) :
    ∀ e ∈ ((u.purgedAfresh s 0).reconciled s).unit.queue, u.newLocal s e.id := by
  intro e he
  have hrest : u.basis = (u.purgedAfresh s 0).basis := (purgedAfresh_rest s u 0).2.symm
  rcases reconciled_adds (purgedAfresh_legal (s := s) h 0) e he with ⟨x, hx, -⟩ | hnew
  · obtain ⟨hgone, y, hy, hyx⟩ := mem_withoutAll hx
    exact absurd (hyx ▸ List.mem_map_of_mem (List.mem_filter.mpr ⟨hy, rfl⟩)) hgone
  · rw [NoticeUnit.newLocal, hrest]
    exact hnew

/-! ### Announcements of the Reckoning Unit (R161, R162) -/

/-- The unit with its default text built afresh where the sets may have changed. -/
abbrev NoticeUnit.afterNews (s : State) (news : ReckoningNews) (u : NoticeUnit) : NoticeUnit :=
  if news = .sets then u.rebuildDefault s else u

theorem afterNews_spec (h : u.legal) (news : ReckoningNews) :
    (u.afterNews s news).legal ∧ (u.afterNews s news).queue = u.queue ∧ (u.afterNews s news).basis = u.basis ∧
      (u.afterNews s news).lines = u.lines := by
  unfold NoticeUnit.afterNews
  split
  · exact ⟨NoticeUnit.rebuildDefault_legal h, rfl, rfl, rfl⟩
  · exact ⟨h, rfl, rfl, rfl⟩

theorem exec_reckoningAnnouncementNotice_eq (h : s.notice.legal) (news : ReckoningNews) :
    exec (.reckoningAnnouncementNotice news) s = .next
      { s with notice := ((s.notice.afterNews s news).reconciled s).unit
               announced := s.announced.erase (.reckoningAnnouncementNotice news) ++
                 ((s.notice.afterNews s news).reconciled s).said } := by
  change execReckoningAnnouncementNotice news s = _
  rw [← NoticeUnit.reconcile_eq (afterNews_spec h news).1]
  cases news <;> rfl

/-! ### Activations (R161, R162, R163, R166) -/

/-- The unit after a ROUTE activation's part (R161, R162). -/
abbrev NoticeUnit.afterRoute (s : State) (fs : FamilySet) (u : NoticeUnit) : Did NoticeUnit :=
  if fs.route then (u.rebuildDefault s).reconciled s else ⟨u.rebuildDefault s, []⟩

/-- The unit after a TEXT activation's part (R163). -/
abbrev NoticeUnit.afterText (s : State) (fs : FamilySet) (u : NoticeUnit) : Did NoticeUnit :=
  if fs.text then u.rebuilt s else ⟨u, []⟩

theorem afterRoute_legal (h : u.legal) (fs : FamilySet) : (u.afterRoute s fs).unit.legal := by
  unfold NoticeUnit.afterRoute
  split
  · rw [← NoticeUnit.reconcile_eq (NoticeUnit.rebuildDefault_legal h)]
    exact NoticeUnit.reconcile_legal (NoticeUnit.rebuildDefault_legal h)
  · exact NoticeUnit.rebuildDefault_legal h

theorem afterText_queue (s : State) (u : NoticeUnit) {fs : FamilySet} (h : fs.text = true) :
    (u.afterText s fs).unit.queue = u.queue.map (NoticeEntry.renewed s) := by
  rw [NoticeUnit.afterText, if_pos h, rebuilt_queue]

theorem exec_activationAnnouncementNotice_eq (h : s.notice.legal) (fs : FamilySet) :
    let kept := s.notice.afterRoute s fs
    let texts := kept.unit.afterText s fs
    exec (.activationAnnouncementNotice fs) s = .next
      { s with notice := texts.unit
               tables := if fs.text then { s.tables with replacedText := none } else s.tables
               announced := s.announced.erase (.activationAnnouncementNotice fs) ++ (kept.said ++ texts.said ++
                 if fs.text then texts.unit.changedOverlays s.tables else []) } := by
  intro kept texts
  have hlegal : kept.unit.legal := afterRoute_legal h fs
  have hroute : (if fs.route then (s.notice.rebuildDefault s).reconcile s else Did.nothing (s.notice.rebuildDefault s)) =
      kept := by
    rw [NoticeUnit.reconcile_eq (NoticeUnit.rebuildDefault_legal h)]
    rfl
  change execActivationAnnouncementNotice fs s = _
  rw [execActivationAnnouncementNotice, hroute]
  cases htext : fs.text with
  | true =>
    have htexts : texts = kept.unit.rebuildLocals s := by rw [NoticeUnit.rebuildLocals_eq hlegal]; exact if_pos htext
    rw [htexts]
    rfl
  | false =>
    have htexts : texts = ⟨kept.unit, []⟩ := if_neg (by rw [htext]; decide)
    rw [htexts]
    simp [State.withNotice, State.taken]

/-- Which overlays a TEXT activation has changed (R166, log 10): none of a text of its own. -/
theorem changedText_of_inlined {t : TableStore} {cs : Text} (h : e.text = .inlined cs) :
    (noticeText t.withReplacedText e != noticeText t e) = false := by
  simp [noticeText, h]

/-- Those of a pool text whose string in the replaced bank is another (R166, log 10). -/
theorem changedText_of_pool {t : TableStore} {i : Byte} (h : e.text = .pool i) :
    (noticeText t.withReplacedText e != noticeText t e) =
      ((if i = 0 then [] else (Table.find (t.replacedText.getD t.text.active) i.toNat).getD []) !=
        if i = 0 then [] else (Table.find t.text.active i.toNat).getD []) := by
  have hzero : i.toNat = 0 ↔ i = 0 := by rw [← BitVec.toNat_inj]; rfl
  simp only [noticeText, h, TableStore.string, TableStore.withReplacedText, hzero]
  cases t.replacedText <;> rfl

end Sys2Proof.Machine
end

section
/-! PROOF. The Notice Unit at the announcements of other blocks (R160 to R166): O54. -/

namespace Sys2Proof.Machine
variable {s : State} {u : NoticeUnit} {e : NoticeEntry}

theorem exec_modeChangeNotice_dark {before after : Mode} (h : after ∈ [Mode.service, .restartPending]) :
    exec (.modeChangeNotice before after) s =
      .next ((s.taken (.modeChangeNotice before after)).withNotice s.notice.withdraw) := by
  change execModeChangeNotice before after s = _
  rw [execModeChangeNotice, (Mode.dark_iff after).mpr h]
  rfl

theorem exec_modeChangeNotice_light {before after : Mode} (h : after ∈ [Mode.normal, .quiet]) :
    exec (.modeChangeNotice before after) s =
      .next ((s.taken (.modeChangeNotice before after)).withNotice (s.notice.settle s)) := by
  change execModeChangeNotice before after s = _
  rw [execModeChangeNotice, (light_iff after).mpr h]
  rfl

/-- The announcements of the Reckoning Unit where the approach stays: the queue, and the lines that show no changed text. -/
theorem afterNews_of_unchanged (h : u.legal) (news : ReckoningNews) (hsame : s.reck.progress.inForce = u.basis)
    (hshown : ∀ e text dwell, e ∈ u.queue → u.lines = .showing e.id text dwell → (e.renewed s).text = e.text) :
    ((u.afterNews s news).reconciled s).unit.lines = u.lines ∧ ((u.afterNews s news).reconciled s).said = [] := by
  obtain ⟨hlegal, hqueue, hbasis, hlines⟩ := afterNews_spec (s := s) h news
  rw [reconciled_of_same (hsame.trans hbasis.symm), rebuilt_of_unchanged hlegal (by rw [hqueue, hlines]; exact hshown)]
  exact ⟨hlines, rfl⟩

/-- Where the lines show a changed text. -/
theorem afterNews_of_shown {text : Text} {dwell : Nat} (h : u.legal) (news : ReckoningNews)
    (hsame : s.reck.progress.inForce = u.basis) (he : e ∈ u.queue) (hl : u.lines = .showing e.id text dwell)
    (hchange : (e.renewed s).text ≠ e.text) :
    (∃ k, ((u.afterNews s news).reconciled s).unit.lines = .showing e.id (localText s.tables s.reck.progress k) dwell ∧
      e.id = localId k) ∧ ((u.afterNews s news).reconciled s).said = [.noticeTextChange .current] := by
  obtain ⟨hlegal, hqueue, hbasis, hlines⟩ := afterNews_spec (s := s) h news
  obtain ⟨k, hk, hrebuilt⟩ := rebuilt_of_shown (s := s) hlegal.1.2.1 (hqueue ▸ he) (hlines.trans hl) hchange
  rw [reconciled_of_same (hsame.trans hbasis.symm), hrebuilt]
  exact ⟨⟨k, rfl, hk⟩, rfl⟩

theorem afterNews_defaultText (h : u.legal) (news : ReckoningNews) :
    ((u.afterNews s news).reconciled s).unit.defaultText = (u.afterNews s news).defaultText :=
  (reconciled_rest (afterNews_spec h news).1).2.2.1

theorem afterNews_inStep (h : u.legal) (news : ReckoningNews) :
    u.inStep s ((u.afterNews s news).reconciled s).unit.queue := by
  obtain ⟨hlegal, hqueue, hbasis, -⟩ := afterNews_spec (s := s) h news
  have hstep := reconciled_inStep (s := s) hlegal
  rw [NoticeUnit.inStep, hqueue, hbasis] at hstep
  exact hstep

theorem afterNews_othersStay (h : u.legal) (news : ReckoningNews) {stays : NoticeEntry → Prop} :
    u.othersStay s stays ((u.afterNews s news).reconciled s).unit.queue := by
  obtain ⟨hlegal, hqueue, hbasis, -⟩ := afterNews_spec (s := s) h news
  have hnew : (u.afterNews s news).newLocal s = u.newLocal s := by
    funext i
    rw [NoticeUnit.newLocal, hbasis]
  have hothers := othersStay_reconciled (s := s) (stays := stays) hlegal
  rw [NoticeUnit.othersStay, hqueue, hnew] at hothers
  exact hothers

/-- The part of an activation before the texts: default text, the other entries, and that no entry's text is news. -/
theorem afterRoute_spec (h : u.legal) (fs : FamilySet) {stays : NoticeEntry → Prop} :
    (u.afterRoute s fs).unit.defaultText = (u.rebuildDefault s).defaultText ∧
      u.othersStay s stays (u.afterRoute s fs).unit.queue ∧ noEntryNews (u.afterRoute s fs).said ∧
      (fs.route = true → (u.afterRoute s fs).unit.basis = s.reck.progress.inForce ∧
        u.inStep s (u.afterRoute s fs).unit.queue) ∧
      (fs.route = false → (u.afterRoute s fs).unit.queue = u.queue) := by
  have hlegal : (u.rebuildDefault s).legal := NoticeUnit.rebuildDefault_legal h
  unfold NoticeUnit.afterRoute
  split
  case isTrue hroute =>
    obtain ⟨hbasis, -, htext, hsaid⟩ := reconciled_rest (s := s) hlegal
    exact ⟨htext, othersStay_reconciled (s := s) hlegal, hsaid, fun _ => ⟨hbasis, reconciled_inStep hlegal⟩,
      fun hno => absurd (hroute.symm.trans hno) (by decide)⟩
  case isFalse hroute => exact ⟨rfl, othersStay_refl, noEntryNews_nil, fun hyes => absurd hyes hroute, fun _ => rfl⟩

theorem afterText_spec (s : State) (u : NoticeUnit) (fs : FamilySet) :
    u.sameRest (u.afterText s fs).unit ∧ noEntryNews (u.afterText s fs).said := by
  unfold NoticeUnit.afterText
  split
  · exact ⟨rebuilt_rest s u, rebuilt_said s u⟩
  · exact ⟨⟨rfl, rfl, rfl⟩, noEntryNews_nil⟩

theorem afterText_cases (s : State) (u : NoticeUnit) (fs : FamilySet) :
    (u.afterText s fs).unit.queue = u.queue.map (NoticeEntry.renewed s) ∨ (u.afterText s fs).unit.queue = u.queue := by
  unfold NoticeUnit.afterText
  split
  · exact .inl (rebuilt_queue s u)
  · exact .inr rfl

theorem afterText_othersStay {fs : FamilySet} {v : NoticeUnit} {stays : NoticeEntry → Prop}
    (h : u.othersStay s stays v.queue) : u.othersStay s stays (v.afterText s fs).unit.queue := by
  rcases afterText_cases s v fs with hq | hq <;> rw [hq]
  · exact othersStay_renewed h
  · exact h

theorem afterText_inStep {fs : FamilySet} {v : NoticeUnit} (h : u.inStep s v.queue) :
    u.inStep s (v.afterText s fs).unit.queue := by
  rcases afterText_cases s v fs with hq | hq <;> rw [hq]
  · exact inStep_renewed h
  · exact h

/-- Settles O54. -/
theorem noticeAnnouncements : Obligations.NoticeAnnouncements := by
  unfold Obligations.NoticeAnnouncements
  intro s h u now completes local_ others rebuilt shownChanges read changed
  have hrenewed : NoticeEntry.renewed s = rebuilt := funext fun e => renewed_eq s e
  have hchanged : ∀ e : NoticeEntry,
      (e.overlayWanted && noticeText s.tables.withReplacedText e != noticeText s.tables e) = changed e := by
    intro e
    cases htext : e.text with
    | inlined cs => simp only [changed, changedText_of_inlined htext, htext]
    | pool i => simp only [changed, changedText_of_pool htext, htext, read]
  have hoverlays (v : NoticeUnit) : v.changedOverlays s.tables =
      (v.queue.filter changed).map (fun e => .noticeTextChange (.entry e.id)) := by
    rw [NoticeUnit.changedOverlays, funext hchanged]
  refine ⟨fun before after hafter => ⟨?_, ?_⟩, fun before after hafter => ?_, ?_, fun portion => ?_, fun news => ?_,
    fun fs => ?_, ⟨fun portion => ?_, fun news => ?_, fun fs => ?_⟩, fun k => ?_, fun t r => ?_, joinParts_eq,
    fun m => hhmm_eq, fun n => decimal_eq⟩
  · intro pre e post text dwell hq hl
    rw [exec_modeChangeNotice_dark hafter, withdraw_of_showing h.1.2.1 hq hl]
    rfl
  · intro hl
    rw [exec_modeChangeNotice_dark hafter, withdraw_of_idle hl, State.withNotice_nothing]
    rfl
  · exact exec_modeChangeNotice_light hafter
  · change execCoachNumberChange s = _
    rw [execCoachNumberChange, State.withNotice_nothing]
    rfl
  · refine ⟨_, ⟨exec_portionChangeNotice_eq h portion, rfl⟩, ?_⟩
    obtain ⟨hportion, -⟩ := purgedAfresh_rest s u portion
    obtain ⟨hbasis, hkept, htext, -⟩ := reconciled_rest (s := s) (purgedAfresh_legal (s := s) h portion)
    exact ⟨hbasis, hkept.trans hportion, htext,
      fun hlo hhi => ⟨portionChange_masks h hlo hhi, othersStay_portionChange h hlo⟩,
      fun hzero => by subst hzero; exact portionChange_zero h⟩
  · refine ⟨_, ⟨exec_reckoningAnnouncementNotice_eq h news, rfl⟩, (reconciled_rest (afterNews_spec h news).1).1,
      afterNews_inStep h news, afterNews_othersStay h news, fun hsets => ?_, fun hsets => ?_, fun hsame => ⟨?_, ?_, ?_⟩⟩
    · exact (afterNews_defaultText h news).trans (by rw [NoticeUnit.afterNews, if_pos hsets]; rfl)
    · exact (afterNews_defaultText h news).trans (by rw [NoticeUnit.afterNews, if_neg hsets])
    · obtain ⟨-, hqueue, hbasis, -⟩ := afterNews_spec (s := s) h news
      change ((s.notice.afterNews s news).reconciled s).unit.queue = _
      rw [reconciled_of_same (hsame.trans hbasis.symm), rebuilt_queue, hqueue, hrenewed]
    · rintro e text dwell ⟨he, hl, hchange⟩
      obtain ⟨hlines, hsaid⟩ := afterNews_of_shown h news hsame he hl (by rw [hrenewed]; exact hchange)
      exact ⟨hlines, congrArg (s.announced.erase (.reckoningAnnouncementNotice news) ++ ·) hsaid⟩
    · intro hnone
      obtain ⟨hlines, hsaid⟩ := afterNews_of_unchanged h news hsame fun e text dwell he hl =>
        by_contra fun hchange => hnone e text dwell ⟨he, hl, by rw [← hrenewed]; exact hchange⟩
      exact ⟨hlines, (congrArg (s.announced.erase (.reckoningAnnouncementNotice news) ++ ·) hsaid).trans (List.append_nil _)⟩
  · obtain ⟨htext, hothers, hsaid, hroute, hnoroute⟩ := afterRoute_spec (s := s) h fs (stays := fun _ => True)
    obtain ⟨⟨-, htext', hbasis'⟩, hsaid'⟩ := afterText_spec s (u.afterRoute s fs).unit fs
    refine ⟨_, exec_activationAnnouncementNotice_eq h fs, rfl, htext'.trans htext, afterText_othersStay hothers,
      fun hr => ⟨hbasis'.trans (hroute hr).1, afterText_inStep (hroute hr).2⟩, fun hr ht => ?_, fun ht => ⟨?_, ?_⟩⟩
    · exact (afterText_queue s _ ht).trans (by rw [hnoroute hr, hrenewed])
    · intro k e he hid
      rw [afterText_queue s _ ht] at he
      obtain ⟨x, -, rfl⟩ := List.mem_map.mp he
      exact renewed_of_local ((renewed_id s x).symm.trans hid)
    · refine ⟨_, noEntryNews_append hsaid hsaid', ?_⟩
      simp only [ht, if_true, hoverlays, List.append_assoc]
      rfl
  · exact exec_portionChangeNotice_eq h portion
  · exact exec_reckoningAnnouncementNotice_eq h news
  · have hexec := exec_activationAnnouncementNotice_eq h fs
    simp only [hoverlays] at hexec
    exact hexec
  · cases k <;> rfl
  · intro name arrival door notes
    have hname : ∀ o, t.longName o = name o := by
      intro o
      simp only [name, longName_eq]
      cases o.bind t.entry <;> rfl
    have harrival : (r.arrival.map hhmm).getD [] = arrival := by
      simp only [arrival]
      cases r.arrival <;> rfl
    have hdoor : t.doorWords r.n = door := by
      simp only [door, TableStore.doorWords]
      cases (r.n.bind t.entry).map RouteEntry.side with
      | none => rfl
      | some side => cases side <;> rfl
    have hnotes : t.connections r.n = notes.filter (fun p => !p.isEmpty) := by
      simp only [notes, connections_eq]
      cases r.n.bind t.entry <;> rfl
    exact ⟨by rw [localText, joinCut, hname, harrival, hdoor, hnotes, joinParts_append_filter],
      by rw [localText, joinCut, hname]⟩

end Sys2Proof.Machine
end

section
/-! PROOF. The seconds tick at each block that takes it, in the order of log 14 (R97, R103, R137, R139, R157, R182, R185,
R188): O43. -/

namespace Sys2Proof.Machine
variable {s : State} {u : NoticeUnit}

theorem exec_secondsTick_of_closed (h : s.line.relay = .closed) : exec .secondsTick s = .next s :=
  if_neg (by rw [h]; decide)

/-- The state after the Notice Unit has taken a tick. -/
abbrev State.tickNotice (s : State) : State := s.withNotice (s.notice.tick s)

theorem exec_secondsTick_of_opened (h : s.line.relay = .opened) :
    exec .secondsTick s = .next { s.tickClockwork.tickBus.tickNotice with
      panels := s.tickClockwork.tickBus.tickNotice.panels.tick s.tickClockwork.tickBus.tickNotice } := if_pos h

/-! ### The Reckoning Unit (R97) -/

theorem reckTick_of_not_counts {t : TableStore} {r : ReckoningUnit}
    (h : r.progress.state ∉ [.atStop, .running, .approaching]) :
    r.tick t = Did.nothing r := if_neg ((ProgressState.counts_iff _).not.mpr h)

theorem reckTick_of_fresh {t : TableStore} {r : ReckoningUnit} (h : r.progress.state ∈ [.atStop, .running, .approaching])
    (hfresh : 2 ≤ r.freshness) : r.tick t = Did.nothing { r with freshness := r.freshness - 1 } := by
  rw [ReckoningUnit.tick, if_pos ((ProgressState.counts_iff _).mpr h), if_neg (by omega)]

theorem reckTick_of_stale {t : TableStore} {r : ReckoningUnit} (h : r.progress.state ∈ [.atStop, .running, .approaching])
    (hstale : r.freshness ≤ 1) : r.tick t = r.expire t := by
  rw [ReckoningUnit.tick, if_pos ((ProgressState.counts_iff _).mpr h), if_pos hstale]

theorem tickClockwork_announced (s : State) :
    s.tickClockwork.announced = s.announced ++ (s.reck.tick s.tables.asReckoned).said := rfl

/-! ### The Seat Bus Engine (R132, R137, R139) -/

/-- The engine with its timers counted down. -/
abbrev SeatBusEngine.ticked (u : SeatBusEngine) : SeatBusEngine :=
  { u with
    faulted := u.faulted.map (fun e => (e.1, e.2 - 1))
    refreshTimer := if u.refreshTimer ≤ 1 then 20 else u.refreshTimer - 1
    refreshActive := u.refreshActive || decide (u.refreshTimer ≤ 1) }

theorem busTick_unit (u : SeatBusEngine) : u.tick.1 = u.ticked := by
  by_cases h : u.refreshTimer ≤ 1
  · simp [SeatBusEngine.tick, SeatBusEngine.ticked, h]
  · simp [SeatBusEngine.tick, SeatBusEngine.ticked, h]

theorem busTick_due_iff (u : SeatBusEngine) : u.tick.2 = true ↔ u.refreshTimer ≤ 1 ∨ ∃ e ∈ u.faulted, e.2 = 1 := by
  simp [SeatBusEngine.tick]

theorem tickBus_of_due (h : s.bus.refreshTimer ≤ 1 ∨ ∃ e ∈ s.bus.faulted, e.2 = 1) :
    s.tickBus.bus = s.bus.ticked.choose s := by
  rw [State.tickBus_bus, if_pos ((busTick_due_iff _).mpr h), busTick_unit]

theorem tickBus_of_not_due (h : ¬ (s.bus.refreshTimer ≤ 1 ∨ ∃ e ∈ s.bus.faulted, e.2 = 1)) :
    s.tickBus.bus = s.bus.ticked := by
  rw [State.tickBus_bus, if_neg ((busTick_due_iff _).not.mpr h), busTick_unit]

/-! ### The Notice Unit (R157) -/

theorem tickDwell_of_idle (h : ∀ id text dwell, u.lines ≠ .showing id text dwell) : u.tickDwell = Did.nothing u := by
  unfold NoticeUnit.tickDwell
  split
  case h_1 id text dwell hshow => exact absurd hshow (h id text dwell)
  case h_2 => rfl
  case h_3 => rfl

/-- The third step of a tick, whatever the lines show. -/
theorem tickDwell_spec (h : u.legal) :
    (∀ x text dwell, x ∈ u.queue → u.lines = .showing x.id text dwell →
      (2 ≤ dwell → u.tickDwell.unit = { u with lines := .showing x.id text (dwell - 1) } ∧ u.tickDwell.said = []) ∧
      (dwell ≤ 1 → u.tickDwell.unit = (u.countedEnd x).unit ∧ u.tickDwell.said = (u.countedEnd x).said)) ∧
    ((∀ id text dwell, u.lines ≠ .showing id text dwell) → u.tickDwell.unit = u ∧ u.tickDwell.said = []) := by
  refine ⟨fun x text dwell hx hl => ⟨fun hlong => ?_, fun hend => ?_⟩, fun hidle => ?_⟩
  · rw [NoticeUnit.tickDwell_eq h hx hl, if_neg (by omega)]
    exact ⟨rfl, rfl⟩
  · rw [NoticeUnit.tickDwell_eq h hx hl, if_pos hend]
    exact ⟨rfl, rfl⟩
  · rw [tickDwell_of_idle hidle]
    exact ⟨rfl, rfl⟩

/-- The second step of a tick: the repeat timers, and a pre-emption where one of priority 0 falls due. -/
theorem tickRepeats_spec (h : u.legal) :
    let timed : NoticeUnit := { u with queue := u.queue.map (fun e =>
      { e with repeatTimer := e.repeatTimer - 1, due := e.due || e.repeatTimer == 1 }) }
    let preempting : Prop := ∃ e ∈ u.queue, e.repeatTimer = 1 ∧ e.due = false ∧ e.effective = 0
    (preempting → u.tickRepeats.unit = (timed.preemptedBy 0).unit ∧ u.tickRepeats.said = (timed.preemptedBy 0).said) ∧
      (¬ preempting → u.tickRepeats.unit = timed ∧ u.tickRepeats.said = []) := by
  obtain ⟨-, hpreempt, hquiet⟩ := NoticeUnit.tickRepeats_eq h
  refine ⟨fun hyes => ?_, fun hno => ?_⟩
  · rw [hpreempt hyes]
    exact ⟨rfl, rfl⟩
  · rw [hquiet hno]
    exact ⟨rfl, rfl⟩

/-! ### The Panel Composer (R185) -/

theorem idleTick_of_running {u : PanelComposer} {n : Nat} (hmode : s.mgmt.mode = .quiet) (h : u.idle = some (n + 1)) :
    u.idleTick s = { u with idle := some n, brightness := if n = 0 then .low else u.brightness } := by
  simp only [PanelComposer.idleTick, hmode, h]

theorem idleTick_of_stopped {u : PanelComposer} (h : s.mgmt.mode ≠ .quiet ∨ u.idle = none ∨ u.idle = some 0) :
    u.idleTick s = u := by
  unfold PanelComposer.idleTick
  split
  case h_1 n hmode hidle => simp_all
  case h_2 => rfl

theorem idleTick_panels (u : PanelComposer) (s : State) :
    (u.idleTick s).panel1 = u.panel1 ∧ (u.idleTick s).panel2 = u.panel2 ∧ (u.idleTick s).basis = u.basis := by
  unfold PanelComposer.idleTick
  split <;> exact ⟨rfl, rfl, rfl⟩

/-- Settles O43. -/
theorem secondsTickTaken : Obligations.SecondsTickTaken := by
  unfold Obligations.SecondsTickTaken
  refine ⟨fun s => exec_secondsTick_of_closed, fun s hopen => ?_⟩
  refine ⟨_, s.tickClockwork, s.tickClockwork.tickBus, s.tickClockwork.tickBus.tickNotice, exec_secondsTick_of_opened hopen,
    ⟨rfl, fun hno => ?_, fun hyes => ⟨fun hfresh => ?_, fun hstale => ?_⟩⟩, ⟨rfl, ?_⟩, ⟨rfl, fun h => ?_⟩, rfl, ?_⟩
  · rw [State.tickClockwork_reck, tickClockwork_announced, reckTick_of_not_counts hno]
    exact ⟨rfl, List.append_nil _⟩
  · rw [State.tickClockwork_reck, tickClockwork_announced, reckTick_of_fresh hyes hfresh]
    exact ⟨rfl, List.append_nil _⟩
  · rw [State.tickClockwork_reck, tickClockwork_announced, reckTick_of_stale hyes hstale]
    exact ⟨exec_freshnessExpiry_of_counts ((ProgressState.counts_iff _).mpr hyes), rfl, rfl, rfl,
      (List.append_assoc _ _ _).symm⟩
  · exact ⟨fun hdue => tickBus_of_due (s := s.tickClockwork) hdue,
      fun hdue => tickBus_of_not_due (s := s.tickClockwork) hdue⟩
  · have hlife := NoticeUnit.tickLifetimes_legal h
    have hrepeat := NoticeUnit.tickRepeats_legal hlife
    refine ⟨s.notice.tickLifetimes.unit, s.notice.tickLifetimes.unit.tickRepeats.unit,
      s.notice.tickLifetimes.unit.tickRepeats.unit.tickDwell.unit, s.notice.tickLifetimes.said,
      s.notice.tickLifetimes.unit.tickRepeats.said, s.notice.tickLifetimes.unit.tickRepeats.unit.tickDwell.said,
      ?_, tickRepeats_spec hlife, tickDwell_spec hrepeat, NoticeUnit.tickDwell_legal hrepeat, rfl, ?_⟩
    · have hlives := NoticeUnit.tickLifetimes_eq h
      exact ⟨congrArg Did.unit hlives, congrArg Did.said hlives⟩
    · simp only [State.withNotice_announced, NoticeUnit.tick, Did.andThen_said, List.append_assoc]
      rfl
  · obtain ⟨hpanel1, hpanel2, hbasis⟩ := idleTick_panels s.panels s.tickClockwork.tickBus.tickNotice
    refine ⟨hbasis, fun n hmode hidle => ?_, fun hstop => ?_, ?_, ?_⟩
    · have hrun := idleTick_of_running (s := s.tickClockwork.tickBus.tickNotice) (u := s.panels) hmode hidle
      exact ⟨congrArg PanelComposer.idle hrun, congrArg PanelComposer.brightness hrun⟩
    · have hrest := idleTick_of_stopped (s := s.tickClockwork.tickBus.tickNotice) (u := s.panels) hstop
      exact ⟨(congrArg PanelComposer.idle hrest :), (congrArg PanelComposer.brightness hrest :)⟩
    · exact hpanel1 ▸ PanelState.scrollTick_eq s.tickClockwork.tickBus.tickNotice .panel1 s.panels.panel1
    · exact hpanel2 ▸ PanelState.scrollTick_eq s.tickClockwork.tickBus.tickNotice .panel2 s.panels.panel2

end Sys2Proof.Machine
end

section
/-! PROOF. The page stacks (R170 to R173) and the activity of an URGENT push (R185, R186): O55. -/

namespace Sys2Proof.Machine
variable {s : State} {panel : Panel} {q : PanelState} {k : LevelKind} {id : Nat}

/-! ### Requests and pushes (R170, R176) -/

/-- What a stack shows of its levels apart from the scrolling marks. -/
abbrev Level.shape (l : Level) : LevelKind × Nat × Bool := (l.kind, l.offset, l.dead)

theorem request_of_idle (h : q.compose.isSome = false) : q.request s panel = q.beginCompose s panel :=
  if_neg (by rw [h]; decide)

theorem request_of_composing (h : q.compose.isSome = true) : q.request s panel = { q with again := true } := if_pos h

/-- After a request a compose runs; one that ran before runs on, with the pending flag set. -/
theorem request_compose (s : State) (panel : Panel) (q : PanelState) :
    (q.request s panel).compose.isSome = true ∧
      (q.compose.isSome = true → (q.request s panel).again = true ∧ (q.request s panel).compose = q.compose) := by
  cases h : q.compose.isSome with
  | true =>
    rw [request_of_composing h]
    exact ⟨h, fun _ => ⟨rfl, rfl⟩⟩
  | false =>
    rw [request_of_idle h, PanelState.beginCompose]
    refine ⟨?_, fun hyes => absurd hyes (by decide)⟩
    split <;> rfl

theorem push_shape (s : State) (panel : Panel) (k : LevelKind) (q : PanelState) :
    (q.push s panel k).stack.map Level.shape = (k, 0, false) :: q.stack.map Level.shape ∧
      (q.push s panel k).approachWant = q.approachWant :=
  PanelState.request_stack s panel { q with stack := Level.fresh k :: q.stack }

/-! ### Pop runs (R173) -/

/-- The panel with the dead levels gone from its top. -/
abbrev PanelState.popped (q : PanelState) : PanelState := { q with stack := q.stack.dropWhile (·.dead) }

section PopRun
variable {l : Level} {ls : List Level}

theorem popRun_of_live (hq : q.stack = l :: ls) (hl : l.dead = false) : q.popRun s panel = (q, false) := by
  have hkeep : q.stack.dropWhile (·.dead) = q.stack := by rw [hq, List.dropWhile_cons_of_neg (by rw [hl]; decide)]
  exact if_pos (congrArg List.length hkeep)

/-- A dead level on top leaves. -/
theorem popped_length_ne (hq : q.stack = l :: ls) (hl : l.dead = true) :
    ¬ (q.stack.dropWhile (·.dead)).length = q.stack.length := by
  rw [hq, List.dropWhile_cons_of_pos (by exact hl), List.length_cons]
  exact Nat.ne_of_lt (Nat.lt_succ_of_le (List.dropWhile_suffix _).length_le)

theorem popRun_of_wanted (hq : q.stack = l :: ls) (hl : l.dead = true) (hroom : (q.stack.dropWhile (·.dead)).length < 4)
    (hw : q.popped.wantedOverlay s.notice = some id) : q.popRun s panel = (q.popped.push s panel (.urgent id), true) := by
  simp only [PanelState.popRun, popped_length_ne hq hl, if_false, Nat.not_le.mpr hroom, hw]

theorem popRun_of_approachWanted (hq : q.stack = l :: ls) (hl : l.dead = true)
    (hroom : (q.stack.dropWhile (·.dead)).length < 4) (hw : q.popped.wantedOverlay s.notice = none)
    (ha : q.approachWant = true) :
    q.popRun s panel = (PanelState.push s panel .approach { q.popped with approachWant := false }, false) := by
  simp only [PanelState.popRun, popped_length_ne hq hl, if_false, Nat.not_le.mpr hroom, hw]
  exact if_pos ha

theorem popRun_of_none_wanted (hq : q.stack = l :: ls) (hl : l.dead = true)
    (hroom : (q.stack.dropWhile (·.dead)).length < 4) (hw : q.popped.wantedOverlay s.notice = none)
    (ha : q.approachWant = false) : q.popRun s panel = (q.popped.request s panel, false) := by
  simp only [PanelState.popRun, popped_length_ne hq hl, if_false, Nat.not_le.mpr hroom, hw]
  exact if_neg (Bool.eq_false_iff.mp ha)

/-- Whatever a pop run that pops pushes, it makes one request (log 23). -/
theorem popRun_compose (hq : q.stack = l :: ls) (hl : l.dead = true) (hroom : (q.stack.dropWhile (·.dead)).length < 4) :
    (q.popRun s panel).1.compose.isSome = true ∧ (q.compose.isSome = true →
      (q.popRun s panel).1.again = true ∧ (q.popRun s panel).1.compose = q.compose) := by
  cases hw : q.popped.wantedOverlay s.notice with
  | some id =>
    rw [popRun_of_wanted hq hl hroom hw]
    exact request_compose s panel { q.popped with stack := Level.fresh (.urgent id) :: q.popped.stack }
  | none =>
    cases ha : q.approachWant with
    | true =>
      rw [popRun_of_approachWanted hq hl hroom hw ha]
      exact request_compose s panel
        { q.popped with stack := Level.fresh .approach :: q.popped.stack, approachWant := false }
    | false =>
      rw [popRun_of_none_wanted hq hl hroom hw ha]
      exact request_compose s panel q.popped

end PopRun

/-! ### Overlay requests (R172) -/

/-- An overlay of a notice is pushed at a panel: the notice wants it, the panel does not hold it live, and there is room. -/
abbrev PanelState.admits (s : State) (id : Nat) (q : PanelState) : Prop :=
  (∃ e ∈ s.notice.queue, e.id = id ∧ e.overlayWanted = true) ∧
    (∀ l ∈ q.stack, l.kind = .urgent id → l.dead = true) ∧ q.stack.length < 4

theorem overlay_of_room (h : q.admits s id) : q.overlay s id panel = (q.push s panel (.urgent id), true) := by
  obtain ⟨⟨e, he, hid, hwant⟩, hdead, hroom⟩ := h
  have hwanted : s.notice.queue.any (fun e => e.id == id && e.overlayWanted) = true :=
    List.any_eq_true.mpr ⟨e, he, by simp [hid, hwant]⟩
  have hlive : q.live (.urgent id) = false :=
    List.any_eq_false.mpr fun l hl => by simpa using hdead l hl
  simp [PanelState.overlay, hwanted, hlive, hroom]

theorem overlay_of_no_room (h : ¬ q.admits s id) : q.overlay s id panel = (q, false) := by
  refine if_neg fun htest => h ?_
  simp only [Bool.and_eq_true, List.any_eq_true, beq_iff_eq, Bool.not_eq_true', decide_eq_true_eq] at htest
  obtain ⟨⟨⟨e, he, hid, hwant⟩, hlive⟩, hroom⟩ := htest
  refine ⟨⟨e, he, hid, hwant⟩, fun l hl hkind => ?_, hroom⟩
  by_contra hdead
  exact PanelState.live_false hlive l hl (Bool.eq_false_iff.mpr hdead) hkind

/-- The second part of an overlay request says whether it pushed. -/
theorem overlay_pushed_iff : (q.overlay s id panel).2 = true ↔ q.admits s id := by
  by_cases h : q.admits s id
  · rw [overlay_of_room h]
    exact iff_of_true rfl h
  · rw [overlay_of_no_room h]
    exact iff_of_false Bool.false_ne_true h

/-! ### Both panels, and the activity of an URGENT push (R185, R186) -/

section Both
variable {u : PanelComposer} (g : Panel → PanelState → PanelState × Bool)

theorem active_of_quiet (h : s.mgmt.mode = .quiet) :
    u.active s = { u with idle := some s.mgmt.params.quietIdle, brightness := .full } := if_pos h

theorem active_of_other (h : s.mgmt.mode ≠ .quiet) : u.active s = u := if_neg h

/-- An URGENT level is pushed at a panel. -/
abbrev PanelComposer.pushes (u : PanelComposer) (g : Panel → PanelState → PanelState × Bool) : Prop :=
  (g .panel1 u.panel1).2 = true ∨ (g .panel2 u.panel2).2 = true

theorem both_of_pushed (h : u.pushes g) : u.both s g =
    PanelComposer.active s { u with panel1 := (g .panel1 u.panel1).1, panel2 := (g .panel2 u.panel2).1 } :=
  if_pos (Bool.or_eq_true_iff.mpr h)

theorem both_of_not_pushed (h : ¬ u.pushes g) :
    u.both s g = { u with panel1 := (g .panel1 u.panel1).1, panel2 := (g .panel2 u.panel2).1 } :=
  if_neg (mt Bool.or_eq_true_iff.mp h)

theorem both_panels (s : State) (u : PanelComposer) : (u.both s g).panel1 = (g .panel1 u.panel1).1 ∧
    (u.both s g).panel2 = (g .panel2 u.panel2).1 ∧ (u.both s g).basis = u.basis := by
  by_cases h : u.pushes g
  · obtain ⟨hpanel1, hpanel2, hbasis, -⟩ := PanelComposer.active_panels s
      { u with panel1 := (g .panel1 u.panel1).1, panel2 := (g .panel2 u.panel2).1 }
    rw [both_of_pushed g h]
    exact ⟨hpanel1, hpanel2, hbasis⟩
  · rw [both_of_not_pushed g h]
    exact ⟨rfl, rfl, rfl⟩

theorem both_level_of_activity (h : u.pushes g) (hmode : s.mgmt.mode = .quiet) :
    (u.both s g).idle = some s.mgmt.params.quietIdle ∧ (u.both s g).brightness = .full := by
  rw [both_of_pushed g h, active_of_quiet hmode]
  exact ⟨rfl, rfl⟩

theorem both_level_of_none (h : ¬ (u.pushes g ∧ s.mgmt.mode = .quiet)) :
    (u.both s g).idle = u.idle ∧ (u.both s g).brightness = u.brightness := by
  by_cases hpush : u.pushes g
  · rw [both_of_pushed g hpush, active_of_other fun hmode => h ⟨hpush, hmode⟩]
    exact ⟨rfl, rfl⟩
  · rw [both_of_not_pushed g hpush]
    exact ⟨rfl, rfl⟩

end Both

theorem exec_overlayRequest_of_opened (h : s.line.relay = .opened) (id : Nat) : exec (.overlayRequest id) s = .next
    { s with panels := s.panels.both s (PanelState.overlay s id), announced := s.announced.erase (.overlayRequest id) } :=
  if_pos h

theorem exec_overlayEnd_of_opened (h : s.line.relay = .opened) (id : Nat) : exec (.overlayEnd id) s = .next
    { s with panels := s.panels.both s (PanelState.endOverlay s id), announced := s.announced.erase (.overlayEnd id) } :=
  if_pos h

/-- Settles O55. -/
theorem pageStacks : Obligations.PageStacks := by
  unfold Obligations.PageStacks
  refine ⟨fun s panel q => ?_, fun id s hopen => ?_, fun id s hopen => ?_, fun s u => ?_⟩
  · intro shape wanted
    refine ⟨fun l ls hq hl => popRun_of_live hq hl, ?_, fun x hroom => if_pos hroom, fun x hfull => if_neg (by omega),
      fun x => rfl, fun x y hne => ?_, fun b => ?_⟩
    · rintro l ls rest hq hl rfl hroom r
      refine ⟨fun id hw => ?_, fun hw => ?_, popRun_compose hq hl hroom⟩
      · have hrun := popRun_of_wanted (s := s) (panel := panel) hq hl hroom hw
        obtain ⟨hshape, hwant⟩ := push_shape s panel (.urgent id) q.popped
        simp only [r, hrun]
        exact ⟨hshape, hwant, trivial⟩
      · refine ⟨?_, fun ha => ?_, fun ha => ?_⟩
        · cases ha : q.approachWant with
          | true => rw [popRun_of_approachWanted hq hl hroom hw ha]
          | false => rw [popRun_of_none_wanted hq hl hroom hw ha]
        · have hrun := popRun_of_approachWanted (s := s) (panel := panel) hq hl hroom hw ha
          simp only [r, hrun]
          exact push_shape s panel .approach { q.popped with approachWant := false }
        · have hrun := popRun_of_none_wanted (s := s) (panel := panel) hq hl hroom hw ha
          obtain ⟨hshape, hwant⟩ := PanelState.request_stack s panel q.popped
          simp only [r, hrun]
          exact ⟨hshape, hwant.trans ha⟩
    · simp only [PanelState.follow, hne, if_false]
      split <;> rfl
    · cases b with
      | none => rfl
      | some x => exact if_pos rfl
  · refine ⟨_, exec_overlayRequest_of_opened hopen id, rfl, (both_panels (PanelState.overlay s id) s s.panels).2.2, ?_⟩
    intro room
    obtain ⟨hpanel1, hpanel2, -⟩ := both_panels (PanelState.overlay s id) s s.panels
    have hpushes : s.panels.pushes (PanelState.overlay s id) ↔ room s.panels.panel1 ∨ room s.panels.panel2 :=
      or_congr overlay_pushed_iff overlay_pushed_iff
    exact ⟨fun h => hpanel1.trans (congrArg Prod.fst (overlay_of_room h)),
      fun h => hpanel1.trans (congrArg Prod.fst (overlay_of_no_room h)),
      fun h => hpanel2.trans (congrArg Prod.fst (overlay_of_room h)),
      fun h => hpanel2.trans (congrArg Prod.fst (overlay_of_no_room h)),
      fun ⟨h, hmode⟩ => both_level_of_activity _ (hpushes.mpr h) hmode,
      fun h => both_level_of_none _ fun ⟨hpush, hmode⟩ => h ⟨hpushes.mp hpush, hmode⟩⟩
  · obtain ⟨hpanel1, hpanel2, hbasis⟩ := both_panels (PanelState.endOverlay s id) s s.panels
    exact ⟨_, exec_overlayEnd_of_opened hopen id, rfl, hpanel1, hpanel2, hbasis,
      both_level_of_activity (u := s.panels) (PanelState.endOverlay s id),
      both_level_of_none (u := s.panels) (PanelState.endOverlay s id)⟩
  · obtain ⟨hpanel1, hpanel2, -⟩ := both_panels (PanelState.follow s u.basis s.reck.progress.inForce) s u
    exact ⟨hpanel1, hpanel2, rfl, both_level_of_activity _, both_level_of_none _⟩

end Sys2Proof.Machine
end

section
/-! PROOF. The rendered page and its template (R168, R169), which items an element reads, and the compose requests that
announcements make (R171, R175): O56. -/

namespace Sys2Proof.Machine
variable {s : State} {panel : Panel} {q : PanelState} {t : TableStore} {page : Page}

/-! ### The rendered page and its template (R168, R169) -/

theorem rendered_of_dark {mode : Mode} (h : mode ∈ [Mode.service, .restartPending]) : q.rendered mode = .service :=
  if_pos ((Mode.dark_iff mode).mpr h)

theorem rendered_of_light {mode : Mode} {l : Level} {ls : List Level} (h : mode ∈ [Mode.normal, .quiet])
    (hq : q.stack = l :: ls) : q.rendered mode = l.kind.page := by
  simp [PanelState.rendered, (light_iff mode).mpr h, hq]

/-- The first of a range that has a property. -/
theorem find?_range_eq_some_iff {n k : Nat} {p : Nat → Bool} {P : Nat → Prop} (hp : ∀ k, p k = true ↔ P k) :
    (List.range n).find? p = some k ↔ k < n ∧ P k ∧ ∀ j, j < k → ¬ P j := by
  simp only [List.find?_range_eq_some, hp, List.mem_range, Bool.not_eq_true', ← Bool.not_eq_true]
  tauto

theorem find?_range_eq_none_iff {n : Nat} {p : Nat → Bool} {P : Nat → Prop} (hp : ∀ k, p k = true ↔ P k) :
    (List.range n).find? p = none ↔ ∀ k, k < n → ¬ P k := by
  simp only [List.find?_range_eq_none, Bool.not_eq_true', ← Bool.not_eq_true, hp]

/-- Template `k` is present, of the page's kind, and names the panel (R168). -/
abbrev servesPage (t : TableStore) (panel : Panel) (page : Page) (k : Nat) : Prop :=
  ∃ r, Table.find t.page.active (25 * k) = some r ∧ natAt r 0 = page.code ∧
    (natAt r 1 = 3 ∨ (natAt r 1 = 1 ∧ panel = .panel1) ∨ (natAt r 1 = 2 ∧ panel = .panel2))

theorem selects_iff (selector : Nat) (panel : Panel) : selects selector panel = true ↔
    selector = 3 ∨ (selector = 1 ∧ panel = .panel1) ∨ (selector = 2 ∧ panel = .panel2) := by
  cases panel <;> simp [selects, or_comm]

theorem templateNumber_eq_some_iff {k : Nat} : templateNumber t panel page = some k ↔
    k < 12 ∧ servesPage t panel page k ∧ ∀ j, j < k → ¬ servesPage t panel page j := by
  refine find?_range_eq_some_iff (P := servesPage t panel page) fun k => ?_
  cases hr : Table.find t.page.active (25 * k) with
  | none => simp [servesPage, hr]
  | some r => simp [servesPage, hr, selects_iff]

theorem templateNumber_eq_none_iff : templateNumber t panel page = none ↔ ∀ k, k < 12 → ¬ servesPage t panel page k := by
  refine find?_range_eq_none_iff (P := servesPage t panel page) fun k => ?_
  cases hr : Table.find t.page.active (25 * k) with
  | none => simp [servesPage, hr]
  | some r => simp [servesPage, hr, selects_iff]

theorem page_of_template {k : Nat} {r : List Byte} (h : templateNumber t panel page = some k)
    (hr : Table.find t.page.active (25 * k) = some r) :
    pageElements t panel page = templateElements t k ∧ pageBackground t panel page = (byteAt r 2).extractLsb' 0 4 := by
  rw [pageElements, pageBackground, h, Option.bind_some, hr]
  exact ⟨rfl, rfl⟩

theorem page_of_no_template (h : templateNumber t panel page = none) :
    pageElements t panel page = [] ∧ pageBackground t panel page = 0 := by
  rw [pageElements, pageBackground, h]
  exact ⟨rfl, rfl⟩

/-! ### What an element reads of an announcement (R175, R180, R183) -/

theorem readsChanged_eq (c : Changed) (page : Page) (e : Element) : readsChanged c page e =
    ((e.kind == .strip && (c.state || c.remembered || c.p || c.n || c.a || c.permille)) ||
      (e.kind == .text && ((e.source == 1 && c.n) || (e.source == 2 && c.arrival) || (e.source == 3 && c.delay) ||
        (e.source == 8 && c.n) || (e.source == 7 && page == .approach && (c.n || c.arrival))))) := by
  unfold readsChanged
  cases e.kind with
  | fill => rfl
  | clock => rfl
  | strip => exact (Bool.or_false _).symm
  | text =>
    dsimp only
    split
    case h_6 h1 h2 h3 h7 h8 =>
      rw [beq_eq_false_iff_ne.mpr h1, beq_eq_false_iff_ne.mpr h2, beq_eq_false_iff_ne.mpr h3, beq_eq_false_iff_ne.mpr h7,
        beq_eq_false_iff_ne.mpr h8]
      rfl
    all_goals next hsource => simp [hsource]

/-- Settles O56. -/
theorem composeRequests : Obligations.ComposeRequests := by
  unfold Obligations.ComposeRequests
  refine ⟨fun mode q => ⟨rendered_of_dark, fun hmode l ls hq => ⟨fun hk => ?_, fun hk => ?_, fun id hk => ?_⟩⟩,
    fun t panel page => ?_, fun s h => ?_⟩
  · rw [rendered_of_light hmode hq, hk]; rfl
  · rw [rendered_of_light hmode hq, hk]; rfl
  · rw [rendered_of_light hmode hq, hk]; rfl
  · intro code serves
    have hcode : page.code = code := by cases page <;> rfl
    have hserves : serves = servesPage t panel page := by
      simp only [serves, ← hcode]
    rw [hserves]
    exact ⟨fun k r hk hserve hfirst hr => page_of_template (templateNumber_eq_some_iff.mpr ⟨hk, hserve, hfirst⟩) hr,
      fun hnone => page_of_no_template (templateNumber_eq_none_iff.mpr hnone)⟩
  · intro reads asks requested each followed
    have hreads : ∀ c page, readsChanged c page = reads c page := fun c page => funext (readsChanged_eq c page)
    -- every one of these commands does its work once the relay is open (R187)
    refine ⟨if_pos h, if_pos h, if_pos h, if_pos h, if_pos h, if_pos h, if_pos h,
      fun id => if_pos h, ⟨_, ⟨rfl, rfl⟩, if_pos h⟩, ⟨_, ⟨rfl, rfl⟩, if_pos h⟩, fun c => ⟨_, ⟨rfl, rfl⟩, ?_⟩,
      fun fs hroute => ⟨_, ⟨rfl, rfl⟩, ?_⟩, fun fs hroute => ?_⟩
    · simp only [requested, asks, ← hreads]
      exact if_pos h
    · refine (if_pos h).trans ?_
      simp only [hroute, if_true]
      rfl
    · refine (if_pos h).trans ?_
      simp only [hroute, Bool.false_eq_true, if_false]
      rfl

end Sys2Proof.Machine
end

section
/-! PROOF. What a compose reads for each kind of element, source by source (R176, R179, R180, R182 to R184). -/

namespace Sys2Proof.Machine
variable {s : State} {panel : Panel} {page : Page} {e : Element} {offset : Nat} {q : PanelState}

/-! ### The offset, the elements (R179, R182) -/

theorem offsetOf_of_page {l : Level} {ls : List Level} (h : page ≠ .service) (hq : q.stack = l :: ls) :
    q.offsetOf page = l.offset := by
  unfold PanelState.offsetOf
  split
  case h_1 => exact absurd rfl h
  case h_2 => rw [hq]; rfl

theorem readElement_fill (h : e.kind = .fill) : readElement s panel page offset e = .fill := by
  simp only [readElement, h]

theorem readElement_clock (h : e.kind = .clock) :
    readElement s panel page offset e = .text (clockText s.reck.clock) none := by
  simp only [readElement, h]

theorem readElement_text (h : e.kind = .text) : readElement s panel page offset e =
    .text (sourceText s page e) (if e.scroll = true ∧
      e.rect.w < (sourceText s page e).length * cellWidth e.bigFont then some offset else none) := by
  simp only [readElement, h, Bool.and_eq_true, decide_eq_true_eq]

theorem readElement_strip (h : e.kind = .strip) : readElement s panel page offset e =
    .strip ((windowStops s.reck.progress s.reck.calling (e.rect.w / e.pitch)).map s.tables.shortName)
      (markerPermille s.reck.progress) (stripMirrored s panel) := by
  simp only [readElement, h]

/-! ### The sources (R180) -/

theorem take_eq_self {n : Nat} {cs : Text} (h : cs.length ≤ n) : cs.take n = cs := List.take_of_length_le h

section Sources

theorem sourceText_string (h : e.source = 0) : sourceText s page e = (s.tables.string e.textId.toNat).take 96 := by
  simp only [sourceText, h]

theorem sourceText_nextStop (h : e.source = 1) : sourceText s page e = (s.tables.longName s.reck.progress.n).take 96 := by
  simp only [sourceText, h]

theorem sourceText_arrival (h : e.source = 2) : sourceText s page e = (s.reck.progress.arrival.map hhmm).getD dashes := by
  simp only [sourceText, h]
  cases s.reck.progress.arrival <;> rfl

theorem sourceText_delay_late (h : e.source = 3) (hlate : 0 < s.reck.progress.delay) : sourceText s page e =
    (joinParts [0x2B#8 :: decimal s.reck.progress.delay.toNat, s.tables.string 10]).take 96 := by
  simp only [sourceText, h, delaySource, if_pos hlate]

theorem sourceText_delay_none (h : e.source = 3) (hlate : s.reck.progress.delay ≤ 0) : sourceText s page e = [] := by
  simp only [sourceText, h, delaySource, if_neg (Int.not_lt.mpr hlate)]
  rfl

theorem decimal_length_le (n : Nat) : (decimal n).length ≤ 96 := by
  unfold decimal
  repeat' split
  all_goals exact Nat.le_of_ble_eq_true rfl

theorem sourceText_coachNumber (h : e.source = 4) : sourceText s page e =
    if s.form.coachNumber = 0 then [] else decimal s.form.coachNumber := by
  simp only [sourceText, h]
  refine take_eq_self ?_
  split
  · exact Nat.zero_le _
  · exact decimal_length_le _

theorem sourceText_class (h : e.source = 5) : sourceText s page e = classSource s.form.coachClass := by
  simp only [sourceText, h]
  cases s.form.coachClass <;> rfl

theorem sourceText_finalStop (h : e.source = 6) :
    sourceText s page e = (s.tables.longName (finalStop s.reck.calling)).take 96 := by
  simp only [sourceText, h]

theorem sourceText_notice (h : e.source = 7) : sourceText s page e = (noticeSource s page).take 96 := by
  simp only [sourceText, h]

theorem sourceText_connections (h : e.source = 8) :
    sourceText s page e = (joinParts (s.tables.connections s.reck.progress.n)).take 96 := by
  simp only [sourceText, h]

theorem sourceText_unknown (h : 8 < e.source) : sourceText s page e = [] := by
  unfold sourceText
  dsimp only
  split
  case h_10 => rfl
  all_goals omega

end Sources

theorem joinParts_filter (ps : List Text) : joinParts (ps.filter (fun p => !p.isEmpty)) = joinParts ps :=
  joinParts_append_filter [] ps

theorem longName_finalStop_of_empty {t : TableStore} {calling : List Nat} (h : calling = []) :
    t.longName (finalStop calling) = [] := by
  rw [h]
  rfl

theorem finalStop_of_greatest {calling : List Nat} {m : Nat} (hm : m ∈ calling) (hle : ∀ y ∈ calling, y ≤ m) :
    finalStop calling = some m := (greatest_eq_some_iff calling m).mpr ⟨hm, hle⟩

/-! ### The notice texts (R166, R180) -/

theorem noticeSource_of_lines (h : page ∈ [.map, .service]) : noticeSource s page = currentNoticeText s.notice := by
  simp only [List.mem_cons, List.not_mem_nil, or_false] at h
  rcases h with rfl | rfl <;> rfl

theorem currentNoticeText_of_showing {u : NoticeUnit} {id : Nat} {shown : Text} {dwell : Nat}
    (h : u.lines = .showing id shown dwell) : currentNoticeText u = shown := by
  simp only [currentNoticeText, h]

theorem currentNoticeText_of_idle {u : NoticeUnit} (h : ∀ id shown dwell, u.lines ≠ .showing id shown dwell) :
    currentNoticeText u = [] := by
  unfold currentNoticeText
  split
  case h_1 id shown dwell hl => exact absurd hl (h id shown dwell)
  case h_2 => rfl
  case h_3 => rfl

theorem noticeFind_of_split {u : NoticeUnit} {pre post : List NoticeEntry} {x : NoticeEntry} {id : Nat}
    (hq : u.queue = pre ++ x :: post) (hpre : ∀ y ∈ pre, y.id ≠ id) (hx : x.id = id) : u.find id = some x :=
  List.find?_eq_some_iff_append.mpr ⟨by simpa using hx, pre, post, hq, fun y hy => by simpa using hpre y hy⟩

theorem noticeSource_urgent {x : NoticeEntry} {id : Nat} (h : s.notice.find id = some x) :
    noticeSource s (.urgent id) = noticeText s.tables x := by
  rw [noticeSource, h]
  rfl

theorem noticeSource_urgent_gone {id : Nat} (h : ∀ x ∈ s.notice.queue, x.id ≠ id) : noticeSource s (.urgent id) = [] := by
  have hfind : s.notice.find id = none := List.find?_eq_none.mpr fun x hx => by simpa using h x hx
  rw [noticeSource, hfind]
  rfl

theorem noticeText_of_inlined {t : TableStore} {x : NoticeEntry} {cs : Text} (h : x.text = .inlined cs) :
    noticeText t x = cs := by
  simp only [noticeText, h]

theorem noticeText_of_pool {t : TableStore} {x : NoticeEntry} {i : Byte} (h : x.text = .pool i) :
    noticeText t x = t.string i.toNat := by
  simp only [noticeText, h]

theorem noticeSource_approach {a : Approach} (h : s.reck.progress.inForce = some a) :
    noticeSource s .approach = localText s.tables s.reck.progress a.kind := by
  simp only [noticeSource, h]

theorem noticeSource_approach_none (h : s.reck.progress.inForce = none) : noticeSource s .approach = [] := by
  simp only [noticeSource, h]

/-! ### The strip (R183, R184) -/

/-- The state the strip reads, where there is one. -/
theorem effective_eq (r : Progress) :
    r.effective = (if r.state = .hold then r.remembered else some r.state).getD .hold := by
  unfold Progress.effective
  cases r.state <;> rfl

section Strip
variable {r : Progress} {x : ProgressState}

theorem effective_of_read (h : (if r.state = .hold then r.remembered else some r.state) = some x) : r.effective = x := by
  rw [effective_eq, h, Option.getD_some]

theorem windowStart_of_atStop (h : r.effective = .atStop) : windowStart r = r.a := by simp only [windowStart, h]

theorem windowStart_of_moving (h : r.effective = .running ∨ r.effective = .approaching) : windowStart r = (r.p <|> r.n) := by
  rcases h with h | h <;> simp only [windowStart, h]

theorem windowStart_of_finished (h : r.effective = .finished) : windowStart r = r.p := by simp only [windowStart, h]

/-- In no other state does the window start anywhere. -/
theorem windowStart_of_unread (h : (if r.state = .hold then r.remembered else some r.state) ∉
    [some .atStop, some .running, some .approaching, some .finished]) : windowStart r = none := by
  rw [windowStart, effective_eq]
  cases hread : (if r.state = .hold then r.remembered else some r.state) with
  | none => rfl
  | some x =>
    rw [hread] at h
    cases x with
    | noRoute => rfl
    | awaitingPosition => rfl
    | hold => rfl
    | _ => exact absurd (by decide) h

theorem markerPermille_of_moving (h : r.effective = .running ∨ r.effective = .approaching) :
    markerPermille r = r.permille := by
  rcases h with h | h <;> simp only [markerPermille, h]

theorem markerPermille_of_standing (h : r.effective = .atStop ∨ r.effective = .finished) : markerPermille r = 0 := by
  rcases h with h | h <;> simp only [markerPermille, h]

theorem windowStops_eq (r : Progress) (calling : List Nat) (slots : Nat) : windowStops r calling slots =
    (windowStart r).elim [] fun x => (calling.filter (fun m => x ≤ m)).take slots := by
  unfold windowStops
  cases windowStart r <;> rfl

end Strip

/-- Whether a panel's right is the way of travel (R61). -/
abbrev Params.travelsRight (p : Params) : Panel → Bool
  | .panel1 => p.travelRight1
  | .panel2 => p.travelRight2

theorem stripMirrored_eq_false_iff : stripMirrored s panel = false ↔
    (s.mgmt.params.travelsRight panel = true ∧ s.form.orientation ∈ [.normal, .unknown]) ∨
      (s.mgmt.params.travelsRight panel = false ∧ s.form.orientation = .reversed) := by
  have hmirrored : stripMirrored s panel = (s.mgmt.params.travelsRight panel == (s.form.orientation == .reversed)) := by
    cases panel <;> rfl
  rw [hmirrored]
  cases s.mgmt.params.travelsRight panel <;> cases s.form.orientation <;> decide

end Sys2Proof.Machine
end

section
/-! PROOF. Composes begun, swapped and drawn (R176, R178, R179, R181 to R184), and the brightness (R185, R186): O57. -/

namespace Sys2Proof.Machine
variable {s : State} {panel : Panel} {q : PanelState} {e : Element} {x y : Nat}

/-! ### Composes (R176, R182) -/

theorem beginCompose_fields (s : State) (panel : Panel) (q : PanelState) :
    (q.beginCompose s panel).compose = some (q.job s panel) ∧ (q.beginCompose s panel).again = q.again ∧
      (q.beginCompose s panel).front = q.front ∧ (q.beginCompose s panel).back = q.back ∧
      (q.beginCompose s panel).serviceOffset = q.serviceOffset := by
  unfold PanelState.beginCompose
  dsimp only
  split <;> exact ⟨rfl, rfl, rfl, rfl, rfl⟩

theorem request_serviceOffset (s : State) (panel : Panel) (q : PanelState) :
    (q.request s panel).serviceOffset = q.serviceOffset := by
  unfold PanelState.request
  split
  · rfl
  · exact (beginCompose_fields s panel q).2.2.2.2

theorem swap_fields (s : State) (panel : Panel) (j : ComposeJob) (q : PanelState) :
    (q.swap s panel j).front = j.buffer ∧ (q.swap s panel j).back = q.front ∧ (q.swap s panel j).again = false ∧
      (q.swap s panel j).compose.isSome = q.again := by
  unfold PanelState.swap
  dsimp only
  split
  case isTrue hagain =>
    obtain ⟨hcompose, hpending, hfront, hback, -⟩ := beginCompose_fields s panel
      { q with front := j.buffer, back := q.front, compose := none, again := false }
    exact ⟨hfront, hback, hpending, by rw [hcompose, hagain]; rfl⟩
  case isFalse hagain => exact ⟨rfl, rfl, rfl, (Bool.eq_false_iff.mpr hagain).symm⟩

theorem get_vectorOfFn {n : Nat} {α : Type} (f : Fin n → α) (i : Fin n) : (Vector.ofFn f).get i = f i := by
  rw [Vector.get_eq_getElem, Vector.getElem_ofFn]

theorem buffer_get (j : ComposeJob) (x : Fin 192) (y : Fin 48) : (Vector.get j.buffer y).get x = j.pixel x.val y.val := by
  rw [ComposeJob.buffer, get_vectorOfFn, get_vectorOfFn]

/-! ### Drawing (R178, R181 to R184) -/

theorem colourAt_of_cells {cells : Text} :
    (cellsSet e.bigFont cells (alignedAt e.align e.rect.x0 e.rect.w (cells.length * cellWidth e.bigFont)) e.rect.y0
      e.rect.x0 (e.rect.x0 + e.rect.w - 1) x y → DrawItem.colourAt ⟨e, .text cells none⟩ x y = some e.colour) ∧
    (¬ cellsSet e.bigFont cells (alignedAt e.align e.rect.x0 e.rect.w (cells.length * cellWidth e.bigFont)) e.rect.y0
      e.rect.x0 (e.rect.x0 + e.rect.w - 1) x y → DrawItem.colourAt ⟨e, .text cells none⟩ x y = none) := by
  rw [colourAt_text]
  exact ⟨fun h => if_pos ((cellsPixel_iff ..).mpr h), fun h => if_neg ((cellsPixel_iff ..).not.mpr h)⟩

theorem colourAt_of_scrolledCells {text : Text} {offset : Nat} :
    (cellsSet e.bigFont (scrolledCells text offset (e.rect.w / cellWidth e.bigFont)) e.rect.x0 e.rect.y0
      e.rect.x0 (e.rect.x0 + e.rect.w - 1) x y → DrawItem.colourAt ⟨e, .text text (some offset)⟩ x y = some e.colour) ∧
    (¬ cellsSet e.bigFont (scrolledCells text offset (e.rect.w / cellWidth e.bigFont)) e.rect.x0 e.rect.y0
      e.rect.x0 (e.rect.x0 + e.rect.w - 1) x y → DrawItem.colourAt ⟨e, .text text (some offset)⟩ x y = none) := by
  rw [colourAt_scrolled]
  exact ⟨fun h => if_pos ((cellsPixel_iff ..).mpr h), fun h => if_neg ((cellsPixel_iff ..).not.mpr h)⟩

section Strip
variable (e : Element) (names : List Text) (permille : Nat) (mirrored : Bool) (x y : Nat)

/-- Where a strip draws its stop `i`. -/
abbrev stripStop (i : Nat) : Int := stripX e.rect mirrored (e.rect.x0 + e.pitch / 2 + i * e.pitch)

/-- Where a strip draws its marker. -/
abbrev stripMarker : Int := stripX e.rect mirrored (e.rect.x0 + e.pitch / 2 + e.pitch * permille / 1000)

/-- A name of the strip sets the pixel. -/
abbrev stripNamed : Prop := ∃ i name, names[i]? = some name ∧
  cellsSet false (name.take (e.pitch / 6))
    (stripStop e mirrored i - ((6 * (name.take (e.pitch / 6)).length / 2 : Nat) : Int))
    (e.rect.y0 + 12) e.rect.x0 (e.rect.x0 + e.rect.w - 1) x y

/-- The marker covers the pixel. -/
abbrev stripMarked : Prop := stripMarker e permille mirrored - 1 ≤ x ∧ (x : Int) ≤ stripMarker e permille mirrored + 1 ∧
  e.rect.y0 ≤ y ∧ y ≤ e.rect.y0 + 11

/-- A stop mark covers the pixel. -/
abbrev stripStopped : Prop := ∃ i, i < names.length ∧ stripStop e mirrored i - 2 ≤ x ∧
  (x : Int) ≤ stripStop e mirrored i + 2 ∧
  e.rect.y0 + 3 ≤ y ∧ y ≤ e.rect.y0 + 8

/-- The track covers the pixel. -/
abbrev stripTracked : Prop := 1 < names.length ∧
  min (stripStop e mirrored 0) (stripStop e mirrored (names.length - 1)) ≤ x ∧
  (x : Int) ≤ max (stripStop e mirrored 0) (stripStop e mirrored (names.length - 1)) ∧ e.rect.y0 + 5 ≤ y ∧ y ≤ e.rect.y0 + 6

theorem stripNames_any_iff : ((List.range names.length).any fun i =>
      cellsPixel false ((names.getD i []).take (e.pitch / 6))
        (stripStop e mirrored i - ((6 * ((names.getD i []).take (e.pitch / 6)).length / 2 : Nat) : Int)) (e.rect.y0 + 12)
        e.rect.x0 (e.rect.x0 + e.rect.w - 1) x y) = true ↔ stripNamed e names mirrored x y := by
  simp only [List.any_eq_true, List.mem_range, cellsPixel_iff]
  constructor
  · rintro ⟨i, hi, hset⟩
    refine ⟨i, names[i], List.getElem?_eq_getElem hi, ?_⟩
    rw [List.getD_eq_getElem _ _ hi] at hset
    exact hset
  · rintro ⟨i, name, hname, hset⟩
    obtain ⟨hi, rfl⟩ := List.getElem?_eq_some_iff.mp hname
    refine ⟨i, hi, ?_⟩
    rw [List.getD_eq_getElem _ _ hi]
    exact hset

theorem stripMarks_any_iff : ((List.range names.length).any fun i =>
      decide (stripStop e mirrored i - 2 ≤ x ∧ (x : Int) ≤ stripStop e mirrored i + 2 ∧ e.rect.y0 + 3 ≤ y ∧
        y ≤ e.rect.y0 + 8)) = true ↔ stripStopped e names mirrored x y := by
  simp only [List.any_eq_true, List.mem_range, decide_eq_true_eq]

/-- The layers of a strip, the names over the marker over the stop marks and the track (R184). -/
theorem stripPixel_layers (h : names ≠ []) :
    (stripNamed e names mirrored x y → stripPixel e names permille mirrored x y = some e.colour) ∧
    (¬ stripNamed e names mirrored x y → stripMarked e permille mirrored x y →
      stripPixel e names permille mirrored x y = some e.marker) ∧
    (¬ stripNamed e names mirrored x y → ¬ stripMarked e permille mirrored x y →
      stripStopped e names mirrored x y ∨ stripTracked e names mirrored x y →
      stripPixel e names permille mirrored x y = some e.colour) ∧
    (¬ stripNamed e names mirrored x y → ¬ stripMarked e permille mirrored x y → ¬ stripStopped e names mirrored x y →
      ¬ stripTracked e names mirrored x y → stripPixel e names permille mirrored x y = none) := by
  have hnamed := stripNames_any_iff e names mirrored x y
  have hstopped := stripMarks_any_iff e names mirrored x y
  unfold stripPixel
  dsimp only
  rw [if_neg h]
  refine ⟨fun hn => if_pos (hnamed.mpr hn), fun hn hm => ?_, fun hn hm hs => ?_, fun hn hm hs ht => ?_⟩
  · exact (if_neg (hnamed.not.mpr hn)).trans (if_pos (decide_eq_true hm))
  · exact (if_neg (hnamed.not.mpr hn)).trans ((if_neg (mt of_decide_eq_true hm)).trans
      (if_pos (Bool.or_eq_true_iff.mpr (hs.imp hstopped.mpr decide_eq_true))))
  · exact (if_neg (hnamed.not.mpr hn)).trans ((if_neg (mt of_decide_eq_true hm)).trans
      (if_neg (mt Bool.or_eq_true_iff.mp (not_or.mpr ⟨hstopped.not.mpr hs, mt of_decide_eq_true ht⟩))))

theorem stripPixel_of_empty : stripPixel e [] permille mirrored x y = none := by
  unfold stripPixel
  exact if_pos rfl

end Strip

/-- A pixel lies within a rectangle that is not empty. -/
theorem Rect.contains_iff {r : Rect} (hw : 1 ≤ r.w) (hh : 1 ≤ r.h) :
    r.contains x y = true ↔ r.x0 ≤ x ∧ x ≤ r.x0 + r.w - 1 ∧ r.y0 ≤ y ∧ y ≤ r.y0 + r.h - 1 := by
  simp only [Rect.contains, decide_eq_true_eq]
  omega

/-- The clip test passes inside an inclusion and outside an exclusion (R178). -/
theorem Element.clipPasses_iff (e : Element) (x y : Nat) : e.clipPasses x y = true ↔
    (e.mode = .inside → e.clip.contains x y = true) ∧ (e.mode = .outside → ¬ e.clip.contains x y = true) := by
  unfold Element.clipPasses
  cases e.mode <;> simp

theorem draw_of_writes {i : DrawItem} {present : Colour} (hrect : i.element.rect.contains x y = true)
    (hclip : i.element.clipPasses x y = true) (hprotect : i.element.protect ≠ some present) :
    i.draw x y present = (i.colourAt x y).getD present :=
  if_pos (by simp [hrect, hclip, hprotect])

theorem draw_of_not_writes {i : DrawItem} {present : Colour} (h : ¬ (i.element.rect.contains x y = true ∧
    i.element.clipPasses x y = true ∧ i.element.protect ≠ some present)) : i.draw x y present = present := by
  refine if_neg fun hwrites => h ?_
  simpa [and_assoc] using hwrites

/-! ### Brightness, modes and swaps (R176, R182, R185, R186) -/

theorem exec_composeSwap_panel1 {j : ComposeJob} (h : s.panels.panel1.compose = some j) : exec (.composeSwap .panel1) s =
    .next { s with panels := { s.panels with panel1 := s.panels.panel1.swap s .panel1 j } } := by
  change execComposeSwap .panel1 s = _
  simp only [execComposeSwap, h]

theorem exec_composeSwap_panel2 {j : ComposeJob} (h : s.panels.panel2.compose = some j) : exec (.composeSwap .panel2) s =
    .next { s with panels := { s.panels with panel2 := s.panels.panel2.swap s .panel2 j } } := by
  change execComposeSwap .panel2 s = _
  simp only [execComposeSwap, h]

theorem exec_composeSwap_panel1_of_none (h : s.panels.panel1.compose = none) : exec (.composeSwap .panel1) s = .next s := by
  change execComposeSwap .panel1 s = _
  simp only [execComposeSwap, h]

theorem exec_composeSwap_panel2_of_none (h : s.panels.panel2.compose = none) : exec (.composeSwap .panel2) s = .next s := by
  change execComposeSwap .panel2 s = _
  simp only [execComposeSwap, h]

theorem exec_idleTimerExpiry_of_running {n : Nat} (hmode : s.mgmt.mode = .quiet) (h : s.panels.idle = some (n + 1)) :
    exec .idleTimerExpiry s = .next { s with panels := { s.panels with idle := some 0, brightness := .low } } := by
  change execIdleTimerExpiry s = _
  simp only [execIdleTimerExpiry, hmode, h]

theorem exec_idleTimerExpiry_of_stopped (h : s.mgmt.mode ≠ .quiet ∨ s.panels.idle = none ∨ s.panels.idle = some 0) :
    exec .idleTimerExpiry s = .next s := by
  change execIdleTimerExpiry s = _
  unfold execIdleTimerExpiry
  split
  case h_1 n hmode hidle => simp_all
  case h_2 => rfl

/-- The composer after a mode change, before the requests. -/
abbrev PanelComposer.modeChanged (s : State) (before after : Mode) (u : PanelComposer) : PanelComposer :=
  (u.modeLevel s before after).modeOffset before after

theorem exec_modeChangePanel_of_opened (h : s.line.relay = .opened) (before after : Mode) :
    exec (.modeChangePanel before after) s = .next
      { s with panels := (s.panels.modeChanged s before after).requestBoth s
               announced := s.announced.erase (.modeChangePanel before after) } := if_pos h

theorem exec_activity_of_opened (h : s.line.relay = .opened) : exec .activity s = .next
    { s with panels := s.panels.active s, announced := s.announced.erase .activity } := if_pos h

theorem modeLevel_panels (s : State) (before after : Mode) (u : PanelComposer) :
    (u.modeLevel s before after).panel1 = u.panel1 ∧ (u.modeLevel s before after).panel2 = u.panel2 := by
  unfold PanelComposer.modeLevel
  split
  · exact ⟨rfl, rfl⟩
  · split <;> exact ⟨rfl, rfl⟩

theorem modeOffset_levels (before after : Mode) (u : PanelComposer) :
    (u.modeOffset before after).idle = u.idle ∧ (u.modeOffset before after).brightness = u.brightness := by
  unfold PanelComposer.modeOffset
  split <;> exact ⟨rfl, rfl⟩

/-- The service offset of a panel after a mode change (R182). -/
abbrev serviceStart (before after : Mode) (q : PanelState) : PanelState :=
  if after.dark && !before.dark then { q with serviceOffset := 0 } else q

theorem modeChanged_panels (s : State) (before after : Mode) (u : PanelComposer) :
    (u.modeChanged s before after).panel1 = serviceStart before after u.panel1 ∧
      (u.modeChanged s before after).panel2 = serviceStart before after u.panel2 := by
  obtain ⟨hpanel1, hpanel2⟩ := modeLevel_panels s before after u
  simp only [PanelComposer.modeChanged, PanelComposer.modeOffset, serviceStart, ← hpanel1, ← hpanel2]
  split <;> exact ⟨rfl, rfl⟩

theorem serviceStart_fields (before after : Mode) (q : PanelState) :
    (serviceStart before after q).compose = q.compose ∧ (serviceStart before after q).stack = q.stack ∧
      (serviceStart before after q).serviceOffset =
        if after ∈ [.service, .restartPending] ∧ before ∉ [.service, .restartPending] then 0 else q.serviceOffset := by
  have hbegins : (after.dark && !before.dark) = true ↔
      after ∈ [.service, .restartPending] ∧ before ∉ [.service, .restartPending] := by
    rw [Bool.and_eq_true, Bool.not_eq_true', ← Bool.not_eq_true, Mode.dark_iff, Mode.dark_iff]
  unfold serviceStart
  split
  case isTrue h => exact ⟨rfl, rfl, (if_pos (hbegins.mp h)).symm⟩
  case isFalse h => exact ⟨rfl, rfl, (if_neg (mt hbegins.mpr h)).symm⟩

/-- What a mode change leaves of a panel. -/
theorem serviceStart_request (s : State) (panel : Panel) (before after : Mode) (q : PanelState) :
    let r := (serviceStart before after q).request s panel
    r.compose.isSome = true ∧ (q.compose.isSome = true → r.again = true) ∧
      r.stack.map Level.shape = q.stack.map Level.shape ∧
      r.serviceOffset = (if after ∈ [.service, .restartPending] ∧ before ∉ [.service, .restartPending] then 0
                         else q.serviceOffset) := by
  intro r
  obtain ⟨hcompose, hstack, hoffset⟩ := serviceStart_fields before after q
  obtain ⟨hsome, hagain⟩ := request_compose s panel (serviceStart before after q)
  obtain ⟨hshape, -⟩ := PanelState.request_stack s panel (serviceStart before after q)
  exact ⟨hsome, fun hq => (hagain (hcompose ▸ hq)).1, hshape.trans (by rw [hstack]),
    (request_serviceOffset s panel _).trans hoffset⟩

end Sys2Proof.Machine
end

section
/-! PROOF. Composes and brightness, assembled (R176 to R186): O57. -/

namespace Sys2Proof.Machine
variable {s : State} {panel : Panel} {page : Page} {e : Element}

/-- The item of a strip's window from a start, or without one (R183). -/
theorem windowNames_starts (s : State) {o : Option Nat} (slots : Nat) (h : windowStart s.reck.progress = o) :
    (∀ x, o = some x → (windowStops s.reck.progress s.reck.calling slots).map s.tables.shortName =
      ((s.reck.calling.filter (fun m => x ≤ m)).take slots).map s.tables.shortName) ∧
    (o = none → (windowStops s.reck.progress s.reck.calling slots).map s.tables.shortName = []) := by
  rw [windowStops_eq, h]
  exact ⟨fun x hx => by rw [hx, Option.elim_some], fun hnone => by rw [hnone, Option.elim_none, List.map_nil]⟩

theorem drawn_iff {i : DrawItem} {x y : Nat} {present : Colour} (hw : 1 ≤ i.element.rect.w) (hh : 1 ≤ i.element.rect.h)
    (hcw : 1 ≤ i.element.clip.w) (hch : 1 ≤ i.element.clip.h) :
    let inside (r : Rect) : Prop := r.x0 ≤ x ∧ x ≤ r.x0 + r.w - 1 ∧ r.y0 ≤ y ∧ y ≤ r.y0 + r.h - 1
    i.element.rect.contains x y = true ∧ i.element.clipPasses x y = true ∧ i.element.protect ≠ some present ↔
      inside i.element.rect ∧ (i.element.mode = .inside → inside i.element.clip) ∧
        (i.element.mode = .outside → ¬ inside i.element.clip) ∧ i.element.protect ≠ some present := by
  intro inside
  rw [Element.clipPasses_iff, Rect.contains_iff hw hh, Rect.contains_iff hcw hch]
  exact and_congr_right' and_assoc

/-- Settles O57. -/
theorem composesAndBrightness : Obligations.ComposesAndBrightness := by
  unfold Obligations.ComposesAndBrightness
  refine ⟨fun s panel q => ⟨request_of_composing, fun h => ?_⟩, fun q page => ⟨?_, fun h l ls => offsetOf_of_page h⟩,
    fun s panel page offset e => ?_, buffer_get, fun b items i x y => ⟨rfl, ComposeJob.pixel_append ..⟩,
    fun e x y => ?_, fun i x y present => ?_, fun s j h => ?_, fun s j h => ?_, fun s h => ?_,
    fun s n => exec_idleTimerExpiry_of_running,
    fun s => ⟨exec_idleTimerExpiry_of_stopped, exec_composeSwap_panel1_of_none, exec_composeSwap_panel2_of_none⟩⟩
  · rw [request_of_idle (by rw [h]; rfl)]
    obtain ⟨hcompose, hagain, hfront, hback, -⟩ := beginCompose_fields s panel q
    exact ⟨hcompose, hagain, hfront, hback⟩
  · rintro rfl
    rfl
  · intro r got name absent
    have hname : ∀ o, s.tables.longName o = name o := by
      intro o
      simp only [name, longName_eq]
      cases o.bind s.tables.entry <;> rfl
    refine ⟨readElement_fill, readElement_clock, fun hkind => ⟨sourceText s page e, readElement_text hkind,
      sourceText_string, ?_, ?_, fun hsource => ⟨sourceText_delay_late hsource, sourceText_delay_none hsource⟩,
      sourceText_coachNumber, ?_, ?_, ?_, ?_, sourceText_unknown⟩, ?_⟩
    · intro hsource
      rw [sourceText_nextStop hsource, hname]
    · intro hsource
      rw [sourceText_arrival hsource]
      simp only [r]
      cases s.reck.progress.arrival <;> rfl
    · intro hsource
      rw [sourceText_class hsource]
      cases s.form.coachClass <;> rfl
    · intro hsource
      rw [sourceText_finalStop hsource]
      exact ⟨fun hempty => by rw [longName_finalStop_of_empty hempty, List.take_nil],
        fun m hm hle => by rw [finalStop_of_greatest hm hle, hname]⟩
    · intro hsource
      rw [sourceText_notice hsource]
      refine ⟨fun hpage => ?_, ?_, ?_⟩
      · rw [noticeSource_of_lines hpage]
        exact ⟨fun id shown dwell hl => by rw [currentNoticeText_of_showing hl],
          fun hidle => by rw [currentNoticeText_of_idle hidle, List.take_nil]⟩
      · rintro id rfl
        refine ⟨fun pre x post hq hpre hx => ?_, fun hgone => by rw [noticeSource_urgent_gone hgone, List.take_nil]⟩
        rw [noticeSource_urgent (noticeFind_of_split hq hpre hx)]
        exact ⟨fun cs hcs => by rw [noticeText_of_inlined hcs], fun i hi => by rw [noticeText_of_pool hi]⟩
      · rintro rfl
        exact ⟨fun a ha => by rw [noticeSource_approach ha, take_eq_self (localText_length ..)],
          fun hnone => by rw [noticeSource_approach_none hnone, List.take_nil]⟩
    · intro hsource
      rw [sourceText_connections hsource, connections_eq, joinParts_filter]
      simp only [r]
      cases s.reck.progress.n.bind s.tables.entry <;> rfl
    · intro hkind
      refine ⟨_, _, _, readElement_strip hkind, ?_⟩
      intro state fromStop starts
      have hread {x : ProgressState} (hx : state = some x) : r.effective = x := effective_of_read hx
      have hmoving (hx : state = some .running ∨ state = some .approaching) :
          r.effective = .running ∨ r.effective = .approaching := hx.imp hread hread
      refine ⟨fun hx => ⟨windowNames_starts s _ (windowStart_of_atStop (hread hx)),
          markerPermille_of_standing (.inl (hread hx))⟩,
        fun hx => ⟨fun hp => windowNames_starts s _ ?_, fun hp => windowNames_starts s _ ?_,
          markerPermille_of_moving (hmoving hx)⟩,
        fun hx => ⟨windowNames_starts s _ (windowStart_of_finished (hread hx)),
          markerPermille_of_standing (.inr (hread hx))⟩,
        fun hx => (windowNames_starts s _ (windowStart_of_unread hx)).2 rfl, ?_⟩
      · obtain ⟨p, hp⟩ := Option.ne_none_iff_exists'.mp hp
        rw [windowStart_of_moving (hmoving hx), hp]
        rfl
      · rw [windowStart_of_moving (hmoving hx), hp]
        rfl
      · exact stripMirrored_eq_false_iff
  · intro q right
    refine ⟨rfl, fun cells => ?_, fun text offset => colourAt_of_scrolledCells, fun names permille mirrored hnames => ?_,
      fun permille mirrored => stripPixel_of_empty e permille mirrored x y⟩
    · exact colourAt_of_cells
    · exact stripPixel_layers e names permille mirrored x y hnames
  · intro e inside writes hw hh hcw hch
    have hdrawn := drawn_iff (i := i) (x := x) (y := y) (present := present) hw hh hcw hch
    refine ⟨fun hwrites => ?_, fun hnot => draw_of_not_writes (mt hdrawn.mp hnot)⟩
    obtain ⟨hrect, hclip, hprotect⟩ := hdrawn.mpr hwrites
    exact draw_of_writes hrect hclip hprotect
  · exact ⟨_, exec_composeSwap_panel1 h, rfl, swap_fields s .panel1 j s.panels.panel1⟩
  · exact ⟨_, exec_composeSwap_panel2 h, rfl, swap_fields s .panel2 j s.panels.panel2⟩
  · refine ⟨fun hmode => ?_, fun hmode => ?_,
      fun before after => ⟨_, exec_modeChangePanel_of_opened h before after, rfl, ?_⟩⟩
    · rw [exec_activity_of_opened h, active_of_quiet hmode]
    · rw [exec_activity_of_opened h, active_of_other hmode]
    · obtain ⟨hidle, hbright⟩ := modeOffset_levels before after (s.panels.modeLevel s before after)
      obtain ⟨hpanel1, hpanel2⟩ := modeChanged_panels s before after s.panels
      refine ⟨fun hquiet => ?_, fun hquiet hwas => ?_, fun hquiet hwas => ?_, fun q hq => ?_⟩
      · have hlevel : s.panels.modeLevel s before after =
            { s.panels with idle := some s.mgmt.params.quietIdle, brightness := .full } := if_pos hquiet
        exact ⟨hidle.trans (by rw [hlevel]), hbright.trans (by rw [hlevel])⟩
      · have hlevel : s.panels.modeLevel s before after = { s.panels with idle := none, brightness := .full } :=
          (if_neg hquiet).trans (if_pos hwas)
        exact ⟨hidle.trans (by rw [hlevel]), hbright.trans (by rw [hlevel])⟩
      · have hlevel : s.panels.modeLevel s before after = s.panels := (if_neg hquiet).trans (if_neg hwas)
        exact ⟨hidle.trans (by rw [hlevel]), hbright.trans (by rw [hlevel])⟩
      · simp only [List.mem_cons, List.not_mem_nil, or_false] at hq
        rcases hq with rfl | rfl
        · have hpanel := serviceStart_request s .panel1 before after s.panels.panel1
          rw [← hpanel1] at hpanel
          exact hpanel
        · have hpanel := serviceStart_request s .panel2 before after s.panels.panel2
          rw [← hpanel2] at hpanel
          exact hpanel

end Sys2Proof.Machine
end

section
/-! PROOF. Power, start-up and the end of a restart hold (R16, R17, R192 to R194): O60. -/

namespace Sys2Proof.Machine
variable {s : State} {u : FaultStore} {clock : Option Nat} {rs : List FaultReport}

/-! ### Fault reports taken one after another (R189, log 12) -/

/-- The record after reports have been taken in order. -/
abbrev FaultStore.takeAll (u : FaultStore) (clock : Option Nat) (rs : List FaultReport) : FaultStore :=
  rs.foldl (fun u r => u.take clock r) u

theorem take_count (h : u.legal) (clock : Option Nat) (r : FaultReport) :
    (u.take clock r).count = min 255 (u.count + 1) := by
  by_cases hr : u.record = none
  · rw [FaultStore.take_of_empty hr, FaultStore.count_eq_zero_of_empty h hr]
    rfl
  · rw [FaultStore.take_of_recorded hr]

theorem takeAll_count (h : u.legal) (clock : Option Nat) (rs : List FaultReport) :
    (u.takeAll clock rs).count = min 255 (u.count + rs.length) := by
  induction rs generalizing u with
  | nil => exact (Nat.min_eq_right h.2.1).symm
  | cons r rs ih =>
    have hrest := ih (FaultStore.take_legal h clock r)
    rw [take_count h] at hrest
    rw [List.length_cons]
    exact hrest.trans (by omega)

theorem takeAll_of_recorded {x : FaultRecord} (h : u.record = some x) (clock : Option Nat) (rs : List FaultReport) :
    (u.takeAll clock rs).record = some x := by
  induction rs generalizing u with
  | nil => exact h
  | cons r rs ih =>
    refine ih (u := u.take clock r) ?_
    rw [FaultStore.take_of_recorded (by rw [h]; exact Option.some_ne_none x)]
    exact h

/-- The first report is the one recorded. -/
theorem takeAll_cons_of_empty (h : u.record = none) (clock : Option Nat) (r : FaultReport) (rs : List FaultReport) :
    (u.takeAll clock (r :: rs)).record = some { fault := r, clock := clock, uptime := u.uptime } :=
  takeAll_of_recorded (u := u.take clock r) (by rw [FaultStore.take_of_empty h]) clock rs

/-! ### The read of the retained settings (R194) -/

/-- The fault record after the read: a failed check is reported. -/
abbrev FaultStore.afterRead (u : FaultStore) (retained : Option RetainedSet) : FaultStore :=
  if retained = none then u.take none .retainedInvalid else u

section AfterRead
variable {retained : Option RetainedSet}

theorem afterRead_of_valid (h : retained ≠ none) : u.afterRead retained = u := if_neg h

theorem afterRead_of_empty (h : retained = none) (hr : u.record = none) : u.afterRead retained =
    { u with record := some { fault := .retainedInvalid, clock := none, uptime := u.uptime }, count := 1 } :=
  (if_pos h).trans (FaultStore.take_of_empty hr _ _)

theorem afterRead_of_recorded (h : retained = none) (hr : u.record ≠ none) : u.afterRead retained =
    { u with count := min 255 (u.count + 1) } := (if_pos h).trans (FaultStore.take_of_recorded hr _ _)

theorem afterRead_uptime (u : FaultStore) (retained : Option RetainedSet) : (u.afterRead retained).uptime = u.uptime := by
  by_cases h : retained = none
  · by_cases hr : u.record = none
    · rw [afterRead_of_empty h hr]
    · rw [afterRead_of_recorded h hr]
  · rw [afterRead_of_valid h]

theorem afterRead_count (hu : u.legal) (retained : Option RetainedSet) :
    (u.afterRead retained).count = min 255 (u.count + if retained = none then 1 else 0) := by
  by_cases h : retained = none
  · rw [if_pos h, FaultStore.afterRead, if_pos h, take_count hu]
  · rw [if_neg h, afterRead_of_valid h]
    exact (Nat.min_eq_right hu.2.1).symm

theorem afterRead_record_of_some {x : FaultRecord} (h : u.record = some x) (retained : Option RetainedSet) :
    (u.afterRead retained).record = some x := by
  by_cases hret : retained = none
  · rw [afterRead_of_recorded hret (by rw [h]; exact Option.some_ne_none x)]
    exact h
  · rw [afterRead_of_valid hret, h]

theorem afterRead_record_of_empty (h : u.record = none) (retained : Option RetainedSet) :
    (u.afterRead retained).record =
      if retained = none then some { fault := .retainedInvalid, clock := none, uptime := u.uptime } else none := by
  by_cases hret : retained = none
  · rw [afterRead_of_empty hret h, if_pos hret]
  · rw [afterRead_of_valid hret, if_neg hret, h]

end AfterRead

theorem readRetained_eq (s : State) : s.readRetained =
    { s.withSettings (s.retained.getD .defaults) with faults := s.faults.afterRead s.retained } := by
  unfold State.readRetained
  cases h : s.retained with
  | none => rfl
  | some r =>
    simp only [FaultStore.afterRead, reduceCtorEq, if_false, Option.getD_some]
    rfl

/-! ### The end of a hold (R17, R192) -/

theorem exec_restartHoldEnd_of_hold {n : Nat} (h : s.mgmt.hold = some n) (hstore : s.mgmt.store = none) :
    exec .restartHoldEnd s = .next s.restarted.readRetained := if_pos ⟨by rw [h]; rfl, hstore⟩

theorem exec_restartHoldEnd_of_none (h : s.mgmt.hold = none ∨ s.mgmt.store ≠ none) : exec .restartHoldEnd s = .next s := by
  refine if_neg ?_
  rintro ⟨hhold, hstore⟩
  rcases h with h | h
  · rw [h] at hhold
    exact absurd hhold (by decide)
  · exact h hstore

/-- The fault record when a hold has ended: the reports on their way taken, then the read made with an uptime of 0. -/
abbrev State.holdEndFaults (s : State) : FaultStore :=
  FaultStore.afterRead { s.settledFaults with uptime := 0 } s.retained

theorem settledFaults_eq (s : State) :
    s.settledFaults = s.faults.takeAll s.reck.clock.stamp (outstandingFaults s.announced) := rfl

theorem holdEnd_restarted_legal (h : s.faults.legal) : FaultStore.legal { s.settledFaults with uptime := 0 } := by
  obtain ⟨hpresent, hcount, -⟩ := State.settledFaults_legal h
  exact ⟨hpresent, hcount, Nat.zero_le _⟩

/-- With no report on its way, only the read can add one. -/
theorem holdEndFaults_of_no_reports (h : outstandingFaults s.announced = []) :
    (s.retained ≠ none → s.holdEndFaults.record = s.faults.record ∧ s.holdEndFaults.count = s.faults.count) ∧
    (s.retained = none → s.faults.record = none → s.holdEndFaults.count = 1 ∧
      s.holdEndFaults.record = some { fault := .retainedInvalid, clock := none, uptime := 0 }) ∧
    (s.retained = none → s.faults.record ≠ none → s.holdEndFaults.record = s.faults.record ∧
      s.holdEndFaults.count = min 255 (s.faults.count + 1)) := by
  have hsettled : s.settledFaults = s.faults := by rw [settledFaults_eq, h]; rfl
  rw [State.holdEndFaults, hsettled]
  refine ⟨fun hret => ?_, fun hret hr => ?_, fun hret hr => ?_⟩
  · rw [afterRead_of_valid hret]
    exact ⟨rfl, rfl⟩
  · have hread := afterRead_of_empty (u := { s.faults with uptime := 0 }) hret hr
    exact ⟨congrArg FaultStore.count hread, congrArg FaultStore.record hread⟩
  · have hread := afterRead_of_recorded (u := { s.faults with uptime := 0 }) hret hr
    exact ⟨(congrArg FaultStore.record hread :), (congrArg FaultStore.count hread :)⟩

/-- What is counted and recorded, whatever reports are on their way. -/
theorem holdEndFaults_of_legal (h : s.faults.legal) :
    s.holdEndFaults.count = min 255 (s.faults.count + (outstandingFaults s.announced).length +
      (if s.retained = none then 1 else 0)) ∧
    (∀ x, s.faults.record = some x → s.holdEndFaults.record = some x) ∧
    (∀ r rest, s.faults.record = none → outstandingFaults s.announced = r :: rest → s.holdEndFaults.record =
      some { fault := r, clock := s.reck.clock.stamp, uptime := s.faults.uptime }) ∧
    (s.faults.record = none → outstandingFaults s.announced = [] → s.holdEndFaults.record =
      if s.retained = none then some { fault := .retainedInvalid, clock := none, uptime := 0 } else none) := by
  have hsettled := settledFaults_eq s
  refine ⟨?_, fun x hx => ?_, fun r rest hr hreports => ?_, fun hr hreports => ?_⟩
  · rw [State.holdEndFaults, afterRead_count (holdEnd_restarted_legal h)]
    dsimp only
    rw [hsettled, takeAll_count h]
    omega
  · refine afterRead_record_of_some ?_ _
    dsimp only
    rw [hsettled, takeAll_of_recorded hx]
  · refine afterRead_record_of_some ?_ _
    dsimp only
    rw [hsettled, hreports, takeAll_cons_of_empty hr]
  · refine afterRead_record_of_empty ?_ _
    dsimp only
    rw [hsettled, hreports]
    exact hr

/-! ### Start-up (R16, R192) -/

/-- The relay opened and both links in TRAINING. -/
abbrev State.lineOpened (s : State) : State :=
  { s with line := { relay := .opened, end1 := { s.line.end1 with link := .training }
                     end2 := { s.line.end2 with link := .training } } }

/-- The first choices of the engine and of the lines. -/
abbrev State.firstChoices (s : State) : State :=
  { s with
    bus := s.bus.choose s
    notice := (s.notice.settle s).unit
    announced := s.announced ++ [.linkChangeReport .end1 .training, .linkChangeReport .end2 .training] ++
      (s.notice.settle s).said }

theorem exec_startUpComplete_of_unread (hp : s.powered = true) (hc : s.line.relay = .closed)
    (hr : s.retainedRead = false) : exec .startUpComplete s = .next s.readRetained.lineOpened.firstChoices := by
  change execStartUpComplete s = _
  rw [execStartUpComplete, if_pos ⟨hp, hc⟩, hr]
  rfl

theorem exec_startUpComplete_of_read (hp : s.powered = true) (hc : s.line.relay = .closed)
    (hr : s.retainedRead = true) : exec .startUpComplete s = .next s.lineOpened.firstChoices := by
  change execStartUpComplete s = _
  rw [execStartUpComplete, if_pos ⟨hp, hc⟩, hr]
  rfl

theorem exec_startUpComplete_of_started (h : s.powered = false ∨ s.line.relay = .opened) :
    exec .startUpComplete s = .next s := by
  refine if_neg ?_
  rintro ⟨hp, hc⟩
  rcases h with h | h
  · rw [hp] at h
    exact absurd h (by decide)
  · rw [hc] at h
    exact absurd h (by decide)

/-- An empty queue shows the default text. -/
theorem settle_of_empty {v : NoticeUnit} (hq : v.queue = []) (hl : v.lines = .blank) (hmode : s.mgmt.mode = .normal) :
    v.settle s = Did.nothing { v with lines := .default } :=
  settle_of_none_due (by rw [hl]; exact fun _ _ _ => nofun) (by rw [hmode]; rfl) (by rw [hq]; rfl)

theorem firstChoices_of_empty (hq : s.notice.queue = []) (hl : s.notice.lines = .blank) (hmode : s.mgmt.mode = .normal) :
    s.firstChoices.notice = { s.notice with lines := .default } ∧ s.firstChoices.announced =
      s.announced ++ [.linkChangeReport .end1 .training, .linkChangeReport .end2 .training] := by
  have hsettle := settle_of_empty hq hl hmode
  exact ⟨congrArg Did.unit hsettle, by rw [State.firstChoices, hsettle]; exact List.append_nil _⟩

/-- Settles O60. -/
theorem starts : Obligations.Starts := by
  unfold Obligations.Starts
  refine ⟨fun s => rfl, fun s => ?_, fun s => ?_⟩
  · change execPowerLoss s = _
    rw [execPowerLoss]
    cases s.mgmt.store <;> rfl
  · intro settings reports stamped
    have hsettings : s.retained.getD .defaults = settings := by
      simp only [settings]
      cases s.retained <;> rfl
    have hreports : outstandingFaults s.announced = reports := rfl
    refine ⟨fun n hhold hstore => ?_, exec_restartHoldEnd_of_none, exec_startUpComplete_of_started,
      fun hp hc hr => ?_, fun hp hc hr => ?_⟩
    · have hend : s.restarted.readRetained =
          { s.restarted.withSettings settings with faults := s.holdEndFaults } := by
        rw [readRetained_eq, ← hsettings]
        rfl
      refine ⟨_, exec_restartHoldEnd_of_hold hhold hstore, ?_⟩
      rw [hend]
      exact ⟨rfl, afterRead_uptime _ _, holdEndFaults_of_no_reports, holdEndFaults_of_legal⟩
    · have hread : s.readRetained = { s.withSettings settings with faults := s.faults.afterRead s.retained } := by
        rw [readRetained_eq, hsettings]
      refine ⟨_, exec_startUpComplete_of_unread hp hc hr, ?_⟩
      rw [hread]
      refine ⟨rfl, afterRead_of_valid, fun hret hempty => ?_, rfl, rfl, rfl, firstChoices_of_empty⟩
      have htaken := afterRead_of_empty hret hempty
      exact ⟨congrArg FaultStore.count htaken, congrArg FaultStore.record htaken⟩
    · exact ⟨_, exec_startUpComplete_of_read hp hc hr, rfl, rfl, rfl, rfl, firstChoices_of_empty⟩

end Sys2Proof.Machine
end
